-- ==== Sys2Proof/Word.lean ====
section
/-! DEFINITION. The plain data types every other file uses: bytes, words, binary32 patterns, pixels, the kernel store and
the scratch store. No behaviour stands here. -/

namespace Sys2Proof

/-- A `u8` (R7): a colour channel, a luma or chroma sample, a byte of pixel memory. -/
abbrev Byte := BitVec 8

/-- A 32-bit register or command word (R7). -/
abbrev Word := BitVec 32

/-- The 32 bits of an IEEE 754 binary32 value (R7, R156). -/
abbrev F32 := BitVec 32

/-- One RGBA8888 pixel, the tuple `(R, G, B, A)` of R68. -/
structure Pixel where
  r : Byte
  g : Byte
  b : Byte
  a : Byte
  deriving DecidableEq, Repr, Inhabited

/-- The pixel `(0,0,0,0)`, the content of an unwritten scratch pixel (R39). -/
def Pixel.zero : Pixel := ⟨0, 0, 0, 0⟩

/-- The kernel store `K` (R34): a radius and `(2r+1)^2` binary32 weights in row-major order. -/
structure Kernel where
  r : Nat
  w : List F32
  deriving DecidableEq, Repr, Inhabited

/-- One pixel of the scratch store with its written mark, `OUT[y][x]` and `OUT.set[y][x]` (R39). -/
structure OutPixel where
  px  : Pixel
  set : Bool
  deriving DecidableEq, Repr, Inhabited

/-- The scratch output store `OUT` (R39): `W*H` pixels in row-major order. -/
abbrev Scratch := List OutPixel

end Sys2Proof
end

