-- ==== Sys2Proof/Syntax.lean ====
section
/-! DEFINITION. The commands, which play the part of instructions (R2), and the fields of a command word (R90). -/

namespace Sys2Proof

/-- The seven commands of R92, one constructor for each row of spec/opcode_table.json. Every other operand of a command is in
the latched descriptor registers (R90, R91). -/
inductive Instr where
  /-- `GRAY`, OP 1 (R182) -/
  | gray
  /-- `NEG`, OP 2 (R183) -/
  | neg
  /-- `BLUR`, OP 3 (R194) -/
  | blur
  /-- `SHARP`, OP 4 (R196) -/
  | sharp
  /-- `EMBOSS`, OP 5 (R199) -/
  | emboss
  /-- `EDGE`, OP 6 (R203) -/
  | edge
  /-- `YUV2RGBA`, OP 7 (R223), with the vector-path hint `VHINT` (R93) -/
  | yuv2rgba (hint : Bool)
  deriving DecidableEq, Repr

/-- The three fields of the one command format `CMDW` (R90). -/
structure CmdFields where
  /-- bits 3:0, the operation code -/
  op : BitVec 4
  /-- bit 4, the vector-path hint -/
  vhint : Bool
  /-- bits 31:5, reserved -/
  rsv : BitVec 27
  deriving DecidableEq, Repr

/-- The field values that stand for a command (R92, R93). -/
def Instr.fields : Instr → CmdFields
  | .gray => ⟨1, false, 0⟩
  | .neg => ⟨2, false, 0⟩
  | .blur => ⟨3, false, 0⟩
  | .sharp => ⟨4, false, 0⟩
  | .emboss => ⟨5, false, 0⟩
  | .edge => ⟨6, false, 0⟩
  | .yuv2rgba hint => ⟨7, hint, 0⟩

end Sys2Proof
end

