-- ==== Sys2Proof/WellFormed.lean ====
section
/-! DEFINITION. When the fields of a command word are legal (R94): the four ways to be illegal, each as a check of its own. -/

namespace Sys2Proof

/-- `OP = 0` is illegal (R94). -/
def CmdFields.opNotZero (f : CmdFields) : Bool := f.op != 0

/-- `OP >= 8` is illegal (R94). -/
def CmdFields.opBelowEight (f : CmdFields) : Bool := f.op.toNat < 8

/-- Any bit of `RSV` set is illegal (R94). -/
def CmdFields.rsvZero (f : CmdFields) : Bool := f.rsv == 0

/-- `VHINT = 1` is illegal unless `OP = 7` (R93, R94). -/
def CmdFields.hintAllowed (f : CmdFields) : Bool := !f.vhint || f.op == 7

/-- A command word's fields are legal when none of the four illegalities of R94 holds. -/
def CmdFields.wellFormed (f : CmdFields) : Bool :=
  f.opNotZero && f.opBelowEight && f.rsvZero && f.hintAllowed

/-- A command is well formed when the fields that stand for it are legal. -/
def Instr.wellFormed (i : Instr) : Bool := i.fields.wellFormed

end Sys2Proof
end

