-- ==== Sys2Proof/Decode.lean ====
section
/-! DEFINITION. The decoder of R99, total on any 32-bit value, and the encoder of R92. -/

namespace Sys2Proof

/-- Splits a command word into the fields of R90. -/
def fieldsOf (c : Word) : CmdFields :=
  ⟨c.extractLsb' 0 4, c.getLsbD 4, c.extractLsb' 5 27⟩

/-- `decode(c)` of R99; `none` is `Illegal`. -/
def decode (c : Word) : Option Instr :=
  let f := fieldsOf c
  if f.rsv != 0 then none
  else if f.op == 7 then some (.yuv2rgba f.vhint)
  else if f.vhint then none
  else if f.op == 1 then some .gray
  else if f.op == 2 then some .neg
  else if f.op == 3 then some .blur
  else if f.op == 4 then some .sharp
  else if f.op == 5 then some .emboss
  else if f.op == 6 then some .edge
  else none

/-- Puts the fields back in their places: `RSV ++ VHINT ++ OP` (R7, R90). -/
def CmdFields.toWord (f : CmdFields) : Word :=
  f.rsv ++ (BitVec.ofBool f.vhint ++ f.op)

/-- The command word of a command (R92). -/
def encode (i : Instr) : Word := i.fields.toWord

/-- The command read from an opcode-table word. A command word is one 32-bit register value (R90, R96), so bit `k` of the table is
bit `k` of the word and there is no byte order to lay out (R63). -/
def decodeTableWord (_nbits w : Nat) : Option Instr :=
  if w < 2 ^ 32 then decode (BitVec.ofNat 32 w) else none

end Sys2Proof
end

