-- ==== Sys2Proof/Machine/Float.lean ====
section
/-! DEFINITION. IEEE 754 binary32 (R156): the operations the floating-point datapath uses, each computed exactly and rounded
once, to nearest with ties to even. What IEEE 754 defines is the spec's own general knowledge (U16). -/

namespace Sys2Proof.Machine

/-- A binary32 value taken apart: a NaN, a signed infinity, or the number `(-1)^neg * m * 2^e`. -/
inductive FVal where
  | nan
  | inf (neg : Bool)
  | fin (neg : Bool) (m : Nat) (e : Int)
  deriving DecidableEq, Repr

/-- The value of a bit pattern: bit 31 sign, bits 30:23 exponent, bits 22:0 fraction (R95, R156). -/
def unpack (x : F32) : FVal :=
  let neg := x.getLsbD 31
  let ex := (x.extractLsb' 23 8).toNat
  let frac := (x.extractLsb' 0 23).toNat
  if ex = 255 then (if frac = 0 then .inf neg else .nan)
  else if ex = 0 then .fin neg frac (-149)
  else .fin neg (2 ^ 23 + frac) (ex - 150)

/-- The quiet NaN an invalid operation gives. Its payload is never observed (R156, R161). Log 14. -/
def qNaN : F32 := 0x7FC00000#32

/-- A pattern from its sign and its lower 31 bits. -/
def signed (neg : Bool) (mag : Nat) : F32 := BitVec.ofBool neg ++ BitVec.ofNat 31 mag

/-- The infinity of a sign. -/
def infinity (neg : Bool) : F32 := signed neg 0x7F800000

/-- `m / 2^k` rounded to the nearest integer, ties to even. -/
def roundShift (m k : Nat) : Nat :=
  let q := m / 2 ^ k
  let twice := 2 * (m % 2 ^ k)
  if twice > 2 ^ k || (twice == 2 ^ k && q % 2 == 1) then q + 1 else q

/-- The binary32 pattern nearest `(-1)^neg * m * 2^e`, ties to even, with gradual underflow, and overflow to infinity (R156).
`q` is the exponent of the result's last place; the biased exponent and the fraction then add up to the lower 31 bits, and a
carry out of the fraction moves the exponent up by itself. -/
def roundPack (neg : Bool) (m : Nat) (e : Int) : F32 :=
  if m = 0 then signed neg 0
  else
    let q : Int := max (e + m.log2 - 23) (-149)
    let mant := if q ≤ e then m * 2 ^ (e - q).toNat else roundShift m (q - e).toNat
    let mag := (q + 149).toNat * 2 ^ 23 + mant
    if mag ≥ 0x7F800000 then infinity neg else signed neg mag

/-- Flips the sign bit. -/
def fneg (a : F32) : F32 := a ^^^ 0x80000000#32

/-- The sign and magnitude of an exact sum, as an integer in units of `2^e`. -/
def signedMant (neg : Bool) (m : Nat) : Int := if neg then -(m : Int) else m

/-- `fadd(a, b)`, rounded once. A zero sum is `+0`, unless both operands are negative. -/
def fadd (a b : F32) : F32 :=
  match unpack a, unpack b with
  | .nan, _ | _, .nan => qNaN
  | .inf n, .inf n' => if n = n' then infinity n else qNaN
  | .inf n, .fin .. | .fin .., .inf n => infinity n
  | .fin n m e, .fin n' m' e' =>
    let lo := min e e'
    let sum := signedMant n m * 2 ^ (e - lo).toNat + signedMant n' m' * 2 ^ (e' - lo).toNat
    if sum = 0 then signed (n && n') 0 else roundPack (sum < 0) sum.natAbs lo

/-- `fsub(a, b)`, the sum with the sign of `b` flipped. -/
def fsub (a b : F32) : F32 := fadd a (fneg b)

/-- `fmul(a, b)`, rounded once. -/
def fmul (a b : F32) : F32 :=
  match unpack a, unpack b with
  | .nan, _ | _, .nan => qNaN
  | .inf n, .inf n' => infinity (n != n')
  | .inf n, .fin n' m _ | .fin n' m _, .inf n => if m = 0 then qNaN else infinity (n != n')
  | .fin n m e, .fin n' m' e' => roundPack (n != n') (m * m') (e + e')

/-- The quotient `m * 2^50 / m'` with one more bit that tells whether anything was cut off: enough to round once. -/
def stickyQuotient (m m' : Nat) : Nat :=
  2 * (m * 2 ^ 50 / m') + (if m * 2 ^ 50 % m' = 0 then 0 else 1)

/-- `fdiv(a, b)`, rounded once; `0/0` and `inf/inf` are invalid, a finite non-zero value over 0 is an infinity. -/
def fdiv (a b : F32) : F32 :=
  match unpack a, unpack b with
  | .nan, _ | _, .nan => qNaN
  | .inf _, .inf _ => qNaN
  | .inf n, .fin n' _ _ => infinity (n != n')
  | .fin n _ _, .inf n' => signed (n != n') 0
  | .fin n m e, .fin n' m' e' =>
    if m' = 0 then (if m = 0 then qNaN else infinity (n != n'))
    else roundPack (n != n') (stickyQuotient m m') (e - e' - 51)

/-- The integer square root of `n`, rounded down, found bit by bit from bit `k - 1` down to bit 0, starting from `r`. -/
def isqrtFrom (n : Nat) : Nat → Nat → Nat
  | 0, r => r
  | k + 1, r => if (r + 2 ^ k) * (r + 2 ^ k) ≤ n then isqrtFrom n k (r + 2 ^ k) else isqrtFrom n k r

/-- The integer square root of a number below `2^80`. -/
def isqrt (n : Nat) : Nat := isqrtFrom n 40 0

/-- `fsqrt(a)`, rounded once; the root of a negative number is invalid, the root of a zero is that zero. -/
def fsqrt (a : F32) : F32 :=
  match unpack a with
  | .nan => qNaN
  | .inf n => if n then qNaN else a
  | .fin n m e =>
    if m = 0 then a
    else if n then qNaN
    else
      -- an even exponent, and 52 more bits below the point
      let (m2, e2) := if e % 2 = 0 then (m * 2 ^ 52, e - 52) else (m * 2 ^ 53, e - 53)
      let root := isqrt m2
      roundPack false (2 * root + (if root * root = m2 then 0 else 1)) (e2 / 2 - 1)

/-- `i2f(n)` (R159): exact for every integer it is applied to. -/
def i2f (n : Int) : F32 := roundPack (n < 0) n.natAbs 0

/-- Whether a value is finite: neither a NaN nor an infinity. -/
def fIsFinite (a : F32) : Bool :=
  match unpack a with
  | .fin .. => true
  | _ => false

/-- The place of a number in the order of the binary32 numbers: `-0.0` and `+0.0` stand at 0, the finite ones at `-0x7F7FFFFF` to
`0x7F7FFFFF`, the infinities just outside. -/
def fKey (a : F32) : Int := signedMant (a.getLsbD 31) (a.extractLsb' 0 31).toNat

/-- The number at a place. -/
def fOfKey (k : Int) : F32 := signed (k < 0) k.natAbs

/-- The place of the largest finite number. -/
def maxFiniteKey : Int := 0x7F7FFFFF

/-- `a <= b` as numbers; false when one of them is a NaN. -/
def fLe (a b : F32) : Bool := unpack a != .nan && unpack b != .nan && fKey a ≤ fKey b

/-- Whether a value is greater than zero (a NaN is not). -/
def fIsPositive (a : F32) : Bool :=
  match unpack a with
  | .nan => false
  | .inf n => !n
  | .fin n m _ => !n && m != 0

end Sys2Proof.Machine
end

