-- ==== Sys2Proof/Config.lean ====
section
/-! DEFINITION. The configuration record `Cfg` of R6, as plain data, and the free values: opaque constants of which no proof can
see anything. What is computed from the configuration (`WIDE`, `N`, `MemValid`, `fexp`, `Vec*`) stands in
Machine/Operands.lean and Machine/Datapath.lean. -/

namespace Sys2Proof

/-- `CPU_FAMILY` (R6, R110). -/
inductive CpuFamily where
  | arm64
  | arm32
  | other
  deriving DecidableEq, Repr, Inhabited

/-- `BORDER_POLICY` (R207, U1): the two policies the source names, and no third. -/
inductive BorderPolicy where
  | zero
  | source
  deriving DecidableEq, Repr, Inhabited

/-- A range of addresses at which the platform has ordinary memory: `base .. base + size - 1`. -/
structure MemRegion where
  base : Nat
  size : Nat
  deriving DecidableEq, Repr, Inhabited

/-- How far a vector-path channel may lie from the scalar one (R163 V1: at most 1). -/
inductive Deviation where
  | exact
  | oneLess
  | oneMore
  deriving DecidableEq, Repr, Inhabited

/-- The three colour bytes of one tap, the operand of the emboss luma (R200). -/
structure Rgb where
  r : Byte
  g : Byte
  b : Byte
  deriving DecidableEq, Repr, Inhabited

/-- The configuration record (R6). Every field the spec leaves OPEN may hold any value of its type, and every value of the type is one the
spec admits: the bounds of R6 are in the types, the properties of the open functions in how their tables are read. The open functions
are finite tables of the operands at which they differ from the reference (`fexpTable`: the correctly rounded exponential, R158; the
four `vec…` tables: the scalar result, R163), so that a configuration is plain data and can be written down. Log 1, log 2, log 3. -/
structure Cfg where
  /-- `REG_BASE`; no rule depends on it. The spec gives it no width and no bound, and the block is a space of its own (R23): any natural
  number, the model's choice (log 1). -/
  regBase : Nat
  /-- `HAS_QUERY` -/
  hasQuery : Bool
  /-- `CPU_FAMILY` -/
  cpuFamily : CpuFamily
  /-- `NEON_BIT` -/
  neonBit : Bool
  /-- `HW_CONCURRENCY`, 0 to 255 -/
  hwConcurrency : Fin 256
  /-- half the vector width, less one: `VW = 2 * (vwPairs + 1)` is even, 2 to 254 (R31, R6) -/
  vwPairs : Fin 127
  /-- `R_MAX` less one: `R_MAX` is 1 to 255 -/
  rMaxLessOne : Fin 255
  /-- `SCRATCH_PIXELS`; `none` is unbounded, the default -/
  scratchPixels : Option Nat
  /-- `BORDER_POLICY` -/
  borderPolicy : BorderPolicy
  /-- `MemValid`, as the list of the platform's memory regions; the host's `unmap` alone changes it (log 16) -/
  memMap : List MemRegion
  /-- the operands at which `fexp` differs from the reference instance, with its values there; a table that breaks P3 of R158 stands for
  the reference instance (log 2) -/
  fexpTable : List (F32 × F32)
  /-- the operands at which `VecBlur` differs from `ScalBlur` -/
  vecBlur : List ((Kernel × List Byte) × Deviation)
  /-- the operands at which `VecSharp` differs from `ScalSharp` -/
  vecSharp : List (List Byte × Deviation)
  /-- the operands at which `VecEmboss` differs from `ScalEmboss` -/
  vecEmboss : List (List Rgb × Deviation)
  /-- the operands at which `VecEdge` differs from `ScalEdge` -/
  vecEdge : List (List Byte × Deviation)
  deriving DecidableEq, Repr, Inhabited

namespace Config

/-- The configuration of the platform the engine stands in: any one, fixed (R6, R41). `State.reset` holds it. Log 1. -/
opaque platform : Cfg

/-- Free value number `n`, for the byte at address `a`: whether a byte of the write footprint holds its old value after a fatal
fault or a reset that cuts a command (U5, U12; true: the old one). Log 10. -/
opaque freeKeepsOld (n a : Nat) : Bool

/-- Free value number `n`, for the byte at address `a`: what a cut command would have written there, where no rule gives it (R138, R270, U5):
its own reads fault, or its destination overlaps a source plane. Log 10, log 11. -/
opaque freeByte (n a : Nat) : Byte

/-- Free value number `n`: the radius the kernel store holds after a command (R34, U8), before it is brought into `0 .. R_MAX`. Log 9. -/
opaque freeRadius (n : Nat) : Nat

/-- Free value number `n`: weight `i`, in row-major order, of the kernel store where the spec leaves it unspecified (R34, R202, U8). Log 9. -/
opaque freeWeight (n i : Nat) : F32

/-- Free value number `n`: pixel `i`, in row-major order, of the scratch store after a command, and its mark (R39, U8). Log 9. -/
opaque freeOut (n i : Nat) : OutPixel

end Config
end Sys2Proof
end

