-- ==== Sys2Proof/Machine/State.lean ====
section
/-! DEFINITION. The state of CFE as plain data (R21), the reasons a step can stop, and the state right after reset (R43). -/

namespace Sys2Proof.Machine

/-- The read-write registers of the block (R23 to R26), one field a register. -/
structure HostRegs where
  pbBase    : Word
  pbWidth   : Word
  pbHeight  : Word
  pbStride  : Word
  pbFormat  : Word
  radius    : Word
  sigma     : Word
  yBase     : Word
  yStride   : Word
  uBase     : Word
  uRStride  : Word
  uPStride  : Word
  vBase     : Word
  vRStride  : Word
  vPStride  : Word
  deriving DecidableEq, Repr

/-- Every read-write register 0, their value after reset (R43). -/
def HostRegs.zero : HostRegs := ⟨0, 0, 0, 0, 0, 0, 0, 0, 0, 0, 0, 0, 0, 0, 0⟩

/-- The latch `L` (R33): the command word and a copy of every read-write register. -/
structure Latch where
  cmd  : Word
  regs : HostRegs
  deriving DecidableEq, Repr

/-- What `STATUS.ERR` can record (R240). The reserved codes 5 to 14 are never written, so they are no constructors. -/
inductive ErrCode where
  /-- code 0: the last command succeeded, or none has ended -/
  | none
  /-- code 1 (R241) -/
  | unsupportedFormat
  /-- code 2 (R242) -/
  | illegalCommand
  /-- code 3 (R243) -/
  | badDescriptor
  /-- code 4 (R244) -/
  | badParameter
  /-- code 15 (R246) -/
  | fatalConcurrencyFault
  deriving DecidableEq, Repr

/-- The fields of `STATUS` (R28). The host can write none of them, and bits 31:10 read 0. -/
structure Status where
  busy     : Bool
  done     : Bool
  ok       : Bool
  fatal    : Bool
  err      : ErrCode
  path     : Bool
  fallback : Bool
  deriving DecidableEq, Repr

/-- The sequencer phase (R22). -/
inductive Phase where
  | idle
  | validate
  | prepare
  | scalar
  | fork
  | run
  | copyBack
  | halted
  deriving DecidableEq, Repr

/-- A cursor (R22): the next unit, and the next item (pixel or pixel group) inside it. -/
structure Cursor where
  unit : Nat
  item : Nat
  deriving DecidableEq, Repr

/-- A task (R36). -/
structure Task where
  idx   : Nat
  first : Nat
  count : Nat
  tail  : Bool
  deriving DecidableEq, Repr

/-- The state of a worker (R35). -/
inductive Worker where
  | absent
  | waiting
  | running (t : Task) (cur : Cursor)
  | exited
  deriving DecidableEq, Repr

/-- Pixel memory (R60), in canonical form: addresses strictly rising, no entry equal to what an unlisted address reads as. -/
abbrev Memory := List Host.Cell

/-- Who moves next (R20: "no schedule is fixed"): the host, or the agent of CFE with this number among the enabled ones. Log 4. -/
inductive Turn where
  | host
  | cfe (k : Nat)
  deriving DecidableEq, Repr

/-- What the host can do (R280, R97, R98; for memory R60, R70, R281 premise 2). Log 5. -/
inductive HostMove where
  /-- `WR`: write a value to the register at a byte offset from `REG_BASE`; offset 0 is the doorbell (R27) -/
  | wr (off : Nat) (v : Word)
  /-- `RD`: read the register at a byte offset from `REG_BASE` -/
  | rd (off : Nat)
  /-- `WAIT`: read `STATUS` again and again until `BUSY = 0` or `FATAL = 1` (R98) -/
  | wait
  /-- the reset event (R270) -/
  | reset
  /-- a store of one byte to pixel memory -/
  | store (a : Nat) (b : Byte)
  /-- a load of one byte from pixel memory -/
  | load (a : Nat)
  /-- the memory of a region is unmapped or freed and is no memory from then on (R281 premise 2, U7; log 16) -/
  | unmap (gone : MemRegion)
  deriving DecidableEq, Repr

/-- The complete state of CFE (R21), and below it the model's own fields. -/
structure State where
  /-- the read-write registers of the block (R23) -/
  regs    : HostRegs
  /-- the register `STATUS` (R28) -/
  status  : Status
  /-- the latch `L` (R33) -/
  latch   : Latch
  /-- the sequencer phase (R22) -/
  phase   : Phase
  /-- the cursor of `SEQ` (R22) -/
  cursor  : Cursor
  /-- the kernel store `K` (R34) -/
  kernel  : Kernel
  /-- `WORKER[0] .. WORKER[N-1]` (R35); empty when no pool exists: every worker is `ABSENT` -/
  workers : List Worker
  /-- the task queue `Q` (R37), head first -/
  queue   : List Task
  /-- the stop flag (R38) -/
  stop    : Bool
  /-- the scratch output store `OUT` (R39) -/
  out     : Scratch
  /-- pixel memory (R60) -/
  mem     : Memory
  /-- MODEL'S OWN: the configuration (R6); a step changes none of it but the memory map, when the host unmaps memory (log 1, log 16) -/
  cfg     : Cfg
  /-- MODEL'S OWN: the host's pending moves, oldest first (log 5) -/
  hostQ   : List HostMove
  /-- MODEL'S OWN: what the host's last read returned (log 5) -/
  lastRead : Word
  /-- MODEL'S OWN: who moves next, first choice first (log 4) -/
  sched   : List Turn
  /-- MODEL'S OWN: pixel memory as it was when the running command was accepted (log 10) -/
  memAtAccept : Memory
  /-- MODEL'S OWN: how many free values have been drawn (log 9) -/
  freeCount : Nat
  deriving DecidableEq, Repr

/-- Why a step can stop with a fault. -/
inductive Fault where
  /-- Raised by the host's own load or store (`hostMove`) at an address that holds no memory: the spec says what CFE does there
  (R245), and of the host only that it reaches memory "by its own means" (R61). Safe: the model stops where a platform goes on. -/
  | hostNoMemory (a : Nat)
  deriving DecidableEq, Repr

/-- Why a step can have no meaning. -/
inductive Refusal where
  /-- An instruction whose meaning is not written yet, by its mnemonic; raised by no arm of `exec`. Safe. -/
  | notModelled (mnemonic : String)
  /-- Raised by the host's load or store of a byte in the footprint of the running command: launch premise 1 of R281 is broken and
  the model says nothing (U6). Safe. -/
  | exclusiveAccessBroken (a : Nat)
  /-- Raised by the converter's meaning for a launch that passes its checks and whose destination has a byte of a plane sample it reads in
  one of its rows: launch premise 4 of R281 is broken, and R281, U7 and D32 refuse the launch. Safe. -/
  | destinationOverlapsPlanes
  /-- Raised by a command's meaning when the command would end in success and memory of its footprint has disappeared after its last
  access there: launch premise 2 of R281 is broken, and the model says nothing of the launch (R281, D32). Safe. -/
  | footprintDisappeared
  /-- Raised by `step` in a state no run reaches: a phase past `VALIDATE` with a latched word that is no command. Safe. -/
  | noCommandToContinue
  deriving DecidableEq, Repr

/-- `STATUS` after reset (R43): 0. -/
def Status.cleared : Status := ⟨false, false, false, false, .none, false, false⟩

/-- The state right after reset (R43). `L`, `K`, `OUT` and the cursor, for which the spec gives no value, hold the values log 6
names; memory lists nothing (log 7); the configuration is the platform's (log 1). -/
def State.reset : State where
  regs := HostRegs.zero
  status := Status.cleared
  latch := ⟨0, HostRegs.zero⟩
  phase := .idle
  cursor := ⟨0, 0⟩
  kernel := ⟨0, [0]⟩
  workers := []
  queue := []
  stop := false
  out := []
  mem := []
  cfg := Config.platform
  hostQ := []
  lastRead := 0
  sched := []
  memAtAccept := []
  freeCount := 0

end Sys2Proof.Machine
end

