-- ==== Sys2Proof/Machine/Datapath.lean ====
section
/-! DEFINITION. The pixel datapath (41_datapath.md): the fixed-point functions, the exponential, the conversion to 8 bits, the
scalar results of the seven commands and the vector results of the four float-accumulated filters. -/

namespace Sys2Proof.Machine

/-! ### Fixed point (R150 to R155) -/

/-- `asr(v, k)`: the floor of `v / 2^k` (R151). -/
def asr (v : Int) (k : Nat) : Int := v / 2 ^ k

/-- `clamp(v)` (R152). -/
def clamp (v : Int) : Byte := if v < 0 then 0 else if v > 255 then 255 else BitVec.ofNat 8 v.toNat

/-- The luma of `GRAY` (R182). -/
def grayLuma (r g b : Byte) : Byte := clamp (asr (77 * r.toNat + 150 * g.toNat + 29 * b.toNat + 128) 8)

/-- `f` of `GRAY` on one pixel, alpha passed through (R181, R182). -/
def grayPixel (p : Pixel) : Pixel :=
  let y := grayLuma p.r p.g p.b
  ⟨y, y, y, p.a⟩

/-- `f` of `NEG` on one pixel, alpha passed through (R181, R183). -/
def negPixel (p : Pixel) : Pixel := ⟨255 - p.r, 255 - p.g, 255 - p.b, p.a⟩

/-- `ScalYuv` (R225). -/
def scalYuv (yv uv vv : Byte) : Pixel :=
  let c : Int := yv.toNat - 16
  let d : Int := uv.toNat - 128
  let e : Int := vv.toNat - 128
  ⟨clamp (asr (298 * c + 409 * e + 128) 8),
   clamp (asr (298 * c - 100 * d - 208 * e + 128) 8),
   clamp (asr (298 * c + 516 * d + 128) 8),
   255⟩

/-! ### Floating point (R156 to R161) -/

/-- The constants of R157. -/
def PI32 : F32 := 0x40490FDB#32
def K030 : F32 := 0x3E99999A#32
def K059 : F32 := 0x3F170A3D#32
def K011 : F32 := 0x3DE147AE#32
def f0 : F32 := 0x00000000#32
def f1 : F32 := 0x3F800000#32
def f2 : F32 := 0x40000000#32
def f9 : F32 := 0x41100000#32
def f128 : F32 := 0x43000000#32
def fMinus1 : F32 := 0xBF800000#32
def fMinus2 : F32 := 0xC0000000#32

/-- A byte as a binary32 value (R159). -/
def b2f (b : Byte) : F32 := i2f b.toNat

/-- `quant` (R160): clamp to 0 .. 255, then drop the fraction. -/
def quant (v : F32) : Byte :=
  match unpack v with
  | .nan => 0
  | .inf neg => if neg then 0 else 255
  | .fin neg m e =>
    if neg then 0
    else
      let floor := if 0 ≤ e then m * 2 ^ e.toNat else m / 2 ^ (-e).toNat
      if floor ≥ 255 then 255 else BitVec.ofNat 8 floor

/-- The sum of `t + t*x/(k+1) + t*x^2/((k+1)(k+2)) + …` in units of `2^-192`, at most `fuel` terms, until a term is 0. -/
def expSeries (x : Nat) : Nat → Nat → Nat → Nat
  | 0, _, _ => 0
  | fuel + 1, k, t => if t = 0 then 0 else t + expSeries x fuel (k + 1) (t * x / 2 ^ 192 / (k + 1))

/-- The reference instance of `fexp` on a finite operand `(-1)^neg * m * 2^e`, `m > 0`: the binary32 value nearest `e^t` (R158).
The exponential of the magnitude is summed to a relative error below `2^-180`. Below `2^-40` the nearest value is 1, from 104 up
`e^-t` is below half the least subnormal, and from 89 up `e^t` is above the largest finite value. Log 2. -/
def expReference (neg : Bool) (m : Nat) (e : Int) : F32 :=
  if e < -64 then f1
  else if m * 2 ^ (e + 64).toNat ≥ (if neg then 104 else 89) * 2 ^ 64 then (if neg then f0 else infinity false)
  else
    let s := expSeries (m * 2 ^ (e + 192).toNat) 600 0 (2 ^ 192)
    if neg then roundPack false (2 * (2 ^ 200 * 2 ^ 200 * 2 ^ 192 / s) + 1) (-401) else roundPack false (2 * s + 1) (-193)

/-- The pattern of `-0.0`. -/
def fMinus0 : F32 := 0x80000000#32

/-- A value brought into `0 .. 1.0`, which P2 of R158 demands for operands `t <= 0`. `-0.0` is in that range and stays. Log 2. -/
def clampUnit (v : F32) : F32 :=
  if v.toNat ≤ f1.toNat ∨ v = fMinus0 then v else if v.toNat ≤ (infinity false).toNat then f1 else f0

/-- A table of values, and the reference instance of R158 at the operands it does not list. P1, P2, P4 and `fexp(-inf) = +0.0` (R192) hold
for every table. Log 2. -/
def fexpFrom (table : List (F32 × F32)) (t : F32) : F32 :=
  match unpack t with
  | .nan => qNaN
  | .inf neg => if neg then f0 else infinity false
  | .fin neg m e =>
    if m = 0 then f1
    else
      let v := (table.lookup t).getD (expReference neg m e)
      if neg then clampUnit v else v

/-- The value at a finite operand lies between the values at the finite operands next to it. -/
def monotoneAt (f : F32 → F32) (t : F32) : Bool :=
  !fIsFinite t ||
    ((fKey t == -maxFiniteKey || fLe (f (fOfKey (fKey t - 1))) (f t)) &&
      (fKey t == maxFiniteKey || fLe (f t) (f (fOfKey (fKey t + 1)))))

/-- P3 of R158 for a table: it is monotone at every operand it lists. Between operands it does not list stands the reference instance,
which is monotone. -/
def fexpTableOk (table : List (F32 × F32)) : Bool := table.all fun e => monotoneAt (fexpFrom table) e.1

/-- `fexp` (R158): the configuration's table, if it keeps P3; the reference instance otherwise. Log 2. -/
def fexp (c : Cfg) (t : F32) : F32 :=
  fexpFrom (if fexpTableOk c.fexpTable then c.fexpTable else []) t

/-- `acc = +0.0; for every tap in row-major order: acc = fadd(acc, fmul(w, v))` (R194, R196, R199). -/
def weightedSum (w v : List F32) : F32 :=
  (w.zip v).foldl (fun acc p => fadd acc (fmul p.1 p.2)) f0

/-- `ScalBlur(K, win)` on the taps of one channel (R194). -/
def scalBlur (k : Kernel) (win : List Byte) : Byte := quant (weightedSum k.w (win.map b2f))

/-- `ScalSharp(win)` on the taps of one channel, with the weights the store holds (R196). -/
def scalSharp (k : Kernel) (win : List Byte) : Byte := quant (weightedSum k.w (win.map b2f))

/-- The emboss luma of one tap (R200), left to right. -/
def luma (t : Rgb) : F32 :=
  fadd (fadd (fmul K030 (b2f t.r)) (fmul K059 (b2f t.g))) (fmul K011 (b2f t.b))

/-- `ScalEmboss(win3)` (R199). -/
def scalEmboss (k : Kernel) (win3 : List Rgb) : Byte :=
  quant (fadd (weightedSum k.w (win3.map luma)) f128)

/-- Tap `(dy, dx)` of a 3 x 3 window in row-major order, as an integer; `j` is `dy + 1` and `i` is `dx + 1`. -/
def tap3 (t : List Byte) (j i : Nat) : Int := (t.getD (3 * j + i) 0).toNat

/-- `gx` of R201. -/
def sobelX (t : List Byte) : Int :=
  (tap3 t 0 2 + 2 * tap3 t 1 2 + tap3 t 2 2) - (tap3 t 0 0 + 2 * tap3 t 1 0 + tap3 t 2 0)

/-- `gy` of R201. -/
def sobelY (t : List Byte) : Int :=
  (tap3 t 2 0 + 2 * tap3 t 2 1 + tap3 t 2 2) - (tap3 t 0 0 + 2 * tap3 t 0 1 + tap3 t 0 2)

/-- `ScalEdge(t)` on the taps of one channel (R203). -/
def scalEdge (t : List Byte) : Byte :=
  quant (fsqrt (i2f (sobelX t * sobelX t + sobelY t * sobelY t)))

/-! ### The vector path of the float-accumulated filters (R163) -/

/-- A channel moved by at most 1, inside 0 .. 255 (R163 V1). -/
def deviate (d : Deviation) (b : Byte) : Byte :=
  match d with
  | .exact => b
  | .oneLess => if b = 0 then 0 else b - 1
  | .oneMore => if b = 255 then 255 else b + 1

/-- The centre tap of a window of `(2r+1)^2` taps. -/
def centreOf {α : Type} (r : Nat) (win : List α) (z : α) : α := win.getD (2 * r * (r + 1)) z

/-- `VecBlur(K, win)`: V1, and V2 for `K.r = 0` (R163). -/
def vecBlur (c : Cfg) (k : Kernel) (win : List Byte) : Byte :=
  if k.r = 0 then centreOf 0 win 0
  else deviate ((c.vecBlur.lookup (k, win)).getD .exact) (scalBlur k win)

/-- `VecSharp(win)`: V1 (R163). -/
def vecSharp (c : Cfg) (k : Kernel) (win : List Byte) : Byte :=
  deviate ((c.vecSharp.lookup win).getD .exact) (scalSharp k win)

/-- `VecEmboss(win3)`: V1 (R163). -/
def vecEmboss (c : Cfg) (k : Kernel) (win3 : List Rgb) : Byte :=
  deviate ((c.vecEmboss.lookup win3).getD .exact) (scalEmboss k win3)

/-- `VecEdge(win)`: V1, and V3 when the nine taps are equal (R163). -/
def vecEdge (c : Cfg) (t : List Byte) : Byte :=
  if t.all (· == t.headD 0) then 0
  else deviate ((c.vecEdge.lookup t).getD .exact) (scalEdge t)

/-! ### Kernels (R192, R195, R198) -/

/-- The offsets `(dy, dx)` of a window of radius `r`, in row-major order (R197). -/
def windowOffsets (r : Nat) : List (Int × Int) :=
  (List.range (2 * r + 1)).flatMap fun j =>
    (List.range (2 * r + 1)).map fun i => ((j : Int) - r, (i : Int) - r)

/-- The unnormalised weights `w0` of R192. -/
def gaussWeights (c : Cfg) (r : Nat) (sigma : F32) : List F32 :=
  let ss := fmul sigma sigma
  let s2 := fmul f2 ss
  let den := fmul PI32 s2
  (windowOffsets r).map fun d =>
    fdiv (fexp c (fneg (fdiv (i2f (d.2 * d.2 + d.1 * d.1)) s2))) den

/-- `BLUR` kernel generation (R192); `none` is `raise BadParameter`. -/
def gaussKernel (c : Cfg) (r : Nat) (sigma : F32) : Option Kernel :=
  let w0 := gaussWeights c r sigma
  let sum := w0.foldl fadd f0
  if fIsFinite sum && fIsPositive sum then some ⟨r, w0.map fun w => fdiv w sum⟩ else none

/-- The fixed kernel of `SHARP` (R195). -/
def sharpKernel : Kernel :=
  ⟨1, [fMinus1, fMinus1, fMinus1,
       fMinus1, f9,      fMinus1,
       fMinus1, fMinus1, fMinus1]⟩

/-- The fixed kernel of `EMBOSS` (R198), in reading order (R197). -/
def embossKernel : Kernel :=
  ⟨1, [fMinus2, fMinus1, f0,
       fMinus1, f1,      f1,
       f0,      f1,      f2]⟩

end Sys2Proof.Machine
end

