-- ==== Sys2Proof/Machine/Flags.lean ====
section
/-! DEFINITION. `STATUS`: its word (R28), its codes (R240), and every write of it (R29). No command reads it. -/

namespace Sys2Proof.Machine

/-- The code recorded in `STATUS.ERR` (R240). -/
def ErrCode.code : ErrCode → BitVec 4
  | .none => 0
  | .unsupportedFormat => 1
  | .illegalCommand => 2
  | .badDescriptor => 3
  | .badParameter => 4
  | .fatalConcurrencyFault => 15

/-- The register `STATUS` as the host reads it (R28): bits 31:10 read 0. -/
def Status.toWord (f : Status) : Word :=
  0#22 ++ (BitVec.ofBool f.fallback ++ (BitVec.ofBool f.path ++ (f.err.code
    ++ (BitVec.ofBool f.fatal ++ (BitVec.ofBool f.ok ++ (BitVec.ofBool f.done ++ BitVec.ofBool f.busy))))))

/-- What an accepted doorbell writes (R29). `FATAL` keeps its value, which is 0, since a doorbell is ignored while it is 1. -/
def Status.accepted (f : Status) : Status :=
  { f with busy := true, done := false, ok := false, err := .none, path := false, fallback := false }

/-- `STATUS` from an acceptance to the path selection (R29). -/
def Status.running : Status := ⟨true, false, false, false, .none, false, false⟩

/-- What the end of a command by success writes (R29, R135). -/
def Status.succeeded (f : Status) : Status :=
  { f with busy := false, done := true, ok := true, err := .none }

/-- What failing closed writes (R29, R136). -/
def Status.failed (f : Status) (e : ErrCode) : Status :=
  { f with busy := false, done := true, ok := false, err := e }

/-- What a fatal fault writes (R29, R246): `BUSY` and `DONE` keep their values. -/
def Status.fatally (f : Status) : Status :=
  { f with fatal := true, ok := false, err := .fatalConcurrencyFault }

/-- What the path selection writes (R118). -/
def Status.onPath (f : Status) (vector fallback : Bool) : Status :=
  { f with path := vector, fallback := fallback }

end Sys2Proof.Machine
end

