-- ==== Sys2Proof/Machine/Operands.lean ====
section
/-! DEFINITION. How operands are assembled: what the latched registers stand for (R95), the values derived from the
configuration (R110, R133, R31), and effective addresses as exact natural numbers (R65, R68, R72). -/

namespace Sys2Proof.Machine

/-! ### Derived from the configuration -/

/-- `supports_wide_vector()`, the capability `WIDE` (R110). -/
def wide (c : Cfg) : Bool :=
  c.hasQuery && (c.cpuFamily == .arm64 || (c.cpuFamily == .arm32 && c.neonBit))

/-- `N`, the number of worker lanes (R133): the hardware concurrency if it is at least 2, else 4. -/
def nWorkers (c : Cfg) : Nat := if c.hwConcurrency.val ≥ 2 then c.hwConcurrency.val else 4

/-- `VW`, the vector width in pixels (R6, D17): even, 2 to 254. -/
def vectorWidth (c : Cfg) : Nat := 2 * (c.vwPairs.val + 1)

/-- `R_MAX`, the largest radius the kernel store holds (R6): 1 to 255. -/
def rMax (c : Cfg) : Nat := c.rMaxLessOne.val + 1

/-- The constant value of the register `CAP` (R31). -/
def capWord (c : Cfg) : Word :=
  BitVec.ofNat 8 (rMax c) ++ BitVec.ofNat 8 (vectorWidth c) ++ BitVec.ofNat 8 (nWorkers c)
    ++ (0#7 ++ BitVec.ofBool (wide c))

/-- `MemValid(a)`: the platform has ordinary memory at byte address `a` (R6). -/
def memValid (c : Cfg) (a : Nat) : Bool := c.memMap.any fun m => m.base ≤ a && a < m.base + m.size

/-- What is left of a memory region when the addresses of `gone` disappear: the part below and the part above. -/
def regionWithout (gone m : MemRegion) : List MemRegion :=
  [⟨m.base, min (m.base + m.size) gone.base - m.base⟩,
   ⟨max m.base (gone.base + gone.size), m.base + m.size - max m.base (gone.base + gone.size)⟩]

/-- The configuration when the memory at the addresses of `gone` has disappeared (R281 premise 2, U7). Log 16. -/
def unmapMemory (gone : MemRegion) (c : Cfg) : Cfg := { c with memMap := c.memMap.flatMap (regionWithout gone) }

/-- `AW`, the width of a memory address (R6). -/
def addressBits : Nat := 32

/-- An effective address is admissible when it is inside the address space and there is memory at it (R65). -/
def admissible (c : Cfg) (a : Nat) : Bool := a < 2 ^ addressBits && memValid c a

/-! ### Latched registers as numbers (R95) -/

namespace HostRegs

/-- `W` -/
abbrev width (g : HostRegs) : Nat := g.pbWidth.toNat
/-- `H` -/
abbrev height (g : HostRegs) : Nat := g.pbHeight.toNat
/-- `S` -/
abbrev stride (g : HostRegs) : Nat := g.pbStride.toNat
/-- `B` -/
abbrev base (g : HostRegs) : Nat := g.pbBase.toNat
/-- `radius = sext(L.RADIUS)`, a two's-complement `i32` -/
def radiusInt (g : HostRegs) : Int := g.radius.toInt
/-- the radius of a `BLUR` that passed its check, as a natural number -/
def blurRadius (g : HostRegs) : Nat := g.radiusInt.toNat

end HostRegs

/-! ### Effective addresses -/

/-- The address of pixel `(x, y)`: `B + y*S + 4*x` (R68, R71). -/
def pixelAddr (g : HostRegs) (x y : Nat) : Nat := g.base + y * g.stride + 4 * x

/-- The address of luma sample `(x, y)` (R72). -/
def addrY (g : HostRegs) (x y : Nat) : Nat := g.yBase.toNat + y * g.yStride.toNat + x

/-- The address of chroma sample `(cx, cy)` of the U plane (R72). -/
def addrU (g : HostRegs) (cx cy : Nat) : Nat :=
  g.uBase.toNat + cy * g.uRStride.toNat + cx * g.uPStride.toNat

/-- The address of chroma sample `(cx, cy)` of the V plane (R72). -/
def addrV (g : HostRegs) (cx cy : Nat) : Nat :=
  g.vBase.toNat + cy * g.vRStride.toNat + cx * g.vPStride.toNat

/-- Whether address `a` is a byte of some pixel of the PixelBuffer (R71: padding is in no pixel). -/
def inPixels (g : HostRegs) (a : Nat) : Bool :=
  g.base ≤ a && (a - g.base) % g.stride < 4 * g.width && (a - g.base) / g.stride < g.height

/-- Every pixel coordinate `(x, y)` of the image, rows ascending, columns ascending in a row. -/
def pixelCoords (g : HostRegs) : List (Nat × Nat) :=
  (List.range g.height).flatMap fun y => (List.range g.width).map fun x => (x, y)

/-- The addresses of the three plane samples output pixel `(x, y)` is made from (R221). -/
def sampleAddrs (g : HostRegs) (x y : Nat) : List Nat :=
  [addrY g x y, addrU g (x / 2) (y / 2), addrV g (x / 2) (y / 2)]

/-- Whether address `a` is a byte of a plane sample the converter reads. -/
def inPlanes (g : HostRegs) (a : Nat) : Bool :=
  (pixelCoords g).any fun p => (sampleAddrs g p.1 p.2).contains a

/-- Whether address `a` is a byte of some row of the PixelBuffer, padding included: the buffer spans `H*S` bytes (R71). -/
def inRows (g : HostRegs) (a : Nat) : Bool := g.base ≤ a && a < g.base + g.height * g.stride

/-- Whether a row of the converter's destination shares a byte with a plane sample it reads: premise 4 of R281 is broken. -/
def planesOverlap (g : HostRegs) : Bool :=
  (pixelCoords g).any fun p => (sampleAddrs g p.1 p.2).any (inRows g)

/-- The addresses of the footprint that pixel `(x, y)` can account for: its four bytes, and its plane samples. -/
def footprintAddrs (g : HostRegs) (x y : Nat) : List Nat :=
  [pixelAddr g x y, pixelAddr g x y + 1, pixelAddr g x y + 2, pixelAddr g x y + 3] ++ sampleAddrs g x y

end Sys2Proof.Machine
end

