-- ==== Sys2Proof/Machine/Ops.lean ====
section
/-! DEFINITION. The named operations over memory, registers and the engine's state that every command shares, and what an
exception does (R136, R246): the one place where each is written. -/

namespace Sys2Proof.Machine

/-! ### Pixel memory (R60, R66 to R70) -/

namespace Memory

/-- What an address that is not listed reads as. Log 7. -/
def unlisted : Byte := 0

/-- The byte at address `a`. -/
def read : Memory → Nat → Byte
  | [], _ => unlisted
  | (k, b) :: rest, a => if k = a then b else read rest a

/-- Puts byte `b` at address `a`, keeping the canonical form: addresses strictly rising, and no entry equal to `unlisted`. -/
def write : Memory → Nat → Byte → Memory
  | [], a, b => if b = unlisted then [] else [(a, b)]
  | (k, v) :: rest, a, b =>
    if k < a then (k, v) :: write rest a b
    else
      let after := if k = a then rest else (k, v) :: rest
      if b = unlisted then after else (a, b) :: after

/-- The canonical form: every entry differs from `unlisted`, and every address is below the one after it. -/
def wf : Memory → Bool
  | [] => true
  | (k, b) :: rest => b != unlisted && rest.all (fun e => k < e.1) && wf rest

end Memory

/-- The internal event `AccessFault(a)` (R245). -/
structure AccessFault where
  addr : Nat
  deriving DecidableEq, Repr

/-- `MemRead(addr, n)` (R66): the bytes, lowest address first, or the fault at the first inadmissible address. -/
def memRead (c : Cfg) (m : Memory) (addr : Nat) : Nat → Except AccessFault (List Byte)
  | 0 => .ok []
  | n + 1 =>
    if admissible c addr then (memRead c m (addr + 1) n).map (m.read addr :: ·) else .error ⟨addr⟩

/-- `MemWrite(addr, n, v)` (R67): the bytes ascending. The bytes before a faulting one have been written; what the write footprint
holds after a fault is the business of `takeFatalFault`, so the fault carries no memory. -/
def memWrite (c : Cfg) (m : Memory) (addr : Nat) : List Byte → Except AccessFault Memory
  | [] => .ok m
  | b :: rest => if admissible c addr then memWrite c (m.write addr b) (addr + 1) rest else .error ⟨addr⟩

/-- One byte, `MemRead(addr, 1)`. -/
def byteRead (c : Cfg) (m : Memory) (addr : Nat) : Except AccessFault Byte :=
  if admissible c addr then .ok (m.read addr) else .error ⟨addr⟩

/-- The pixel that lies at an address, R at the lowest byte (R62). -/
def Memory.pixelAt (m : Memory) (a : Nat) : Pixel := ⟨m.read a, m.read (a + 1), m.read (a + 2), m.read (a + 3)⟩

/-- `PixRead(B, S, x, y)` (R68). -/
def pixRead (c : Cfg) (g : HostRegs) (m : Memory) (x y : Nat) : Except AccessFault Pixel :=
  match memRead c m (pixelAddr g x y) 4 with
  | .ok [r, gr, b, a] => .ok ⟨r, gr, b, a⟩
  | .ok _ => .error ⟨pixelAddr g x y⟩
  | .error f => .error f

/-- `PixWrite(B, S, x, y, p)` (R69): all four bytes, alpha included. -/
def pixWrite (c : Cfg) (g : HostRegs) (m : Memory) (x y : Nat) (p : Pixel) : Except AccessFault Memory :=
  memWrite c m (pixelAddr g x y) [p.r, p.g, p.b, p.a]

/-! ### The register block (R23, R27, R32, R114) -/

/-- The registers of the block (R23). -/
inductive Reg where
  | cmd | status | cap
  | pbBase | pbWidth | pbHeight | pbStride | pbFormat
  | radius | sigma
  | yBase | yStride | uBase | uRStride | uPStride | vBase | vRStride | vPStride
  deriving DecidableEq, Repr

/-- The register at a byte offset from `REG_BASE` (R23); `none` is a reserved offset (R32). -/
def regAt (off : Nat) : Option Reg :=
  match off with
  | 0x00 => some .cmd
  | 0x04 => some .status
  | 0x08 => some .cap
  | 0x10 => some .pbBase
  | 0x14 => some .pbWidth
  | 0x18 => some .pbHeight
  | 0x1C => some .pbStride
  | 0x20 => some .pbFormat
  | 0x24 => some .radius
  | 0x28 => some .sigma
  | 0x30 => some .yBase
  | 0x34 => some .yStride
  | 0x38 => some .uBase
  | 0x3C => some .uRStride
  | 0x40 => some .uPStride
  | 0x44 => some .vBase
  | 0x48 => some .vRStride
  | 0x4C => some .vPStride
  | _ => none

/-- `x[NAME]`: a read has no side effect; `CMD` reads 0 at all times (R27). -/
def readReg (s : State) : Reg → Word
  | .cmd => 0
  | .status => s.status.toWord
  | .cap => capWord s.cfg
  | .pbBase => s.regs.pbBase
  | .pbWidth => s.regs.pbWidth
  | .pbHeight => s.regs.pbHeight
  | .pbStride => s.regs.pbStride
  | .pbFormat => s.regs.pbFormat
  | .radius => s.regs.radius
  | .sigma => s.regs.sigma
  | .yBase => s.regs.yBase
  | .yStride => s.regs.yStride
  | .uBase => s.regs.uBase
  | .uRStride => s.regs.uRStride
  | .uPStride => s.regs.uPStride
  | .vBase => s.regs.vBase
  | .vRStride => s.regs.vRStride
  | .vPStride => s.regs.vPStride

/-- `RD` at an offset: a reserved offset reads 0 (R32). -/
def readOffset (s : State) (off : Nat) : Word :=
  match regAt off with
  | some r => readReg s r
  | none => 0

/-- The read-write registers after a write of `v` to one register; `CMD`, `STATUS` and `CAP` store nothing (R27, R32). -/
def HostRegs.put (g : HostRegs) (v : Word) : Reg → HostRegs
  | .cmd | .status | .cap => g
  | .pbBase => { g with pbBase := v }
  | .pbWidth => { g with pbWidth := v }
  | .pbHeight => { g with pbHeight := v }
  | .pbStride => { g with pbStride := v }
  | .pbFormat => { g with pbFormat := v }
  | .radius => { g with radius := v }
  | .sigma => { g with sigma := v }
  | .yBase => { g with yBase := v }
  | .yStride => { g with yStride := v }
  | .uBase => { g with uBase := v }
  | .uRStride => { g with uRStride := v }
  | .uPStride => { g with uPStride := v }
  | .vBase => { g with vBase := v }
  | .vRStride => { g with vRStride := v }
  | .vPStride => { g with vPStride := v }

/-- Acceptance of the doorbell value `c` (R112): the latch is filled, `STATUS` written, the phase `VALIDATE`. Acceptance does not
depend on `c`. -/
def acceptCommand (c : Word) (s : State) : State :=
  { s with
    latch := ⟨c, s.regs⟩
    status := s.status.accepted
    phase := .validate
    memAtAccept := s.mem }

/-- `WR` at an offset (R32, R112, R114): ignored while `BUSY` or `FATAL` is 1; a write of `CMD` while the phase is `IDLE` is the
accepted doorbell; a write of a read-only register or a reserved offset is ignored. -/
def writeOffset (off : Nat) (v : Word) (s : State) : State :=
  if s.status.busy || s.status.fatal then s
  else
    match regAt off with
    | none => s
    | some .cmd => if s.phase = .idle then acceptCommand v s else s
    | some r => { s with regs := s.regs.put v r }

/-! ### Private stores of unspecified content (R34, R39, U8; log 9) -/

/-- `(2r+1)^2` weights of which nothing is known. -/
def freeWeights (n r : Nat) : List F32 := (List.range ((2 * r + 1) * (2 * r + 1))).map (Config.freeWeight n)

/-- A kernel store of which only the shape is known (R34): some radius in `0 .. R_MAX`, and its weights. -/
def freeKernel (c : Cfg) (n : Nat) : Kernel :=
  let r := Config.freeRadius n % (rMax c + 1)
  ⟨r, freeWeights n r⟩

/-- A scratch store of which only the shape is known (R39): `W*H` pixels. -/
def freeScratch (g : HostRegs) (n : Nat) : Scratch := (List.range (g.width * g.height)).map (Config.freeOut n)

/-! ### How a command ends (R135, R136, R246, R270) -/

/-- A fail-closed exception (R136, R251): the phase returns to `IDLE` and `STATUS` records the code. Nothing else changes; there is
no handler, no saved register and no return (R251, R252): the next accepted doorbell clears the code. -/
def failClosed (e : ErrCode) (s : State) : State :=
  { s with phase := .idle, status := s.status.failed e }

/-- A latched word that is no command (R94, R242): `VALIDATE` fails closed with `IllegalCommand`. In a later phase, which no run
reaches with such a word, the model has nothing to say. -/
def illegalLatched (s : State) : Host.Outcome State Fault Refusal :=
  if s.phase = .validate then .next (failClosed .illegalCommand s) else .refused .noCommandToContinue

/-- The write-footprint bytes of a command that is cut short: for each address the byte the command would have written there, or a free
value where no rule says what it would have written. -/
abbrev CutBytes := List (Nat × Byte)

/-- Each of these bytes holds its value at acceptance or the listed one, and which of the two is a free value (U5, U12). Log 10. -/
def cutFootprint (s : State) (cut : CutBytes) : Memory :=
  cut.foldl (fun m p =>
    m.write p.1 (if Config.freeKeepsOld s.freeCount p.1 then s.memAtAccept.read p.1 else p.2)) s.mem

/-- The exception an `AccessFault` of any agent is (R138, R246): `HALTED`, `FATAL` set, code 15, `BUSY` and `DONE` kept. Workers stop, queued
tasks are never run, and outside `FORK` and `RUN` there is no pool, no task and no stop flag (R35, R37, R38). Log 12. -/
def takeFatalFault (cut : CutBytes) (s : State) : State :=
  { s with
    phase := .halted
    status := s.status.fatally
    workers := []
    queue := []
    stop := false
    mem := cutFootprint s cut
    freeCount := s.freeCount + 1 }

/-- The reset event (R270): every piece of CFE state takes its reset value (R43), memory is not touched, but for the write footprint
of a command that is cut (U12), whose bytes are `cut`. -/
def resetEvent (cut : CutBytes) (s : State) : State :=
  { State.reset with
    mem := cutFootprint s cut
    freeCount := s.freeCount + 1
    cfg := s.cfg
    hostQ := s.hostQ
    lastRead := s.lastRead
    sched := s.sched }

end Sys2Proof.Machine
end

