-- ==== Sys2Proof/Machine/Engine.lean ====
section
/-! DEFINITION. The life cycle that all seven commands share (40_dispatch.md): validation, path selection, preparation, units and
their partition, the scalar path, the task queue and the workers, the join, the copy-back and the end; one agent's step; and
the run of a command from where it stands until it ends or the host gets a turn. What is done to one unit is the command's own
(`Command`), written in Pointwise.lean, Convolution.lean and Yuv.lean. -/

namespace Sys2Proof.Machine

/-! ### What a command tells the engine -/

/-- The three families of R121. -/
inductive Family where
  | pointwise
  | neighbourhood
  | converter (hint : Bool)
  deriving DecidableEq, Repr

/-- One item of work: one pixel by the scalar rule, or the lanes of one vector group operation (R164). -/
structure Item where
  group : Bool
  lanes : List (Nat × Nat)
  deriving DecidableEq, Repr

/-- How a path cuts a command into work (R121): `units` units of `perUnit` items each, and the `tail` items after the last unit, which
only a pointwise command on the vector path has (R184). -/
structure Plan where
  units : Nat
  perUnit : Nat
  item : Nat → Nat → Item
  tail : Nat
  tailItem : Nat → Item

/-- What one command tells the engine. -/
structure Command where
  family : Family
  /-- the parameter checks of `VALIDATE` (R115 item 4) -/
  paramsOk : Cfg → HostRegs → Bool
  /-- the kernel store after `PREPARE`, from the free-value number and the store before; `none` is `BadParameter` (R123, R192) -/
  kernel : Cfg → HostRegs → Nat → Kernel → Option Kernel
  /-- the units of the scalar (`false`) or vector (`true`) path -/
  plan : Cfg → HostRegs → Bool → Plan
  /-- one item executed: memory and scratch store after it, or the access fault -/
  runItem : Cfg → HostRegs → Kernel → Item → Memory → Scratch → Except AccessFault (Memory × Scratch)
  /-- whether pixel `(x, y)` of the image is in the write footprint (R80) -/
  writes : Cfg → HostRegs → Nat → Nat → Bool
  /-- the pixel a command on the path leaves at `(x, y)` when memory was `m` at acceptance; `none` where it writes none, or where its own
  reads fault -/
  newPixel : Cfg → HostRegs → Bool → Memory → Nat → Nat → Option Pixel
  /-- whether a byte address is in the read or write footprint (R80) -/
  footprint : Cfg → HostRegs → Nat → Bool
  /-- whether the launch breaks the premise on overlap (R281 premise 4) -/
  overlaps : HostRegs → Bool

/-! ### Computing with access faults -/

/-- `f` on every element, first to last, stopping at the first fault. -/
def gather {ε α β : Type} (f : α → Except ε β) : List α → Except ε (List β)
  | [] => .ok []
  | a :: l =>
    match f a with
    | .error e => .error e
    | .ok b =>
      match gather f l with
      | .error e => .error e
      | .ok bs => .ok (b :: bs)

/-- A state taken through every element, first to last, stopping at the first fault. -/
def thread {ε σ α : Type} (f : σ → α → Except ε σ) : σ → List α → Except ε σ
  | s, [] => .ok s
  | s, a :: l =>
    match f s a with
    | .error e => .error e
    | .ok s' => thread f s' l

/-! ### Plans (R121, R165, R180) -/

/-- The pixels of a vector group of row `y` from column `x0` (R164, R165). -/
def rowLanes (vw x0 y : Nat) : List (Nat × Nat) := (List.range vw).map fun j => (x0 + j, y)

/-- The number of row units: `rows`, but none in an image of width 0 (R117, R121). Log 15. -/
def rowUnits (g : HostRegs) (rows : Nat) : Nat := if g.width = 0 then 0 else rows

/-- Rows `yLo .. yLo + rows - 1`, in each the columns `xLo .. xLo + n - 1`: first `groups` full groups, then the remaining columns by
the scalar rule (R165; the scalar path has no groups). -/
def rowPlan (xLo yLo n rows vw groups : Nat) : Plan where
  units := rows
  perUnit := groups + (n - groups * vw)
  item u k :=
    if k < groups then ⟨true, rowLanes vw (xLo + k * vw) (yLo + u)⟩
    else ⟨false, [(xLo + groups * vw + (k - groups), yLo + u)]⟩
  tail := 0
  tailItem _ := ⟨false, []⟩

/-- The full groups of a row of `n` columns (R165): none on the scalar path. -/
def rowGroups (c : Cfg) (vector : Bool) (n : Nat) : Nat := if vector then n / vectorWidth c else 0

/-- The pixel of linear index `p` (R180). -/
def linearPixel (g : HostRegs) (p : Nat) : Nat × Nat := (p % g.width, p / g.width)

/-- The plan of the pointwise filters (R121, R184, R185): single pixels on the scalar path; groups over the linear pixel sequence and
a tail of single pixels on the vector path. -/
def pointwisePlan (c : Cfg) (g : HostRegs) (vector : Bool) : Plan :=
  let p := g.width * g.height
  let vw := vectorWidth c
  if vector then
    { units := p / vw
      perUnit := 1
      item := fun u _ => ⟨true, (List.range vw).map fun j => linearPixel g (u * vw + j)⟩
      tail := p % vw
      tailItem := fun k => ⟨false, [linearPixel g (p / vw * vw + k)]⟩ }
  else
    { units := p
      perUnit := 1
      item := fun u _ => ⟨false, [linearPixel g u]⟩
      tail := 0
      tailItem := fun _ => ⟨false, []⟩ }

/-! ### Tasks and cursors (R36, R119, R120, R127) -/

/-- `task(i)` of R120: `U` units over `n` workers. -/
def taskOf (units n : Nat) (pointwise : Bool) (i : Nat) : Task :=
  let base := units / n
  let extra := units % n
  ⟨i, i * base + min i extra, base + (if i < extra then 1 else 0), i + 1 == n && pointwise⟩

/-- The scalar path's work, seen as one task of all the units (R119). -/
def wholeTask (p : Plan) : Task := ⟨0, 0, p.units, false⟩

/-- Where the cursor of a task starts. Units without items (a row without interior columns) are passed over at once. -/
def startCursor (p : Plan) (t : Task) : Cursor :=
  if p.perUnit = 0 then ⟨t.first + t.count, 0⟩ else ⟨t.first, 0⟩

/-- The item the cursor of a task stands at: units in ascending order, then the tail if the task owns it (R127); `none` at the end. -/
def itemAt (p : Plan) (t : Task) (cur : Cursor) : Option Item :=
  if cur.unit < t.first + t.count then some (p.item cur.unit cur.item)
  else if t.tail && cur.item < p.tail then some (p.tailItem cur.item)
  else none

/-- The cursor after the item it stands at. -/
def advance (p : Plan) (t : Task) (cur : Cursor) : Cursor :=
  if cur.unit < t.first + t.count then
    if cur.item + 1 < p.perUnit then ⟨cur.unit, cur.item + 1⟩ else ⟨cur.unit + 1, 0⟩
  else ⟨cur.unit, cur.item + 1⟩

/-! ### Validation, path, preparation (R115, R116, R118, R123) -/

/-- The descriptor checks of R116, on naturals. Check (a) holds of an image of height 0 whatever its stride, as R117, R24 and D7 say of
empty images: the model's choice between them and the bare check (log 19). -/
def descriptorOk (f : Family) (c : Cfg) (g : HostRegs) : Bool :=
  (g.height == 0 || g.stride ≥ 4 * g.width) && g.base + g.height * g.stride ≤ 2 ^ addressBits
    && (f != .neighbourhood || (match c.scratchPixels with | none => true | some n => g.width * g.height ≤ n))

/-- Checks 2 to 4 of R115, in their order: the code of the first that fails. (Check 1 is the decoder's.) -/
def firstFailure (k : Command) (c : Cfg) (g : HostRegs) : Option ErrCode :=
  if g.pbFormat != 1 then some .unsupportedFormat
  else if !descriptorOk k.family c g then some .badDescriptor
  else if !k.paramsOk c g then some .badParameter
  else none

/-- Whether the latched command fails closed: a check of `VALIDATE` fails (R115), or `PREPARE` refuses the generated kernel (R192). Such a
command reads and writes nothing (R80, R136). -/
def failsClosed (k : Command) (s : State) : Bool :=
  (firstFailure k s.cfg s.latch.regs).isSome || (k.kernel s.cfg s.latch.regs s.freeCount s.kernel).isNone

/-- Path selection (R118): whether the path is the vector path, and whether the hint could not be honoured. -/
def selectPath (f : Family) (c : Cfg) : Bool × Bool :=
  match f with
  | .converter hint => (hint && wide c, hint && !wide c)
  | _ => (wide c, false)

/-- `OUT` as `PREPARE` leaves it (R39): every pixel `(0,0,0,0)`, no mark set. -/
def blankScratch (g : HostRegs) : Scratch := List.replicate (g.width * g.height) ⟨Pixel.zero, false⟩

/-- Phase `PREPARE` (R113, R118, R123): the path, then for the neighbourhood filters the kernel store and `OUT`. -/
def prepare (k : Command) (s : State) : State :=
  let g := s.latch.regs
  let path := selectPath k.family s.cfg
  let s1 := { s with status := s.status.onPath path.1 path.2 }
  match k.kernel s.cfg g s.freeCount s.kernel with
  | none => failClosed .badParameter s1
  | some kern =>
    { s1 with
      kernel := kern
      out := if k.family = .neighbourhood then blankScratch g else s.out
      freeCount := s.freeCount + 1
      phase := if path.1 then .fork else .scalar
      cursor := if path.1 then ⟨0, 0⟩ else startCursor (k.plan s.cfg g false) (wholeTask (k.plan s.cfg g false)) }

/-! ### How the compute phases end (R113, R135, R206) -/

/-- Success (R135): `IDLE`, `STATUS` written. What the private stores a neighbourhood filter used hold from now on is unspecified (R34, R39,
U8): free values in the stores' shape. The model's choice: `GRAY`, `NEG` and `YUV2RGBA`, which use neither store, leave both as they were,
although R34 and U8 call their content unspecified after any command (log 9). -/
def endSuccess (k : Command) (s : State) : State :=
  { s with
    phase := .idle
    status := s.status.succeeded
    kernel := if k.family = .neighbourhood then freeKernel s.cfg s.freeCount else s.kernel
    out := if k.family = .neighbourhood then freeScratch s.latch.regs s.freeCount else s.out
    freeCount := s.freeCount + 1 }

/-- After every unit has been executed (R113): the copy-back for the neighbourhood filters, success for the others. -/
def afterCompute (k : Command) (s : State) : State :=
  if k.family = .neighbourhood then { s with phase := .copyBack, cursor := ⟨0, 0⟩ } else endSuccess k s

/-! ### The fatal fault (R138) -/

/-- The four bytes of a pixel at its address, those of them at which there is memory. -/
def pixelBytes (c : Cfg) (g : HostRegs) (x y : Nat) (p : Pixel) : CutBytes :=
  let a := pixelAddr g x y
  [(a, p.r), (a + 1, p.g), (a + 2, p.b), (a + 3, p.a)].filter fun e => admissible c e.1

/-- The pixel whose bytes are the free values of their addresses. -/
def freePixel (n a : Nat) : Pixel :=
  ⟨Config.freeByte n a, Config.freeByte n (a + 1), Config.freeByte n (a + 2), Config.freeByte n (a + 3)⟩

/-- What the cut command would have written at `(x, y)`: free bytes where no rule says it, because its own reads fault there (log 10) or its
destination overlaps a source plane (log 11). -/
def cutPixel (k : Command) (s : State) (x y : Nat) : Pixel :=
  let unknown := freePixel s.freeCount (pixelAddr s.latch.regs x y)
  if k.overlaps s.latch.regs then unknown
  else (k.newPixel s.cfg s.latch.regs (selectPath k.family s.cfg).1 s.memAtAccept x y).getD unknown

/-- The write footprint of the running command with the bytes it would have written (R80, U5): empty for a command that fails closed. -/
def cutBytes (k : Command) (s : State) : CutBytes :=
  let g := s.latch.regs
  if failsClosed k s then []
  else
    (pixelCoords g).flatMap fun p =>
      if k.writes s.cfg g p.1 p.2 then pixelBytes s.cfg g p.1 p.2 (cutPixel k s p.1 p.2) else []

/-- One item, executed on the stores: `fin` says what else the step does; an access fault is the fatal fault instead. -/
def runOn (k : Command) (it : Item) (fin : State → State) (s : State) : State :=
  match k.runItem s.cfg s.latch.regs s.kernel it s.mem s.out with
  | .ok (m, o) => fin { s with mem := m, out := o }
  | .error _ => takeFatalFault (cutBytes k s) s

/-! ### The steps of `SEQ` -/

/-- Phase `SCALAR` (R119): the next item, or what follows the last one. -/
def scalarStep (k : Command) (s : State) : State :=
  let p := k.plan s.cfg s.latch.regs false
  let t := wholeTask p
  match itemAt p t s.cursor with
  | some it => runOn k it (fun s' => { s' with cursor := advance p t s.cursor }) s
  | none => afterCompute k s

/-- Phase `FORK`: construct the pool (R124), then enqueue the `N` tasks one a step (R125), then set `stop` (R128). The unit of
`SEQ`'s cursor counts the tasks enqueued. -/
def forkStep (k : Command) (s : State) : State :=
  let n := nWorkers s.cfg
  if s.workers = [] then { s with workers := List.replicate n .waiting }
  else if s.cursor.unit < n then
    let t := taskOf (k.plan s.cfg s.latch.regs true).units n (k.family == .pointwise) s.cursor.unit
    { s with queue := s.queue ++ [t], cursor := ⟨s.cursor.unit + 1, 0⟩ }
  else { s with stop := true, phase := .run }

/-- Whether every worker has left its loop (R129). -/
def allExited (s : State) : Bool := s.workers.all (· == .exited)

/-- Phase `RUN` (R129): the join, once every worker is `EXITED`. -/
def joinStep (k : Command) (s : State) : State :=
  afterCompute k { s with workers := [], stop := false }

/-- Phase `COPYBACK` (R206): the next pixel, or success after the last. -/
def copyBackStep (k : Command) (s : State) : State :=
  let g := s.latch.regs
  let x := s.cursor.item
  let y := s.cursor.unit
  if g.width = 0 ∨ g.height ≤ y then endSuccess k s
  else
    let s' := { s with cursor := if x + 1 < g.width then ⟨y, x + 1⟩ else ⟨y + 1, 0⟩ }
    let o := s.out.getD (y * g.width + x) ⟨Pixel.zero, false⟩
    if s.cfg.borderPolicy = .zero ∨ o.set = true then
      match pixWrite s.cfg g s.mem x y o.px with
      | .ok m => { s' with mem := m }
      | .error _ => takeFatalFault (cutBytes k s) s
    else s'

/-- One step of `SEQ` (R113). -/
def seqStep (k : Command) (s : State) : State :=
  match s.phase with
  | .validate =>
    match firstFailure k s.cfg s.latch.regs with
    | some e => failClosed e s
    | none => { s with phase := .prepare }
  | .prepare => prepare k s
  | .scalar => scalarStep k s
  | .fork => forkStep k s
  | .run => joinStep k s
  | .copyBack => copyBackStep k s
  | .idle | .halted => s

/-! ### The steps of a worker (R126) -/

/-- One step of `WORKER[i]`. -/
def workerStep (k : Command) (i : Nat) (s : State) : State :=
  let p := k.plan s.cfg s.latch.regs true
  match s.workers.getD i .absent with
  | .waiting =>
    match s.queue with
    | t :: rest => { s with queue := rest, workers := s.workers.set i (.running t (startCursor p t)) }
    | [] => if s.stop then { s with workers := s.workers.set i .exited } else s
  | .running t cur =>
    match itemAt p t cur with
    | some it => runOn k it (fun s' => { s' with workers := s.workers.set i (.running t (advance p t cur)) }) s
    | none => { s with workers := s.workers.set i .waiting }
  | .absent | .exited => s

/-! ### Who has a step, and the run of a command -/

/-- An agent of CFE (R20). -/
inductive Agent where
  | seq
  | worker (i : Nat)
  deriving DecidableEq, Repr

/-- Whether a command is running: some phase but `IDLE` and `HALTED`. -/
def Phase.active : Phase → Bool
  | .idle | .halted => false
  | _ => true

/-- Whether `SEQ` has a step: not in `RUN` until every worker is `EXITED` (R129), never in `IDLE` or `HALTED`. -/
def seqEnabled (s : State) : Bool :=
  match s.phase with
  | .idle | .halted => false
  | .run => allExited s
  | _ => true

/-- Whether a worker in this state has a step (R126): none once the engine is `HALTED` (R246). -/
def workerEnabled (s : State) : Worker → Bool
  | .waiting => s.phase.active && (!s.queue.isEmpty || s.stop)
  | .running .. => s.phase.active
  | .absent | .exited => false

/-- The agents of CFE that have a step, `SEQ` first. -/
def enabledAgents (s : State) : List Agent :=
  (if seqEnabled s then [Agent.seq] else []) ++
    ((List.range s.workers.length).filter fun i => workerEnabled s (s.workers.getD i .absent)).map Agent.worker

/-- One step of one agent. -/
def agentStep (k : Command) (a : Agent) (s : State) : State :=
  match a with
  | .seq => seqStep k s
  | .worker i => workerStep k i s

/-- The number of the enabled agent the schedule picks, and the rest of the schedule; 0 when the schedule is used up. -/
def nextTurn : List Turn → Nat × List Turn
  | .cfe n :: rest => (n, rest)
  | .host :: rest => (0, rest)
  | [] => (0, [])

/-- The step of the enabled agent the schedule picks. With no agent enabled (R284: a deadlock, which no run reaches) nothing moves. -/
def engineStep (k : Command) (s : State) : State :=
  let turn := nextTurn s.sched
  let agents := enabledAgents s
  match agents[turn.1 % agents.length]? with
  | some a => agentStep k a { s with sched := turn.2 }
  | none => { s with sched := turn.2 }

/-- Whether the host moves next. -/
def hostTurnNext (s : State) : Bool := s.sched.head? == some .host

/-- At most so many steps of the engine, until the command has ended or the host's turn comes. -/
def runSteps (k : Command) : Nat → State → State
  | 0, s => s
  | n + 1, s => if s.phase.active && !hostTurnNext s then runSteps k n (engineStep k s) else s

/-- More steps than a command over `W*H` pixels and `N` workers can take: validation, preparation, at most one item a pixel, four
steps of each worker, the construction, the enqueues, the stop, the join, and the copy-back of each pixel. -/
def stepBound (s : State) : Nat :=
  2 * (s.latch.regs.width * s.latch.regs.height) + 5 * nWorkers s.cfg + 10

/-- The latched command, run from where it stands until it ends (`IDLE`), halts, or the host's turn comes. -/
def runCommand (k : Command) (s : State) : State := runSteps k (stepBound s) s

/-! ### What a command answers -/

/-- Whether every byte of the command's footprint is in memory (R281 premises 2 and 3). -/
def footprintMapped (k : Command) (c : Cfg) (g : HostRegs) : Bool :=
  (pixelCoords g).all fun p => (footprintAddrs g p.1 p.2).all fun a => admissible c a || !k.footprint c g a

/-- A run that ends in success although a byte of the footprint is no memory any more. A command accesses every byte of its footprint, so
this memory disappeared after its last access: premise 2 of R281 is broken, and no access is left to fault on (U7). -/
def endsUnmapped (k : Command) (s t : State) : Bool :=
  s.phase.active && t.phase == .idle && t.status.ok && !footprintMapped k s.cfg s.latch.regs

/-- The meaning of every command: its run, unless the launch breaks a premise of R281 of which no result is specified (U7, D32). -/
def commandOutcome (k : Command) (s : State) : Host.Outcome State Fault Refusal :=
  if k.overlaps s.latch.regs && !failsClosed k s then .refused .destinationOverlapsPlanes
  else if endsUnmapped k s (runCommand k s) then .refused .footprintDisappeared
  else .next (runCommand k s)

end Sys2Proof.Machine
end

