-- ==== Sys2Proof/Machine/Convolution.lean ====
section
/-! DEFINITION. The neighbourhood filters `BLUR`, `SHARP`, `EMBOSS` and `EDGE` (43_convolution.md). -/

namespace Sys2Proof.Machine

/-- Whether pixel `(x, y)` is interior for radius `r` (R190). -/
def interior (g : HostRegs) (r x y : Nat) : Bool :=
  r ≤ x && x + r < g.width && r ≤ y && y + r < g.height

/-- The coordinates of the taps of the window of `(x, y)`, in row-major order (R197, R204). -/
def windowCoords (r x y : Nat) : List (Nat × Nat) :=
  (List.range (2 * r + 1)).flatMap fun j => (List.range (2 * r + 1)).map fun i => (x + i - r, y + j - r)

/-- The window of an interior pixel (R204): every tap read, in row-major order. -/
def readWindow (c : Cfg) (g : HostRegs) (m : Memory) (r x y : Nat) : Except AccessFault (List Pixel) :=
  gather (fun p => pixRead c g m p.1 p.2) (windowCoords r x y)

/-- The interior pixel made from its window (R191, R205, R208): the filter's `R', G', B'` and the alpha of the centre tap. -/
def interiorPixel (r : Nat) (rgb : List Pixel → Rgb) (win : List Pixel) : Pixel :=
  let v := rgb win
  ⟨v.r, v.g, v.b, (centreOf r win Pixel.zero).a⟩

/-- One filter of this family: its radius, its kernel (R192, R195, R198, R202), and its result on a window by the scalar rule
(`false`) or in a vector group (`true`). -/
structure Filter where
  radius : HostRegs → Nat
  paramsOk : Cfg → HostRegs → Bool
  kernel : Cfg → HostRegs → Nat → Option Kernel
  rgb : Cfg → Kernel → Bool → List Pixel → Rgb

/-- A per-channel function applied to the three colour channels of a window (R208). -/
def perChannel (f : List Byte → Byte) (win : List Pixel) : Rgb :=
  ⟨f (win.map Pixel.r), f (win.map Pixel.g), f (win.map Pixel.b)⟩

/-- The three colour bytes of a tap. -/
def Pixel.rgb (p : Pixel) : Rgb := ⟨p.r, p.g, p.b⟩

/-- `OUT[y][x] <- p; OUT.set[y][x] <- true` (R191). -/
def scratchWrite (g : HostRegs) (o : Scratch) (x y : Nat) (p : Pixel) : Scratch :=
  o.set (y * g.width + x) ⟨p, true⟩

/-- The interior columns of a row: `W - 2r`, none if `W <= 2r` (R121). -/
def interiorWidth (g : HostRegs) (r : Nat) : Nat := g.width - 2 * r

/-- `pixel(x, y)` of R191: the window read, its result written to `OUT`. -/
def computePixel (c : Cfg) (g : HostRegs) (m : Memory) (r : Nat) (result : List Pixel → Pixel) (o : Scratch) (p : Nat × Nat) :
    Except AccessFault Scratch :=
  match readWindow c g m r p.1 p.2 with
  | .error e => .error e
  | .ok win => .ok (scratchWrite g o p.1 p.2 (result win))

/-- One item (R191, R205): the window of each lane read and its result written to `OUT`. Memory is not written (R206). -/
def runWindow (f : Filter) (c : Cfg) (g : HostRegs) (k : Kernel) (it : Item) (m : Memory) (o : Scratch) :
    Except AccessFault Scratch :=
  thread (computePixel c g m (f.radius g) (interiorPixel (f.radius g) (f.rgb c k it.group))) o it.lanes

/-- Whether interior column `x` lies in a full vector group (R165, R205). -/
def inGroup (c : Cfg) (g : HostRegs) (r : Nat) (vector : Bool) (x : Nat) : Bool :=
  x - r < rowGroups c vector (interiorWidth g r) * vectorWidth c

/-- What the filter leaves at `(x, y)` (R191, R205, R207). -/
def filterPixel (f : Filter) (c : Cfg) (g : HostRegs) (k : Kernel) (vector : Bool) (m : Memory) (x y : Nat) : Option Pixel :=
  let r := f.radius g
  if interior g r x y then
    match readWindow c g m r x y with
    | .ok win => some (interiorPixel r (f.rgb c k (inGroup c g r vector x)) win)
    | .error _ => none
  else if c.borderPolicy = .zero then some Pixel.zero
  else none

/-- The command of a filter. -/
def filterCommand (f : Filter) : Command where
  family := .neighbourhood
  paramsOk := f.paramsOk
  kernel c g n _ := f.kernel c g n
  plan c g vector :=
    let r := f.radius g
    let n := interiorWidth g r
    rowPlan r r n (rowUnits g (g.height - 2 * r)) (vectorWidth c) (rowGroups c vector n)
  runItem c g k it m o := (runWindow f c g k it m o).map fun o' => (m, o')
  writes c g x y := c.borderPolicy == .zero || interior g (f.radius g) x y
  newPixel c g vector m x y :=
    match f.kernel c g 0 with
    | some k => filterPixel f c g k vector m x y
    | none => none
  footprint c g a :=
    inPixels g a &&
      (c.borderPolicy == .zero || (2 * f.radius g < g.width && 2 * f.radius g < g.height))
  overlaps _ := false

/-- The parameter checks of `BLUR` (R193). -/
def blurParamsOk (c : Cfg) (g : HostRegs) : Bool :=
  0 ≤ g.radiusInt && g.radiusInt ≤ rMax c && fIsFinite g.sigma && fIsPositive g.sigma

/-- `BLUR` (R192 to R194). -/
def blurFilter : Filter where
  radius := HostRegs.blurRadius
  paramsOk := blurParamsOk
  kernel c g _ := gaussKernel c g.blurRadius g.sigma
  rgb c k group := perChannel (if group then vecBlur c k else scalBlur k)

/-- `SHARP` (R195, R196). -/
def sharpFilter : Filter where
  radius _ := 1
  paramsOk _ _ := true
  kernel _ _ _ := some sharpKernel
  rgb c k group := perChannel (if group then vecSharp c k else scalSharp k)

/-- `EMBOSS` (R198 to R200): one value, written to the three channels. -/
def embossFilter : Filter where
  radius _ := 1
  paramsOk _ _ := true
  kernel _ _ _ := some embossKernel
  rgb c k group win :=
    let e := (if group then vecEmboss c k else scalEmboss k) (win.map Pixel.rgb)
    ⟨e, e, e⟩

/-- `EDGE` (R201 to R203, R210): the weights the store holds are unspecified, a free value (R202; log 9), nine of them. -/
def edgeFilter : Filter where
  radius _ := 1
  paramsOk _ _ := true
  kernel _ _ n := some ⟨1, freeWeights n 1⟩
  rgb c _ group := perChannel (if group then vecEdge c else scalEdge)

/-- What `BLUR` tells the engine. -/
def blurCommand : Command := filterCommand blurFilter
/-- What `SHARP` tells the engine. -/
def sharpCommand : Command := filterCommand sharpFilter
/-- What `EMBOSS` tells the engine. -/
def embossCommand : Command := filterCommand embossFilter
/-- What `EDGE` tells the engine. -/
def edgeCommand : Command := filterCommand edgeFilter

/-- `BLUR` (R194). -/
def execBlur (s : State) : Host.Outcome State Fault Refusal := commandOutcome blurCommand s

/-- `SHARP` (R196). -/
def execSharp (s : State) : Host.Outcome State Fault Refusal := commandOutcome sharpCommand s

/-- `EMBOSS` (R199). -/
def execEmboss (s : State) : Host.Outcome State Fault Refusal := commandOutcome embossCommand s

/-- `EDGE` (R203). -/
def execEdge (s : State) : Host.Outcome State Fault Refusal := commandOutcome edgeCommand s

end Sys2Proof.Machine
end

