-- ==== Sys2Proof/Machine/Pointwise.lean ====
section
/-! DEFINITION. The pointwise filters `GRAY` and `NEG` (42_pointwise.md). -/

namespace Sys2Proof.Machine

/-- `pixel(p)` of R181 on the pixels of one item: every lane read in ascending order, then `f` of each written in ascending
order (R164, R185). -/
def runPointwise (f : Pixel → Pixel) (c : Cfg) (g : HostRegs) (it : Item) (m : Memory) : Except AccessFault Memory :=
  match gather (fun p => pixRead c g m p.1 p.2) it.lanes with
  | .error e => .error e
  | .ok pixels => thread (fun m e => pixWrite c g m e.1.1 e.1.2 (f e.2)) m (it.lanes.zip pixels)

/-- The command whose per-pixel function is `f` (R181). No preparation, no scratch store (R123, R39). -/
def pointwiseCommand (f : Pixel → Pixel) : Command where
  family := .pointwise
  paramsOk _ _ := true
  kernel _ _ _ k := some k
  plan := pointwisePlan
  runItem c g _ it m o := (runPointwise f c g it m).map fun m' => (m', o)
  writes _ _ _ _ := true
  newPixel c g _ m x y :=
    match pixRead c g m x y with
    | .ok p => some (f p)
    | .error _ => none
  footprint _ g a := inPixels g a
  overlaps _ := false

/-- What `GRAY` tells the engine (R182). -/
def grayCommand : Command := pointwiseCommand grayPixel

/-- What `NEG` tells the engine (R183). -/
def negCommand : Command := pointwiseCommand negPixel

/-- `GRAY` (R182). -/
def execGray (s : State) : Host.Outcome State Fault Refusal := commandOutcome grayCommand s

/-- `NEG` (R183). -/
def execNeg (s : State) : Host.Outcome State Fault Refusal := commandOutcome negCommand s

end Sys2Proof.Machine
end

