-- ==== Sys2Proof/Machine/Yuv.lean ====
section
/-! DEFINITION. The colorspace converter `YUV2RGBA` (44_yuv.md). -/

namespace Sys2Proof.Machine

/-- The luma and chroma samples output pixel `(x, y)` is made from, and the pixel (R221, R224, R225). -/
def convertPixel (c : Cfg) (g : HostRegs) (m : Memory) (x y : Nat) : Except AccessFault Pixel :=
  match byteRead c m (addrY g x y) with
  | .error e => .error e
  | .ok yv =>
    match byteRead c m (addrU g (x / 2) (y / 2)) with
    | .error e => .error e
    | .ok uv =>
      match byteRead c m (addrV g (x / 2) (y / 2)) with
      | .error e => .error e
      | .ok vv => .ok (scalYuv yv uv vv)

/-- The chroma coordinates of the lanes of an item: one for each pair of lanes (R226); a single pixel has its own (R224). -/
def chromaCoords : List (Nat × Nat) → List (Nat × Nat)
  | [] => []
  | [p] => [(p.1 / 2, p.2 / 2)]
  | p :: _ :: rest => (p.1 / 2, p.2 / 2) :: chromaCoords rest

/-- The writes of one item, lane `j` from `Yv[j]`, `Uc[j div 2]` and `Vc[j div 2]` (R226). -/
def convertedLanes (lanes : List (Nat × Nat)) (ys us vs : List Byte) : List ((Nat × Nat) × Pixel) :=
  lanes.mapIdx fun j p => (p, scalYuv (ys.getD j 0) (us.getD (j / 2) 0) (vs.getD (j / 2) 0))

/-- One item (R224, R226): the luma bytes of every lane, then the U bytes, then the V bytes, then the writes. -/
def runConvert (c : Cfg) (g : HostRegs) (it : Item) (m : Memory) : Except AccessFault Memory :=
  match gather (fun p => byteRead c m (addrY g p.1 p.2)) it.lanes with
  | .error e => .error e
  | .ok ys =>
    match gather (fun p => byteRead c m (addrU g p.1 p.2)) (chromaCoords it.lanes) with
    | .error e => .error e
    | .ok us =>
      match gather (fun p => byteRead c m (addrV g p.1 p.2)) (chromaCoords it.lanes) with
      | .error e => .error e
      | .ok vs => thread (fun m e => pixWrite c g m e.1.1 e.1.2 e.2) m (convertedLanes it.lanes ys us vs)

/-- What `YUV2RGBA` tells the engine (R223). -/
def yuvCommand (hint : Bool) : Command where
  family := .converter hint
  paramsOk _ _ := true
  kernel _ _ _ k := some k
  plan c g vector := rowPlan 0 0 g.width (rowUnits g g.height) (vectorWidth c) (rowGroups c vector g.width)
  runItem c g _ it m o := (runConvert c g it m).map fun m' => (m', o)
  writes _ _ _ _ := true
  newPixel c g _ m x y :=
    match convertPixel c g m x y with
    | .ok p => some p
    | .error _ => none
  footprint _ g a := inPixels g a || inPlanes g a
  overlaps := planesOverlap

/-- `YUV2RGBA`, and `YUV2RGBA.V` with the hint (R223). -/
def execYuv2rgba (hint : Bool) (s : State) : Host.Outcome State Fault Refusal := commandOutcome (yuvCommand hint) s

end Sys2Proof.Machine
end

