-- ==== Sys2Proof/Machine/HostPort.lean ====
section
/-! DEFINITION. The host's side: its moves, one a step (R280), and the statements of host programs (R97, R98). -/

namespace Sys2Proof.Machine

/-- What each command tells the engine. -/
def commandOf : Instr → Command
  | .gray => grayCommand
  | .neg => negCommand
  | .blur => blurCommand
  | .sharp => sharpCommand
  | .emboss => embossCommand
  | .edge => edgeCommand
  | .yuv2rgba hint => yuvCommand hint

/-- Whether address `a` is in the footprint of the running command (R80): a command that fails closed, on its word, its checks or its
kernel, has none. The model's choice: in `HALTED` no command is running, so the host may access the footprint of the command that went
fatal, although that command never ends (R246, R284) and R280 has no row for it (log 13). -/
def inRunningFootprint (s : State) (a : Nat) : Bool :=
  s.phase.active &&
    match decode s.latch.cmd with
    | some i =>
      (commandOf i).footprint s.cfg s.latch.regs a && !failsClosed (commandOf i) s
    | none => false

/-- The footprint bytes a reset cuts (R270): none unless a command is running. -/
def runningCut (s : State) : CutBytes :=
  if s.phase.active then
    match decode s.latch.cmd with
    | some i => cutBytes (commandOf i) s
    | none => []
  else []

/-- The host's own access to a byte of pixel memory (R60, R70): refused in the footprint of a running command (R281 premise 1, U6),
a fault where there is no memory. -/
def hostAccess (a : Nat) (f : State → State) (s : State) : Host.Outcome State Fault Refusal :=
  if inRunningFootprint s a then .refused (.exclusiveAccessBroken a)
  else if admissible s.cfg a then .next (f s)
  else .fault (.hostNoMemory a)

/-- The oldest pending move of the host; without one nothing happens. -/
def hostMove (s : State) : Host.Outcome State Fault Refusal :=
  match s.hostQ with
  | [] => .next s
  | move :: rest =>
    let s1 := { s with hostQ := rest }
    match move with
    | .wr off v => .next (writeOffset off v s1)
    | .rd off => .next { s1 with lastRead := readOffset s1 off }
    | .wait =>
      -- one read of STATUS; the statement is over when it shows BUSY = 0 or FATAL = 1 (R98)
      if !s.status.busy || s.status.fatal then .next { s1 with lastRead := s.status.toWord }
      else .next { s with lastRead := s.status.toWord }
    | .reset => .next (resetEvent (runningCut s1) s1)
    | .store a b => hostAccess a (fun s => { s with mem := s.mem.write a b }) s1
    | .load a => hostAccess a (fun s => { s with lastRead := (s.mem.read a).setWidth 32 }) s1
    | .unmap gone => .next { s1 with cfg := unmapMemory gone s1.cfg }

/-! ### Host programs (R97, R98) -/

namespace HostProgram

/-- `SETPB base, w, h, stride` -/
def setPB (base w h stride : Word) : List HostMove :=
  [.wr 0x10 base, .wr 0x14 w, .wr 0x18 h, .wr 0x1C stride, .wr 0x20 1]

/-- `SETYUV yb, ys, ub, urs, ups, vb, vrs, vps` -/
def setYUV (yb ys ub urs ups vb vrs vps : Word) : List HostMove :=
  [.wr 0x30 yb, .wr 0x34 ys, .wr 0x38 ub, .wr 0x3C urs, .wr 0x40 ups, .wr 0x44 vb, .wr 0x48 vrs, .wr 0x4C vps]

/-- `GRAY`, …, `YUV2RGBA.V`: `WR CMD, <word>` -/
def command (i : Instr) : List HostMove := [.wr 0x00 (encode i)]

/-- `CALL <command>`: the doorbell, then `WAIT` -/
def call (i : Instr) : List HostMove := command i ++ [.wait]

end HostProgram

end Sys2Proof.Machine
end

