-- ==== Sys2Proof/Machine/Dispatch.lean ====
section
/-! DEFINITION. The meaning of each command: the latched command run from where it stands. -/

namespace Sys2Proof.Machine

def exec (i : Instr) (s : State) : Host.Outcome State Fault Refusal :=
  match i with
  | .gray => Sys2Proof.Machine.execGray s
  | .neg => Sys2Proof.Machine.execNeg s
  | .blur => Sys2Proof.Machine.execBlur s
  | .sharp => Sys2Proof.Machine.execSharp s
  | .emboss => Sys2Proof.Machine.execEmboss s
  | .edge => Sys2Proof.Machine.execEdge s
  | .yuv2rgba hint => Sys2Proof.Machine.execYuv2rgba hint s

end Sys2Proof.Machine
end

