-- ==== Sys2Proof/Machine/Step.lean ====
section
/-! DEFINITION. One step of the machine, and how a command word comes to be the next one run. -/

namespace Sys2Proof.Machine

/-- The running command: the latched word decoded (R115 item 1) and executed. CFE fetches no instruction (R22); the latched command
word is what a step reads. -/
def runLatched (s : State) : Host.Outcome State Fault Refusal :=
  match decode s.latch.cmd with
  | some i => exec i s
  | none => illegalLatched s

/-- One step. While a command runs, the schedule says whether the host moves or the engine goes on; the engine then goes on until the
command has ended or the schedule gives the host a turn. While the engine is `IDLE` or `HALTED` only the host has moves. -/
def step (s : State) : Host.Outcome State Fault Refusal :=
  if s.phase.active then
    if hostTurnNext s then hostMove { s with sched := s.sched.tail } else runLatched s
  else hostMove s

/-- The state in which the very next step runs command word `w`: the doorbell write of `w` has been accepted (R112), and no turn of
the host stands before the engine's. Log 8. -/
def State.withFetchWord (s : State) (_nbits w : Nat) : State :=
  acceptCommand (BitVec.ofNat 32 w) { s with sched := s.sched.dropWhile (· == .host) }

end Sys2Proof.Machine
end

