-- ==== Sys2Proof/Safety.lean ====
section
/-! DEFINITION. The words statements are made in: the state right after acceptance, the launch premises, the ways a command can
end, the host's turn, and the invariant of the machine. -/

namespace Sys2Proof.Machine

/-! ### Command words and registers -/

/-- The four ways a command word can be illegal (R94): `OP = 0`, `OP >= 8`, a bit of `RSV` set, or `VHINT` set with `OP` in 1 to 6. -/
def IllegalWord (w : Word) : Prop :=
  w.extractLsb' 0 4 = 0 ∨ 8 ≤ (w.extractLsb' 0 4).toNat ∨ w.extractLsb' 5 27 ≠ 0 ∨
    (w.getLsbD 4 = true ∧ 1 ≤ (w.extractLsb' 0 4).toNat ∧ (w.extractLsb' 0 4).toNat ≤ 6)

/-- The offsets of the fifteen read-write registers (R23). -/
def readWriteOffsets : List Nat :=
  [0x10, 0x14, 0x18, 0x1C, 0x20, 0x24, 0x28, 0x30, 0x34, 0x38, 0x3C, 0x40, 0x44, 0x48, 0x4C]

/-- Two sets of registers hold the same values in the operand registers of a command (R91). -/
structure SameOperands (i : Instr) (g g' : HostRegs) : Prop where
  pb : g.pbBase = g'.pbBase ∧ g.pbWidth = g'.pbWidth ∧ g.pbHeight = g'.pbHeight ∧ g.pbStride = g'.pbStride ∧
    g.pbFormat = g'.pbFormat
  blur : i = .blur → g.radius = g'.radius ∧ g.sigma = g'.sigma
  planes : ∀ hint, i = .yuv2rgba hint → g.yBase = g'.yBase ∧ g.yStride = g'.yStride ∧ g.uBase = g'.uBase ∧
    g.uRStride = g'.uRStride ∧ g.uPStride = g'.uPStride ∧ g.vBase = g'.vBase ∧ g.vRStride = g'.vRStride ∧
    g.vPStride = g'.vPStride

/-- The four neighbourhood filters, which compute into the scratch store (R39). -/
def isNeighbourhood : Instr → Bool
  | .blur | .sharp | .emboss | .edge => true
  | .gray | .neg | .yuv2rgba _ => false

/-- A phase change the table of R113 lists for `SEQ`, a worker's fault, or the reset. -/
def phaseChange (i : Instr) : Phase → Phase → Bool
  | .validate, .idle | .validate, .prepare => true
  | .prepare, .idle => i == .blur
  | .prepare, .scalar | .prepare, .fork => true
  | .scalar, .copyBack | .run, .copyBack => isNeighbourhood i
  | .scalar, .idle | .run, .idle => !isNeighbourhood i
  | .fork, .run => true
  | .copyBack, .idle => true
  | p, .halted => p.active
  | _, _ => false

/-! ### Before a command -/

/-- The state right after acceptance (R112): `VALIDATE`, `STATUS` as R29 leaves it, no pool (R35, R37, R38), and the host silent
until the command ends. Every command starts from such a state. -/
structure Accepted (s : State) : Prop where
  phase : s.phase = .validate
  status : s.status = Status.running
  noWorkers : s.workers = []
  noTasks : s.queue = []
  noStop : s.stop = false
  memory : s.mem.wf = true
  snapshot : s.memAtAccept = s.mem
  hostSilent : ∀ t ∈ s.sched, t ≠ .host

/-- R116 item (c): the image fits the scratch store, where the command uses it. -/
def ScratchFits (i : Instr) (c : Cfg) (g : HostRegs) : Prop :=
  isNeighbourhood i = true → ∀ n, c.scratchPixels = some n → g.width * g.height ≤ n

/-- The descriptor checks of R116, on naturals. An image of height 0 has no rows that could overlap and passes the first (R117), which is
the model's choice where R116 alone would fail it (log 19). -/
def DescriptorFits (i : Instr) (c : Cfg) (g : HostRegs) : Prop :=
  (g.height ≠ 0 → 4 * g.width ≤ g.stride) ∧ g.base + g.height * g.stride ≤ 2 ^ 32 ∧ ScratchFits i c g

/-- The parameter checks of R193, on the two registers: `radius` as a signed number; a binary32 pattern is finite and positive when
it lies strictly between those of `+0.0` and `+inf`. -/
def BlurParams (c : Cfg) (g : HostRegs) : Prop :=
  (0 ≤ g.radius.toInt ∧ g.radius.toInt ≤ rMax c) ∧ (0 < g.sigma.toNat ∧ g.sigma.toNat < 0x7F800000)

/-- The format and descriptor checks of `VALIDATE` pass (R115 items 2 and 3). -/
def Launchable (i : Instr) (s : State) : Prop :=
  s.latch.regs.pbFormat = 1 ∧ DescriptorFits i s.cfg s.latch.regs

/-- Every byte of the command's footprint is admissible (R281 premise 3). -/
def FootprintIn (i : Instr) (s : State) : Prop :=
  ∀ a, (commandOf i).footprint s.cfg s.latch.regs a = true → admissible s.cfg a = true

/-- No plane sample the converter reads is a byte of a row of its destination, padding included (R281 premise 4, R71). -/
def PlanesDisjoint (g : HostRegs) : Prop :=
  ∀ x < g.width, ∀ y < g.height, ∀ a ∈ sampleAddrs g x y,
    ∀ y' < g.height, ¬ (g.base + y' * g.stride ≤ a ∧ a < g.base + (y' + 1) * g.stride)

/-- Every check of the command passes, the one `PREPARE` makes of the kernel of `BLUR` included (R115, R192): it does not fail closed. -/
def ChecksPass (i : Instr) (s : State) : Prop :=
  Launchable i s ∧ (i = .blur → BlurParams s.cfg s.latch.regs ∧
    gaussKernel s.cfg s.latch.regs.blurRadius s.latch.regs.sigma ≠ none)

/-! ### Images -/

/-- Address `a` is a byte of no pixel of the PixelBuffer: padding, or outside the buffer (R71). -/
def OffImage (g : HostRegs) (a : Nat) : Prop := ∀ x < g.width, ∀ y < g.height, ∀ k < 4, a ≠ pixelAddr g x y + k

/-- The pixel `(x, y)` of the image that lies in memory `m` (R71). -/
def imagePixel (g : HostRegs) (m : Memory) (x y : Nat) : Pixel := m.pixelAt (pixelAddr g x y)

/-- The taps of the window of `(x, y)`, `dy` outermost, `dx` innermost, both from `-r` to `r` (R197). -/
def imageWindow (g : HostRegs) (m : Memory) (r x y : Nat) : List Pixel :=
  (List.range (2 * r + 1)).flatMap fun j => (List.range (2 * r + 1)).map fun i => imagePixel g m (x + i - r) (y + j - r)

/-- Pixel `(x, y)` is interior for radius `r` (R190). -/
def IsInterior (g : HostRegs) (r x y : Nat) : Prop := r ≤ x ∧ x + r < g.width ∧ r ≤ y ∧ y + r < g.height

/-- Column `x` lies in a full vector group of its row, on the vector path (R165, R205): `n = W - 2r` interior columns, `n div VW` full
groups from column `r`. -/
def InFullGroup (c : Cfg) (g : HostRegs) (r x : Nat) : Prop :=
  wide c = true ∧ x - r < (g.width - 2 * r) / vectorWidth c * vectorWidth c

/-- The radius of a neighbourhood filter (R190). -/
def radiusOf (i : Instr) (g : HostRegs) : Nat := if i = .blur then g.blurRadius else 1

/-- The three channels a filter's scalar rule gives on a window of pixels (R194, R196, R199, R203); `kern` is the kernel of `BLUR`. -/
def scalarResult (i : Instr) (kern : Kernel) (win : List Pixel) : Rgb :=
  match i with
  | .blur => ⟨scalBlur kern (win.map Pixel.r), scalBlur kern (win.map Pixel.g), scalBlur kern (win.map Pixel.b)⟩
  | .sharp =>
    ⟨scalSharp sharpKernel (win.map Pixel.r), scalSharp sharpKernel (win.map Pixel.g), scalSharp sharpKernel (win.map Pixel.b)⟩
  | .emboss =>
    let v := scalEmboss embossKernel (win.map fun q => ⟨q.r, q.g, q.b⟩)
    ⟨v, v, v⟩
  | .edge => ⟨scalEdge (win.map Pixel.r), scalEdge (win.map Pixel.g), scalEdge (win.map Pixel.b)⟩
  | .gray | .neg | .yuv2rgba _ => ⟨0, 0, 0⟩

/-- Two bytes at most 1 apart (R163 V1). -/
def WithinOne (a b : Byte) : Prop := a.toNat ≤ b.toNat + 1 ∧ b.toNat ≤ a.toNat + 1

/-- The rule of R207 for the border pixels, and what R209 says of the rest: under `ZERO` every border pixel is `(0,0,0,0)`, under `SOURCE`
it is unchanged; every byte of no pixel is unchanged. -/
def BorderAndPadding (r : Nat) (s t : State) : Prop :=
  (∀ x < s.latch.regs.width, ∀ y < s.latch.regs.height, ¬ IsInterior s.latch.regs r x y →
    imagePixel s.latch.regs t.mem x y =
      match s.cfg.borderPolicy with
      | .zero => ⟨0, 0, 0, 0⟩
      | .source => imagePixel s.latch.regs s.mem x y) ∧
  (∀ a, OffImage s.latch.regs a → t.mem.read a = s.mem.read a)

/-! ### How a command ends -/

/-- The part of the state that no command writes: the register block but for `STATUS` (R23, R91), the latch (R33), the configuration,
and the host's own fields. -/
structure BlockKept (s t : State) : Prop where
  regs : t.regs = s.regs
  latch : t.latch = s.latch
  cfg : t.cfg = s.cfg
  hostQ : t.hostQ = s.hostQ
  lastRead : t.lastRead = s.lastRead
  snapshot : t.memAtAccept = s.memAtAccept

/-- Success (R135), on the vector path or not, with the hint not honoured or not; no pool is left (R35, R37, R38). -/
structure Succeeded (vector fallback : Bool) (s t : State) : Prop where
  phase : t.phase = .idle
  status : t.status = ⟨false, true, true, false, .none, vector, fallback⟩
  noWorkers : t.workers = []
  noTasks : t.queue = []
  noStop : t.stop = false
  memory : t.mem.wf = true
  kept : BlockKept s t

/-- The private stores are as before. After a successful `GRAY`, `NEG` or `YUV2RGBA`, which use neither, this is the model's choice: R34 and U8
call their content unspecified after any command (log 9). -/
def StoresKept (s t : State) : Prop := t.kernel = s.kernel ∧ t.out = s.out

/-- Failing closed in `VALIDATE` (R136): what it leaves, in full. `turns` is how many choices of the schedule have been used. -/
def failedClosed (e : ErrCode) (vector : Bool) (turns : Nat) (s : State) : State :=
  { s with
    phase := .idle
    status := ⟨false, true, false, false, e, vector, false⟩
    sched := s.sched.drop turns }

/-- The fatal fault (R246): `HALTED`, `FATAL` and code 15, `BUSY` still 1, and no pool (R35, R37, R38). -/
structure Halted (s t : State) : Prop where
  phase : t.phase = .halted
  busy : t.status.busy = true
  done : t.status.done = false
  ok : t.status.ok = false
  fatal : t.status.fatal = true
  err : t.status.err = .fatalConcurrencyFault
  noWorkers : t.workers = []
  noTasks : t.queue = []
  noStop : t.stop = false
  memory : t.mem.wf = true
  kept : BlockKept s t

/-- Pixel `(x, y)` is in the write footprint of command `i` (R80): every pixel, but under `SOURCE` only the interior ones of a filter. -/
def WritesPixel (i : Instr) (c : Cfg) (g : HostRegs) (x y : Nat) : Prop :=
  isNeighbourhood i = true → c.borderPolicy = .zero ∨ IsInterior g (radiusOf i g) x y

/-- A byte of the write footprint of command `i` latched in `s` (R80): none for a command that fails closed. -/
def InWriteFootprint (i : Instr) (s : State) (a : Nat) : Prop :=
  ChecksPass i s ∧ ∃ x < s.latch.regs.width, ∃ y < s.latch.regs.height, WritesPixel i s.cfg s.latch.regs x y ∧
    ∃ k < 4, a = pixelAddr s.latch.regs x y + k

/-- A byte of a pixel that command `i` latched in `s` writes and can compute, with the value it would have written there (R80, U5). -/
def WouldWrite (i : Instr) (s : State) (a : Nat) (b : Byte) : Prop :=
  ∃ x < s.latch.regs.width, ∃ y < s.latch.regs.height, ∃ px,
    (commandOf i).newPixel s.cfg s.latch.regs (selectPath (commandOf i).family s.cfg).1 s.memAtAccept x y = some px ∧
    ((a, b) = (pixelAddr s.latch.regs x y, px.r) ∨ (a, b) = (pixelAddr s.latch.regs x y + 1, px.g) ∨
      (a, b) = (pixelAddr s.latch.regs x y + 2, px.b) ∨ (a, b) = (pixelAddr s.latch.regs x y + 3, px.a))

/-! ### The host's turn -/

/-- The host moves in the next step: nothing runs, or the schedule gives it the turn. -/
def HostMovesNext (s : State) : Prop := s.phase.active = false ∨ hostTurnNext s = true

/-- The rest of the schedule after a turn of the host. -/
def schedAfterHost (s : State) : List Turn := if s.phase.active then s.sched.tail else s.sched

/-! ### The invariant -/

/-- A task of the pool is one of those the partition of the running command gives (R120). -/
def IsTaskOf (i : Instr) (s : State) (t : Task) : Prop :=
  ∃ j < nWorkers s.cfg, t = taskOf ((commandOf i).plan s.cfg s.latch.regs true).units (nWorkers s.cfg)
    ((commandOf i).family == .pointwise) j

/-- A command past `VALIDATE`: its word decodes, its checks passed, and phase, path and `STATUS` agree (R113, R115, R118). -/
structure PastValidation (s : State) (i : Instr) : Prop where
  decoded : decode s.latch.cmd = some i
  checked : firstFailure (commandOf i) s.cfg s.latch.regs = none
  path : s.phase ≠ .prepare →
    s.status.path = (selectPath (commandOf i).family s.cfg).1 ∧ s.status.fallback = (selectPath (commandOf i).family s.cfg).2
  scalar : s.phase = .scalar → (selectPath (commandOf i).family s.cfg).1 = false
  vector : s.phase = .fork ∨ s.phase = .run → (selectPath (commandOf i).family s.cfg).1 = true
  copyBack : s.phase = .copyBack → isNeighbourhood i = true
  queued : ∀ t ∈ s.queue, IsTaskOf i s t
  running : ∀ t cur, Worker.running t cur ∈ s.workers → IsTaskOf i s t

/-- The shape of the kernel store, whatever its weights (R34): a radius in `0 .. R_MAX` and `(2r+1)^2` weights. -/
def KernelShape (c : Cfg) (k : Kernel) : Prop := k.r ≤ rMax c ∧ k.w.length = (2 * k.r + 1) * (2 * k.r + 1)

/-- What holds in every state of the machine. -/
structure Inv (s : State) : Prop where
  /-- memory is in canonical form -/
  memory : s.mem.wf = true
  snapshot : s.memAtAccept.wf = true
  /-- `phase` is `IDLE` exactly when `BUSY = 0` and `FATAL = 0`, `HALTED` exactly when `FATAL = 1` (R22) -/
  idle : s.phase = .idle ↔ s.status.busy = false ∧ s.status.fatal = false
  halted : s.phase = .halted ↔ s.status.fatal = true
  /-- after the fatal fault `BUSY` stays 1, and the other fields are those of R29 -/
  fatal : s.status.fatal = true → s.status.busy = true ∧ s.status.done = false ∧ s.status.ok = false ∧
    s.status.err = .fatalConcurrencyFault
  /-- while a command runs no result shows (R29) -/
  running : s.phase.active = true → s.status.done = false ∧ s.status.ok = false ∧ s.status.err = .none
  /-- an ended command shows a consistent result (R28, R29) -/
  ended : s.phase = .idle → s.status.err ≠ .fatalConcurrencyFault ∧ (s.status.ok = true → s.status.done = true) ∧
    (s.status.done = true → (s.status.ok = true ↔ s.status.err = .none)) ∧ (s.status.done = false → s.status.err = .none)
  /-- before the path selection the path bits are 0 (R29) -/
  unselected : s.phase = .validate ∨ s.phase = .prepare → s.status.path = false ∧ s.status.fallback = false
  /-- outside `FORK` and `RUN` there is no pool (R35, R37, R38) -/
  noPool : s.phase ≠ .fork → s.phase ≠ .run → s.workers = [] ∧ s.queue = [] ∧ s.stop = false
  /-- in `FORK` the pool is constructed once and `stop` is 0 (R124, R128) -/
  fork : s.phase = .fork → s.stop = false ∧
    ((s.workers = [] ∧ s.queue = [] ∧ s.cursor.unit = 0) ∨
     (s.workers.length = nWorkers s.cfg ∧ s.cursor.unit ≤ nWorkers s.cfg ∧ s.queue.length ≤ s.cursor.unit))
  /-- in `RUN` there are `N` workers, `stop` is 1, and the queue never holds more than `N` tasks (R37, R128) -/
  run : s.phase = .run → s.stop = true ∧ s.workers.length = nWorkers s.cfg ∧ s.queue.length ≤ nWorkers s.cfg
  /-- a worker exits only with the queue empty and `stop` set (R126), and no live worker is `ABSENT` -/
  exited : Worker.exited ∈ s.workers → s.queue = [] ∧ s.stop = true
  present : Worker.absent ∉ s.workers
  /-- a running command that passed its checks -/
  latched : s.phase.active = true → s.phase ≠ .validate → ∃ i, PastValidation s i
  /-- the kernel store keeps its shape -/
  kernel : KernelShape s.cfg s.kernel

end Sys2Proof.Machine
end

