-- ==== Sys2Proof/Certificates/Slice0/Obligations.lean ====
section
/-! DEFINITION. The statements for the provers, one `def Obligations.<Name> : Prop` each. They hold for every configuration and every
schedule, and no statement rests on a free value. -/

open Sys2Proof Sys2Proof.Machine

/-! ### Encoding -/

/-- Each command's word of R92, written out bit by bit (R90), decodes to the command, and the encoder gives that word. -/
def Obligations.CommandWordsDecode : Prop :=
  (decode 0b00000000000000000000000000000001#32 = some .gray ∧ decode 0b00000000000000000000000000000010#32 = some .neg ∧
    decode 0b00000000000000000000000000000011#32 = some .blur ∧ decode 0b00000000000000000000000000000100#32 = some .sharp ∧
    decode 0b00000000000000000000000000000101#32 = some .emboss ∧ decode 0b00000000000000000000000000000110#32 = some .edge ∧
    decode 0b00000000000000000000000000000111#32 = some (.yuv2rgba false) ∧
    decode 0b00000000000000000000000000010111#32 = some (.yuv2rgba true)) ∧
  (encode .gray = 0x00000001#32 ∧ encode .neg = 0x00000002#32 ∧ encode .blur = 0x00000003#32 ∧ encode .sharp = 0x00000004#32 ∧
    encode .emboss = 0x00000005#32 ∧ encode .edge = 0x00000006#32 ∧ encode (.yuv2rgba false) = 0x00000007#32 ∧
    encode (.yuv2rgba true) = 0x00000017#32)

/-- Every command is well formed and its word decodes to it (R92, R99). -/
def Obligations.EncodedCommandsDecode : Prop :=
  ∀ i : Instr, i.wellFormed = true ∧ decode (encode i) = some i

/-- On any 32-bit value (R92, R99): which word decodes to which command, and that no other word than these eight decodes. -/
def Obligations.OnlyTheEightWordsDecode : Prop :=
  ∀ w : Word,
    (decode w = some .gray ↔ w = 0x00000001#32) ∧ (decode w = some .neg ↔ w = 0x00000002#32) ∧
    (decode w = some .blur ↔ w = 0x00000003#32) ∧ (decode w = some .sharp ↔ w = 0x00000004#32) ∧
    (decode w = some .emboss ↔ w = 0x00000005#32) ∧ (decode w = some .edge ↔ w = 0x00000006#32) ∧
    (decode w = some (.yuv2rgba false) ↔ w = 0x00000007#32) ∧ (decode w = some (.yuv2rgba true) ↔ w = 0x00000017#32) ∧
    (decode w ≠ none ↔
      w = 0x01#32 ∨ w = 0x02#32 ∨ w = 0x03#32 ∨ w = 0x04#32 ∨ w = 0x05#32 ∨ w = 0x06#32 ∨ w = 0x07#32 ∨ w = 0x17#32)

/-- The illegal words of R94 are the ones that do not decode, every other word is one of the eight, and an accepted illegal word ends
with `IllegalCommand`, nothing but `phase` and `STATUS` changed (R242). -/
def Obligations.IllegalWordsFailClosed : Prop :=
  (∀ w : Word, decode w = none ↔ IllegalWord w) ∧
  (∀ w : Word, IllegalWord w ∨ ∃ i, w = encode i) ∧
  (∀ s : State, Accepted s → IllegalWord s.latch.cmd → step s = .next (failedClosed .illegalCommand false 0 s))

/-- A step of a running engine whose latched word decodes is the meaning of that command; the state `withFetchWord` makes is one right
after an accepted doorbell, and its step runs the command too. -/
def Obligations.StepRunsTheLatchedCommand : Prop :=
  (∀ (s : State) (i : Instr), s.phase.active = true → hostTurnNext s = false → decode s.latch.cmd = some i →
    step s = exec i s) ∧
  (∀ (s : State) (n w : Nat) (i : Instr), decode (BitVec.ofNat 32 w) = some i →
    (s.withFetchWord n w).latch = ⟨BitVec.ofNat 32 w, s.regs⟩ ∧ (s.withFetchWord n w).phase = .validate ∧
    step (s.withFetchWord n w) = exec i (s.withFetchWord n w))

/-! ### The register block -/

/-- A write of a read-write register while `IDLE` is what a read then returns; no other register and nothing else of the state
changes (R23). -/
def Obligations.RegistersHoldWhatIsWritten : Prop :=
  ∀ (s : State) (off : Nat) (v : Word) (q : List HostMove), Inv s → s.phase = .idle → off ∈ readWriteOffsets →
    s.hostQ = .wr off v :: q →
    ∃ t, step s = .next t ∧ readOffset t off = v ∧ (∀ off', off' ≠ off → readOffset t off' = readOffset s off') ∧
      t = { s with hostQ := q, regs := t.regs }

/-- Reserved offsets read 0; writes of reserved offsets, of `STATUS` and `CAP`, and of anything while busy or fatal are ignored;
reserved bits of `STATUS` and `CAP` read 0; a reserved bit in a command word makes it illegal: a bit of `RSV`, or bit 4 with `OP` 1 to 6
(R32, R93). The model's choice (log 5): every offset outside R23's table counts as reserved, an unaligned one included. -/
def Obligations.ReservedAndReadOnlyRegisters : Prop :=
  (∀ (s : State) (off : Nat), off ∉ readWriteOffsets → off ≠ 0x00 → off ≠ 0x04 → off ≠ 0x08 → readOffset s off = 0) ∧
  (∀ (s : State) (off : Nat) (v : Word) (q : List HostMove), HostMovesNext s → s.hostQ = .wr off v :: q →
    ((off ∉ readWriteOffsets ∧ off ≠ 0x00) ∨ s.status.busy = true ∨ s.status.fatal = true) →
    step s = .next { s with hostQ := q, sched := schedAfterHost s }) ∧
  (∀ (s : State) (k : Nat), (10 ≤ k → (readOffset s 0x04).getLsbD k = false) ∧
    (1 ≤ k → k ≤ 7 → (readOffset s 0x08).getLsbD k = false)) ∧
  (∀ w : Word, w.extractLsb' 5 27 ≠ 0 ∨
    (w.getLsbD 4 = true ∧ 1 ≤ (w.extractLsb' 0 4).toNat ∧ (w.extractLsb' 0 4).toNat ≤ 6) → decode w = none)

/-- A write of `CMD` while `IDLE` is accepted, whatever the value: latch, `STATUS` and `phase` as R112 says, nothing else of the
engine's changed, and the state is the one every command starts from. -/
def Obligations.DoorbellIsAccepted : Prop :=
  ∀ (s : State) (c : Word) (q : List HostMove), Inv s → s.phase = .idle → s.hostQ = .wr 0x00 c :: q →
    let t : State :=
      { s with
        hostQ := q
        latch := ⟨c, s.regs⟩
        status := ⟨true, false, false, false, .none, false, false⟩
        phase := .validate
        memAtAccept := s.mem }
    step s = .next t ∧ ((∀ u ∈ s.sched, u ≠ .host) → Accepted t)

/-- While `BUSY = 1` or `FATAL = 1` every host write is ignored and every host read returns the current value, with no effect on the
engine (R114). -/
def Obligations.BlockWhileBusyOrFatal : Prop :=
  ∀ (s : State) (q : List HostMove), HostMovesNext s → (s.status.busy = true ∨ s.status.fatal = true) →
    (∀ off v, s.hostQ = .wr off v :: q → step s = .next { s with hostQ := q, sched := schedAfterHost s }) ∧
    (∀ off, s.hostQ = .rd off :: q →
      step s = .next { s with hostQ := q, sched := schedAfterHost s, lastRead := readOffset s off })

/-- `CMD` reads 0 at all times, and a command starts in no other way than by a write of it (R27). -/
def Obligations.OnlyTheDoorbellStartsACommand : Prop :=
  (∀ s : State, readOffset s 0x00 = 0) ∧
  (∀ s t : State, Inv s → s.phase = .idle → step s = .next t → t.phase ≠ .idle → ∃ c q, s.hostQ = .wr 0x00 c :: q)

/-- The layout of `STATUS` (R28) and the codes of `ERR` (R240). -/
def Obligations.StatusLayout : Prop :=
  ∀ s : State,
    (readOffset s 0x04).getLsbD 0 = s.status.busy ∧ (readOffset s 0x04).getLsbD 1 = s.status.done ∧
    (readOffset s 0x04).getLsbD 2 = s.status.ok ∧ (readOffset s 0x04).getLsbD 3 = s.status.fatal ∧
    ((readOffset s 0x04).extractLsb' 4 4).toNat =
      (match s.status.err with
       | .none => 0
       | .unsupportedFormat => 1
       | .illegalCommand => 2
       | .badDescriptor => 3
       | .badParameter => 4
       | .fatalConcurrencyFault => 15) ∧
    (readOffset s 0x04).getLsbD 8 = s.status.path ∧ (readOffset s 0x04).getLsbD 9 = s.status.fallback ∧
    (readOffset s 0x04).extractLsb' 10 22 = 0

/-- The layout of `CAP` with its bounds, its constancy over every step, that a write of it is ignored and that reading it has no side
effect (R31); the worker count is the hardware concurrency if that is at least 2, else 4 (R133). -/
def Obligations.CapLayoutAndConstancy : Prop :=
  (∀ s : State,
    (readOffset s 0x08).getLsbD 0 = wide s.cfg ∧ (readOffset s 0x08).extractLsb' 1 7 = 0 ∧
    ((readOffset s 0x08).extractLsb' 8 8).toNat = nWorkers s.cfg ∧ 2 ≤ nWorkers s.cfg ∧ nWorkers s.cfg ≤ 255 ∧
    ((readOffset s 0x08).extractLsb' 16 8).toNat = vectorWidth s.cfg ∧ vectorWidth s.cfg ≤ 254 ∧
    ((readOffset s 0x08).extractLsb' 24 8).toNat = rMax s.cfg) ∧
  (∀ c : Cfg, nWorkers c = if 2 ≤ c.hwConcurrency.val then c.hwConcurrency.val else 4) ∧
  (∀ s t : State, step s = .next t → readOffset t 0x08 = readOffset s 0x08) ∧
  (∀ (s : State) (q : List HostMove), HostMovesNext s → s.hostQ = .rd 0x08 :: q →
    step s = .next { s with hostQ := q, sched := schedAfterHost s, lastRead := readOffset s 0x08 }) ∧
  (∀ (s : State) (v : Word) (q : List HostMove), HostMovesNext s → s.hostQ = .wr 0x08 v :: q →
    step s = .next { s with hostQ := q, sched := schedAfterHost s })

/-- The capability: a 64-bit ARM, or a 32-bit ARM that reports NEON, on a platform with CPU-feature queries (R110). -/
def Obligations.WideCapability : Prop :=
  ∀ c : Cfg, wide c = true ↔
    c.hasQuery = true ∧ (c.cpuFamily = .arm64 ∨ (c.cpuFamily = .arm32 ∧ c.neonBit = true))

/-- The result of an ended command stays readable: only a doorbell or a reset changes `STATUS` while `IDLE` (R29). -/
def Obligations.ResultStaysReadable : Prop :=
  ∀ s t : State, Inv s → s.phase = .idle → step s = .next t →
    (∀ c q, s.hostQ ≠ .wr 0x00 c :: q) → (∀ q, s.hostQ ≠ .reset :: q) → t.status = s.status

/-! ### Reset -/

/-- The value after reset of every piece of state for which R43 gives one, and that a reset while no command runs leaves every byte of
memory as it is. -/
def Obligations.ResetValues : Prop :=
  (readOffset State.reset 0x00 = 0 ∧ readOffset State.reset 0x04 = 0 ∧
    readOffset State.reset 0x08 = capWord State.reset.cfg ∧ (∀ off ∈ readWriteOffsets, readOffset State.reset off = 0) ∧
    State.reset.phase = .idle ∧ State.reset.workers = [] ∧ State.reset.queue = [] ∧ State.reset.stop = false) ∧
  (∀ (s : State) (q : List HostMove), s.phase.active = false → s.hostQ = .reset :: q →
    ∃ t, step s = .next t ∧ readOffset t 0x00 = 0 ∧ readOffset t 0x04 = 0 ∧ readOffset t 0x08 = readOffset s 0x08 ∧
      (∀ off ∈ readWriteOffsets, readOffset t off = 0) ∧ t.phase = .idle ∧ t.workers = [] ∧ t.queue = [] ∧ t.stop = false ∧
      t.mem = s.mem)

/-- The reset event (R270): in one step every piece of state with a stated reset value takes it; memory is not touched, but that a byte
of the write footprint of a command that is cut holds the old value or the one the command would have written. A command that is going
to fail closed, on its checks or its kernel, has no write footprint (R80). And nothing else leaves `HALTED`. Of a footprint byte whose
new value no rule gives, because the command's own reads fault there (log 10) or its planes overlap (log 11), nothing is said. -/
def Obligations.ResetEvent : Prop :=
  (∀ (s : State) (q : List HostMove), Inv s → HostMovesNext s → s.hostQ = .reset :: q →
    ∃ t, step s = .next t ∧ readOffset t 0x04 = 0 ∧ (∀ off ∈ readWriteOffsets, readOffset t off = 0) ∧ t.phase = .idle ∧
      t.workers = [] ∧ t.queue = [] ∧ t.stop = false ∧
      (∀ a, (s.phase.active = true → ∀ i, decode s.latch.cmd = some i → ¬ InWriteFootprint i s a) →
        t.mem.read a = s.mem.read a) ∧
      (∀ i a b, s.phase.active = true → decode s.latch.cmd = some i → ChecksPass i s →
        (∀ hint, i = .yuv2rgba hint → PlanesDisjoint s.latch.regs) → admissible s.cfg a = true → WouldWrite i s a b →
        t.mem.read a = s.memAtAccept.read a ∨ t.mem.read a = b)) ∧
  (∀ s t : State, Inv s → s.phase = .halted → step s = .next t → t.phase = .halted ∨ ∃ q, s.hostQ = .reset :: q)

/-- After reset the engine fails closed until programmed: every command on the reset descriptor ends with `UnsupportedFormat`, a `BLUR`
on a valid PixelBuffer with the reset `SIGMA` ends with `BadParameter`, and `STATUS` and `CAP` are readable at once (R271). That a PixelBuffer of height
0 is valid whatever its stride (R117) is the model's choice (log 19). -/
def Obligations.ResetDescriptorFailsClosed : Prop :=
  (∀ (i : Instr) (s : State), Accepted s → s.latch.regs = State.reset.regs →
    exec i s = .next (failedClosed .unsupportedFormat false 1 s)) ∧
  (∀ s : State, Accepted s → Launchable .blur s → s.latch.regs.sigma = State.reset.regs.sigma →
    exec .blur s = .next (failedClosed .badParameter false 1 s)) ∧
  (∀ q : List HostMove,
    step { State.reset with hostQ := .rd 0x04 :: q } = .next { State.reset with hostQ := q, lastRead := 0 } ∧
    step { State.reset with hostQ := .rd 0x08 :: q } =
      .next { State.reset with hostQ := q, lastRead := capWord State.reset.cfg })

/-! ### The life cycle -/

/-- The checks of `VALIDATE` in their order, the first that fails reported and nothing but `phase` and `STATUS` changed; when all pass,
the phase becomes `PREPARE` (R115, R116, R136, R193, R241, R243). That an image of
height 0 passes check (a) of R116 whatever its stride, as R117 says, is the model's choice between the two (log 19). -/
def Obligations.ValidationInOrder : Prop :=
  ∀ s : State, Accepted s →
    (decode s.latch.cmd = none → step s = .next (failedClosed .illegalCommand false 0 s)) ∧
    (∀ i, decode s.latch.cmd = some i →
      (s.latch.regs.pbFormat ≠ 1 → step s = .next (failedClosed .unsupportedFormat false 1 s)) ∧
      (s.latch.regs.pbFormat = 1 → ¬ DescriptorFits i s.cfg s.latch.regs →
        step s = .next (failedClosed .badDescriptor false 1 s)) ∧
      (Launchable i s → i = .blur → ¬ BlurParams s.cfg s.latch.regs →
        step s = .next (failedClosed .badParameter false 1 s)) ∧
      (Launchable i s → (i = .blur → BlurParams s.cfg s.latch.regs) →
        seqStep (commandOf i) s = { s with phase := .prepare }))

/-- `BadParameter` is `BLUR`'s alone: from a range check with `PATH = 0`, or from a kernel whose weights do not sum to a finite positive
number, with `PATH = WIDE`, and in both cases nothing but `phase` and `STATUS` has changed; every error of `VALIDATE`, an illegal word
included, leaves `PATH = 0` and `FALLBACK = 0` (R244). That the descriptor of an image of height 0 is no error whatever its stride
(R117) is the model's choice (log 19). -/
def Obligations.BadParameterIsBlurs : Prop :=
  (∀ s : State, Accepted s → Launchable .blur s → ¬ BlurParams s.cfg s.latch.regs →
    exec .blur s = .next (failedClosed .badParameter false 1 s)) ∧
  (∀ s : State, Accepted s → Launchable .blur s → BlurParams s.cfg s.latch.regs →
    (let sum := (gaussWeights s.cfg s.latch.regs.blurRadius s.latch.regs.sigma).foldl fadd 0x00000000#32
     ¬ (fIsFinite sum = true ∧ fIsPositive sum = true)) →
    exec .blur s = .next (failedClosed .badParameter (wide s.cfg) 2 s)) ∧
  (∀ (i : Instr) (s t : State), Accepted s → i ≠ .blur → exec i s = .next t → t.status.err ≠ .badParameter) ∧
  (∀ s : State, Accepted s →
    (∀ i, decode s.latch.cmd = some i → ¬ (Launchable i s ∧ (i = .blur → BlurParams s.cfg s.latch.regs))) →
    ∃ t, step s = .next t ∧ t.status.ok = false ∧ t.status.err ≠ .none ∧ t.status.path = false ∧ t.status.fallback = false)

/-- Whatever agent steps, `phase` stays or changes as the table of R113 says. -/
def Obligations.PhaseTransitions : Prop :=
  ∀ (i : Instr) (s : State),
    (engineStep (commandOf i) s).phase = s.phase ∨ phaseChange i s.phase (engineStep (commandOf i) s).phase = true

/-- The path selection: the capability alone for the filters, hint and capability for the converter, with `FALLBACK` when the hint
cannot be honoured (R118). -/
def Obligations.PathSelection : Prop :=
  ∀ (i : Instr) (s : State), s.phase = .prepare →
    (seqStep (commandOf i) s).status.path =
      (match i with
       | .yuv2rgba hint => hint && wide s.cfg
       | .gray | .neg | .blur | .sharp | .emboss | .edge => wide s.cfg) ∧
    (seqStep (commandOf i) s).status.fallback =
      (match i with
       | .yuv2rgba hint => hint && !wide s.cfg
       | .gray | .neg | .blur | .sharp | .emboss | .edge => false)

/-- Preparation (R123): the kernels of R195, R198 and R202 for `SHARP`, `EMBOSS` and `EDGE`, a blank scratch store for the four
neighbourhood filters, nothing for the others, memory untouched, then the phase of the path. `BLUR` may fail closed here. -/
def Obligations.Preparation : Prop :=
  ∀ (i : Instr) (s : State), s.phase = .prepare →
    let t := seqStep (commandOf i) s
    t.mem = s.mem ∧
    (i = .sharp → t.kernel = ⟨1, [0xBF800000#32, 0xBF800000#32, 0xBF800000#32,
                                  0xBF800000#32, 0x41100000#32, 0xBF800000#32,
                                  0xBF800000#32, 0xBF800000#32, 0xBF800000#32]⟩) ∧
    (i = .emboss → t.kernel = ⟨1, [0xC0000000#32, 0xBF800000#32, 0x00000000#32,
                                   0xBF800000#32, 0x3F800000#32, 0x3F800000#32,
                                   0x00000000#32, 0x3F800000#32, 0x40000000#32]⟩) ∧
    (i = .edge → t.kernel.r = 1) ∧
    (∀ kern, i = .blur → gaussKernel s.cfg s.latch.regs.blurRadius s.latch.regs.sigma = some kern → t.kernel = kern) ∧
    (isNeighbourhood i = false → t.kernel = s.kernel ∧ t.out = s.out) ∧
    ((i = .blur → gaussKernel s.cfg s.latch.regs.blurRadius s.latch.regs.sigma ≠ none) →
      t.phase = (if t.status.path then .fork else .scalar) ∧
      (isNeighbourhood i = true →
        t.out = List.replicate (s.latch.regs.width * s.latch.regs.height) ⟨⟨0, 0, 0, 0⟩, false⟩)) ∧
    (i = .blur → gaussKernel s.cfg s.latch.regs.blurRadius s.latch.regs.sigma = none →
      t.phase = .idle ∧ t.status.err = .badParameter ∧ t.kernel = s.kernel ∧ t.out = s.out)

/-- The partition of `U` units over `N` workers (R120): the formulas, contiguous ranges from 0 to `U`, every unit in exactly one task;
and the empty tasks when `U < N` (R122). -/
def Obligations.TaskPartition : Prop :=
  ∀ (U N : Nat) (pointwise : Bool), 0 < N →
    (∀ i < N, taskOf U N pointwise i =
      ⟨i, i * (U / N) + min i (U % N), U / N + (if i < U % N then 1 else 0), decide (i = N - 1) && pointwise⟩) ∧
    (taskOf U N pointwise 0).first = 0 ∧
    (∀ i, i + 1 < N →
      (taskOf U N pointwise (i + 1)).first = (taskOf U N pointwise i).first + (taskOf U N pointwise i).count) ∧
    (taskOf U N pointwise (N - 1)).first + (taskOf U N pointwise (N - 1)).count = U ∧
    (∀ u < U, ∃ i < N, ∀ j < N, ((taskOf U N pointwise j).first ≤ u ∧
      u < (taskOf U N pointwise j).first + (taskOf U N pointwise j).count) ↔ j = i) ∧
    (U < N → ∀ i < N, U ≤ i → (taskOf U N pointwise i).count = 0 ∧ (taskOf U N pointwise i).first = U)

/-- The worker loop (R126), one clause for each of its lines: which workers have a step, and what the step does. -/
def Obligations.WorkerLoop : Prop :=
  ∀ (k : Command) (s : State) (i : Nat), i < s.workers.length → s.phase = .fork ∨ s.phase = .run →
    (∀ t rest, s.workers.getD i .absent = .waiting → s.queue = t :: rest →
      Agent.worker i ∈ enabledAgents s ∧ workerStep k i s = { s with
        queue := rest
        workers := s.workers.set i (.running t (startCursor (k.plan s.cfg s.latch.regs true) t)) }) ∧
    (s.workers.getD i .absent = .waiting → s.queue = [] → s.stop = true →
      Agent.worker i ∈ enabledAgents s ∧ workerStep k i s = { s with workers := s.workers.set i .exited }) ∧
    (s.workers.getD i .absent = .waiting → s.queue = [] → s.stop = false → Agent.worker i ∉ enabledAgents s) ∧
    (∀ t cur it m o, s.workers.getD i .absent = .running t cur →
      itemAt (k.plan s.cfg s.latch.regs true) t cur = some it →
      k.runItem s.cfg s.latch.regs s.kernel it s.mem s.out = .ok (m, o) →
      Agent.worker i ∈ enabledAgents s ∧ workerStep k i s = { s with
        mem := m
        out := o
        workers := s.workers.set i (.running t (advance (k.plan s.cfg s.latch.regs true) t cur)) }) ∧
    (∀ t cur, s.workers.getD i .absent = .running t cur → itemAt (k.plan s.cfg s.latch.regs true) t cur = none →
      Agent.worker i ∈ enabledAgents s ∧ workerStep k i s = { s with workers := s.workers.set i .waiting }) ∧
    (s.workers.getD i .absent = .exited ∨ s.workers.getD i .absent = .absent → Agent.worker i ∉ enabledAgents s)

/-- The pool (R124, R125, R128, R129): constructed with `N` waiting workers, an empty queue and `stop` 0; `N` tasks enqueued one a
step, at the tail, in order; then `stop` set and `RUN`; `SEQ` has a step in `RUN` only when every worker has exited, and it ends the
pool. -/
def Obligations.PoolLifeCycle : Prop :=
  ∀ (i : Instr) (s : State), Inv s →
    (s.phase = .fork → s.workers = [] → s.queue = [] ∧ s.stop = false ∧
      seqStep (commandOf i) s = { s with workers := List.replicate (nWorkers s.cfg) .waiting }) ∧
    (s.phase = .fork → s.workers ≠ [] → s.cursor.unit < nWorkers s.cfg →
      seqStep (commandOf i) s = { s with
        queue := s.queue ++ [taskOf ((commandOf i).plan s.cfg s.latch.regs true).units (nWorkers s.cfg)
          ((commandOf i).family == .pointwise) s.cursor.unit]
        cursor := ⟨s.cursor.unit + 1, 0⟩ }) ∧
    (s.phase = .fork → s.workers ≠ [] → s.cursor.unit = nWorkers s.cfg →
      seqStep (commandOf i) s = { s with stop := true, phase := .run }) ∧
    (s.phase = .run → (Agent.seq ∈ enabledAgents s ↔ ∀ w ∈ s.workers, w = .exited)) ∧
    (s.phase = .run → (∀ w ∈ s.workers, w = .exited) →
      s.queue = [] ∧ (seqStep (commandOf i) s).workers = [] ∧ (seqStep (commandOf i) s).queue = [] ∧
      (seqStep (commandOf i) s).stop = false ∧
      (seqStep (commandOf i) s).phase = (if isNeighbourhood i then .copyBack else .idle))

/-! ### The commands: results, completion and frame

"Every schedule" in these statements is every schedule that gives the host no turn while the command runs (`Accepted.hostSilent`); what the
host can do in such a turn is in the statements on the register block and on the host. `StoresKept` in the statements on `GRAY`, `NEG` and
`YUV2RGBA` (the kernel and scratch stores are as before) is the model's choice: R34 and U8 call their content unspecified after any
command (log 9). That `Launchable` takes in an image of height 0 whatever its stride, as R117 says, is the model's choice where R116 alone
would fail it (log 19). -/

/-- `GRAY` completes on both paths under every schedule: each pixel becomes `(y, y, y, A)` with `y = (77R + 150G + 29B + 128) div 256`, and
no other byte, no read-write register and not the latch changes (R181, R182). That the private stores are kept is the model's choice (log 9). -/
def Obligations.GrayResult : Prop :=
  ∀ s : State, Accepted s → Launchable .gray s → FootprintIn .gray s →
    ∃ t, exec .gray s = .next t ∧ Succeeded (wide s.cfg) false s t ∧ StoresKept s t ∧
      (∀ x < s.latch.regs.width, ∀ y < s.latch.regs.height,
        imagePixel s.latch.regs t.mem x y =
          (let p := imagePixel s.latch.regs s.mem x y
           let l := BitVec.ofNat 8 ((77 * p.r.toNat + 150 * p.g.toNat + 29 * p.b.toNat + 128) / 256)
           ⟨l, l, l, p.a⟩)) ∧
      (∀ a, OffImage s.latch.regs a → t.mem.read a = s.mem.read a)

/-- `NEG` completes on both paths under every schedule: each pixel becomes `(255 - R, 255 - G, 255 - B, A)`, and no other byte,
no read-write register and not the latch changes (R181, R183). That the private stores are kept is the model's choice (log 9). -/
def Obligations.NegResult : Prop :=
  ∀ s : State, Accepted s → Launchable .neg s → FootprintIn .neg s →
    ∃ t, exec .neg s = .next t ∧ Succeeded (wide s.cfg) false s t ∧ StoresKept s t ∧
      (∀ x < s.latch.regs.width, ∀ y < s.latch.regs.height,
        imagePixel s.latch.regs t.mem x y =
          (let p := imagePixel s.latch.regs s.mem x y
           ⟨BitVec.ofNat 8 (255 - p.r.toNat), BitVec.ofNat 8 (255 - p.g.toNat), BitVec.ofNat 8 (255 - p.b.toNat), p.a⟩)) ∧
      (∀ a, OffImage s.latch.regs a → t.mem.read a = s.mem.read a)

/-- `BLUR` completes on both paths under every schedule, when its parameters and its kernel are accepted: each interior pixel is the
weighted sum of its window per channel with the centre's alpha, by `VecBlur` in full groups and by `ScalBlur` elsewhere; the border
follows the policy and nothing else in memory changes (R194, R205 to R208). -/
def Obligations.BlurResult : Prop :=
  ∀ (s : State) (kern : Kernel), Accepted s → Launchable .blur s → BlurParams s.cfg s.latch.regs → FootprintIn .blur s →
    gaussKernel s.cfg s.latch.regs.blurRadius s.latch.regs.sigma = some kern →
    ∃ t, exec .blur s = .next t ∧ Succeeded (wide s.cfg) false s t ∧ BorderAndPadding s.latch.regs.blurRadius s t ∧
      (∀ x y, IsInterior s.latch.regs s.latch.regs.blurRadius x y →
        let win := imageWindow s.latch.regs s.mem s.latch.regs.blurRadius x y
        let p := imagePixel s.latch.regs t.mem x y
        p.a = (imagePixel s.latch.regs s.mem x y).a ∧
        (InFullGroup s.cfg s.latch.regs s.latch.regs.blurRadius x →
          p.r = vecBlur s.cfg kern (win.map Pixel.r) ∧ p.g = vecBlur s.cfg kern (win.map Pixel.g) ∧
          p.b = vecBlur s.cfg kern (win.map Pixel.b)) ∧
        (¬ InFullGroup s.cfg s.latch.regs s.latch.regs.blurRadius x →
          p.r = scalBlur kern (win.map Pixel.r) ∧ p.g = scalBlur kern (win.map Pixel.g) ∧
          p.b = scalBlur kern (win.map Pixel.b)))

/-- `SHARP` completes on both paths under every schedule: each interior pixel is sharpened per channel with the kernel of R195 and keeps
its alpha, by `VecSharp` in full groups and by `ScalSharp` elsewhere; border and frame as for `BLUR` (R196). -/
def Obligations.SharpResult : Prop :=
  ∀ s : State, Accepted s → Launchable .sharp s → FootprintIn .sharp s →
    ∃ t, exec .sharp s = .next t ∧ Succeeded (wide s.cfg) false s t ∧ BorderAndPadding 1 s t ∧
      (∀ x y, IsInterior s.latch.regs 1 x y →
        let win := imageWindow s.latch.regs s.mem 1 x y
        let p := imagePixel s.latch.regs t.mem x y
        p.a = (imagePixel s.latch.regs s.mem x y).a ∧
        (InFullGroup s.cfg s.latch.regs 1 x →
          p.r = vecSharp s.cfg sharpKernel (win.map Pixel.r) ∧ p.g = vecSharp s.cfg sharpKernel (win.map Pixel.g) ∧
          p.b = vecSharp s.cfg sharpKernel (win.map Pixel.b)) ∧
        (¬ InFullGroup s.cfg s.latch.regs 1 x →
          p.r = scalSharp sharpKernel (win.map Pixel.r) ∧ p.g = scalSharp sharpKernel (win.map Pixel.g) ∧
          p.b = scalSharp sharpKernel (win.map Pixel.b)))

/-- `EMBOSS` completes on both paths under every schedule: each interior pixel gets one value in its three colour channels, by
`VecEmboss` in full groups and by `ScalEmboss` elsewhere, and keeps its alpha; border and frame as for `BLUR` (R199). -/
def Obligations.EmbossResult : Prop :=
  ∀ s : State, Accepted s → Launchable .emboss s → FootprintIn .emboss s →
    ∃ t, exec .emboss s = .next t ∧ Succeeded (wide s.cfg) false s t ∧ BorderAndPadding 1 s t ∧
      (∀ x y, IsInterior s.latch.regs 1 x y →
        let taps := (imageWindow s.latch.regs s.mem 1 x y).map fun q => (⟨q.r, q.g, q.b⟩ : Rgb)
        let p := imagePixel s.latch.regs t.mem x y
        p.a = (imagePixel s.latch.regs s.mem x y).a ∧ p.g = p.r ∧ p.b = p.r ∧
        (InFullGroup s.cfg s.latch.regs 1 x → p.r = vecEmboss s.cfg embossKernel taps) ∧
        (¬ InFullGroup s.cfg s.latch.regs 1 x → p.r = scalEmboss embossKernel taps))

/-- `EDGE` completes on both paths, the scalar one included, under every schedule: each interior pixel gets its gradient magnitude per
channel and keeps its alpha, by `VecEdge` in full groups and by `ScalEdge` elsewhere, whatever the kernel store holds; border and
frame as for `BLUR` (R202, R203, R210). -/
def Obligations.EdgeResult : Prop :=
  ∀ s : State, Accepted s → Launchable .edge s → FootprintIn .edge s →
    ∃ t, exec .edge s = .next t ∧ Succeeded (wide s.cfg) false s t ∧ BorderAndPadding 1 s t ∧
      (∀ x y, IsInterior s.latch.regs 1 x y →
        let win := imageWindow s.latch.regs s.mem 1 x y
        let p := imagePixel s.latch.regs t.mem x y
        p.a = (imagePixel s.latch.regs s.mem x y).a ∧
        (InFullGroup s.cfg s.latch.regs 1 x →
          p.r = vecEdge s.cfg (win.map Pixel.r) ∧ p.g = vecEdge s.cfg (win.map Pixel.g) ∧
          p.b = vecEdge s.cfg (win.map Pixel.b)) ∧
        (¬ InFullGroup s.cfg s.latch.regs 1 x →
          p.r = scalEdge (win.map Pixel.r) ∧ p.g = scalEdge (win.map Pixel.g) ∧ p.b = scalEdge (win.map Pixel.b)))

/-- `YUV2RGBA`, with and without the hint, completes on both paths under every schedule when source and destination are disjoint: each
destination pixel is the conversion of its luma and chroma samples with alpha 255, and no other byte, no
read-write register and not the latch changes (R221, R223, R225). That the private stores are kept is the model's choice (log 9). -/
def Obligations.ConverterResult : Prop :=
  ∀ (hint : Bool) (s : State), Accepted s → Launchable (.yuv2rgba hint) s → FootprintIn (.yuv2rgba hint) s →
    PlanesDisjoint s.latch.regs →
    ∃ t, exec (.yuv2rgba hint) s = .next t ∧ Succeeded (hint && wide s.cfg) (hint && !wide s.cfg) s t ∧ StoresKept s t ∧
      (∀ x < s.latch.regs.width, ∀ y < s.latch.regs.height,
        imagePixel s.latch.regs t.mem x y =
          (let g := s.latch.regs
           let c : Int := (s.mem.read (g.yBase.toNat + y * g.yStride.toNat + x)).toNat - 16
           let d : Int := (s.mem.read (g.uBase.toNat + y / 2 * g.uRStride.toNat + x / 2 * g.uPStride.toNat)).toNat - 128
           let e : Int := (s.mem.read (g.vBase.toNat + y / 2 * g.vRStride.toNat + x / 2 * g.vPStride.toNat)).toNat - 128
           ⟨clamp ((298 * c + 409 * e + 128) / 256), clamp ((298 * c - 100 * d - 208 * e + 128) / 256),
            clamp ((298 * c + 516 * d + 128) / 256), 255⟩)) ∧
      (∀ a, OffImage s.latch.regs a → t.mem.read a = s.mem.read a)

/-- A converter launch that passes its checks is refused when a row of its destination, padding included, shares a byte with a plane
sample it reads: premise 4 of R281 is broken (U7, D32). From acceptance every other launch answers a next state. -/
def Obligations.OverlappingConverterIsRefused : Prop :=
  ∀ (hint : Bool) (s : State),
    (ChecksPass (.yuv2rgba hint) s → ¬ PlanesDisjoint s.latch.regs →
      exec (.yuv2rgba hint) s = .refused .destinationOverlapsPlanes) ∧
    (Accepted s → ¬ ChecksPass (.yuv2rgba hint) s ∨ PlanesDisjoint s.latch.regs → ∃ t, exec (.yuv2rgba hint) s = .next t)

/-- The fatal fault (R138, R246): a command that passed its checks and has an inadmissible byte in its footprint halts; a byte it would have
written holds the old value or the new one (U5), and every byte outside its write footprint is unchanged. Nothing is said of a footprint
byte that the command could not have computed (log 10). A converter whose planes overlap is refused instead (R281 premise 4). That no worker, task
or stop flag is left in `HALTED` is R35, R37 and R38, and that R246's "stop where they are" agrees with it is log 12. -/
def Obligations.FatalFault : Prop :=
  ∀ (i : Instr) (s : State), Accepted s → ChecksPass i s → (∀ hint, i = .yuv2rgba hint → PlanesDisjoint s.latch.regs) →
    ¬ FootprintIn i s →
    ∃ t, exec i s = .next t ∧ Halted s t ∧
      (∀ a, ¬ InWriteFootprint i s a → t.mem.read a = s.mem.read a) ∧
      (∀ a b, WouldWrite i s a b → t.mem.read a = s.mem.read a ∨ t.mem.read a = b)

/-- The exception itself (R246): the step in which `SEQ` or a worker raises an access fault, on an item or in the copy-back, changes
`phase`, `FATAL`, `ERR` and `OK`; `BUSY` stays 1 and `DONE` 0; workers, tasks and the stop flag are gone, as outside `FORK` and `RUN`
always (R35, R37, R38; that R246 leaves them so is log 12); nothing else of the engine changes. From then on no agent of CFE has a
step, and only the reset leaves `HALTED`. A byte the command would have written holds its value at acceptance or that one, every byte
outside the write footprint is as it was, and of the other footprint bytes nothing is said (log 10, log 11). -/
def Obligations.AccessFaultHalts : Prop :=
  ∀ (i : Instr) (s t : State), Inv s → s.phase.active = true → PastValidation s i →
    ((∃ it fin f, (commandOf i).runItem s.cfg s.latch.regs s.kernel it s.mem s.out = .error f ∧ t = runOn (commandOf i) it fin s) ∨
     (s.phase = .copyBack ∧ s.cursor.item < s.latch.regs.width ∧ s.cursor.unit < s.latch.regs.height ∧
      (∃ px set f, s.out.getD (s.cursor.unit * s.latch.regs.width + s.cursor.item) ⟨⟨0, 0, 0, 0⟩, false⟩ = ⟨px, set⟩ ∧
        (s.cfg.borderPolicy = .zero ∨ set = true) ∧
        pixWrite s.cfg s.latch.regs s.mem s.cursor.item s.cursor.unit px = .error f) ∧
      t = copyBackStep (commandOf i) s)) →
    t = { s with
      phase := .halted
      status := { s.status with fatal := true, ok := false, err := .fatalConcurrencyFault }
      workers := []
      queue := []
      stop := false
      mem := t.mem
      freeCount := t.freeCount } ∧
    t.status.busy = true ∧ t.status.done = false ∧ enabledAgents t = [] ∧
    (∀ u, step t = .next u → u.phase = .halted ∨ ∃ q, t.hostQ = .reset :: q) ∧
    (∀ a, ¬ InWriteFootprint i s a → t.mem.read a = s.mem.read a) ∧
    ((∀ hint, i = .yuv2rgba hint → PlanesDisjoint s.latch.regs) → ∀ a b, admissible s.cfg a = true → WouldWrite i s a b →
      t.mem.read a = s.memAtAccept.read a ∨ t.mem.read a = b)

/-! ### The machine as a whole -/

/-- Every accepted command but a converter launch that is refused for its overlap (R281 premise 4), under every schedule that leaves the engine the
turns, ends in one of three ways: by success; by failing closed, with nothing but `phase`, `STATUS` and the used turns changed; or in
`HALTED`. There is no deadlock (R134, R283, R284). -/
def Obligations.ThreeOutcomes : Prop :=
  ∀ (i : Instr) (s : State), Accepted s →
    (∀ hint, i = .yuv2rgba hint → ChecksPass i s → PlanesDisjoint s.latch.regs) →
    ∃ t, exec i s = .next t ∧
      ((∃ vector fallback, Succeeded vector fallback s t) ∨
       (t.phase = .idle ∧ t.status.busy = false ∧ t.status.done = true ∧ t.status.ok = false ∧ t.status.fatal = false ∧
        t.status.err ≠ .none ∧ t = { s with phase := t.phase, status := t.status, sched := t.sched }) ∨
       Halted s t)

/-- Schedule independence (R132): under the launch premises the memory and the `STATUS` at the end are the same for any two schedules,
whatever the private stores and the registers hold; they are a function of memory at acceptance, the latch and the configuration. What
varies is which agent moves and which worker runs which task, one pixel or group a step; the order inside a task and inside a group is the
model's (log 4) and does not vary here. -/
def Obligations.ScheduleIndependence : Prop :=
  ∀ (i : Instr) (s s' t t' : State), Accepted s → Accepted s' → s'.mem = s.mem → s'.latch = s.latch → s'.cfg = s.cfg →
    FootprintIn i s → (∀ hint, i = .yuv2rgba hint → PlanesDisjoint s.latch.regs) →
    exec i s = .next t → exec i s' = .next t' → t'.mem = t.mem ∧ t'.status = t.status

/-- A running command sees the latch and not the register block (R33, R79): with other values in the registers it does exactly the same
and leaves those values alone. -/
def Obligations.RunningCommandIgnoresRegisters : Prop :=
  ∀ (i : Instr) (s : State) (g : HostRegs),
    exec i { s with regs := g } =
      (match exec i s with
       | .next t => .next { t with regs := g }
       | .fault f => .fault f
       | .refused r => .refused r)

/-- Each command reads, of the latched registers, its operand registers only, and no command writes a register (R91). -/
def Obligations.OperandRegistersOnly : Prop :=
  (∀ (i : Instr) (s : State) (g : HostRegs), SameOperands i s.latch.regs g →
    exec i { s with latch := ⟨s.latch.cmd, g⟩ } =
      (match exec i s with
       | .next t => .next { t with latch := ⟨s.latch.cmd, g⟩ }
       | .fault f => .fault f
       | .refused r => .refused r)) ∧
  (∀ (i : Instr) (s t : State), exec i s = .next t → t.regs = s.regs ∧ t.latch = s.latch)

/-- The state after reset meets the invariant. -/
def Obligations.InvariantAtReset : Prop := Inv State.reset

/-- Every step keeps the invariant. -/
def Obligations.InvariantKept : Prop :=
  ∀ s t : State, Inv s → step s = .next t → Inv t

/-! ### Consequences the spec states -/

/-- The consequences of R186, for every PixelBuffer and both paths: (a) `NEG` twice restores memory; (b) after `GRAY` every pixel has
`R = G = B`; (c) `GRAY` twice is `GRAY`; (d) the bytes do not depend on the path, `VW` or `N`; (e) padding and alpha bytes are kept. -/
def Obligations.PointwiseConsequences : Prop :=
  ∀ (i : Instr) (s t : State), i = .gray ∨ i = .neg → Accepted s → Launchable i s → FootprintIn i s → exec i s = .next t →
    (∀ s' t', Accepted s' → s'.mem = t.mem → s'.latch.regs = s.latch.regs → s'.cfg = s.cfg → exec i s' = .next t' →
      (i = .neg → t'.mem = s.mem) ∧ (i = .gray → t'.mem = t.mem)) ∧
    (i = .gray → ∀ x < s.latch.regs.width, ∀ y < s.latch.regs.height,
      (imagePixel s.latch.regs t.mem x y).r = (imagePixel s.latch.regs t.mem x y).g ∧
      (imagePixel s.latch.regs t.mem x y).g = (imagePixel s.latch.regs t.mem x y).b) ∧
    (∀ s' t', Accepted s' → s'.mem = s.mem → s'.latch.regs = s.latch.regs → s'.cfg.memMap = s.cfg.memMap →
      exec i s' = .next t' → t'.mem = t.mem) ∧
    (∀ a, OffImage s.latch.regs a → t.mem.read a = s.mem.read a) ∧
    (∀ x < s.latch.regs.width, ∀ y < s.latch.regs.height,
      (imagePixel s.latch.regs t.mem x y).a = (imagePixel s.latch.regs s.mem x y).a)

/-- The consequences of R229: (a) the destination depends on the planes, `W`, `H` and the plane registers alone, not on where the
destination lies, nor on the path, `VW`, `N`, the hint, the schedule or the rest of memory; (b) every alpha is 255; (c) the pixels
`(2i, y)` and `(2i+1, y)` differ only through their luma; (d) grey input gives `R = G = B`. -/
def Obligations.ConverterConsequences : Prop :=
  ∀ (hint : Bool) (s t : State), Accepted s → Launchable (.yuv2rgba hint) s → FootprintIn (.yuv2rgba hint) s →
    PlanesDisjoint s.latch.regs → exec (.yuv2rgba hint) s = .next t →
    (∀ hint' s' t', Accepted s' → Launchable (.yuv2rgba hint') s' → FootprintIn (.yuv2rgba hint') s' →
      PlanesDisjoint s'.latch.regs → s'.latch.regs.pbWidth = s.latch.regs.pbWidth → s'.latch.regs.pbHeight = s.latch.regs.pbHeight →
      (∀ x y, sampleAddrs s'.latch.regs x y = sampleAddrs s.latch.regs x y) →
      (∀ x < s.latch.regs.width, ∀ y < s.latch.regs.height, ∀ a ∈ sampleAddrs s.latch.regs x y,
        s'.mem.read a = s.mem.read a) →
      exec (.yuv2rgba hint') s' = .next t' →
      ∀ x < s.latch.regs.width, ∀ y < s.latch.regs.height,
        imagePixel s'.latch.regs t'.mem x y = imagePixel s.latch.regs t.mem x y) ∧
    (∀ x < s.latch.regs.width, ∀ y < s.latch.regs.height, (imagePixel s.latch.regs t.mem x y).a = 255) ∧
    (∀ n, 2 * n + 1 < s.latch.regs.width → ∀ y < s.latch.regs.height,
      s.mem.read (addrY s.latch.regs (2 * n) y) = s.mem.read (addrY s.latch.regs (2 * n + 1) y) →
      imagePixel s.latch.regs t.mem (2 * n) y = imagePixel s.latch.regs t.mem (2 * n + 1) y) ∧
    (∀ x < s.latch.regs.width, ∀ y < s.latch.regs.height,
      s.mem.read (addrU s.latch.regs (x / 2) (y / 2)) = 128 → s.mem.read (addrV s.latch.regs (x / 2) (y / 2)) = 128 →
      imagePixel s.latch.regs t.mem x y =
        (let l := clamp ((298 * ((s.mem.read (addrY s.latch.regs x y)).toNat - 16 : Int) + 128) / 256)
         ⟨l, l, l, 255⟩))

/-- The consequences of R209 for the four neighbourhood filters, on both paths and under every schedule: (a) the border follows the one
policy; (b) padding is never written; (c) the interior keeps its alpha; (d) the windows show the image as it was at acceptance; (e) an
interior channel is within 1 of the scalar result, equal to it outside full groups, and `EMBOSS` writes one value to the three
channels; (f) what is written are bytes. -/
def Obligations.FilterConsequences : Prop :=
  ∀ (i : Instr) (s t : State) (kern : Kernel), isNeighbourhood i = true → Accepted s → Launchable i s → FootprintIn i s →
    (i = .blur → BlurParams s.cfg s.latch.regs ∧
      gaussKernel s.cfg s.latch.regs.blurRadius s.latch.regs.sigma = some kern) →
    exec i s = .next t →
    BorderAndPadding (radiusOf i s.latch.regs) s t ∧
    (∀ x y, IsInterior s.latch.regs (radiusOf i s.latch.regs) x y →
      let p := imagePixel s.latch.regs t.mem x y
      let v := scalarResult i kern (imageWindow s.latch.regs s.mem (radiusOf i s.latch.regs) x y)
      p.a = (imagePixel s.latch.regs s.mem x y).a ∧ WithinOne p.r v.r ∧ WithinOne p.g v.g ∧ WithinOne p.b v.b ∧
      (¬ InFullGroup s.cfg s.latch.regs (radiusOf i s.latch.regs) x → p.r = v.r ∧ p.g = v.g ∧ p.b = v.b) ∧
      (i = .emboss → p.g = p.r ∧ p.b = p.r))

/-- `BLUR` of radius 0 leaves every byte of memory as it was, on both paths and under both border policies (R194). A height of 0 is
launchable whatever the stride (log 19). -/
def Obligations.BlurOfRadiusZeroIsTheIdentity : Prop :=
  ∀ (s : State) (kern : Kernel), Accepted s → Launchable .blur s → BlurParams s.cfg s.latch.regs → FootprintIn .blur s →
    s.latch.regs.radius = 0 → gaussKernel s.cfg 0 s.latch.regs.sigma = some kern →
    kern = ⟨0, [0x3F800000#32]⟩ ∧ ∃ t, exec .blur s = .next t ∧ t.status.ok = true ∧ t.mem = s.mem

/-! ### The datapath -/

/-- `asr` is the floor of the quotient, with R151's examples; `clamp` brings an integer into 0 .. 255 (R151, R152). -/
def Obligations.FixedPoint : Prop :=
  (∀ (v : Int) (k : Nat), asr v k * 2 ^ k ≤ v ∧ v < (asr v k + 1) * 2 ^ k ∧ (0 ≤ v → asr v k = ((v.toNat / 2 ^ k : Nat) : Int))) ∧
  (asr (-1) 8 = -1 ∧ asr (-256) 8 = -1 ∧ asr (-257) 8 = -2) ∧
  (∀ v : Int, (clamp v).toNat = if v < 0 then 0 else if v > 255 then 255 else v.toNat)

/-- `quant` (R160): 0 for a NaN and for every value not above 0, 255 from 255.0 on, and in between the number whose pattern range holds the
value: the fraction is dropped. -/
def Obligations.QuantDropsTheFraction : Prop :=
  ∀ v : F32,
    (unpack v = .nan → quant v = 0) ∧ (v.getLsbD 31 = true → quant v = 0) ∧ (v = 0x00000000#32 → quant v = 0) ∧
    (unpack v ≠ .nan → v.getLsbD 31 = false → (i2f 255).toNat ≤ v.toNat → quant v = 255) ∧
    (∀ n : Nat, n < 255 → v.getLsbD 31 = false → (i2f n).toNat ≤ v.toNat → v.toNat < (i2f (n + 1 : Nat)).toNat →
      quant v = BitVec.ofNat 8 n)

/-- The properties of `fexp` a claim may use (R158, P1 to P4) and `fexp(-inf) = +0.0` (R192), for every configuration. A value is in
`0 .. 1.0` when its pattern is not above that of 1.0, or is that of `-0.0`. How a configuration gives `fexp` is the model's choice
(log 2). -/
def Obligations.ExponentialProperties : Prop :=
  ∀ (c : Cfg) (t : F32),
    fexp c 0x00000000#32 = 0x3F800000#32 ∧ fexp c 0x80000000#32 = 0x3F800000#32 ∧ fexp c 0xFF800000#32 = 0x00000000#32 ∧
    (fIsFinite t = true → t.getLsbD 31 = true → (fexp c t).toNat ≤ 0x3F800000 ∨ fexp c t = 0x80000000#32) ∧
    (∀ u : F32, fIsFinite t = true → fIsFinite u = true → fLe t u = true → fLe (fexp c t) (fexp c u) = true) ∧
    (unpack t = .nan → unpack (fexp c t) = .nan)

/-- No function R158 admits is left out (R6): one with the properties P1 to P3 is, on finite operands, the `fexp` of some configuration.
`P4` and the value at the infinities are in `ExponentialProperties`. How a configuration gives `fexp` is the model's choice (log 2). -/
def Obligations.ExponentialIsOpen : Prop :=
  ∀ f : F32 → F32, f 0x00000000#32 = 0x3F800000#32 → f 0x80000000#32 = 0x3F800000#32 →
    (∀ t, fIsFinite t = true → t.getLsbD 31 = true → (f t).toNat ≤ 0x3F800000 ∨ f t = 0x80000000#32) →
    (∀ t u, fIsFinite t = true → fIsFinite u = true → fLe t u = true → fLe (f t) (f u) = true) →
    ∃ c : Cfg, ∀ t, fIsFinite t = true → fexp c t = f t

/-- The vector results (R163), for every configuration: at most 1 from the scalar result (V1); exact for blur radius 0 (V2); 0 on an even
window for `EDGE` (V3). -/
def Obligations.VectorResultsWithinOne : Prop :=
  ∀ (c : Cfg) (k : Kernel) (win : List Byte) (win3 : List Rgb),
    (k.r ≠ 0 → WithinOne (vecBlur c k win) (scalBlur k win)) ∧
    (∀ v, WithinOne (vecBlur c ⟨0, [0x3F800000#32]⟩ [v]) (scalBlur ⟨0, [0x3F800000#32]⟩ [v])) ∧
    WithinOne (vecSharp c k win) (scalSharp k win) ∧
    WithinOne (vecEmboss c k win3) (scalEmboss k win3) ∧ (win.length = 9 → WithinOne (vecEdge c win) (scalEdge win)) ∧
    (∀ v, k.r = 0 → vecBlur c k [v] = v) ∧ (∀ v, vecEdge c (List.replicate 9 v) = 0)

/-- A kernel that `BLUR` accepts (R192): its radius, its `(2r+1)^2` weights, and its symmetry: two weights at places `(dy, dx)` with the
same `dx^2 + dy^2` are equal. -/
def Obligations.GaussianKernelShape : Prop :=
  ∀ (c : Cfg) (r : Nat) (sigma : F32) (k : Kernel), gaussKernel c r sigma = some k →
    k.r = r ∧ k.w.length = (2 * r + 1) * (2 * r + 1) ∧
    (∀ j < 2 * r + 1, ∀ i < 2 * r + 1, ∀ j' < 2 * r + 1, ∀ i' < 2 * r + 1,
      ((j : Int) - r) ^ 2 + ((i : Int) - r) ^ 2 = ((j' : Int) - r) ^ 2 + ((i' : Int) - r) ^ 2 →
      k.w[(2 * r + 1) * j + i]? = k.w[(2 * r + 1) * j' + i']?)

/-- `ScalSharp` as the integer formula R196 derives: 9 times the centre less the eight neighbours, clamped. -/
def Obligations.SharpIsExact : Prop :=
  ∀ a b c d e f g h i : Byte,
    scalSharp sharpKernel [a, b, c, d, e, f, g, h, i] =
      clamp (9 * (e.toNat : Int) - (a.toNat + b.toNat + c.toNat + d.toNat + f.toNat + g.toNat + h.toNat + i.toNat))

/-- `ScalEdge` as the integer formula R203 derives: the integer square root of `gx^2 + gy^2`, saturated at 255, with the gradients of R201.
The root is stated by its defining inequalities. -/
def Obligations.EdgeIsTheIntegerRoot : Prop :=
  ∀ (a b c d e f g h i : Byte) (m : Nat),
    (let gx : Int := (c.toNat + 2 * f.toNat + i.toNat) - (a.toNat + 2 * d.toNat + g.toNat)
     let gy : Int := (g.toNat + 2 * h.toNat + i.toNat) - (a.toNat + 2 * b.toNat + c.toNat)
     (m : Int) * m ≤ gx * gx + gy * gy ∧ gx * gx + gy * gy < (m + 1) * (m + 1)) →
    scalEdge [a, b, c, d, e, f, g, h, i] = BitVec.ofNat 8 (min 255 m)

/-- `EMBOSS` on a flat grey window gives `min(255, v + 128)` (R199, checked there exhaustively). -/
def Obligations.EmbossOfFlatGrey : Prop :=
  ∀ v : Byte, scalEmboss embossKernel (List.replicate 9 ⟨v, v, v⟩) = BitVec.ofNat 8 (min 255 (v.toNat + 128))

/-! ### The host -/

/-- The bytes a command reads or writes, and the pixels it writes (R80), padding in none. -/
def Obligations.FootprintTable : Prop :=
  ∀ (i : Instr) (c : Cfg) (g : HostRegs), (g.height ≠ 0 → 4 * g.width ≤ g.stride) →
    (∀ a, (commandOf i).footprint c g a = true ↔
      (match i with
       | .gray | .neg => ¬ OffImage g a
       | .yuv2rgba _ => ¬ OffImage g a ∨ ∃ x < g.width, ∃ y < g.height, a ∈ sampleAddrs g x y
       | .blur => ¬ OffImage g a ∧
         (c.borderPolicy = .zero ∨ (2 * g.blurRadius < g.width ∧ 2 * g.blurRadius < g.height))
       | .sharp | .emboss | .edge => ¬ OffImage g a ∧ (c.borderPolicy = .zero ∨ (2 < g.width ∧ 2 < g.height)))) ∧
    (∀ x < g.width, ∀ y < g.height, (commandOf i).writes c g x y = true ↔
      (match i with
       | .gray | .neg | .yuv2rgba _ => True
       | .blur => c.borderPolicy = .zero ∨ IsInterior g g.blurRadius x y
       | .sharp | .emboss | .edge => c.borderPolicy = .zero ∨ IsInterior g 1 x y))

/-- Memory is plain storage to the host (R60, R70): a byte stored is the byte loaded, and no other byte changes. That this holds in `HALTED`
too, the footprint of the command that went fatal included, is the model's choice (log 13). -/
def Obligations.HostStoreThenLoad : Prop :=
  ∀ (s : State) (a a' : Nat) (b : Byte) (q : List HostMove), Inv s → s.phase.active = false →
    s.hostQ = .store a b :: .load a' :: q → admissible s.cfg a = true → admissible s.cfg a' = true →
    ∃ t u, step s = .next t ∧ step t = .next u ∧ t = { s with hostQ := .load a' :: q, mem := t.mem } ∧
      u = { t with hostQ := q, lastRead := (if a' = a then b else s.mem.read a').setWidth 32 }

/-- The model's choice (log 13; after a fatal fault no command counts as running): a load or store by the host in the footprint of a running
command is refused, and one where there is no
memory faults; everywhere else it is made: a store writes its byte and changes nothing else, a load returns the byte and changes nothing
else. A command that fails closed, on its checks or its kernel, has no footprint (R80). -/
def Obligations.HostAccessStops : Prop :=
  ∀ (s : State) (a : Nat) (q : List HostMove), HostMovesNext s →
    (∀ move, s.hostQ = move :: q → (move = .load a ∨ ∃ b, move = .store a b) →
      (inRunningFootprint s a = true → step s = .refused (.exclusiveAccessBroken a)) ∧
      (inRunningFootprint s a = false → admissible s.cfg a = false → step s = .fault (.hostNoMemory a))) ∧
    (inRunningFootprint s a = false → admissible s.cfg a = true →
      (∀ b, s.hostQ = .store a b :: q →
        step s = .next { s with hostQ := q, sched := schedAfterHost s, mem := s.mem.write a b }) ∧
      (s.hostQ = .load a :: q →
        step s = .next { s with hostQ := q, sched := schedAfterHost s, lastRead := (s.mem.read a).setWidth 32 })) ∧
    (∀ i, decode s.latch.cmd = some i → ¬ ChecksPass i s → inRunningFootprint s a = false)

/-- `WAIT` reads `STATUS` and is over when the value read has `BUSY = 0` or `FATAL = 1`; otherwise it reads again (R98). -/
def Obligations.WaitReadsUntilTheEnd : Prop :=
  ∀ (s : State) (q : List HostMove), HostMovesNext s → s.hostQ = .wait :: q →
    step s = .next { s with
      hostQ := if s.status.busy = false ∨ s.status.fatal = true then q else .wait :: q
      sched := schedAfterHost s
      lastRead := readOffset s 0x04 }

/-- `SETPB` and `SETYUV` while `IDLE` leave the values in their registers and change nothing else (R98). -/
def Obligations.DescriptorPrograms : Prop :=
  ∀ (s : State) (q : List HostMove), Inv s → s.phase = .idle →
    (∀ b w h st : Word, s.hostQ = HostProgram.setPB b w h st ++ q →
      Host.Core.run core 5 s = .next { s with
        hostQ := q
        regs := { s.regs with pbBase := b, pbWidth := w, pbHeight := h, pbStride := st, pbFormat := 1 } }) ∧
    (∀ yb ys ub urs ups vb vrs vps : Word, s.hostQ = HostProgram.setYUV yb ys ub urs ups vb vrs vps ++ q →
      Host.Core.run core 8 s = .next { s with
        hostQ := q
        regs := { s.regs with
          yBase := yb, yStride := ys, uBase := ub, uRStride := urs, uPStride := ups, vBase := vb, vRStride := vrs,
          vPStride := vps } })

/-- The model's choice (log 16): memory the host unmaps is no memory from then on, so that an access to it is inadmissible (R281 premise 2,
U7); every other address keeps what it is, and nothing else changes. A command that runs to success although a byte of its footprint is
no memory any more is refused: premise 2 is broken and no result is specified (R281, D32). One whose footprint is in memory is not. -/
def Obligations.UnmappedMemoryIsInadmissible : Prop :=
  (∀ (s : State) (gone : MemRegion) (q : List HostMove), HostMovesNext s → s.hostQ = .unmap gone :: q →
    ∃ t, step s = .next t ∧
      t = { s with hostQ := q, sched := schedAfterHost s, cfg := { s.cfg with memMap := t.cfg.memMap } } ∧
      ∀ a, admissible t.cfg a = true ↔ admissible s.cfg a = true ∧ ¬ (gone.base ≤ a ∧ a < gone.base + gone.size)) ∧
  (∀ (i : Instr) (s : State), (∀ hint, i = .yuv2rgba hint → PlanesDisjoint s.latch.regs) →
    (s.phase.active = true → (runCommand (commandOf i) s).phase = .idle → (runCommand (commandOf i) s).status.ok = true →
      ¬ FootprintIn i s → exec i s = .refused .footprintDisappeared) ∧
    (FootprintIn i s → ∃ t, exec i s = .next t))
end

