-- ==== Sys2Proof/Laws/Memory.lean ====
section
/-! SUPPORT. Pixel memory: a read after a write, and the canonical form is kept by every write. -/

namespace Sys2Proof.Machine

namespace Memory

theorem read_of_all_above {m : Memory} {a : Nat} (h : ∀ e ∈ m, a < e.1) : read m a = unlisted := by
  induction m with
  | nil => rfl
  | cons e rest ih =>
    have h1 : a < e.1 := h e (by simp)
    simp only [read, show e.1 ≠ a by omega, if_false]
    exact ih fun e' he' => h e' (by simp [he'])

theorem wf_cons {k : Nat} {b : Byte} {rest : Memory} :
    wf ((k, b) :: rest) = true ↔ b ≠ unlisted ∧ (∀ e ∈ rest, k < e.1) ∧ wf rest = true := by
  simp [wf, and_assoc]

/-- A write shows at its own address and nowhere else, in a memory of canonical form. -/
theorem read_write {m : Memory} (h : wf m = true) (a : Nat) (b : Byte) (a' : Nat) :
    read (write m a b) a' = if a' = a then b else read m a' := by
  induction m with
  | nil =>
    by_cases hb : b = unlisted
    · simp [write, hb, read]
    · by_cases ha : a' = a
      · simp [write, hb, read, ha]
      · simp [write, hb, read, ha, Ne.symm ha]
  | cons e rest ih =>
    obtain ⟨k, v⟩ := e
    obtain ⟨hv, hlt, hrest⟩ := wf_cons.1 h
    unfold write
    by_cases hk : k < a
    · rw [if_pos hk]
      by_cases hka : k = a'
      · subst hka
        simp [read, show ¬ k = a by omega]
      · simp only [read, hka, if_false]
        exact ih hrest
    · rw [if_neg hk]
      have hafter : ∀ a'', read (if k = a then rest else (k, v) :: rest) a'' =
          if k = a ∧ a'' = a then unlisted else read ((k, v) :: rest) a'' := by
        intro a''
        by_cases hka : k = a
        · subst hka
          by_cases h2 : a'' = k
          · subst h2
            simp only [and_self, if_true]
            exact read_of_all_above hlt
          · simp [h2, read, Ne.symm h2]
        · simp [hka]
      by_cases hb : b = unlisted
      · rw [if_pos hb, hafter]
        by_cases h2 : a' = a
        · subst h2
          by_cases hka : k = a'
          · simp [hka, hb]
          · have : read ((k, v) :: rest) a' = unlisted := by
              refine read_of_all_above fun e he => ?_
              rcases List.mem_cons.1 he with rfl | he
              · simp; omega
              · have := hlt e he; omega
            simp [hka, this, hb]
        · simp [h2]
      · rw [if_neg hb]
        by_cases h2 : a = a'
        · simp [read, h2]
        · simp only [read, h2, if_false, Ne.symm h2]
          rw [hafter]
          simp [Ne.symm h2, read]

@[simp] theorem read_write_same {m : Memory} (h : wf m = true) (a : Nat) (b : Byte) :
    read (write m a b) a = b := by
  rw [read_write h]; simp

theorem read_write_other {m : Memory} (h : wf m = true) {a a' : Nat} (hne : a' ≠ a) (b : Byte) :
    read (write m a b) a' = read m a' := by
  rw [read_write h]; simp [hne]

theorem write_above {m : Memory} {lo a : Nat} {b : Byte} (hlo : lo < a) (h : ∀ e ∈ m, lo < e.1) :
    ∀ e ∈ write m a b, lo < e.1 := by
  induction m with
  | nil =>
    intro e he
    unfold write at he
    split at he
    · simp at he
    · simp at he; subst he; exact hlo
  | cons e rest ih =>
    obtain ⟨k, v⟩ := e
    have hk : lo < k := h (k, v) (by simp)
    have hr : ∀ e ∈ rest, lo < e.1 := fun e he => h e (by simp [he])
    intro e he
    unfold write at he
    split at he
    · rcases List.mem_cons.1 he with rfl | he
      · exact hk
      · exact ih hr e he
    · dsimp only at he
      split at he <;> split at he
      · exact hr e he
      · exact h e he
      · rcases List.mem_cons.1 he with rfl | he
        · exact hlo
        · exact hr e he
      · rcases List.mem_cons.1 he with rfl | he
        · exact hlo
        · exact h e he

/-- Every write keeps the canonical form. -/
@[simp] theorem wf_write {m : Memory} (h : wf m = true) (a : Nat) (b : Byte) : wf (write m a b) = true := by
  induction m with
  | nil =>
    unfold write
    split
    · rfl
    · next hb => simp [wf, hb]
  | cons e rest ih =>
    obtain ⟨k, v⟩ := e
    obtain ⟨hv, hlt, hrest⟩ := wf_cons.1 h
    unfold write
    split
    · next hk => exact wf_cons.2 ⟨hv, write_above hk hlt, ih hrest⟩
    · next hk =>
      dsimp only
      have hafter : wf (if k = a then rest else (k, v) :: rest) = true := by
        split
        · exact hrest
        · exact h
      split
      · exact hafter
      · next hb =>
        refine wf_cons.2 ⟨hb, ?_, hafter⟩
        intro e he
        split at he
        · have := hlt e he; omega
        · rcases List.mem_cons.1 he with rfl | he
          · simp; omega
          · have := hlt e he; omega

/-- Two memories of canonical form that read alike everywhere are the same list. -/
theorem ext_of_read {m m' : Memory} (h : wf m = true) (h' : wf m' = true) (heq : ∀ a, read m a = read m' a) : m = m' := by
  induction m generalizing m' with
  | nil =>
    cases m' with
    | nil => rfl
    | cons e rest =>
      obtain ⟨k, v⟩ := e
      exact absurd (heq k).symm (by simpa [read] using (wf_cons.1 h').1)
  | cons e rest ih =>
    obtain ⟨k, v⟩ := e
    obtain ⟨hv, hlt, hrest⟩ := wf_cons.1 h
    cases m' with
    | nil => exact absurd (heq k) (by simpa [read] using hv)
    | cons e' rest' =>
      obtain ⟨k', v'⟩ := e'
      obtain ⟨hv', hlt', hrest'⟩ := wf_cons.1 h'
      have hkk : k = k' := by
        rcases Nat.lt_trichotomy k k' with hk | hk | hk
        · have h1 := heq k
          rw [show read ((k', v') :: rest') k = unlisted from read_of_all_above (by
            intro e he
            rcases List.mem_cons.1 he with rfl | he
            · exact hk
            · exact Nat.lt_trans hk (hlt' e he))] at h1
          exact absurd h1 (by simpa [read] using hv)
        · exact hk
        · have h1 := heq k'
          rw [show read ((k, v) :: rest) k' = unlisted from read_of_all_above (by
            intro e he
            rcases List.mem_cons.1 he with rfl | he
            · exact hk
            · exact Nat.lt_trans hk (hlt e he))] at h1
          exact absurd h1.symm (by simpa [read] using hv')
      subst hkk
      have hvv : v = v' := by simpa [read] using heq k
      subst hvv
      refine congrArg _ (ih hrest hrest' fun a => ?_)
      by_cases ha : k = a
      · subst ha
        rw [read_of_all_above hlt, read_of_all_above hlt']
      · simpa [read, ha] using heq a

end Memory

end Sys2Proof.Machine
end

