-- ==== Sys2Proof/Laws/Access.lean ====
section
/-! SUPPORT. Pixel accesses: what each answers, which bytes it touches, and how pixel bytes lie in memory (R66 to R71). -/

namespace Sys2Proof.Machine

/-! ### Where pixel bytes lie -/

/-- The four bytes of a pixel at address `a` all lie in memory. -/
def FourAdmissible (c : Cfg) (a : Nat) : Prop := ∀ k < 4, admissible c (a + k) = true

theorem pixelByte_eq (g : HostRegs) (x y k : Nat) : pixelAddr g x y + k = g.base + (y * g.stride + (4 * x + k)) := by
  unfold pixelAddr; omega

/-- The rows of the image do not overlap (R116 (a)); an image without rows has none that could (R117). -/
abbrev RowsFit (g : HostRegs) : Prop := g.height ≠ 0 → 4 * g.width ≤ g.stride

/-- A byte of a pixel is a byte of a row. -/
theorem inRows_of_inPixels {g : HostRegs} (hS : RowsFit g) {a : Nat} (h : inPixels g a = true) : inRows g a = true := by
  unfold inPixels at h
  unfold inRows
  simp only [Bool.and_eq_true, decide_eq_true_eq] at *
  obtain ⟨⟨hb, hm⟩, hd⟩ := h
  have hS := hS (Nat.ne_of_gt (Nat.zero_lt_of_lt hd))
  have hpos : 0 < g.stride := by
    by_contra h0
    have : g.width = 0 := by omega
    omega
  have := (Nat.div_lt_iff_lt_mul hpos).1 hd
  omega

/-- A byte of a pixel is one of the bytes some pixel of the image accounts for, whatever the stride. -/
theorem pixelByte_of_inPixels {g : HostRegs} {a : Nat} (h : inPixels g a = true) :
    ∃ x < g.width, ∃ y < g.height, ∃ k < 4, a = pixelAddr g x y + k := by
  unfold inPixels at h
  simp only [Bool.and_eq_true, decide_eq_true_eq] at h
  obtain ⟨⟨hb, hm⟩, hd⟩ := h
  refine ⟨(a - g.base) % g.stride / 4, by omega, (a - g.base) / g.stride, hd, (a - g.base) % g.stride % 4, by omega, ?_⟩
  have h1 := Nat.div_add_mod' (a - g.base) g.stride
  unfold pixelAddr
  omega

theorem inPixels_iff {g : HostRegs} (hS : RowsFit g) (a : Nat) :
    inPixels g a = true ↔ ∃ x < g.width, ∃ y < g.height, ∃ k < 4, a = pixelAddr g x y + k := by
  unfold inPixels
  simp only [Bool.and_eq_true, decide_eq_true_eq]
  constructor
  · rintro ⟨⟨hb, hm⟩, hd⟩
    refine ⟨(a - g.base) % g.stride / 4, by omega, (a - g.base) / g.stride, hd, (a - g.base) % g.stride % 4, by omega, ?_⟩
    have h1 := Nat.div_add_mod' (a - g.base) g.stride
    rw [pixelByte_eq]
    omega
  · rintro ⟨x, hx, y, hy, k, hk, rfl⟩
    rw [pixelByte_eq]
    have hr : 4 * x + k < g.stride := by
      have := hS (by omega)
      omega
    have hsub : g.base + (y * g.stride + (4 * x + k)) - g.base = (4 * x + k) + y * g.stride := by omega
    rw [hsub, Nat.add_mul_mod_self_right, Nat.add_mul_div_right _ _ (by omega), Nat.mod_eq_of_lt hr, Nat.div_eq_of_lt hr]
    exact ⟨⟨by omega, by omega⟩, by omega⟩

theorem pixelByte_inj {g : HostRegs} (hS : 4 * g.width ≤ g.stride) {x y k x' y' k' : Nat}
    (hx : x < g.width) (hk : k < 4) (hx' : x' < g.width) (hk' : k' < 4)
    (h : pixelAddr g x y + k = pixelAddr g x' y' + k') : x = x' ∧ y = y' ∧ k = k' := by
  rw [pixelByte_eq, pixelByte_eq] at h
  have h0 : (4 * x + k) + y * g.stride = (4 * x' + k') + y' * g.stride := by omega
  have hr : 4 * x + k < g.stride := by omega
  have hr' : 4 * x' + k' < g.stride := by omega
  have h1 := congrArg (· % g.stride) h0
  have h2 := congrArg (· / g.stride) h0
  simp only [Nat.add_mul_mod_self_right, Nat.add_mul_div_right _ _ (show 0 < g.stride by omega), Nat.mod_eq_of_lt hr,
    Nat.mod_eq_of_lt hr', Nat.div_eq_of_lt hr, Nat.div_eq_of_lt hr'] at h1 h2
  omega

/-! ### Reads -/

theorem memRead_four_ok {c : Cfg} {m : Memory} {a : Nat} (h : FourAdmissible c a) :
    memRead c m a 4 = .ok [m.read a, m.read (a + 1), m.read (a + 2), m.read (a + 3)] := by
  have h0 := h 0 (by omega)
  have h1 := h 1 (by omega)
  have h2 := h 2 (by omega)
  have h3 := h 3 (by omega)
  simp only [Nat.add_zero] at h0
  simp [memRead, h0, h1, Nat.add_assoc, h2, h3, Except.map]

/-- One of the four bytes lies in no memory. -/
theorem not_fourAdmissible {c : Cfg} {a : Nat} (h : ¬ FourAdmissible c a) :
    admissible c a = false ∨ admissible c (a + 1) = false ∨ admissible c (a + 2) = false ∨ admissible c (a + 3) = false := by
  by_contra hc
  simp only [not_or, Bool.not_eq_false] at hc
  refine h fun k hk => ?_
  interval_cases k
  · exact hc.1
  · exact hc.2.1
  · exact hc.2.2.1
  · exact hc.2.2.2

theorem memRead_four_error {c : Cfg} {m : Memory} {a : Nat} (h : ¬ FourAdmissible c a) :
    ∃ e, memRead c m a 4 = .error e := by
  have h' := not_fourAdmissible h
  simp only [memRead, Nat.add_assoc, Nat.reduceAdd]
  cases b0 : admissible c a <;> cases b1 : admissible c (a + 1) <;> cases b2 : admissible c (a + 2) <;>
    cases b3 : admissible c (a + 3) <;> simp_all [Except.map]

theorem pixRead_ok {c : Cfg} {g : HostRegs} {m : Memory} {x y : Nat} (h : FourAdmissible c (pixelAddr g x y)) :
    pixRead c g m x y = .ok (m.pixelAt (pixelAddr g x y)) := by
  unfold pixRead
  rw [memRead_four_ok h]
  rfl

theorem pixRead_error {c : Cfg} {g : HostRegs} {m : Memory} {x y : Nat} (h : ¬ FourAdmissible c (pixelAddr g x y)) :
    ∃ e, pixRead c g m x y = .error e := by
  obtain ⟨e, he⟩ := memRead_four_error (m := m) h
  exact ⟨e, by simp [pixRead, he]⟩

theorem pixRead_cases (c : Cfg) (g : HostRegs) (m : Memory) (x y : Nat) :
    (FourAdmissible c (pixelAddr g x y) ∧ pixRead c g m x y = .ok (m.pixelAt (pixelAddr g x y))) ∨
    (¬ FourAdmissible c (pixelAddr g x y) ∧ ∃ e, pixRead c g m x y = .error e) := by
  by_cases h : FourAdmissible c (pixelAddr g x y)
  · exact .inl ⟨h, pixRead_ok h⟩
  · exact .inr ⟨h, pixRead_error h⟩

/-! ### Writes -/

/-- Memory after the four bytes of a pixel have been written at address `a`. -/
def Memory.putPixel (m : Memory) (a : Nat) (p : Pixel) : Memory :=
  (((m.write a p.r).write (a + 1) p.g).write (a + 2) p.b).write (a + 3) p.a

@[simp] theorem Memory.wf_putPixel {m : Memory} (h : m.wf = true) (a : Nat) (p : Pixel) : (m.putPixel a p).wf = true := by
  unfold Memory.putPixel
  exact Memory.wf_write (Memory.wf_write (Memory.wf_write (Memory.wf_write h _ _) _ _) _ _) _ _

theorem Memory.read_putPixel_other {m : Memory} (h : m.wf = true) {a a' : Nat} (p : Pixel)
    (ho : ∀ k < 4, a' ≠ a + k) : (m.putPixel a p).read a' = m.read a' := by
  unfold Memory.putPixel
  have h0 := ho 0 (by omega)
  have h1 := ho 1 (by omega)
  have h2 := ho 2 (by omega)
  have h3 := ho 3 (by omega)
  simp only [Nat.add_zero] at h0
  rw [Memory.read_write_other (Memory.wf_write (Memory.wf_write (Memory.wf_write h _ _) _ _) _ _) h3,
    Memory.read_write_other (Memory.wf_write (Memory.wf_write h _ _) _ _) h2,
    Memory.read_write_other (Memory.wf_write h _ _) h1, Memory.read_write_other h h0]

theorem Memory.pixelAt_putPixel_same {m : Memory} (h : m.wf = true) (a : Nat) (p : Pixel) :
    (m.putPixel a p).pixelAt a = p := by
  have w1 := Memory.wf_write h a p.r
  have w2 := Memory.wf_write w1 (a + 1) p.g
  have w3 := Memory.wf_write w2 (a + 2) p.b
  unfold Memory.pixelAt Memory.putPixel
  cases p
  simp only [Memory.read_write w3, Memory.read_write w2, Memory.read_write w1, Memory.read_write h]
  simp

theorem Memory.pixelAt_congr {m m' : Memory} {a : Nat} (h : ∀ k < 4, m.read (a + k) = m'.read (a + k)) :
    m.pixelAt a = m'.pixelAt a := by
  unfold Memory.pixelAt
  rw [show m.read a = m'.read a from h 0 (by omega), h 1 (by omega), h 2 (by omega), h 3 (by omega)]

theorem Memory.pixelAt_putPixel_other {m : Memory} (h : m.wf = true) {a a' : Nat} (p : Pixel)
    (hd : ∀ k < 4, ∀ k' < 4, a' + k ≠ a + k') : (m.putPixel a p).pixelAt a' = m.pixelAt a' :=
  Memory.pixelAt_congr fun k hk => Memory.read_putPixel_other h p fun k' hk' => hd k hk k' hk'

theorem pixWrite_ok {c : Cfg} {g : HostRegs} {m : Memory} {x y : Nat} {p : Pixel} (h : FourAdmissible c (pixelAddr g x y)) :
    pixWrite c g m x y p = .ok (m.putPixel (pixelAddr g x y) p) := by
  have h0 := h 0 (by omega)
  have h1 := h 1 (by omega)
  have h2 := h 2 (by omega)
  have h3 := h 3 (by omega)
  simp only [Nat.add_zero] at h0
  unfold pixWrite Memory.putPixel
  simp [memWrite, h0, h1, Nat.add_assoc, h2, h3]

theorem pixWrite_error {c : Cfg} {g : HostRegs} {m : Memory} {x y : Nat} {p : Pixel}
    (h : ¬ FourAdmissible c (pixelAddr g x y)) : ∃ e, pixWrite c g m x y p = .error e := by
  have h' := not_fourAdmissible h
  unfold pixWrite
  simp only [memWrite, Nat.add_assoc, Nat.reduceAdd]
  cases b0 : admissible c (pixelAddr g x y) <;> cases b1 : admissible c (pixelAddr g x y + 1) <;>
    cases b2 : admissible c (pixelAddr g x y + 2) <;> cases b3 : admissible c (pixelAddr g x y + 3) <;> simp_all

/-! ### Sequences of accesses -/

theorem gather_ok {ε α β : Type} {f : α → Except ε β} {h : α → β} {l : List α} (hf : ∀ a ∈ l, f a = .ok (h a)) :
    gather f l = .ok (l.map h) := by
  induction l with
  | nil => rfl
  | cons a l ih =>
    simp only [gather, hf a (by simp), ih fun b hb => hf b (by simp [hb])]
    rfl

theorem gather_error {ε α β : Type} {f : α → Except ε β} {l : List α} {a : α} (ha : a ∈ l) {e : ε} (hf : f a = .error e) :
    ∃ e', gather f l = .error e' := by
  induction l with
  | nil => simp at ha
  | cons b l ih =>
    unfold gather
    cases hb : f b with
    | error e' => exact ⟨e', rfl⟩
    | ok v =>
      have hal : a ∈ l := by
        rcases List.mem_cons.1 ha with rfl | h
        · rw [hf] at hb; cases hb
        · exact h
      obtain ⟨e', he'⟩ := ih hal
      exact ⟨e', by simp [he']⟩

/-- Every write of a pixel sequence at distinct pixels, all in memory: it goes through; each pixel named holds its value after it,
and every byte of no pixel named is unchanged. -/
theorem thread_pixWrite {c : Cfg} {g : HostRegs} (hS : RowsFit g)
    {l : List ((Nat × Nat) × Pixel)} {m : Memory} (hwf : m.wf = true)
    (hadm : ∀ e ∈ l, FourAdmissible c (pixelAddr g e.1.1 e.1.2))
    (hin : ∀ e ∈ l, e.1.1 < g.width ∧ e.1.2 < g.height) (hnd : (l.map Prod.fst).Nodup) :
    ∃ m', thread (fun m e => pixWrite c g m e.1.1 e.1.2 e.2) m l = .ok m' ∧ m'.wf = true ∧
      (∀ e ∈ l, m'.pixelAt (pixelAddr g e.1.1 e.1.2) = e.2) ∧
      (∀ a, (∀ e ∈ l, ∀ k < 4, a ≠ pixelAddr g e.1.1 e.1.2 + k) → m'.read a = m.read a) := by
  induction l generalizing m with
  | nil => exact ⟨m, rfl, hwf, by simp, by simp⟩
  | cons e l ih =>
    have hw : pixWrite c g m e.1.1 e.1.2 e.2 = .ok (m.putPixel (pixelAddr g e.1.1 e.1.2) e.2) :=
      pixWrite_ok (hadm e (by simp))
    rw [List.map_cons, List.nodup_cons] at hnd
    obtain ⟨m', hrun, hwf', hpx, hother⟩ := ih (m := m.putPixel (pixelAddr g e.1.1 e.1.2) e.2) (Memory.wf_putPixel hwf _ _)
      (fun e' he' => hadm e' (by simp [he'])) (fun e' he' => hin e' (by simp [he'])) hnd.2
    refine ⟨m', ?_, hwf', ?_, ?_⟩
    · simp only [thread, hw, hrun]
    · intro e' he'
      rcases List.mem_cons.1 he' with rfl | he'
      · rw [← Memory.pixelAt_putPixel_same hwf (pixelAddr g e'.1.1 e'.1.2) e'.2]
        refine Memory.pixelAt_congr fun k hk => hother _ fun e2 he2 k' hk' heq => hnd.1 ?_
        obtain ⟨h1, h2, -⟩ := pixelByte_inj (hS (Nat.ne_of_gt (Nat.zero_lt_of_lt (hin e' (by simp)).2)))
          (hin e' (by simp)).1 hk (hin e2 (by simp [he2])).1 hk' heq
        have : e'.1 = e2.1 := Prod.ext h1 h2
        rw [this]
        exact List.mem_map_of_mem he2
      · exact hpx e' he'
    · intro a ha
      rw [hother a fun e' he' => ha e' (by simp [he'])]
      exact Memory.read_putPixel_other hwf _ (ha e (by simp))

end Sys2Proof.Machine
end

