-- ==== Sys2Proof/Laws/Plan.lean ====
section
/-! SUPPORT. Plans, tasks and cursors (R119 to R122, R127): the items a cursor still has before it, and that the tasks of a pool
hold every item exactly once. -/

namespace Sys2Proof.Machine

/-- The items of unit `u`, first to last. -/
def unitItems (p : Plan) (u : Nat) : List Item := (List.range p.perUnit).map (p.item u)

/-- The tail items of a task from number `j` on: none unless the task owns the tail. -/
def tailFrom (p : Plan) (t : Task) (j : Nat) : List Item :=
  if t.tail then (List.range' j (p.tail - j)).map p.tailItem else []

/-- The items of a task, in the order of R127. -/
def taskItems (p : Plan) (t : Task) : List Item :=
  (List.range' t.first t.count).flatMap (unitItems p) ++ tailFrom p t 0

/-- The items a cursor still has before it. -/
def restItems (p : Plan) (t : Task) (cur : Cursor) : List Item :=
  if cur.unit < t.first + t.count then
    (List.range' cur.item (p.perUnit - cur.item)).map (p.item cur.unit)
      ++ (List.range' (cur.unit + 1) (t.first + t.count - (cur.unit + 1))).flatMap (unitItems p) ++ tailFrom p t 0
  else tailFrom p t cur.item

/-- A cursor inside a unit stands at an item of it. -/
def CursorOk (p : Plan) (t : Task) (cur : Cursor) : Prop := cur.unit < t.first + t.count → cur.item < p.perUnit

/-- Every item of a plan, in ascending order, the tail last. -/
def allItems (p : Plan) : List Item :=
  (List.range p.units).flatMap (unitItems p) ++ (List.range p.tail).map p.tailItem

theorem unitItems_eq (p : Plan) (u : Nat) : unitItems p u = (List.range' 0 p.perUnit).map (p.item u) := by
  rw [unitItems, List.range_eq_range']

theorem cursorOk_start (p : Plan) (t : Task) : CursorOk p t (startCursor p t) := by
  unfold CursorOk startCursor
  split
  · simp
  · intro _; simp only; omega

theorem restItems_start (p : Plan) (t : Task) : restItems p t (startCursor p t) = taskItems p t := by
  unfold restItems startCursor taskItems
  split
  · next h => simp [unitItems, h]
  · next h =>
    simp only
    by_cases hc : t.count = 0
    · simp [hc]
    · rw [if_pos (by omega), Nat.sub_zero, ← unitItems_eq]
      obtain ⟨n, hn⟩ : ∃ n, t.count = n + 1 := ⟨t.count - 1, by omega⟩
      rw [hn, List.range'_succ, List.flatMap_cons, show t.first + (n + 1) - (t.first + 1) = n by omega]

theorem cursorOk_advance {p : Plan} {t : Task} {cur : Cursor} (h : CursorOk p t cur) : CursorOk p t (advance p t cur) := by
  unfold CursorOk advance at *
  split
  · next hu =>
    split
    · next hi => intro _; exact hi
    · intro _; simp only; have := h hu; omega
  · next hu => intro h'; exact absurd h' hu

theorem restItems_advance {p : Plan} {t : Task} {cur : Cursor} (h : CursorOk p t cur) {it : Item}
    (hit : itemAt p t cur = some it) : restItems p t cur = it :: restItems p t (advance p t cur) := by
  unfold itemAt at hit
  split at hit
  · next hu =>
    injection hit with hit
    subst hit
    have hi := h hu
    unfold restItems advance
    rw [if_pos hu, if_pos hu]
    obtain ⟨d, hd⟩ : ∃ d, p.perUnit - cur.item = d + 1 := ⟨p.perUnit - cur.item - 1, by omega⟩
    by_cases hnext : cur.item + 1 < p.perUnit
    · rw [if_pos hnext, if_pos hu, hd, List.range'_succ, show p.perUnit - (cur.item + 1) = d by omega]
      simp
    · rw [if_neg hnext]
      have hd0 : d = 0 := by omega
      subst hd0
      rw [hd]
      by_cases hlast : cur.unit + 1 < t.first + t.count
      · obtain ⟨n, hn⟩ : ∃ n, t.first + t.count - (cur.unit + 1) = n + 1 := ⟨t.first + t.count - (cur.unit + 1) - 1, by omega⟩
        simp only [if_pos hlast]
        rw [hn, List.range'_succ (n := n), List.flatMap_cons, unitItems_eq]
        simp [show t.first + t.count - (cur.unit + 1 + 1) = n by omega, List.range'_succ]
      · simp only [if_neg hlast]
        simp [show t.first + t.count - (cur.unit + 1) = 0 by omega, List.range'_succ]
  · next hu =>
    split at hit
    · next ht =>
      simp only [Bool.and_eq_true, decide_eq_true_eq] at ht
      injection hit with hit
      subst hit
      unfold restItems advance
      rw [if_neg hu, if_neg hu, if_neg hu]
      obtain ⟨d, hd⟩ : ∃ d, p.tail - cur.item = d + 1 := ⟨p.tail - cur.item - 1, by omega⟩
      unfold tailFrom
      rw [if_pos ht.1, if_pos ht.1, hd, List.range'_succ, show p.tail - (cur.item + 1) = d by omega]
      simp
    · cases hit

theorem restItems_end {p : Plan} {t : Task} {cur : Cursor} (hit : itemAt p t cur = none) : restItems p t cur = [] := by
  unfold itemAt at hit
  split at hit
  · cases hit
  · next hu =>
    split at hit
    · cases hit
    · next ht =>
      unfold restItems tailFrom
      rw [if_neg hu]
      split
      · next h1 =>
        simp only [h1, Bool.true_and, decide_eq_true_eq] at ht
        simp [show p.tail - cur.item = 0 by omega]
      · rfl

/-- The scalar path's one task holds the items of the plan, when the plan has no tail. -/
theorem taskItems_whole {p : Plan} (h : p.tail = 0) : taskItems p (wholeTask p) = allItems p := by
  simp [taskItems, wholeTask, allItems, tailFrom, h, List.range_eq_range']

/-! ### The partition (R120) -/

theorem taskOf_first_succ (u n : Nat) (pw : Bool) (i : Nat) :
    (taskOf u n pw (i + 1)).first = (taskOf u n pw i).first + (taskOf u n pw i).count := by
  simp only [taskOf, Nat.add_mul, Nat.one_mul]
  split <;> omega

theorem taskOf_first_zero (u n : Nat) (pw : Bool) : (taskOf u n pw 0).first = 0 := by simp [taskOf]

theorem taskOf_last {u n : Nat} (hn : 0 < n) (pw : Bool) : (taskOf u n pw n).first = u := by
  have h1 := Nat.div_add_mod' u n
  have h2 := Nat.mod_lt u hn
  simp only [taskOf]
  rw [Nat.min_eq_right (by omega), Nat.mul_comm]
  omega

/-- The units of the first `i` tasks are the units below the first of task `i`. -/
theorem taskOf_units (u n : Nat) (pw : Bool) (i : Nat) :
    (List.range i).flatMap (fun j => List.range' (taskOf u n pw j).first (taskOf u n pw j).count)
      = List.range (taskOf u n pw i).first := by
  induction i with
  | zero => simp [taskOf_first_zero]
  | succ i ih =>
    rw [List.range_succ, List.flatMap_append, ih, taskOf_first_succ, List.range_eq_range', List.range_eq_range']
    simp only [List.flatMap_cons, List.flatMap_nil, List.append_nil]
    simpa using List.range'_append_1 (s := 0) (m := (taskOf u n pw i).first) (n := (taskOf u n pw i).count)

/-- The items of the tasks cut from a plan, together, are the items of the plan. -/
theorem taskItems_partition {p : Plan} {n : Nat} (hn : 0 < n) {pw : Bool} (htail : pw = false → p.tail = 0) :
    List.Perm ((List.range n).flatMap fun i => taskItems p (taskOf p.units n pw i)) (allItems p) := by
  have hunits : (List.range n).flatMap
      (fun i => (List.range' (taskOf p.units n pw i).first (taskOf p.units n pw i).count).flatMap (unitItems p))
      = (List.range p.units).flatMap (unitItems p) := by
    rw [← taskOf_last (u := p.units) hn pw, ← taskOf_units, List.flatMap_assoc]
    simp only [taskOf_last (u := p.units) hn pw]
  have htl : (List.range n).flatMap (fun i => tailFrom p (taskOf p.units n pw i) 0) = (List.range p.tail).map p.tailItem := by
    obtain ⟨m, rfl⟩ : ∃ m, n = m + 1 := ⟨n - 1, by omega⟩
    rw [List.range_succ, List.flatMap_append]
    have hfirst : (List.range m).flatMap (fun i => tailFrom p (taskOf p.units (m + 1) pw i) 0) = [] := by
      rw [List.flatMap_eq_nil_iff]
      intro i hi
      have : i < m := by simpa using hi
      simp [tailFrom, taskOf, show ¬ i = m by omega]
    rw [hfirst]
    cases pw with
    | false => simp [tailFrom, taskOf, htail rfl]
    | true => simp [tailFrom, taskOf, List.range_eq_range']
  unfold taskItems allItems
  rw [← hunits, ← htl]
  exact (List.flatMap_append_perm _ _ _).symm

end Sys2Proof.Machine
end

