-- ==== Sys2Proof/Laws/State.lean ====
section
/-! SUPPORT. One lemma a field for each shared update of the state, so that no later proof unfolds a record update. -/

namespace Sys2Proof.Machine

/-! ### `acceptCommand` -/

@[simp] theorem acceptCommand_regs (c : Word) (s : State) :
    (acceptCommand c s).regs = s.regs := rfl
@[simp] theorem acceptCommand_status (c : Word) (s : State) :
    (acceptCommand c s).status = s.status.accepted := rfl
@[simp] theorem acceptCommand_latch (c : Word) (s : State) :
    (acceptCommand c s).latch = ⟨c, s.regs⟩ := rfl
@[simp] theorem acceptCommand_phase (c : Word) (s : State) :
    (acceptCommand c s).phase = .validate := rfl
@[simp] theorem acceptCommand_cursor (c : Word) (s : State) :
    (acceptCommand c s).cursor = s.cursor := rfl
@[simp] theorem acceptCommand_kernel (c : Word) (s : State) :
    (acceptCommand c s).kernel = s.kernel := rfl
@[simp] theorem acceptCommand_workers (c : Word) (s : State) :
    (acceptCommand c s).workers = s.workers := rfl
@[simp] theorem acceptCommand_queue (c : Word) (s : State) :
    (acceptCommand c s).queue = s.queue := rfl
@[simp] theorem acceptCommand_stop (c : Word) (s : State) :
    (acceptCommand c s).stop = s.stop := rfl
@[simp] theorem acceptCommand_out (c : Word) (s : State) :
    (acceptCommand c s).out = s.out := rfl
@[simp] theorem acceptCommand_mem (c : Word) (s : State) :
    (acceptCommand c s).mem = s.mem := rfl
@[simp] theorem acceptCommand_cfg (c : Word) (s : State) :
    (acceptCommand c s).cfg = s.cfg := rfl
@[simp] theorem acceptCommand_hostQ (c : Word) (s : State) :
    (acceptCommand c s).hostQ = s.hostQ := rfl
@[simp] theorem acceptCommand_lastRead (c : Word) (s : State) :
    (acceptCommand c s).lastRead = s.lastRead := rfl
@[simp] theorem acceptCommand_sched (c : Word) (s : State) :
    (acceptCommand c s).sched = s.sched := rfl
@[simp] theorem acceptCommand_memAtAccept (c : Word) (s : State) :
    (acceptCommand c s).memAtAccept = s.mem := rfl
@[simp] theorem acceptCommand_freeCount (c : Word) (s : State) :
    (acceptCommand c s).freeCount = s.freeCount := rfl

/-! ### `failClosed` -/

@[simp] theorem failClosed_regs (e : ErrCode) (s : State) :
    (failClosed e s).regs = s.regs := rfl
@[simp] theorem failClosed_status (e : ErrCode) (s : State) :
    (failClosed e s).status = s.status.failed e := rfl
@[simp] theorem failClosed_latch (e : ErrCode) (s : State) :
    (failClosed e s).latch = s.latch := rfl
@[simp] theorem failClosed_phase (e : ErrCode) (s : State) :
    (failClosed e s).phase = .idle := rfl
@[simp] theorem failClosed_cursor (e : ErrCode) (s : State) :
    (failClosed e s).cursor = s.cursor := rfl
@[simp] theorem failClosed_kernel (e : ErrCode) (s : State) :
    (failClosed e s).kernel = s.kernel := rfl
@[simp] theorem failClosed_workers (e : ErrCode) (s : State) :
    (failClosed e s).workers = s.workers := rfl
@[simp] theorem failClosed_queue (e : ErrCode) (s : State) :
    (failClosed e s).queue = s.queue := rfl
@[simp] theorem failClosed_stop (e : ErrCode) (s : State) :
    (failClosed e s).stop = s.stop := rfl
@[simp] theorem failClosed_out (e : ErrCode) (s : State) :
    (failClosed e s).out = s.out := rfl
@[simp] theorem failClosed_mem (e : ErrCode) (s : State) :
    (failClosed e s).mem = s.mem := rfl
@[simp] theorem failClosed_cfg (e : ErrCode) (s : State) :
    (failClosed e s).cfg = s.cfg := rfl
@[simp] theorem failClosed_hostQ (e : ErrCode) (s : State) :
    (failClosed e s).hostQ = s.hostQ := rfl
@[simp] theorem failClosed_lastRead (e : ErrCode) (s : State) :
    (failClosed e s).lastRead = s.lastRead := rfl
@[simp] theorem failClosed_sched (e : ErrCode) (s : State) :
    (failClosed e s).sched = s.sched := rfl
@[simp] theorem failClosed_memAtAccept (e : ErrCode) (s : State) :
    (failClosed e s).memAtAccept = s.memAtAccept := rfl
@[simp] theorem failClosed_freeCount (e : ErrCode) (s : State) :
    (failClosed e s).freeCount = s.freeCount := rfl

/-! ### `takeFatalFault` -/

@[simp] theorem takeFatalFault_regs (cut : CutBytes) (s : State) :
    (takeFatalFault cut s).regs = s.regs := rfl
@[simp] theorem takeFatalFault_status (cut : CutBytes) (s : State) :
    (takeFatalFault cut s).status = s.status.fatally := rfl
@[simp] theorem takeFatalFault_latch (cut : CutBytes) (s : State) :
    (takeFatalFault cut s).latch = s.latch := rfl
@[simp] theorem takeFatalFault_phase (cut : CutBytes) (s : State) :
    (takeFatalFault cut s).phase = .halted := rfl
@[simp] theorem takeFatalFault_cursor (cut : CutBytes) (s : State) :
    (takeFatalFault cut s).cursor = s.cursor := rfl
@[simp] theorem takeFatalFault_kernel (cut : CutBytes) (s : State) :
    (takeFatalFault cut s).kernel = s.kernel := rfl
@[simp] theorem takeFatalFault_workers (cut : CutBytes) (s : State) :
    (takeFatalFault cut s).workers = [] := rfl
@[simp] theorem takeFatalFault_queue (cut : CutBytes) (s : State) :
    (takeFatalFault cut s).queue = [] := rfl
@[simp] theorem takeFatalFault_stop (cut : CutBytes) (s : State) :
    (takeFatalFault cut s).stop = false := rfl
@[simp] theorem takeFatalFault_out (cut : CutBytes) (s : State) :
    (takeFatalFault cut s).out = s.out := rfl
@[simp] theorem takeFatalFault_mem (cut : CutBytes) (s : State) :
    (takeFatalFault cut s).mem = cutFootprint s cut := rfl
@[simp] theorem takeFatalFault_cfg (cut : CutBytes) (s : State) :
    (takeFatalFault cut s).cfg = s.cfg := rfl
@[simp] theorem takeFatalFault_hostQ (cut : CutBytes) (s : State) :
    (takeFatalFault cut s).hostQ = s.hostQ := rfl
@[simp] theorem takeFatalFault_lastRead (cut : CutBytes) (s : State) :
    (takeFatalFault cut s).lastRead = s.lastRead := rfl
@[simp] theorem takeFatalFault_sched (cut : CutBytes) (s : State) :
    (takeFatalFault cut s).sched = s.sched := rfl
@[simp] theorem takeFatalFault_memAtAccept (cut : CutBytes) (s : State) :
    (takeFatalFault cut s).memAtAccept = s.memAtAccept := rfl
@[simp] theorem takeFatalFault_freeCount (cut : CutBytes) (s : State) :
    (takeFatalFault cut s).freeCount = s.freeCount + 1 := rfl

/-! ### `resetEvent` -/

@[simp] theorem resetEvent_regs (cut : CutBytes) (s : State) :
    (resetEvent cut s).regs = HostRegs.zero := rfl
@[simp] theorem resetEvent_status (cut : CutBytes) (s : State) :
    (resetEvent cut s).status = Status.cleared := rfl
@[simp] theorem resetEvent_latch (cut : CutBytes) (s : State) :
    (resetEvent cut s).latch = ⟨0, HostRegs.zero⟩ := rfl
@[simp] theorem resetEvent_phase (cut : CutBytes) (s : State) :
    (resetEvent cut s).phase = .idle := rfl
@[simp] theorem resetEvent_cursor (cut : CutBytes) (s : State) :
    (resetEvent cut s).cursor = ⟨0, 0⟩ := rfl
@[simp] theorem resetEvent_kernel (cut : CutBytes) (s : State) :
    (resetEvent cut s).kernel = ⟨0, [0]⟩ := rfl
@[simp] theorem resetEvent_workers (cut : CutBytes) (s : State) :
    (resetEvent cut s).workers = [] := rfl
@[simp] theorem resetEvent_queue (cut : CutBytes) (s : State) :
    (resetEvent cut s).queue = [] := rfl
@[simp] theorem resetEvent_stop (cut : CutBytes) (s : State) :
    (resetEvent cut s).stop = false := rfl
@[simp] theorem resetEvent_out (cut : CutBytes) (s : State) :
    (resetEvent cut s).out = [] := rfl
@[simp] theorem resetEvent_mem (cut : CutBytes) (s : State) :
    (resetEvent cut s).mem = cutFootprint s cut := rfl
@[simp] theorem resetEvent_cfg (cut : CutBytes) (s : State) :
    (resetEvent cut s).cfg = s.cfg := rfl
@[simp] theorem resetEvent_hostQ (cut : CutBytes) (s : State) :
    (resetEvent cut s).hostQ = s.hostQ := rfl
@[simp] theorem resetEvent_lastRead (cut : CutBytes) (s : State) :
    (resetEvent cut s).lastRead = s.lastRead := rfl
@[simp] theorem resetEvent_sched (cut : CutBytes) (s : State) :
    (resetEvent cut s).sched = s.sched := rfl
@[simp] theorem resetEvent_memAtAccept (cut : CutBytes) (s : State) :
    (resetEvent cut s).memAtAccept = [] := rfl
@[simp] theorem resetEvent_freeCount (cut : CutBytes) (s : State) :
    (resetEvent cut s).freeCount = s.freeCount + 1 := rfl

/-! ### `endSuccess` -/

@[simp] theorem endSuccess_regs (k : Command) (s : State) :
    (endSuccess k s).regs = s.regs := rfl
@[simp] theorem endSuccess_status (k : Command) (s : State) :
    (endSuccess k s).status = s.status.succeeded := rfl
@[simp] theorem endSuccess_latch (k : Command) (s : State) :
    (endSuccess k s).latch = s.latch := rfl
@[simp] theorem endSuccess_phase (k : Command) (s : State) :
    (endSuccess k s).phase = .idle := rfl
@[simp] theorem endSuccess_cursor (k : Command) (s : State) :
    (endSuccess k s).cursor = s.cursor := rfl
@[simp] theorem endSuccess_kernel (k : Command) (s : State) :
    (endSuccess k s).kernel = if k.family = .neighbourhood then freeKernel s.cfg s.freeCount else s.kernel := rfl
@[simp] theorem endSuccess_workers (k : Command) (s : State) :
    (endSuccess k s).workers = s.workers := rfl
@[simp] theorem endSuccess_queue (k : Command) (s : State) :
    (endSuccess k s).queue = s.queue := rfl
@[simp] theorem endSuccess_stop (k : Command) (s : State) :
    (endSuccess k s).stop = s.stop := rfl
@[simp] theorem endSuccess_out (k : Command) (s : State) :
    (endSuccess k s).out = if k.family = .neighbourhood then freeScratch s.latch.regs s.freeCount else s.out := rfl
@[simp] theorem endSuccess_mem (k : Command) (s : State) :
    (endSuccess k s).mem = s.mem := rfl
@[simp] theorem endSuccess_cfg (k : Command) (s : State) :
    (endSuccess k s).cfg = s.cfg := rfl
@[simp] theorem endSuccess_hostQ (k : Command) (s : State) :
    (endSuccess k s).hostQ = s.hostQ := rfl
@[simp] theorem endSuccess_lastRead (k : Command) (s : State) :
    (endSuccess k s).lastRead = s.lastRead := rfl
@[simp] theorem endSuccess_sched (k : Command) (s : State) :
    (endSuccess k s).sched = s.sched := rfl
@[simp] theorem endSuccess_memAtAccept (k : Command) (s : State) :
    (endSuccess k s).memAtAccept = s.memAtAccept := rfl
@[simp] theorem endSuccess_freeCount (k : Command) (s : State) :
    (endSuccess k s).freeCount = s.freeCount + 1 := rfl

end Sys2Proof.Machine
end

