-- ==== Sys2Proof/Laws/Engine.lean ====
section
/-! SUPPORT. The run of a command, once for all commands: under every schedule that gives the host no turn, on both paths, the
engine executes every item of the plan exactly once, copies back where the command does, and ends in success, or takes the
fatal fault at the first access fault. A command's own part is a `Sem`: what its items do to the stores. -/

namespace Sys2Proof.Machine

/-! ### One engine step is one step of an enabled agent -/

theorem nextTurn_rest (l : List Turn) : ∀ t ∈ (nextTurn l).2, t ∈ l := by
  intro t ht
  cases l with
  | nil => simp [nextTurn] at ht
  | cons a l => cases a <;> simp_all [nextTurn]

theorem engineStep_cases (k : Command) (s : State) (h : enabledAgents s ≠ []) :
    ∃ a ∈ enabledAgents s, ∃ sc, (∀ t ∈ sc, t ∈ s.sched) ∧ engineStep k s = agentStep k a { s with sched := sc } := by
  have hlen : 0 < (enabledAgents s).length := List.length_pos_iff.2 h
  have hlt : (nextTurn s.sched).1 % (enabledAgents s).length < (enabledAgents s).length := Nat.mod_lt _ hlen
  refine ⟨(enabledAgents s)[(nextTurn s.sched).1 % (enabledAgents s).length], List.getElem_mem hlt, (nextTurn s.sched).2,
    nextTurn_rest _, ?_⟩
  simp only [engineStep]
  rw [List.getElem?_eq_getElem hlt]

theorem mem_enabled {s : State} {a : Agent} (h : a ∈ enabledAgents s) :
    (a = .seq ∧ seqEnabled s = true) ∨
    ∃ i < s.workers.length, a = .worker i ∧ workerEnabled s (s.workers.getD i .absent) = true := by
  unfold enabledAgents at h
  rcases List.mem_append.1 h with h | h
  · split at h
    · next hs => exact .inl ⟨by simpa using h, hs⟩
    · simp at h
  · obtain ⟨i, hi, rfl⟩ := List.mem_map.1 h
    obtain ⟨hi, hw⟩ := List.mem_filter.1 hi
    exact .inr ⟨i, by simpa using hi, rfl, hw⟩

theorem seq_mem_enabled {s : State} (h : seqEnabled s = true) : Agent.seq ∈ enabledAgents s := by
  simp [enabledAgents, h]

theorem worker_mem_enabled {s : State} {i : Nat} (hi : i < s.workers.length)
    (h : workerEnabled s (s.workers.getD i .absent) = true) : Agent.worker i ∈ enabledAgents s := by
  unfold enabledAgents
  refine List.mem_append_right _ (List.mem_map_of_mem (List.mem_filter.2 ⟨by simpa using hi, h⟩))

/-! ### A run reaches its end -/

theorem runSteps_of_not_active {k : Command} {s : State} (h : s.phase.active = false) (n : Nat) : runSteps k n s = s := by
  cases n <;> simp [runSteps, h]

/-- If every step from a state of `I` either ends in `T` or stays in `I` with a smaller measure, the run ends in `T`. -/
theorem runSteps_reaches {k : Command} {I T : State → Prop} {μ : State → Nat}
    (act : ∀ s, I s → s.phase.active = true) (quiet : ∀ s, I s → hostTurnNext s = false)
    (term : ∀ s, T s → s.phase.active = false)
    (hstep : ∀ s, I s → T (engineStep k s) ∨ (I (engineStep k s) ∧ μ (engineStep k s) < μ s)) :
    ∀ n s, I s → μ s < n → T (runSteps k n s)
  | 0, s, _, h => by omega
  | n + 1, s, hi, h => by
    simp only [runSteps, act s hi, quiet s hi, Bool.not_false, Bool.and_self, if_true]
    rcases hstep s hi with ht | ⟨hi', hμ⟩
    · rw [runSteps_of_not_active (term _ ht)]; exact ht
    · exact runSteps_reaches act quiet term hstep n _ hi' (by omega)

/-! ### What a command's items do -/

/-- The cursor of the copy-back after the pixel at column `x` of row `y` (R206). -/
def nextPixel (w y x : Nat) : Cursor := if x + 1 < w then ⟨y, x + 1⟩ else ⟨y + 1, 0⟩

/-- What the engine needs to know of a command to run it: `J R` says how the stores look while the items of `R` are still to be
executed, `C` how they look during the copy-back, `F` how the stores look at the end, `G` what holds of memory throughout, `Adm` that
every access is to an admissible address. -/
structure Sem (k : Command) (c : Cfg) (g : HostRegs) (kern : Kernel) (m0 : Memory) (o0 : Scratch) where
  J : List Item → Memory → Scratch → Prop
  C : Nat → Nat → Memory → Scratch → Prop
  Adm : Prop
  G : Memory → Prop
  F : Memory → Scratch → Prop
  perm : ∀ {R R' m o}, List.Perm R R' → J R m o → J R' m o
  start : J (allItems (k.plan c g (selectPath k.family c).1)) m0 o0
  run : ∀ {it R m o}, J (it :: R) m o →
    (∃ m' o', k.runItem c g kern it m o = .ok (m', o') ∧ J R m' o') ∨
    (¬ Adm ∧ ∃ e, k.runItem c g kern it m o = .error e)
  stable : ∀ {R m o}, J R m o → G m
  finish : k.family ≠ .neighbourhood → ∀ {m o}, J [] m o → F m o
  copyStart : k.family = .neighbourhood → ∀ {m o}, J [] m o → C 0 0 m o
  copyStep : ∀ {y x m o}, C y x m o → y < g.height → x < g.width →
    if c.borderPolicy = .zero ∨ (o.getD (y * g.width + x) ⟨Pixel.zero, false⟩).set = true then
      (∃ m', pixWrite c g m x y (o.getD (y * g.width + x) ⟨Pixel.zero, false⟩).px = .ok m' ∧
        C (nextPixel g.width y x).unit (nextPixel g.width y x).item m' o) ∨
      (¬ Adm ∧ ∃ e, pixWrite c g m x y (o.getD (y * g.width + x) ⟨Pixel.zero, false⟩).px = .error e)
    else C (nextPixel g.width y x).unit (nextPixel g.width y x).item m o
  copyEnd : ∀ {y x m o}, C y x m o → (g.width = 0 ∨ g.height ≤ y) → F m o
  copyStable : ∀ {y x m o}, C y x m o → G m
  bound : ∀ v, (allItems (k.plan c g v)).length ≤ g.width * g.height
  scalarTail : (k.plan c g false).tail = 0
  vectorTail : (k.family == .pointwise) = false → (k.plan c g true).tail = 0

/-- What no step of the engine changes, and that the host stays silent. -/
structure Frame (s0 s : State) : Prop where
  regs : s.regs = s0.regs
  latch : s.latch = s0.latch
  cfg : s.cfg = s0.cfg
  hostQ : s.hostQ = s0.hostQ
  lastRead : s.lastRead = s0.lastRead
  memAtAccept : s.memAtAccept = s0.memAtAccept
  quiet : ∀ t ∈ s.sched, t ≠ .host

theorem Frame.sched {s0 s : State} (h : Frame s0 s) {sc : List Turn} (hsc : ∀ t ∈ sc, t ∈ s.sched) :
    Frame s0 { s with sched := sc } :=
  ⟨h.regs, h.latch, h.cfg, h.hostQ, h.lastRead, h.memAtAccept, fun t ht => h.quiet t (hsc t ht)⟩

theorem Frame.hostTurn {s0 s : State} (h : Frame s0 s) : hostTurnNext s = false := by
  unfold hostTurnNext
  cases hs : s.sched with
  | nil => rfl
  | cons t l =>
    have := h.quiet t (by simp [hs])
    simpa using this

/-- No pool exists (R35). -/
structure NoPool (s : State) : Prop where
  workers : s.workers = []
  queue : s.queue = []
  stop : s.stop = false

section Run

variable {k : Command} {s0 : State} {kern : Kernel}

/-- The path of the command and whether its hint is not honoured. -/
abbrev pathOf (k : Command) (s0 : State) : Bool × Bool := selectPath k.family s0.cfg

/-- `STATUS` while a command runs, after the path selection. -/
abbrev pathStatus (k : Command) (s0 : State) : Status := Status.running.onPath (pathOf k s0).1 (pathOf k s0).2

/-- `OUT` as the compute phases find it. -/
def scratchAtStart (k : Command) (s0 : State) : Scratch :=
  if k.family = .neighbourhood then blankScratch s0.latch.regs else s0.out

abbrev SemOf (k : Command) (s0 : State) (kern : Kernel) :=
  Sem k s0.cfg s0.latch.regs kern s0.mem (scratchAtStart k s0)

/-- The items of a worker's task it still has before it. -/
def workerItems (p : Plan) : Worker → List Item
  | .running t cur => restItems p t cur
  | _ => []

/-- A worker of a live pool. -/
def WorkerOk (p : Plan) : Worker → Prop
  | .absent => False
  | .running t cur => CursorOk p t cur
  | _ => True

def workerWeight : Worker → Nat
  | .waiting => 1
  | .running .. => 2
  | _ => 0

abbrev vplan (k : Command) (s0 : State) : Plan := k.plan s0.cfg s0.latch.regs true
abbrev splan (k : Command) (s0 : State) : Plan := k.plan s0.cfg s0.latch.regs false
abbrev poolTask (k : Command) (s0 : State) (i : Nat) : Task :=
  taskOf (vplan k s0).units (nWorkers s0.cfg) (k.family == .pointwise) i

/-- The items not yet executed while the pool lives: of the tasks not yet enqueued, of the queue, of the running workers. -/
def remaining (k : Command) (s0 : State) (enqueued : Nat) (q : List Task) (ws : List Worker) : List Item :=
  (List.range' enqueued (nWorkers s0.cfg - enqueued)).flatMap (fun i => taskItems (vplan k s0) (poolTask k s0 i))
    ++ q.flatMap (taskItems (vplan k s0)) ++ ws.flatMap (workerItems (vplan k s0))

/-- The engine before anything has been done (`VALIDATE`, `PREPARE`). -/
structure Early (s0 s : State) (p : Phase) : Prop where
  frame : Frame s0 s
  phase : s.phase = p
  status : s.status = Status.running
  noPool : NoPool s
  mem : s.mem = s0.mem
  out : s.out = s0.out
  kernel : s.kernel = s0.kernel
  freeCount : s.freeCount = s0.freeCount

structure ScalarStage (k : Command) (s0 : State) (kern : Kernel) (S : SemOf k s0 kern) (s : State) : Prop where
  frame : Frame s0 s
  phase : s.phase = .scalar
  status : s.status = pathStatus k s0
  noPool : NoPool s
  kernel : s.kernel = kern
  cursor : CursorOk (splan k s0) (wholeTask (splan k s0)) s.cursor
  stores : S.J (restItems (splan k s0) (wholeTask (splan k s0)) s.cursor) s.mem s.out

/-- `FORK` before the construction of the pool. -/
structure ForkStage (k : Command) (s0 : State) (kern : Kernel) (S : SemOf k s0 kern) (s : State) : Prop where
  frame : Frame s0 s
  phase : s.phase = .fork
  status : s.status = pathStatus k s0
  noPool : NoPool s
  kernel : s.kernel = kern
  cursor : s.cursor.unit = 0
  stores : S.J (allItems (vplan k s0)) s.mem s.out

/-- `FORK` after the construction of the pool, and `RUN`. -/
structure PoolStage (k : Command) (s0 : State) (kern : Kernel) (S : SemOf k s0 kern) (s : State) : Prop where
  frame : Frame s0 s
  phase : (s.phase = .fork ∧ s.stop = false ∧ s.cursor.unit ≤ nWorkers s0.cfg) ∨
    (s.phase = .run ∧ s.stop = true ∧ s.cursor.unit = nWorkers s0.cfg)
  status : s.status = pathStatus k s0
  kernel : s.kernel = kern
  length : s.workers.length = nWorkers s0.cfg
  workers : ∀ w ∈ s.workers, WorkerOk (vplan k s0) w
  exited : Worker.exited ∈ s.workers → s.queue = [] ∧ s.phase = .run
  stores : S.J (remaining k s0 s.cursor.unit s.queue s.workers) s.mem s.out

structure CopyStage (k : Command) (s0 : State) (kern : Kernel) (S : SemOf k s0 kern) (s : State) : Prop where
  frame : Frame s0 s
  phase : s.phase = .copyBack
  status : s.status = pathStatus k s0
  noPool : NoPool s
  kernel : s.kernel = kern
  family : k.family = .neighbourhood
  inside : s.latch.regs.width = 0 ∨ (s.cursor.item < s.latch.regs.width ∧ s.cursor.unit ≤ s.latch.regs.height ∧
    (s.cursor.unit = s.latch.regs.height → s.cursor.item = 0))
  stores : S.C s.cursor.unit s.cursor.item s.mem s.out

/-- Where a running command can stand. -/
inductive Stage (k : Command) (s0 : State) (kern : Kernel) (S : SemOf k s0 kern) (s : State) : Prop where
  | validate (h : Early s0 s .validate)
  | prepare (h : Early s0 s .prepare)
  | scalar (h : ScalarStage k s0 kern S s)
  | fork (h : ForkStage k s0 kern S s)
  | pool (h : PoolStage k s0 kern S s)
  | copy (h : CopyStage k s0 kern S s)

/-- How a command that passed its checks can end. -/
inductive Finished (k : Command) (s0 : State) (kern : Kernel) (S : SemOf k s0 kern) (t : State) : Prop where
  /-- success, from a last state whose stores satisfy `F` -/
  | success (s : State) (frame : Frame s0 s) (status : s.status = pathStatus k s0) (noPool : NoPool s)
      (kernel : s.kernel = kern) (mem : S.F s.mem s.out) (stable : S.G s.mem) (eq : t = endSuccess k s)
  /-- the fatal fault, from a state whose memory satisfies `G` -/
  | fatal (s : State) (frame : Frame s0 s) (status : s.status = pathStatus k s0) (stable : S.G s.mem)
      (notAdm : ¬ S.Adm) (eq : t = takeFatalFault (cutBytes k s) s)

/-! ### The measure -/

def copyWork (s : State) : Nat :=
  s.latch.regs.width * s.latch.regs.height - (s.cursor.unit * s.latch.regs.width + s.cursor.item) + 1

def copyBound (s0 : State) : Nat := s0.latch.regs.width * s0.latch.regs.height + 1

/-- How many steps a running command still has before it, at most. -/
def workLeft (k : Command) (s0 s : State) : Nat :=
  let n := nWorkers s0.cfg
  let wh := s0.latch.regs.width * s0.latch.regs.height
  match s.phase with
  | .validate => 4 * n + wh + copyBound s0 + 6
  | .prepare => 4 * n + wh + copyBound s0 + 5
  | .scalar => (restItems (splan k s0) (wholeTask (splan k s0)) s.cursor).length + 1 + copyBound s0
  | .fork =>
    if s.workers = [] then 4 * n + wh + copyBound s0 + 4
    else 3 * (n - s.cursor.unit) + (remaining k s0 s.cursor.unit s.queue s.workers).length + 2 * s.queue.length
      + (s.workers.map workerWeight).sum + 2 + copyBound s0
  | .run =>
    (remaining k s0 s.cursor.unit s.queue s.workers).length + 2 * s.queue.length + (s.workers.map workerWeight).sum + 1
      + copyBound s0
  | .copyBack => copyWork s
  | .idle | .halted => 0

/-! ### Lists of workers -/

theorem worker_split {l : List Worker} {i : Nat} (hi : i < l.length) :
    ∃ l1 l2, l = l1 ++ l.getD i .absent :: l2 ∧ ∀ w, l.set i w = l1 ++ w :: l2 := by
  refine ⟨l.take i, l.drop (i + 1), ?_, fun w => List.set_eq_take_append_cons_drop ▸ ?_⟩
  · rw [List.getD_eq_getElem _ _ hi, List.getElem_cons_drop, List.take_append_drop]
  · simp [hi]

/-! ### The end of the compute phases -/

theorem afterCompute_step (S : SemOf k s0 kern) {s : State} (frame : Frame s0 s) (status : s.status = pathStatus k s0)
    (noPool : NoPool s) (kernel : s.kernel = kern) (stores : S.J [] s.mem s.out) :
    Finished k s0 kern S (afterCompute k s) ∨
      (Stage k s0 kern S (afterCompute k s) ∧ workLeft k s0 (afterCompute k s) ≤ copyBound s0) := by
  unfold afterCompute
  by_cases hf : k.family = .neighbourhood
  · rw [if_pos hf]
    refine .inr ⟨.copy ⟨⟨frame.regs, frame.latch, frame.cfg, frame.hostQ, frame.lastRead, frame.memAtAccept, frame.quiet⟩,
      rfl, status, ⟨noPool.workers, noPool.queue, noPool.stop⟩, kernel, hf, ?_, S.copyStart hf stores⟩, ?_⟩
    · simp only
      by_cases hw : s.latch.regs.width = 0
      · exact .inl hw
      · exact .inr ⟨by omega, by omega, by simp⟩
    · simp [workLeft, copyWork, copyBound, frame.latch]
  · rw [if_neg hf]
    exact .inl (.success s frame status noPool kernel (S.finish hf stores) (S.stable stores) rfl)

/-! ### One step of each stage -/

theorem step_early_validate (S : SemOf k s0 kern) (hok : firstFailure k s0.cfg s0.latch.regs = none) {s : State}
    (h : Early s0 s .validate) :
    Stage k s0 kern S (seqStep k s) ∧ workLeft k s0 (seqStep k s) < workLeft k s0 s := by
  have hstep : seqStep k s = { s with phase := .prepare } := by
    simp [seqStep, h.phase, h.frame.cfg, h.frame.latch, hok]
  rw [hstep]
  refine ⟨.prepare ⟨⟨h.frame.regs, h.frame.latch, h.frame.cfg, h.frame.hostQ, h.frame.lastRead, h.frame.memAtAccept,
    h.frame.quiet⟩, rfl, h.status, ⟨h.noPool.workers, h.noPool.queue, h.noPool.stop⟩, h.mem, h.out, h.kernel, h.freeCount⟩, ?_⟩
  simp [workLeft, h.phase]

theorem step_early_prepare (S : SemOf k s0 kern)
    (hk : k.kernel s0.cfg s0.latch.regs s0.freeCount s0.kernel = some kern) {s : State} (h : Early s0 s .prepare) :
    Stage k s0 kern S (seqStep k s) ∧ workLeft k s0 (seqStep k s) < workLeft k s0 s := by
  have hstep : seqStep k s = prepare k s := by simp [seqStep, h.phase]
  rw [hstep]
  have hk' : k.kernel s.cfg s.latch.regs s.freeCount s.kernel = some kern := by
    rw [h.frame.cfg, h.frame.latch, h.freeCount, h.kernel, hk]
  have hst : s.status.onPath (selectPath k.family s.cfg).1 (selectPath k.family s.cfg).2 = pathStatus k s0 := by
    rw [h.status, h.frame.cfg]
  have hout : (if k.family = .neighbourhood then blankScratch s.latch.regs else s.out) = scratchAtStart k s0 := by
    rw [h.frame.latch, h.out]; rfl
  have hstart := S.start
  have hb := S.bound
  unfold prepare
  simp only [hk']
  rw [hst, hout]
  by_cases hp : (selectPath k.family s0.cfg).1 = true
  · have hp' : (selectPath k.family s.cfg).1 = true := by rw [h.frame.cfg, hp]
    simp only [hp', if_true]
    rw [hp] at hstart
    refine ⟨.fork ⟨⟨h.frame.regs, h.frame.latch, h.frame.cfg, h.frame.hostQ, h.frame.lastRead, h.frame.memAtAccept,
      h.frame.quiet⟩, rfl, rfl, ⟨h.noPool.workers, h.noPool.queue, h.noPool.stop⟩, rfl, rfl, ?_⟩, ?_⟩
    · simpa [h.mem] using hstart
    · simp [workLeft, h.phase, h.noPool.workers]
  · have hp0 : (selectPath k.family s0.cfg).1 = false := by simpa using hp
    have hp' : (selectPath k.family s.cfg).1 = false := by rw [h.frame.cfg, hp0]
    simp only [hp', Bool.false_eq_true, if_false]
    rw [hp0] at hstart
    have hrest : restItems (splan k s0) (wholeTask (splan k s0)) (startCursor (splan k s0) (wholeTask (splan k s0)))
        = allItems (splan k s0) := by rw [restItems_start, taskItems_whole S.scalarTail]
    refine ⟨.scalar ⟨⟨h.frame.regs, h.frame.latch, h.frame.cfg, h.frame.hostQ, h.frame.lastRead, h.frame.memAtAccept,
      h.frame.quiet⟩, rfl, rfl, ⟨h.noPool.workers, h.noPool.queue, h.noPool.stop⟩, rfl, ?_, ?_⟩, ?_⟩
    · simp only [h.frame.cfg, h.frame.latch]
      exact cursorOk_start _ _
    · simp only [h.frame.cfg, h.frame.latch, hrest, h.mem]
      exact hstart
    · simp only [workLeft, h.phase, h.frame.cfg, h.frame.latch, hrest]
      have : (allItems (splan k s0)).length ≤ _ := hb false
      omega

/-- An item executed: either the stores move on, or the fatal fault is taken. -/
theorem runOn_cases (S : SemOf k s0 kern) {s : State} (frame : Frame s0 s) (kernel : s.kernel = kern) {it : Item}
    {R : List Item} (h : S.J (it :: R) s.mem s.out) (fin : State → State) :
    (∃ m o, runOn k it fin s = fin { s with mem := m, out := o } ∧ S.J R m o) ∨
    (¬ S.Adm ∧ runOn k it fin s = takeFatalFault (cutBytes k s) s) := by
  unfold runOn
  rw [frame.cfg, frame.latch, kernel]
  rcases S.run h with ⟨m, o, hok, hJ⟩ | ⟨hna, e, he⟩
  · exact .inl ⟨m, o, by rw [hok], hJ⟩
  · exact .inr ⟨hna, by rw [he]⟩

theorem step_scalar (S : SemOf k s0 kern) {s : State} (h : ScalarStage k s0 kern S s) :
    Finished k s0 kern S (seqStep k s) ∨
      (Stage k s0 kern S (seqStep k s) ∧ workLeft k s0 (seqStep k s) < workLeft k s0 s) := by
  have hstep : seqStep k s = scalarStep k s := by simp [seqStep, h.phase]
  rw [hstep]
  unfold scalarStep
  have hp : k.plan s.cfg s.latch.regs false = splan k s0 := by rw [h.frame.cfg, h.frame.latch]
  simp only [hp]
  cases hit : itemAt (splan k s0) (wholeTask (splan k s0)) s.cursor with
  | some it =>
    simp only
    have hrest := restItems_advance h.cursor hit
    have hst := h.stores
    rw [hrest] at hst
    rcases runOn_cases S h.frame h.kernel hst
      (fun s' => { s' with cursor := advance (splan k s0) (wholeTask (splan k s0)) s.cursor }) with ⟨m, o, heq, hJ⟩ | ⟨hna, heq⟩
    · rw [heq]
      refine .inr ⟨.scalar ⟨⟨h.frame.regs, h.frame.latch, h.frame.cfg, h.frame.hostQ, h.frame.lastRead, h.frame.memAtAccept,
        h.frame.quiet⟩, h.phase, h.status, ⟨h.noPool.workers, h.noPool.queue, h.noPool.stop⟩, h.kernel,
        cursorOk_advance h.cursor, hJ⟩, ?_⟩
      simp only [workLeft, h.phase, hrest, List.length_cons]
      omega
    · rw [heq]
      exact .inl (.fatal s h.frame h.status (S.stable h.stores) hna rfl)
  | none =>
    simp only
    have hst := h.stores
    rw [restItems_end hit] at hst
    rcases afterCompute_step S h.frame h.status h.noPool h.kernel hst with hf | ⟨hs, hw⟩
    · exact .inl hf
    · refine .inr ⟨hs, Nat.lt_of_le_of_lt hw ?_⟩
      simp [workLeft, h.phase]

theorem step_copy (S : SemOf k s0 kern) {s : State} (h : CopyStage k s0 kern S s) :
    Finished k s0 kern S (seqStep k s) ∨
      (Stage k s0 kern S (seqStep k s) ∧ workLeft k s0 (seqStep k s) < workLeft k s0 s) := by
  have hstep : seqStep k s = copyBackStep k s := by simp [seqStep, h.phase]
  rw [hstep]
  unfold copyBackStep
  by_cases hend : s.latch.regs.width = 0 ∨ s.latch.regs.height ≤ s.cursor.unit
  · simp only [if_pos hend]
    exact .inl (.success s h.frame h.status h.noPool h.kernel (S.copyEnd h.stores (by rwa [← h.frame.latch])) (S.copyStable h.stores) rfl)
  · simp only [if_neg hend]
    obtain ⟨hw, hh⟩ := not_or.1 hend
    have hin := h.inside.resolve_left hw
    have hy : s.cursor.unit < s.latch.regs.height := by omega
    have hcs : if s.cfg.borderPolicy = .zero ∨
        (s.out.getD (s.cursor.unit * s.latch.regs.width + s.cursor.item) ⟨Pixel.zero, false⟩).set = true then
        (∃ m', pixWrite s.cfg s.latch.regs s.mem s.cursor.item s.cursor.unit
          (s.out.getD (s.cursor.unit * s.latch.regs.width + s.cursor.item) ⟨Pixel.zero, false⟩).px = .ok m' ∧
          S.C (nextPixel s.latch.regs.width s.cursor.unit s.cursor.item).unit
            (nextPixel s.latch.regs.width s.cursor.unit s.cursor.item).item m' s.out) ∨
        (¬ S.Adm ∧ ∃ e, pixWrite s.cfg s.latch.regs s.mem s.cursor.item s.cursor.unit
          (s.out.getD (s.cursor.unit * s.latch.regs.width + s.cursor.item) ⟨Pixel.zero, false⟩).px = .error e)
        else S.C (nextPixel s.latch.regs.width s.cursor.unit s.cursor.item).unit
          (nextPixel s.latch.regs.width s.cursor.unit s.cursor.item).item s.mem s.out := by
      rw [h.frame.cfg, h.frame.latch] at *
      exact S.copyStep h.stores hy hin.1
    have hcur : (if s.cursor.item + 1 < s.latch.regs.width then (⟨s.cursor.unit, s.cursor.item + 1⟩ : Cursor)
        else ⟨s.cursor.unit + 1, 0⟩) = nextPixel s.latch.regs.width s.cursor.unit s.cursor.item := rfl
    have hnext : ∀ m, S.C (nextPixel s.latch.regs.width s.cursor.unit s.cursor.item).unit
        (nextPixel s.latch.regs.width s.cursor.unit s.cursor.item).item m s.out →
        Stage k s0 kern S { s with mem := m, cursor := nextPixel s.latch.regs.width s.cursor.unit s.cursor.item } ∧
        workLeft k s0 { s with mem := m, cursor := nextPixel s.latch.regs.width s.cursor.unit s.cursor.item } < workLeft k s0 s := by
      intro m hC
      refine ⟨.copy ⟨⟨h.frame.regs, h.frame.latch, h.frame.cfg, h.frame.hostQ, h.frame.lastRead, h.frame.memAtAccept,
        h.frame.quiet⟩, h.phase, h.status, ⟨h.noPool.workers, h.noPool.queue, h.noPool.stop⟩, h.kernel, h.family, ?_, hC⟩, ?_⟩
      · simp only [nextPixel]
        right
        split
        · next hlt => simp only; refine ⟨hlt, by omega, by omega⟩
        · simp only; refine ⟨by omega, by omega, by simp⟩
      · simp only [workLeft, h.phase, copyWork, nextPixel]
        have hlin : s.cursor.unit * s.latch.regs.width + s.cursor.item < s.latch.regs.width * s.latch.regs.height := by
          calc s.cursor.unit * s.latch.regs.width + s.cursor.item
              < s.cursor.unit * s.latch.regs.width + s.latch.regs.width := by omega
            _ = (s.cursor.unit + 1) * s.latch.regs.width := by rw [Nat.add_mul, Nat.one_mul]
            _ ≤ s.latch.regs.height * s.latch.regs.width := Nat.mul_le_mul_right _ hy
            _ = _ := Nat.mul_comm _ _
        split
        · simp only; omega
        · simp only [Nat.add_mul, Nat.one_mul]; omega
    by_cases hwrite : s.cfg.borderPolicy = .zero ∨
        (s.out.getD (s.cursor.unit * s.latch.regs.width + s.cursor.item) ⟨Pixel.zero, false⟩).set = true
    · rw [if_pos hwrite] at hcs
      simp only [if_pos hwrite, hcur]
      rcases hcs with ⟨m, hok, hC⟩ | ⟨hna, e, he⟩
      · rw [hok]
        exact .inr (hnext m hC)
      · rw [he]
        exact .inl (.fatal s h.frame h.status (S.copyStable h.stores) hna rfl)
    · rw [if_neg hwrite] at hcs
      simp only [if_neg hwrite, hcur]
      exact .inr (hnext s.mem hcs)

/-! ### The pool -/

theorem nWorkers_pos (c : Cfg) : 0 < nWorkers c := by
  unfold nWorkers; split <;> omega

theorem step_fork (S : SemOf k s0 kern) {s : State} (h : ForkStage k s0 kern S s) :
    Stage k s0 kern S (seqStep k s) ∧ workLeft k s0 (seqStep k s) < workLeft k s0 s := by
  have hstep : seqStep k s = { s with workers := List.replicate (nWorkers s0.cfg) .waiting } := by
    simp [seqStep, h.phase, forkStep, h.noPool.workers, h.frame.cfg]
  have hn := nWorkers_pos s0.cfg
  have hne : List.replicate (nWorkers s0.cfg) Worker.waiting ≠ [] := by
    rw [Ne, List.replicate_eq_nil_iff]; omega
  have hwi : (List.replicate (nWorkers s0.cfg) Worker.waiting).flatMap (workerItems (vplan k s0)) = [] := by
    rw [List.flatMap_eq_nil_iff]
    intro w hw
    rw [List.eq_of_mem_replicate hw]; rfl
  have hrem : List.Perm (remaining k s0 0 [] (List.replicate (nWorkers s0.cfg) .waiting)) (allItems (vplan k s0)) := by
    simp only [remaining, hwi, List.flatMap_nil, List.append_nil, Nat.sub_zero,
      ← List.range_eq_range']
    exact taskItems_partition hn S.vectorTail
  rw [hstep]
  refine ⟨.pool ⟨⟨h.frame.regs, h.frame.latch, h.frame.cfg, h.frame.hostQ, h.frame.lastRead, h.frame.memAtAccept,
    h.frame.quiet⟩, .inl ⟨h.phase, h.noPool.stop, by simp [h.cursor]⟩, h.status, h.kernel, by simp, ?_, ?_,
    ?_⟩, ?_⟩
  · intro w hw
    rw [List.eq_of_mem_replicate hw]; trivial
  · intro hx
    exact absurd (List.eq_of_mem_replicate hx) (by simp)
  · simp only [h.cursor, h.noPool.queue]
    exact S.perm hrem.symm h.stores
  · simp only [workLeft, h.phase, h.noPool.workers, if_true, if_neg hne, h.cursor, h.noPool.queue]
    rw [hrem.length_eq]
    simp only [List.map_replicate, List.sum_replicate, workerWeight, List.length_nil, smul_eq_mul]
    have : (allItems (vplan k s0)).length ≤ _ := S.bound true
    omega

theorem step_pool_seq (S : SemOf k s0 kern) {s : State} (h : PoolStage k s0 kern S s) (hen : seqEnabled s = true) :
    Finished k s0 kern S (seqStep k s) ∨
      (Stage k s0 kern S (seqStep k s) ∧ workLeft k s0 (seqStep k s) < workLeft k s0 s) := by
  have hn := nWorkers_pos s0.cfg
  have hwne : s.workers ≠ [] := by
    intro hw
    have := h.length
    rw [hw] at this
    simp at this
    omega
  rcases h.phase with ⟨hph, hstop, hcur⟩ | ⟨hph, hstop, hcur⟩
  · -- FORK: enqueue, or set `stop`
    have hstep : seqStep k s = forkStep k s := by simp [seqStep, hph]
    have hnex : Worker.exited ∉ s.workers := fun hx => by
      have := (h.exited hx).2
      rw [hph] at this; cases this
    rw [hstep]
    unfold forkStep
    have hcfg : nWorkers s.cfg = nWorkers s0.cfg := by rw [h.frame.cfg]
    have hp : k.plan s.cfg s.latch.regs true = vplan k s0 := by rw [h.frame.cfg, h.frame.latch]
    simp only [if_neg hwne, hcfg, hp]
    by_cases hlt : s.cursor.unit < nWorkers s0.cfg
    · simp only [if_pos hlt]
      obtain ⟨d, hd⟩ : ∃ d, nWorkers s0.cfg - s.cursor.unit = d + 1 := ⟨nWorkers s0.cfg - s.cursor.unit - 1, by omega⟩
      have hrem : List.Perm (remaining k s0 s.cursor.unit s.queue s.workers)
          (remaining k s0 (s.cursor.unit + 1) (s.queue ++ [poolTask k s0 s.cursor.unit]) s.workers) := by
        simp only [remaining]
        rw [hd, List.range'_succ, show nWorkers s0.cfg - (s.cursor.unit + 1) = d by omega]
        simp only [List.flatMap_cons, List.flatMap_append, List.flatMap_nil, List.append_nil, List.append_assoc]
        refine List.perm_append_comm.trans ?_
        simp only [List.append_assoc]
        refine List.Perm.append_left _ (List.Perm.append_left _ ?_)
        exact List.perm_append_comm
      refine .inr ⟨.pool ⟨⟨h.frame.regs, h.frame.latch, h.frame.cfg, h.frame.hostQ, h.frame.lastRead, h.frame.memAtAccept,
        h.frame.quiet⟩, .inl ⟨hph, hstop, hlt⟩, h.status, h.kernel, h.length, h.workers, fun hx => absurd hx hnex,
        S.perm hrem h.stores⟩, ?_⟩
      simp only [workLeft, hph, if_neg hwne]
      rw [← hrem.length_eq]
      simp only [List.length_append, List.length_cons, List.length_nil]
      omega
    · simp only [if_neg hlt]
      refine .inr ⟨.pool ⟨⟨h.frame.regs, h.frame.latch, h.frame.cfg, h.frame.hostQ, h.frame.lastRead, h.frame.memAtAccept,
        h.frame.quiet⟩, .inr ⟨rfl, rfl, Nat.le_antisymm hcur (Nat.not_lt.1 hlt)⟩, h.status, h.kernel, h.length, h.workers, fun hx => absurd hx hnex,
        h.stores⟩, ?_⟩
      simp only [workLeft, hph, if_neg hwne]
      omega
  · -- RUN: the join
    have hstep : seqStep k s = joinStep k s := by simp [seqStep, hph]
    have hall : ∀ w ∈ s.workers, w = .exited := by
      have : allExited s = true := by simpa [seqEnabled, hph] using hen
      intro w hw
      simpa using List.all_eq_true.1 this w hw
    have hq : s.queue = [] := by
      obtain ⟨w, l, hwl⟩ := List.exists_cons_of_ne_nil hwne
      exact (h.exited (by rw [← hall w (by simp [hwl])]; simp [hwl])).1
    have hrem : remaining k s0 s.cursor.unit s.queue s.workers = [] := by
      have hwi : s.workers.flatMap (workerItems (vplan k s0)) = [] := by
        rw [List.flatMap_eq_nil_iff]
        intro w hw
        rw [hall w hw]; rfl
      simp [remaining, hcur, hq, hwi]
    have hst := h.stores
    rw [hrem] at hst
    rw [hstep]
    unfold joinStep
    rcases afterCompute_step (s := { s with workers := [], stop := false }) S
      ⟨h.frame.regs, h.frame.latch, h.frame.cfg, h.frame.hostQ, h.frame.lastRead, h.frame.memAtAccept, h.frame.quiet⟩
      h.status ⟨rfl, hq, rfl⟩ h.kernel hst with hf | ⟨hs, hw⟩
    · exact .inl hf
    · refine .inr ⟨hs, Nat.lt_of_le_of_lt hw ?_⟩
      simp only [workLeft, hph]
      omega

theorem step_pool_worker (S : SemOf k s0 kern) {s : State} (h : PoolStage k s0 kern S s) {i : Nat} (hi : i < s.workers.length)
    (hen : workerEnabled s (s.workers.getD i .absent) = true) :
    Finished k s0 kern S (workerStep k i s) ∨
      (Stage k s0 kern S (workerStep k i s) ∧ workLeft k s0 (workerStep k i s) < workLeft k s0 s) := by
  obtain ⟨l1, l2, hl, hset⟩ := worker_split hi
  have hwne : s.workers ≠ [] := by intro hw; rw [hw] at hi; simp at hi
  have hsetne : ∀ w, s.workers.set i w ≠ [] := by intro w; rw [hset]; simp
  have hmem : s.workers.getD i .absent ∈ s.workers := by
    rw [List.getD_eq_getElem _ _ hi]; exact List.getElem_mem hi
  -- what a change of this one worker does to the parts of the invariant
  have hworkers : ∀ w, WorkerOk (vplan k s0) w → ∀ w' ∈ s.workers.set i w, WorkerOk (vplan k s0) w' := by
    intro w hw w' hw'
    rcases List.mem_or_eq_of_mem_set hw' with h' | rfl
    · exact h.workers w' h'
    · exact hw
  have hlen : ∀ w, (s.workers.set i w).length = nWorkers s0.cfg := by intro w; rw [List.length_set, h.length]
  have hpool : ∀ (s' : State), Frame s0 s' → s'.phase = s.phase → s'.stop = s.stop → s'.cursor = s.cursor →
      s'.status = s.status → s'.kernel = s.kernel → (∃ w, WorkerOk (vplan k s0) w ∧ s'.workers = s.workers.set i w) →
      (Worker.exited ∈ s'.workers → s'.queue = [] ∧ s'.phase = .run) →
      S.J (remaining k s0 s.cursor.unit s'.queue s'.workers) s'.mem s'.out →
      PoolStage k s0 kern S s' := by
    intro s' hf hp hst hc hs hk hw hx hJ
    obtain ⟨w, hwok, hweq⟩ := hw
    exact ⟨hf, by rw [hp, hst, hc]; exact h.phase, hs.trans h.status, hk.trans h.kernel, by rw [hweq, hlen],
      by rw [hweq]; exact hworkers w hwok, hx, by rw [hc]; exact hJ⟩
  have hwork : ∀ (s' : State), s'.phase = s.phase → s'.cursor = s.cursor → s'.workers ≠ [] →
      (remaining k s0 s.cursor.unit s'.queue s'.workers).length + 2 * s'.queue.length + (s'.workers.map workerWeight).sum
        < (remaining k s0 s.cursor.unit s.queue s.workers).length + 2 * s.queue.length + (s.workers.map workerWeight).sum →
      workLeft k s0 s' < workLeft k s0 s := by
    intro s' hp hc hw hlt
    rcases h.phase with ⟨hph, -, -⟩ | ⟨hph, -, -⟩
    · simp only [workLeft, hp, hph, if_neg hw, if_neg hwne, hc]; omega
    · simp only [workLeft, hp, hph, hc]; omega
  generalize hw0 : s.workers.getD i .absent = w0 at *
  have hx0 : Worker.exited ∈ s.workers → s.queue = [] ∧ s.phase = .run := h.exited
  cases w0 with
  | absent => exact absurd hen (by simp [workerEnabled])
  | exited => exact absurd hen (by simp [workerEnabled])
  | waiting =>
    unfold workerStep
    have hp : k.plan s.cfg s.latch.regs true = vplan k s0 := by rw [h.frame.cfg, h.frame.latch]
    simp only [hw0, hp]
    cases hq : s.queue with
    | cons t rest =>
      simp only
      have hnex : Worker.exited ∉ s.workers := fun hx => by
        have := (hx0 hx).1
        rw [hq] at this; cases this
      have hrem : List.Perm (remaining k s0 s.cursor.unit s.queue s.workers)
          (remaining k s0 s.cursor.unit rest (s.workers.set i (.running t (startCursor (vplan k s0) t)))) := by
        simp only [remaining, hq, hset]
        rw [hl]
        simp only [List.flatMap_cons, List.flatMap_append, workerItems, restItems_start, List.nil_append, List.append_assoc]
        refine List.Perm.append_left _ ?_
        refine List.perm_append_comm.trans ?_
        simp only [List.append_assoc]
        refine List.Perm.append_left _ (List.Perm.append_left _ ?_)
        exact List.perm_append_comm
      refine .inr ⟨.pool (hpool _ ⟨h.frame.regs, h.frame.latch, h.frame.cfg, h.frame.hostQ, h.frame.lastRead,
        h.frame.memAtAccept, h.frame.quiet⟩ rfl rfl rfl rfl rfl ⟨.running t (startCursor (vplan k s0) t), cursorOk_start _ _, rfl⟩ ?_ (S.perm hrem h.stores)), ?_⟩
      · intro hx
        simp only at hx
        rcases List.mem_or_eq_of_mem_set hx with h' | h'
        · exact absurd h' hnex
        · cases h'
      · refine hwork _ rfl rfl (hsetne _) ?_
        rw [← hrem.length_eq]
        simp only [hset, hq]
        rw [hl]
        simp only [List.map_append, List.map_cons, List.sum_append, List.sum_cons, workerWeight, List.length_cons]
        omega
    | nil =>
      simp only
      have hstop : s.stop = true := by
        have := hen
        simp only [workerEnabled, hq, Bool.and_eq_true] at this
        simpa using this.2
      have hrun : s.phase = .run := by
        rcases h.phase with ⟨-, hs, -⟩ | ⟨hp, -, -⟩
        · rw [hs] at hstop; cases hstop
        · exact hp
      rw [if_pos hstop]
      have hrem : remaining k s0 s.cursor.unit [] (s.workers.set i .exited)
          = remaining k s0 s.cursor.unit s.queue s.workers := by
        simp only [remaining, hset, hq]
        rw [hl]
        simp [workerItems]
      refine .inr ⟨.pool (hpool _ ⟨h.frame.regs, h.frame.latch, h.frame.cfg, h.frame.hostQ, h.frame.lastRead,
        h.frame.memAtAccept, h.frame.quiet⟩ rfl rfl rfl rfl rfl ⟨.exited, trivial, rfl⟩ (fun _ => ⟨rfl, hrun⟩) ?_), ?_⟩
      · simp only [hrem]; exact h.stores
      · refine hwork _ rfl rfl (hsetne _) ?_
        simp only [hrem]
        simp only [hset, hq]
        rw [hl]
        simp only [List.map_append, List.map_cons, List.sum_append, List.sum_cons, workerWeight, List.length_nil]
        omega
  | running t cur =>
    have hcur : CursorOk (vplan k s0) t cur := h.workers _ hmem
    unfold workerStep
    have hp : k.plan s.cfg s.latch.regs true = vplan k s0 := by rw [h.frame.cfg, h.frame.latch]
    simp only [hw0, hp]
    have hxset : ∀ w, w ≠ .exited → Worker.exited ∈ s.workers.set i w → Worker.exited ∈ s.workers := by
      intro w hw hx
      rcases List.mem_or_eq_of_mem_set hx with h' | h'
      · exact h'
      · exact absurd h'.symm hw
    cases hit : itemAt (vplan k s0) t cur with
    | some it =>
      simp only
      have hadv := restItems_advance hcur hit
      have hrem : List.Perm (remaining k s0 s.cursor.unit s.queue s.workers) (it :: remaining k s0 s.cursor.unit s.queue
          (s.workers.set i (.running t (advance (vplan k s0) t cur)))) := by
        simp only [remaining, hset]
        rw [hl]
        simp only [List.flatMap_cons, List.flatMap_append, workerItems, hadv, List.cons_append]
        rw [← List.append_assoc, ← List.append_assoc]
        exact List.perm_middle
      rcases runOn_cases S h.frame h.kernel (S.perm hrem h.stores)
        (fun s' => { s' with workers := s.workers.set i (.running t (advance (vplan k s0) t cur)) }) with
        ⟨m, o, heq, hJ⟩ | ⟨hna, heq⟩
      · rw [heq]
        refine .inr ⟨.pool (hpool _ ⟨h.frame.regs, h.frame.latch, h.frame.cfg, h.frame.hostQ, h.frame.lastRead,
          h.frame.memAtAccept, h.frame.quiet⟩ rfl rfl rfl rfl rfl ⟨.running t (advance (vplan k s0) t cur), cursorOk_advance hcur, rfl⟩ ?_ hJ), ?_⟩
        · intro hx
          exact hx0 (hxset _ (by simp) hx)
        · refine hwork _ rfl rfl (hsetne _) ?_
          have hlr := hrem.length_eq
          rw [List.length_cons] at hlr
          simp only [hlr]
          simp only [hset]
          rw [hl]
          simp only [List.map_append, List.map_cons, List.sum_append, List.sum_cons, workerWeight]
          omega
      · rw [heq]
        exact .inl (.fatal s h.frame h.status (S.stable h.stores) hna rfl)
    | none =>
      simp only
      have hrem : remaining k s0 s.cursor.unit s.queue (s.workers.set i .waiting)
          = remaining k s0 s.cursor.unit s.queue s.workers := by
        simp only [remaining, hset]
        rw [hl]
        simp [workerItems, restItems_end hit]
      refine .inr ⟨.pool (hpool _ ⟨h.frame.regs, h.frame.latch, h.frame.cfg, h.frame.hostQ, h.frame.lastRead,
        h.frame.memAtAccept, h.frame.quiet⟩ rfl rfl rfl rfl rfl ⟨.waiting, trivial, rfl⟩ ?_ ?_), ?_⟩
      · intro hx
        exact hx0 (hxset _ (by simp) hx)
      · simp only [hrem]; exact h.stores
      · refine hwork _ rfl rfl (hsetne _) ?_
        simp only [hrem]
        simp only [hset]
        rw [hl]
        simp only [List.map_append, List.map_cons, List.sum_append, List.sum_cons, workerWeight]
        omega

/-- While the pool lives some agent has a step: no deadlock (R284). -/
theorem pool_enabled {S : SemOf k s0 kern} {s : State} (h : PoolStage k s0 kern S s) : enabledAgents s ≠ [] := by
  rcases h.phase with ⟨hph, -, -⟩ | ⟨hph, hstop, -⟩
  · exact List.ne_nil_of_mem (seq_mem_enabled (by simp [seqEnabled, hph]))
  · by_cases hall : allExited s = true
    · exact List.ne_nil_of_mem (seq_mem_enabled (by simp [seqEnabled, hph, hall]))
    · have : ∃ i, ∃ hi : i < s.workers.length, s.workers[i] ≠ .exited := by
        by_contra hc
        push Not at hc
        refine hall (List.all_eq_true.2 fun w hw => ?_)
        obtain ⟨i, hi, rfl⟩ := List.mem_iff_getElem.1 hw
        simp [hc i hi]
      obtain ⟨i, hi, hne⟩ := this
      refine List.ne_nil_of_mem (worker_mem_enabled hi ?_)
      have hok := h.workers _ (List.getElem_mem hi)
      rw [List.getD_eq_getElem _ _ hi]
      cases hw : s.workers[i] with
      | absent => rw [hw] at hok; exact hok.elim
      | exited => exact absurd hw hne
      | waiting => simp [workerEnabled, hstop, hph, Phase.active]
      | running t cur => simp [workerEnabled, hph, Phase.active]

/-! ### The whole run -/

theorem stage_sched {S : SemOf k s0 kern} {s : State} (h : Stage k s0 kern S s) {sc : List Turn}
    (hsc : ∀ t ∈ sc, t ∈ s.sched) : Stage k s0 kern S { s with sched := sc } := by
  cases h with
  | validate h => exact .validate ⟨h.frame.sched hsc, h.phase, h.status, ⟨h.noPool.workers, h.noPool.queue, h.noPool.stop⟩, h.mem, h.out, h.kernel, h.freeCount⟩
  | prepare h => exact .prepare ⟨h.frame.sched hsc, h.phase, h.status, ⟨h.noPool.workers, h.noPool.queue, h.noPool.stop⟩, h.mem, h.out, h.kernel, h.freeCount⟩
  | scalar h => exact .scalar ⟨h.frame.sched hsc, h.phase, h.status, ⟨h.noPool.workers, h.noPool.queue, h.noPool.stop⟩, h.kernel, h.cursor, h.stores⟩
  | fork h => exact .fork ⟨h.frame.sched hsc, h.phase, h.status, ⟨h.noPool.workers, h.noPool.queue, h.noPool.stop⟩, h.kernel, h.cursor, h.stores⟩
  | pool h => exact .pool ⟨h.frame.sched hsc, h.phase, h.status, h.kernel, h.length, h.workers, h.exited, h.stores⟩
  | copy h => exact .copy ⟨h.frame.sched hsc, h.phase, h.status, ⟨h.noPool.workers, h.noPool.queue, h.noPool.stop⟩, h.kernel, h.family, h.inside, h.stores⟩

theorem stage_active {S : SemOf k s0 kern} {s : State} (h : Stage k s0 kern S s) : s.phase.active = true := by
  cases h with
  | validate h => simp [h.phase, Phase.active]
  | prepare h => simp [h.phase, Phase.active]
  | scalar h => simp [h.phase, Phase.active]
  | fork h => simp [h.phase, Phase.active]
  | pool h => rcases h.phase with ⟨hp, -⟩ | ⟨hp, -⟩ <;> simp [hp, Phase.active]
  | copy h => simp [h.phase, Phase.active]

theorem stage_quiet {S : SemOf k s0 kern} {s : State} (h : Stage k s0 kern S s) : hostTurnNext s = false := by
  cases h with
  | validate h | prepare h | scalar h | fork h | pool h | copy h => exact h.frame.hostTurn

theorem finished_inactive {S : SemOf k s0 kern} {t : State} (h : Finished k s0 kern S t) : t.phase.active = false := by
  cases h with
  | success s _ _ _ _ _ _ heq => rw [heq]; rfl
  | fatal s _ _ _ _ heq => rw [heq]; rfl

theorem stage_step (S : SemOf k s0 kern) (hok : firstFailure k s0.cfg s0.latch.regs = none)
    (hk : k.kernel s0.cfg s0.latch.regs s0.freeCount s0.kernel = some kern) {s : State} (h : Stage k s0 kern S s) :
    Finished k s0 kern S (engineStep k s) ∨
      (Stage k s0 kern S (engineStep k s) ∧ workLeft k s0 (engineStep k s) < workLeft k s0 s) := by
  -- outside the pool only `SEQ` is enabled
  have hseqOnly : ∀ s : State, s.workers = [] → seqEnabled s = true → ∃ sc, (∀ t ∈ sc, t ∈ s.sched) ∧
      engineStep k s = seqStep k { s with sched := sc } := by
    intro s hw hen
    obtain ⟨a, ha, sc, hsc, heq⟩ := engineStep_cases k s (List.ne_nil_of_mem (seq_mem_enabled hen))
    rcases mem_enabled ha with ⟨rfl, -⟩ | ⟨i, hi, -⟩
    · exact ⟨sc, hsc, heq⟩
    · rw [hw] at hi; simp at hi
  have hwork : ∀ (s : State) (sc : List Turn), workLeft k s0 { s with sched := sc } = workLeft k s0 s := fun _ _ => rfl
  cases h with
  | validate h =>
    obtain ⟨sc, hsc, heq⟩ := hseqOnly s h.noPool.workers (by simp [seqEnabled, h.phase])
    rw [heq, ← hwork s sc]
    exact .inr (step_early_validate S hok ⟨h.frame.sched hsc, h.phase, h.status, ⟨h.noPool.workers, h.noPool.queue, h.noPool.stop⟩, h.mem, h.out, h.kernel, h.freeCount⟩)
  | prepare h =>
    obtain ⟨sc, hsc, heq⟩ := hseqOnly s h.noPool.workers (by simp [seqEnabled, h.phase])
    rw [heq, ← hwork s sc]
    exact .inr (step_early_prepare S hk ⟨h.frame.sched hsc, h.phase, h.status, ⟨h.noPool.workers, h.noPool.queue, h.noPool.stop⟩, h.mem, h.out, h.kernel, h.freeCount⟩)
  | scalar h =>
    obtain ⟨sc, hsc, heq⟩ := hseqOnly s h.noPool.workers (by simp [seqEnabled, h.phase])
    rw [heq, ← hwork s sc]
    exact step_scalar S ⟨h.frame.sched hsc, h.phase, h.status, ⟨h.noPool.workers, h.noPool.queue, h.noPool.stop⟩, h.kernel, h.cursor, h.stores⟩
  | fork h =>
    obtain ⟨sc, hsc, heq⟩ := hseqOnly s h.noPool.workers (by simp [seqEnabled, h.phase])
    rw [heq, ← hwork s sc]
    exact .inr (step_fork S ⟨h.frame.sched hsc, h.phase, h.status, ⟨h.noPool.workers, h.noPool.queue, h.noPool.stop⟩, h.kernel, h.cursor, h.stores⟩)
  | copy h =>
    obtain ⟨sc, hsc, heq⟩ := hseqOnly s h.noPool.workers (by simp [seqEnabled, h.phase])
    rw [heq, ← hwork s sc]
    exact step_copy S ⟨h.frame.sched hsc, h.phase, h.status, ⟨h.noPool.workers, h.noPool.queue, h.noPool.stop⟩, h.kernel, h.family, h.inside, h.stores⟩
  | pool h =>
    obtain ⟨a, ha, sc, hsc, heq⟩ := engineStep_cases k s (pool_enabled h)
    have h' : PoolStage k s0 kern S { s with sched := sc } :=
      ⟨h.frame.sched hsc, h.phase, h.status, h.kernel, h.length, h.workers, h.exited, h.stores⟩
    rw [heq, ← hwork s sc]
    rcases mem_enabled ha with ⟨rfl, hen⟩ | ⟨i, hi, rfl, hen⟩
    · exact step_pool_seq S h' hen
    · exact step_pool_worker S h' hi hen

/-- **The run of a command.** From acceptance, under every schedule that gives the host no turn, a command that passes its checks
ends: in success, with every item of its plan executed exactly once, or in the fatal fault at an inadmissible address. -/
theorem runCommand_finishes (S : SemOf k s0 kern) (hok : firstFailure k s0.cfg s0.latch.regs = none)
    (hk : k.kernel s0.cfg s0.latch.regs s0.freeCount s0.kernel = some kern) (h : Early s0 s0 .validate) :
    Finished k s0 kern S (runCommand k s0) := by
  refine runSteps_reaches (I := Stage k s0 kern S) (μ := workLeft k s0) (fun s hs => stage_active hs) (fun s hs => stage_quiet hs)
    (fun s hs => finished_inactive hs) (fun s hs => stage_step S hok hk hs) _ _ (.validate h) ?_
  simp only [workLeft, h.phase, stepBound, copyBound]
  omega

end Run

end Sys2Proof.Machine
end

