-- ==== Sys2Proof/Laws/Lanes.lean ====
section
/-! SUPPORT. The pixels a plan visits: each pixel of the image, or each interior pixel, exactly once (R121, R165, R180, R184). -/

namespace Sys2Proof.Machine

/-- The pixels of a list of items, in order. -/
def lanesOf (l : List Item) : List (Nat × Nat) := l.flatMap Item.lanes

theorem lanesOf_append (a b : List Item) : lanesOf (a ++ b) = lanesOf a ++ lanesOf b := by simp [lanesOf]

theorem lanesOf_cons (a : Item) (b : List Item) : lanesOf (a :: b) = a.lanes ++ lanesOf b := by simp [lanesOf]

theorem lanesOf_perm {a b : List Item} (h : List.Perm a b) : List.Perm (lanesOf a) (lanesOf b) := h.flatMap_right _

theorem mem_lanesOf {l : List Item} {p : Nat × Nat} : p ∈ lanesOf l ↔ ∃ it ∈ l, p ∈ it.lanes := by simp [lanesOf]

/-- Chunks of `n` numbers, one after another, are the numbers in order. -/
theorem flatMap_chunks {α : Type} (f : Nat → α) (n : Nat) : ∀ g : Nat,
    (List.range g).flatMap (fun k => (List.range n).map fun j => f (k * n + j)) = (List.range (g * n)).map f
  | 0 => by simp
  | g + 1 => by
    rw [List.range_succ, List.flatMap_append, flatMap_chunks f n g, Nat.add_mul, Nat.one_mul, List.range_add, List.map_append]
    simp [Function.comp_def]

theorem flatMap_single {α β : Type} (f : α → β) (l : List α) : l.flatMap (fun a => [f a]) = l.map f :=
  List.map_eq_flatMap.symm

theorem unitItems_one {p : Plan} (h : p.perUnit = 1) (u : Nat) : unitItems p u = [p.item u 0] := by
  simp [unitItems, h]

/-- Items that each have a lane are no more than their lanes. -/
theorem length_le_lanes {l : List Item} (h : ∀ it ∈ l, it.lanes ≠ []) : l.length ≤ (lanesOf l).length := by
  induction l with
  | nil => simp
  | cons a l ih =>
    rw [lanesOf_cons, List.length_append, List.length_cons]
    have h1 := List.length_pos_iff.2 (h a (by simp))
    have h2 := ih fun it hit => h it (by simp [hit])
    omega

theorem vectorWidth_pos (c : Cfg) : 0 < vectorWidth c := by unfold vectorWidth; omega

/-! ### Rows -/

/-- The pixels of rows `yLo ..`, columns `xLo ..`, in order. -/
def boxCoords (xLo yLo n rows : Nat) : List (Nat × Nat) :=
  (List.range rows).flatMap fun u => (List.range n).map fun j => (xLo + j, yLo + u)

theorem mem_boxCoords {xLo yLo n rows : Nat} {p : Nat × Nat} :
    p ∈ boxCoords xLo yLo n rows ↔ (xLo ≤ p.1 ∧ p.1 < xLo + n) ∧ (yLo ≤ p.2 ∧ p.2 < yLo + rows) := by
  obtain ⟨x, y⟩ := p
  simp only [boxCoords, List.mem_flatMap, List.mem_range, List.mem_map, Prod.mk.injEq]
  constructor
  · rintro ⟨u, hu, j, hj, h1, h2⟩; omega
  · rintro ⟨⟨h1, h2⟩, h3, h4⟩
    exact ⟨y - yLo, by omega, x - xLo, by omega, by omega, by omega⟩

theorem nodup_boxCoords (xLo yLo n rows : Nat) : (boxCoords xLo yLo n rows).Nodup := by
  unfold boxCoords
  rw [List.nodup_flatMap]
  refine ⟨fun u _ => List.Nodup.map (fun a b h => by simp at h; exact h) List.nodup_range, ?_⟩
  refine List.Pairwise.imp (R := (· ≠ ·)) ?_ List.nodup_range
  intro a b hab
  simp only [Function.onFun, List.disjoint_left, List.mem_map, List.mem_range]
  rintro p ⟨j, -, rfl⟩ ⟨j', -, h⟩
  simp only [Prod.mk.injEq] at h
  omega

theorem length_boxCoords (xLo yLo n rows : Nat) : (boxCoords xLo yLo n rows).length = n * rows := by
  simp [boxCoords, List.length_flatMap, Nat.mul_comm]

theorem pixelCoords_eq (g : HostRegs) : pixelCoords g = boxCoords 0 0 g.width g.height := by
  simp [pixelCoords, boxCoords]

theorem mem_pixelCoords {g : HostRegs} {p : Nat × Nat} : p ∈ pixelCoords g ↔ p.1 < g.width ∧ p.2 < g.height := by
  rw [pixelCoords_eq, mem_boxCoords]; omega

/-- Where there is a pixel, there are rows. -/
theorem RowsFit.of_pixel {g : HostRegs} (h : RowsFit g) {p : Nat × Nat} (hp : p ∈ pixelCoords g) : 4 * g.width ≤ g.stride :=
  h (Nat.ne_of_gt (Nat.zero_lt_of_lt (mem_pixelCoords.1 hp).2))

theorem nodup_pixelCoords (g : HostRegs) : (pixelCoords g).Nodup := by
  rw [pixelCoords_eq]; exact nodup_boxCoords _ _ _ _

theorem length_pixelCoords (g : HostRegs) : (pixelCoords g).length = g.width * g.height := by
  rw [pixelCoords_eq]; exact length_boxCoords _ _ _ _

theorem rowGroups_le (c : Cfg) (v : Bool) (n : Nat) : rowGroups c v n * vectorWidth c ≤ n := by
  unfold rowGroups
  split
  · exact Nat.div_mul_le_self _ _
  · simp

/-- The items of row `u` of a row plan: the full groups, then the single pixels. -/
theorem rowPlan_unitItems (xLo yLo n rows vw groups u : Nat) :
    unitItems (rowPlan xLo yLo n rows vw groups) u =
      (List.range groups).map (fun k => ⟨true, rowLanes vw (xLo + k * vw) (yLo + u)⟩)
      ++ (List.range (n - groups * vw)).map (fun k => ⟨false, [(xLo + groups * vw + k, yLo + u)]⟩) := by
  simp only [unitItems, rowPlan]
  rw [List.range_add, List.map_append, List.map_map]
  refine congrArg₂ _ (List.map_congr_left fun k hk => ?_) (List.map_congr_left fun k _ => ?_)
  · rw [if_pos (List.mem_range.1 hk)]
  · simp

theorem rowPlan_lanes {xLo yLo n rows vw groups : Nat} (h : groups * vw ≤ n) :
    lanesOf (allItems (rowPlan xLo yLo n rows vw groups)) = boxCoords xLo yLo n rows := by
  have hrow : ∀ u, lanesOf (unitItems (rowPlan xLo yLo n rows vw groups) u)
      = (List.range n).map fun j => (xLo + j, yLo + u) := by
    intro u
    rw [rowPlan_unitItems, lanesOf_append]
    have h1 : lanesOf ((List.range groups).map fun k => (⟨true, rowLanes vw (xLo + k * vw) (yLo + u)⟩ : Item))
        = (List.range (groups * vw)).map fun j => (xLo + j, yLo + u) := by
      rw [← flatMap_chunks (fun j => (xLo + j, yLo + u))]
      simp only [lanesOf, List.flatMap_map, rowLanes, Nat.add_assoc]
    have h2 : lanesOf ((List.range (n - groups * vw)).map fun k => (⟨false, [(xLo + groups * vw + k, yLo + u)]⟩ : Item))
        = (List.range (n - groups * vw)).map fun k => (xLo + (groups * vw + k), yLo + u) := by
      simp only [lanesOf, List.flatMap_map, Nat.add_assoc, flatMap_single]
    rw [h1, h2]
    obtain ⟨d, hd⟩ : ∃ d, n = groups * vw + d := ⟨n - groups * vw, by omega⟩
    rw [show n - groups * vw = d by omega, hd, List.range_add, List.map_append, List.map_map]
    rfl
  have : allItems (rowPlan xLo yLo n rows vw groups)
      = (List.range rows).flatMap (unitItems (rowPlan xLo yLo n rows vw groups)) := by
    simp [allItems, rowPlan]
  rw [this]
  unfold lanesOf at *
  rw [List.flatMap_assoc, boxCoords]
  exact congrArg (fun f => List.flatMap f _) (funext hrow)

theorem mem_rowPlan {xLo yLo n rows vw groups : Nat} {it : Item} (h : it ∈ allItems (rowPlan xLo yLo n rows vw groups)) :
    (∃ k < groups, ∃ u < rows, it = ⟨true, rowLanes vw (xLo + k * vw) (yLo + u)⟩) ∨
    (∃ k < n - groups * vw, ∃ u < rows, it = ⟨false, [(xLo + groups * vw + k, yLo + u)]⟩) := by
  have : allItems (rowPlan xLo yLo n rows vw groups)
      = (List.range rows).flatMap (unitItems (rowPlan xLo yLo n rows vw groups)) := by
    simp [allItems, rowPlan]
  rw [this, List.mem_flatMap] at h
  obtain ⟨u, hu, h⟩ := h
  rw [rowPlan_unitItems, List.mem_append, List.mem_map, List.mem_map] at h
  rw [List.mem_range] at hu
  rcases h with ⟨k, hk, rfl⟩ | ⟨k, hk, rfl⟩
  · exact .inl ⟨k, List.mem_range.1 hk, u, hu, rfl⟩
  · exact .inr ⟨k, List.mem_range.1 hk, u, hu, rfl⟩

theorem rowPlan_nonempty {xLo yLo n rows vw groups : Nat} (hv : 0 < vw) :
    ∀ it ∈ allItems (rowPlan xLo yLo n rows vw groups), it.lanes ≠ [] := by
  intro it hit
  rcases mem_rowPlan hit with ⟨k, -, u, -, rfl⟩ | ⟨k, -, u, -, rfl⟩
  · simp [rowLanes]; omega
  · simp

/-- In an image of width 0 there is no row unit, and no column that one would have (R117). -/
theorem boxCoords_rowUnits {g : HostRegs} {n : Nat} (hn : n ≤ g.width) (xLo yLo rows : Nat) :
    boxCoords xLo yLo n (rowUnits g rows) = boxCoords xLo yLo n rows := by
  unfold rowUnits
  split
  · next hw => simp [boxCoords, show n = 0 by omega]
  · rfl

/-- The row units of a plan cover the columns and rows of its box. -/
theorem rowUnits_lanes {g : HostRegs} {xLo yLo n rows vw groups : Nat} (hn : n ≤ g.width) (h : groups * vw ≤ n) :
    lanesOf (allItems (rowPlan xLo yLo n (rowUnits g rows) vw groups)) = boxCoords xLo yLo n rows := by
  rw [rowPlan_lanes h, boxCoords_rowUnits hn]

/-! ### The linear pixel sequence -/

theorem linear_lanes (g : HostRegs) : (List.range (g.width * g.height)).map (linearPixel g) = pixelCoords g := by
  rw [Nat.mul_comm, ← flatMap_chunks, pixelCoords]
  refine congrArg (fun f => List.flatMap f _) (funext fun y => List.map_congr_left fun x hx => ?_)
  have hx' := List.mem_range.1 hx
  simp only [linearPixel, Prod.mk.injEq]
  rw [Nat.add_comm, Nat.add_mul_mod_self_right, Nat.add_mul_div_right _ _ (by omega), Nat.mod_eq_of_lt hx',
    Nat.div_eq_of_lt hx']
  omega

theorem pointwisePlan_lanes (c : Cfg) (g : HostRegs) (v : Bool) : lanesOf (allItems (pointwisePlan c g v)) = pixelCoords g := by
  rw [← linear_lanes]
  cases v with
  | false =>
    have hu : ∀ u, unitItems (pointwisePlan c g false) u = [⟨false, [linearPixel g u]⟩] := unitItems_one rfl
    rw [allItems, funext hu]
    simp [pointwisePlan, lanesOf, List.flatMap_map, flatMap_single]
  | true =>
    have hu : ∀ u, unitItems (pointwisePlan c g true) u
        = [⟨true, (List.range (vectorWidth c)).map fun j => linearPixel g (u * vectorWidth c + j)⟩] := unitItems_one rfl
    have h1 : (List.range (g.width * g.height / vectorWidth c)).flatMap (fun u =>
        (List.range (vectorWidth c)).map fun j => linearPixel g (u * vectorWidth c + j))
        = (List.range (g.width * g.height / vectorWidth c * vectorWidth c)).map (linearPixel g) := flatMap_chunks _ _ _
    have h2 : g.width * g.height = g.width * g.height / vectorWidth c * vectorWidth c + g.width * g.height % vectorWidth c :=
      (Nat.div_add_mod' _ _).symm
    rw [allItems, funext hu, lanesOf_append]
    conv_rhs => rw [h2, List.range_add, List.map_append, List.map_map]
    refine congrArg₂ _ ?_ ?_
    · rw [← h1]
      simp [lanesOf, List.flatMap_assoc, pointwisePlan]
    · simp [lanesOf, pointwisePlan, List.flatMap_map, flatMap_single, Function.comp_def]

theorem pointwisePlan_nonempty (c : Cfg) (g : HostRegs) (v : Bool) : ∀ it ∈ allItems (pointwisePlan c g v), it.lanes ≠ [] := by
  intro it hit
  have hv := vectorWidth_pos c
  cases v <;> simp only [pointwisePlan, allItems, unitItems, List.mem_append, List.mem_flatMap, List.mem_map, List.mem_range,
    if_true, Bool.false_eq_true, if_false] at hit
  · rcases hit with ⟨u, -, k, -, rfl⟩ | ⟨k, hk, rfl⟩ <;> simp at *
  · rcases hit with ⟨u, -, k, -, rfl⟩ | ⟨k, hk, rfl⟩
    · simp; omega
    · simp

end Sys2Proof.Machine
end

