-- ==== Sys2Proof/Laws/Direct.lean ====
section
/-! SUPPORT. Commands that write their destination as they go (the pointwise filters and the converter): once every item has been
executed every pixel holds its new value, and every byte of no pixel is as before. -/

namespace Sys2Proof.Machine

/-- A byte of none of these pixels. -/
def OffPixels (g : HostRegs) (ps : List (Nat × Nat)) (a : Nat) : Prop := ∀ p ∈ ps, ∀ k < 4, a ≠ pixelAddr g p.1 p.2 + k

theorem offPixels_all {g : HostRegs} (hS : RowsFit g) (a : Nat) :
    OffPixels g (pixelCoords g) a ↔ inPixels g a = false := by
  rw [← Bool.not_eq_true, inPixels_iff hS]
  constructor
  · rintro h ⟨x, hx, y, hy, k, hk, rfl⟩
    exact h (x, y) (mem_pixelCoords.2 ⟨hx, hy⟩) k hk rfl
  · rintro h p hp k hk rfl
    obtain ⟨h1, h2⟩ := mem_pixelCoords.1 hp
    exact h ⟨p.1, h1, p.2, h2, k, hk, rfl⟩

/-- What such a command does to one item. -/
structure Direct (k : Command) (c : Cfg) (g : HostRegs) (kern : Kernel) (m0 : Memory) where
  /-- whether the results are specified (launch premise 4 of R281) -/
  specified : Prop
  newPx : Nat × Nat → Pixel
  laneAdm : Nat × Nat → Prop
  stride : RowsFit g
  family : k.family ≠ .neighbourhood
  lanes : ∀ v, lanesOf (allItems (k.plan c g v)) = pixelCoords g
  nonempty : ∀ v, ∀ it ∈ allItems (k.plan c g v), it.lanes ≠ []
  scalarTail : (k.plan c g false).tail = 0
  vectorTail : (k.family == .pointwise) = false → (k.plan c g true).tail = 0
  four : ∀ p, laneAdm p → FourAdmissible c (pixelAddr g p.1 p.2)
  run : ∀ v, ∀ it ∈ allItems (k.plan c g v), ∀ m o, m.wf = true →
    (∀ a, OffPixels g ((pixelCoords g).filter (· ∉ it.lanes)) a → m.read a = m0.read a) →
    ((∀ p ∈ it.lanes, laneAdm p) ∧ ∃ px : Nat × Nat → Pixel, (specified → ∀ p ∈ it.lanes, px p = newPx p) ∧
      k.runItem c g kern it m o =
        (thread (fun m e => pixWrite c g m e.1.1 e.1.2 e.2) m (it.lanes.map fun p => (p, px p))).map fun m' => (m', o)) ∨
    ((∃ p ∈ it.lanes, ¬ laneAdm p) ∧ ∃ e, k.runItem c g kern it m o = .error e)

namespace Direct

variable {k : Command} {c : Cfg} {g : HostRegs} {kern : Kernel} {m0 : Memory}

/-- Memory once the items `D` have been executed. -/
structure Done (d : Direct k c g kern m0) (D : List Item) (m : Memory) : Prop where
  wf : m.wf = true
  written : ∀ p ∈ lanesOf D, d.laneAdm p ∧ (d.specified → m.pixelAt (pixelAddr g p.1 p.2) = d.newPx p)
  others : ∀ a, OffPixels g (lanesOf D) a → m.read a = m0.read a

/-- Memory at the end. -/
structure Final (d : Direct k c g kern m0) (m : Memory) : Prop where
  wf : m.wf = true
  adm : ∀ p ∈ pixelCoords g, d.laneAdm p
  written : d.specified → ∀ p ∈ pixelCoords g, m.pixelAt (pixelAddr g p.1 p.2) = d.newPx p
  others : ∀ a, inPixels g a = false → m.read a = m0.read a

/-- Memory at any time. -/
structure Midway (d : Direct k c g kern m0) (m : Memory) : Prop where
  wf : m.wf = true
  others : ∀ a, inPixels g a = false → m.read a = m0.read a
  unread : ∀ p ∈ pixelCoords g, ¬ d.laneAdm p → ∀ k < 4, m.read (pixelAddr g p.1 p.2 + k) = m0.read (pixelAddr g p.1 p.2 + k)

theorem done_step (d : Direct k c g kern m0) {v : Bool} {D : List Item} {it : Item} {R : List Item} {m : Memory} {o : Scratch}
    (hp : List.Perm (D ++ it :: R) (allItems (k.plan c g v))) (h : d.Done D m) :
    (∃ m', k.runItem c g kern it m o = .ok (m', o) ∧ d.Done (D ++ [it]) m') ∨
    (¬ (∀ p ∈ pixelCoords g, d.laneAdm p) ∧ ∃ e, k.runItem c g kern it m o = .error e) := by
  have hlp := lanesOf_perm hp
  rw [d.lanes, lanesOf_append, lanesOf_cons] at hlp
  have hnd := hlp.nodup_iff.2 (nodup_pixelCoords g)
  have hmem : it ∈ allItems (k.plan c g v) := hp.subset (by simp)
  have hin : ∀ p ∈ it.lanes, p ∈ pixelCoords g := fun p hp' => hlp.subset (by simp [hp'])
  have hinD : ∀ p ∈ lanesOf D, p ∈ pixelCoords g := fun p hp' => hlp.subset (by simp [hp'])
  rw [List.nodup_append] at hnd
  obtain ⟨-, hnd2, hdis⟩ := hnd
  have hitnd : it.lanes.Nodup := (List.nodup_append.1 hnd2).1
  have hdisj : ∀ p ∈ lanesOf D, p ∉ it.lanes := fun p h1 h2 => hdis p h1 p (by simp [h2]) rfl
  rcases d.run v it hmem m o h.wf (fun a ha => h.others a fun p hp' k' hk' =>
    ha p (List.mem_filter.2 ⟨hinD p hp', by simpa using hdisj p hp'⟩) k' hk') with ⟨hadm, px, hsp, heq⟩ | ⟨⟨p, hp', hna⟩, e, he⟩
  · obtain ⟨m', hrun, hwf', hpx, hoth⟩ := thread_pixWrite (c := c) d.stride (m := m)
      (l := it.lanes.map fun p => (p, px p)) h.wf
      (by simp only [List.mem_map]; rintro e ⟨p, hp', rfl⟩; exact d.four p (hadm p hp'))
      (by simp only [List.mem_map]; rintro e ⟨p, hp', rfl⟩; exact mem_pixelCoords.1 (hin p hp'))
      (by rw [List.map_map]; simpa [Function.comp_def] using hitnd)
    refine .inl ⟨m', by rw [heq, hrun]; rfl, hwf', ?_, ?_⟩
    · intro p hp'
      rw [lanesOf_append, List.mem_append] at hp'
      rcases hp' with hp' | hp'
      · refine ⟨(h.written p hp').1, fun hs => ?_⟩
        rw [← (h.written p hp').2 hs]
        refine Memory.pixelAt_congr fun k' hk' => hoth _ ?_
        simp only [List.mem_map]
        rintro e ⟨q, hq, rfl⟩ k'' hk'' heq'
        obtain ⟨h1, h2, -⟩ := pixelByte_inj (d.stride.of_pixel (hinD p hp')) (mem_pixelCoords.1 (hinD p hp')).1 hk'
          (mem_pixelCoords.1 (hin q hq)).1 hk'' heq'
        exact hdisj p hp' (by rwa [show p = q from Prod.ext h1 h2])
      · rw [show lanesOf [it] = it.lanes by simp [lanesOf]] at hp'
        exact ⟨hadm p hp', fun hs => by rw [← hsp hs p hp']; exact hpx (p, px p) (List.mem_map_of_mem hp')⟩
    · intro a ha
      rw [lanesOf_append, show lanesOf [it] = it.lanes by simp [lanesOf]] at ha
      rw [hoth a, h.others a fun p hp' => ha p (by simp [hp'])]
      simp only [List.mem_map]
      rintro e ⟨q, hq, rfl⟩
      exact ha q (by simp [hq])
  · exact .inr ⟨fun hall => hna (hall p (hin p hp')), e, he⟩

theorem Done.midway {d : Direct k c g kern m0} {v : Bool} {D R : List Item} {m : Memory}
    (hp : List.Perm (D ++ R) (allItems (k.plan c g v))) (h : d.Done D m) : d.Midway m := by
  have hlp := lanesOf_perm hp
  rw [d.lanes, lanesOf_append] at hlp
  have hin : ∀ p ∈ lanesOf D, p ∈ pixelCoords g := fun p hp' => hlp.subset (by simp [hp'])
  refine ⟨h.wf, fun a ha => h.others a fun p hp' => (offPixels_all d.stride a).2 ha p (hin p hp'), ?_⟩
  intro p hp' hna k' hk'
  refine h.others _ fun q hq k'' hk'' heq => hna ?_
  obtain ⟨h1, h2, -⟩ := pixelByte_inj (d.stride.of_pixel hp') (mem_pixelCoords.1 hp').1 hk' (mem_pixelCoords.1 (hin q hq)).1 hk'' heq
  rw [show p = q from Prod.ext h1 h2]
  exact (h.written q hq).1

theorem Done.final {d : Direct k c g kern m0} {v : Bool} {D : List Item} {m : Memory}
    (hp : List.Perm D (allItems (k.plan c g v))) (h : d.Done D m) : d.Final m := by
  have hlp := lanesOf_perm hp
  rw [d.lanes] at hlp
  have hout : ∀ p ∈ pixelCoords g, p ∈ lanesOf D := fun p hp' => hlp.symm.subset hp'
  have hin : ∀ p ∈ lanesOf D, p ∈ pixelCoords g := fun p hp' => hlp.subset hp'
  exact ⟨h.wf, fun p hp' => (h.written p (hout p hp')).1, fun hs p hp' => (h.written p (hout p hp')).2 hs,
    fun a ha => h.others a fun p hp' => (offPixels_all d.stride a).2 ha p (hin p hp')⟩

/-- The meaning of the items, as the engine wants it. -/
def sem (d : Direct k c g kern m0) (hwf : m0.wf = true) (o0 : Scratch) : Sem k c g kern m0 o0 where
  J R m o := o = o0 ∧ ∃ D, List.Perm (D ++ R) (allItems (k.plan c g (selectPath k.family c).1)) ∧ d.Done D m
  C _ _ _ _ := False
  Adm := ∀ p ∈ pixelCoords g, d.laneAdm p
  G m := d.Midway m
  F m o := o = o0 ∧ d.Final m
  perm := by
    rintro R R' m o hR ⟨ho, D, hp, hd⟩
    exact ⟨ho, D, (List.Perm.append_left D hR.symm).trans hp, hd⟩
  start := ⟨rfl, [], by simp, hwf, by simp [lanesOf], fun _ _ => rfl⟩
  run := by
    rintro it R m o ⟨ho, D, hp, hd⟩
    rcases d.done_step (o := o) hp hd with ⟨m', heq, hd'⟩ | h
    · exact .inl ⟨m', o, heq, ho, D ++ [it], by simpa using hp, hd'⟩
    · exact .inr h
  stable := by
    rintro R m o ⟨-, D, hp, hd⟩
    exact hd.midway hp
  finish := by
    rintro - m o ⟨ho, D, hp, hd⟩
    exact ⟨ho, hd.final (by simpa using hp)⟩
  copyStart := fun h => absurd h d.family
  copyStep := fun h => h.elim
  copyEnd := fun h => h.elim
  copyStable := fun h => h.elim
  bound v := by
    rw [← length_pixelCoords, ← d.lanes v]
    exact length_le_lanes (d.nonempty v)
  scalarTail := d.scalarTail
  vectorTail := d.vectorTail

end Direct

end Sys2Proof.Machine
end

