-- ==== Sys2Proof/Laws/Pointwise.lean ====
section
/-! SUPPORT. The pointwise filters executed item by item (R181, R184, R185). -/

namespace Sys2Proof.Machine

/-- The writes of an item, as pairs of a pixel and its new value. -/
theorem thread_zip (f : Pixel → Pixel) (c : Cfg) (g : HostRegs) (v : Nat × Nat → Pixel) : ∀ (l : List (Nat × Nat)) (m : Memory),
    thread (fun m e => pixWrite c g m e.1.1 e.1.2 (f e.2)) m (l.zip (l.map v))
      = thread (fun m e => pixWrite c g m e.1.1 e.1.2 e.2) m (l.map fun p => (p, f (v p)))
  | [], _ => rfl
  | p :: l, m => by
    simp only [List.map_cons, List.zip_cons_cons, thread]
    cases pixWrite c g m p.1 p.2 (f (v p)) with
    | error e => rfl
    | ok m' => exact thread_zip f c g v l m'

theorem offPixels_own {g : HostRegs} (hS : RowsFit g) {ls : List (Nat × Nat)} {p : Nat × Nat}
    (hp : p ∈ ls) (hin : p ∈ pixelCoords g) {k : Nat} (hk : k < 4) :
    OffPixels g ((pixelCoords g).filter (· ∉ ls)) (pixelAddr g p.1 p.2 + k) := by
  intro q hq k' hk' heq
  obtain ⟨hq1, hq2⟩ := List.mem_filter.1 hq
  obtain ⟨h1, h2, -⟩ := pixelByte_inj (hS.of_pixel hin) (mem_pixelCoords.1 hin).1 hk (mem_pixelCoords.1 hq1).1 hk' heq
  rw [show p = q from Prod.ext h1 h2] at hp
  simp [hp] at hq2

theorem lanes_in_image {k : Command} {c : Cfg} {g : HostRegs} {v : Bool}
    (h : lanesOf (allItems (k.plan c g v)) = pixelCoords g) {it : Item} (hit : it ∈ allItems (k.plan c g v)) :
    ∀ p ∈ it.lanes, p ∈ pixelCoords g := fun p hp => by
  rw [← h]; exact mem_lanesOf.2 ⟨it, hit, hp⟩

/-- `GRAY` and `NEG`: each pixel becomes `f` of itself. -/
def pointwiseDirect (f : Pixel → Pixel) (c : Cfg) (g : HostRegs) (kern : Kernel) (m0 : Memory) (hS : RowsFit g) :
    Direct (pointwiseCommand f) c g kern m0 where
  specified := True
  newPx p := f (m0.pixelAt (pixelAddr g p.1 p.2))
  laneAdm p := FourAdmissible c (pixelAddr g p.1 p.2)
  stride := hS
  family := by simp [pointwiseCommand]
  lanes := pointwisePlan_lanes c g
  nonempty := pointwisePlan_nonempty c g
  scalarTail := rfl
  vectorTail h := by simp [pointwiseCommand] at h
  four _ h := h
  run v it hit m o _ hagree := by
    have hin := lanes_in_image (k := pointwiseCommand f) (pointwisePlan_lanes c g v) hit
    by_cases hall : ∀ p ∈ it.lanes, FourAdmissible c (pixelAddr g p.1 p.2)
    · refine .inl ⟨hall, fun p => f (m0.pixelAt (pixelAddr g p.1 p.2)), fun _ _ _ => rfl, ?_⟩
      have hg : gather (fun p : Nat × Nat => pixRead c g m p.1 p.2) it.lanes
          = .ok (it.lanes.map fun p => m0.pixelAt (pixelAddr g p.1 p.2)) := by
        refine gather_ok fun p hp => ?_
        rw [pixRead_ok (hall p hp)]
        exact congrArg _ (Memory.pixelAt_congr fun k hk => hagree _ (offPixels_own hS hp (hin p hp) hk))
      simp only [pointwiseCommand, runPointwise, hg]
      rw [thread_zip]
    · push Not at hall
      obtain ⟨p, hp, hna⟩ := hall
      refine .inr ⟨⟨p, hp, hna⟩, ?_⟩
      obtain ⟨e, he⟩ := pixRead_error (m := m) hna
      obtain ⟨e', he'⟩ := gather_error (f := fun p : Nat × Nat => pixRead c g m p.1 p.2) hp he
      exact ⟨e', by simp [pointwiseCommand, runPointwise, he', Except.map]⟩

end Sys2Proof.Machine
end

