-- ==== Sys2Proof/Laws/Convert.lean ====
section
/-! SUPPORT. The converter executed item by item (R224, R226), with source and destination disjoint. -/

namespace Sys2Proof.Machine

theorem byteRead_ok {c : Cfg} {m : Memory} {a : Nat} (h : admissible c a = true) : byteRead c m a = .ok (m.read a) := by
  simp [byteRead, h]

theorem byteRead_error {c : Cfg} {m : Memory} {a : Nat} (h : admissible c a = false) : byteRead c m a = .error ⟨a⟩ := by
  simp [byteRead, h]

/-- The three samples of an output pixel lie in memory. -/
def SamplesIn (c : Cfg) (g : HostRegs) (p : Nat × Nat) : Prop := ∀ a ∈ sampleAddrs g p.1 p.2, admissible c a = true

/-- What the converter writes at a pixel when the samples are those of `m`. -/
def convertedPixel (g : HostRegs) (m : Memory) (p : Nat × Nat) : Pixel :=
  scalYuv (m.read (addrY g p.1 p.2)) (m.read (addrU g (p.1 / 2) (p.2 / 2))) (m.read (addrV g (p.1 / 2) (p.2 / 2)))

theorem convertPixel_ok {c : Cfg} {g : HostRegs} {m : Memory} {p : Nat × Nat} (h : SamplesIn c g p) :
    convertPixel c g m p.1 p.2 = .ok (convertedPixel g m p) := by
  have hy := h (addrY g p.1 p.2) (by simp [sampleAddrs])
  have hu := h (addrU g (p.1 / 2) (p.2 / 2)) (by simp [sampleAddrs])
  have hv := h (addrV g (p.1 / 2) (p.2 / 2)) (by simp [sampleAddrs])
  simp [convertPixel, convertedPixel, byteRead_ok, hy, hu, hv]

theorem convertPixel_error {c : Cfg} {g : HostRegs} {m : Memory} {p : Nat × Nat} (h : ¬ SamplesIn c g p) :
    ∃ e, convertPixel c g m p.1 p.2 = .error e := by
  unfold convertPixel
  cases hy : admissible c (addrY g p.1 p.2) with
  | false => exact ⟨_, by rw [byteRead_error hy]⟩
  | true =>
    cases hu : admissible c (addrU g (p.1 / 2) (p.2 / 2)) with
    | false => exact ⟨_, by rw [byteRead_ok hy, byteRead_error hu]⟩
    | true =>
      cases hv : admissible c (addrV g (p.1 / 2) (p.2 / 2)) with
      | false => exact ⟨_, by rw [byteRead_ok hy, byteRead_ok hu, byteRead_error hv]⟩
      | true =>
        refine absurd ?_ h
        intro a ha
        simp only [sampleAddrs, List.mem_cons, List.not_mem_nil, or_false] at ha
        rcases ha with rfl | rfl | rfl
        · exact hy
        · exact hu
        · exact hv

/-! ### The chroma samples of a group -/

theorem chromaCoords_pairs (y : Nat) : ∀ n x0 : Nat, x0 % 2 = 0 →
    chromaCoords ((List.range' x0 (2 * n)).map fun x => (x, y)) = (List.range' (x0 / 2) n).map fun cx => (cx, y / 2)
  | 0, _, _ => by simp [chromaCoords]
  | n + 1, x0, h => by
    rw [show 2 * (n + 1) = 2 * n + 1 + 1 by omega, List.range'_succ, List.range'_succ, List.range'_succ]
    simp only [List.map_cons, chromaCoords]
    rw [chromaCoords_pairs y n (x0 + 1 + 1) (by omega), show (x0 + 1 + 1) / 2 = x0 / 2 + 1 by omega]

/-- The lanes of the items of the converter: an even number from an even column, or one pixel. -/
def LanesOk (lanes : List (Nat × Nat)) : Prop :=
  (∃ p, lanes = [p]) ∨ ∃ n x0 y, x0 % 2 = 0 ∧ lanes = (List.range' x0 (2 * n)).map fun x => (x, y)

theorem yuv_lanesOk {c : Cfg} {g : HostRegs} {v : Bool} {it : Item}
    (h : it ∈ allItems (rowPlan 0 0 g.width (rowUnits g g.height) (vectorWidth c) (rowGroups c v g.width))) : LanesOk it.lanes := by
  rcases mem_rowPlan h with ⟨k, -, u, -, rfl⟩ | ⟨k, -, u, -, rfl⟩
  · refine .inr ⟨c.vwPairs.val + 1, k * vectorWidth c, u, ?_, ?_⟩
    · rw [vectorWidth, Nat.mul_left_comm, Nat.mul_mod_right]
    · simp only [rowLanes, vectorWidth, Nat.zero_add]
      rw [List.range'_eq_map_range, List.map_map]
      rfl
  · exact .inl ⟨_, rfl⟩

/-- The chroma read at the coordinates of the items, spread over the lanes, is each lane's own. -/
theorem chroma_spread {lanes : List (Nat × Nat)} (h : LanesOk lanes) (f : Nat × Nat → Byte) {j : Nat} (hj : j < lanes.length) :
    ((chromaCoords lanes).map f).getD (j / 2) 0 = f ((lanes[j]).1 / 2, (lanes[j]).2 / 2) := by
  rcases h with ⟨p, rfl⟩ | ⟨n, x0, y, h0, rfl⟩
  · have : j = 0 := by simpa using hj
    subst this
    simp [chromaCoords]
  · rw [chromaCoords_pairs y n x0 h0]
    simp only [List.length_map, List.length_range'] at hj
    rw [List.getD_eq_getElem _ _ (by simp; omega)]
    simp only [List.getElem_map, List.getElem_range']
    rw [show (x0 + 1 * j) / 2 = x0 / 2 + 1 * (j / 2) by omega]

theorem chromaCoords_mem {lanes : List (Nat × Nat)} (h : LanesOk lanes) {q : Nat × Nat} :
    q ∈ chromaCoords lanes ↔ ∃ p ∈ lanes, q = (p.1 / 2, p.2 / 2) := by
  rcases h with ⟨p, rfl⟩ | ⟨n, x0, y, h0, rfl⟩
  · simp [chromaCoords]
  · rw [chromaCoords_pairs y n x0 h0]
    simp only [List.mem_map, List.mem_range'_1]
    constructor
    · rintro ⟨cx, hcx, rfl⟩
      exact ⟨(2 * cx, y), ⟨2 * cx, by omega, rfl⟩, by simp⟩
    · rintro ⟨p, ⟨x, hx, rfl⟩, rfl⟩
      exact ⟨x / 2, by omega, rfl⟩

/-- One item of the converter: the lanes' pixels from the samples of `m`, or a fault at a sample. -/
theorem runConvert_cases {c : Cfg} {g : HostRegs} {it : Item} (hl : LanesOk it.lanes) (m : Memory) :
    ((∀ p ∈ it.lanes, SamplesIn c g p) ∧ runConvert c g it m =
      thread (fun m e => pixWrite c g m e.1.1 e.1.2 e.2) m (it.lanes.map fun p => (p, convertedPixel g m p))) ∨
    ((∃ p ∈ it.lanes, ¬ SamplesIn c g p) ∧ ∃ e, runConvert c g it m = .error e) := by
  by_cases hall : ∀ p ∈ it.lanes, SamplesIn c g p
  · refine .inl ⟨hall, ?_⟩
    have hy : gather (fun p : Nat × Nat => byteRead c m (addrY g p.1 p.2)) it.lanes
        = .ok (it.lanes.map fun p => m.read (addrY g p.1 p.2)) :=
      gather_ok fun p hp => byteRead_ok (hall p hp _ (by simp [sampleAddrs]))
    have hu : gather (fun p : Nat × Nat => byteRead c m (addrU g p.1 p.2)) (chromaCoords it.lanes)
        = .ok ((chromaCoords it.lanes).map fun p => m.read (addrU g p.1 p.2)) := by
      refine gather_ok fun q hq => byteRead_ok ?_
      obtain ⟨p, hp, rfl⟩ := (chromaCoords_mem hl).1 hq
      exact hall p hp _ (by simp [sampleAddrs])
    have hv : gather (fun p : Nat × Nat => byteRead c m (addrV g p.1 p.2)) (chromaCoords it.lanes)
        = .ok ((chromaCoords it.lanes).map fun p => m.read (addrV g p.1 p.2)) := by
      refine gather_ok fun q hq => byteRead_ok ?_
      obtain ⟨p, hp, rfl⟩ := (chromaCoords_mem hl).1 hq
      exact hall p hp _ (by simp [sampleAddrs])
    simp only [runConvert, hy, hu, hv]
    refine congrArg _ ?_
    unfold convertedLanes
    refine List.ext_getElem (by simp) fun j h1 h2 => ?_
    simp only [List.length_mapIdx] at h1
    simp only [List.getElem_mapIdx, List.getElem_map, Prod.mk.injEq, true_and]
    rw [List.getD_eq_getElem _ _ (by simpa using h1), List.getElem_map,
      chroma_spread hl (fun p => m.read (addrU g p.1 p.2)) h1, chroma_spread hl (fun p => m.read (addrV g p.1 p.2)) h1]
    rfl
  · push Not at hall
    obtain ⟨p, hp, hna⟩ := hall
    refine .inr ⟨⟨p, hp, hna⟩, ?_⟩
    unfold runConvert
    cases hy : gather (fun p : Nat × Nat => byteRead c m (addrY g p.1 p.2)) it.lanes with
    | error e => exact ⟨e, rfl⟩
    | ok ys =>
      cases hu : gather (fun p : Nat × Nat => byteRead c m (addrU g p.1 p.2)) (chromaCoords it.lanes) with
      | error e => exact ⟨e, rfl⟩
      | ok us =>
        cases hv : gather (fun p : Nat × Nat => byteRead c m (addrV g p.1 p.2)) (chromaCoords it.lanes) with
        | error e => exact ⟨e, rfl⟩
        | ok vs =>
          refine absurd ?_ hna
          have hmem : (p.1 / 2, p.2 / 2) ∈ chromaCoords it.lanes := (chromaCoords_mem hl).2 ⟨p, hp, rfl⟩
          intro a ha
          by_contra hf
          rw [Bool.not_eq_true] at hf
          simp only [sampleAddrs, List.mem_cons, List.not_mem_nil, or_false] at ha
          rcases ha with rfl | rfl | rfl
          · obtain ⟨e', he'⟩ := gather_error (f := fun p : Nat × Nat => byteRead c m (addrY g p.1 p.2)) hp (byteRead_error hf)
            rw [hy] at he'; cases he'
          · obtain ⟨e', he'⟩ := gather_error (f := fun p : Nat × Nat => byteRead c m (addrU g p.1 p.2)) hmem (byteRead_error hf)
            rw [hu] at he'; cases he'
          · obtain ⟨e', he'⟩ := gather_error (f := fun p : Nat × Nat => byteRead c m (addrV g p.1 p.2)) hmem (byteRead_error hf)
            rw [hv] at he'; cases he'

theorem sample_off_pixels {g : HostRegs} (hS : RowsFit g) (hd : planesOverlap g = false) {p : Nat × Nat} (hp : p ∈ pixelCoords g) {a : Nat}
    (ha : a ∈ sampleAddrs g p.1 p.2) : inPixels g a = false := by
  by_contra h
  rw [Bool.not_eq_false] at h
  rw [← Bool.not_eq_true] at hd
  exact hd (List.any_eq_true.2 ⟨p, hp, List.any_eq_true.2 ⟨a, ha, inRows_of_inPixels hS h⟩⟩)

theorem thread_pixWrite_error {c : Cfg} {g : HostRegs} : ∀ {l : List ((Nat × Nat) × Pixel)} {m : Memory},
    (∃ e ∈ l, ¬ FourAdmissible c (pixelAddr g e.1.1 e.1.2)) →
    ∃ e, thread (fun m e => pixWrite c g m e.1.1 e.1.2 e.2) m l = .error e
  | [], _, h => by simp at h
  | e :: l, m, h => by
    by_cases hf : FourAdmissible c (pixelAddr g e.1.1 e.1.2)
    · have : ∃ e' ∈ l, ¬ FourAdmissible c (pixelAddr g e'.1.1 e'.1.2) := by
        obtain ⟨e', he', hna⟩ := h
        rcases List.mem_cons.1 he' with rfl | he'
        · exact absurd hf hna
        · exact ⟨e', he', hna⟩
      obtain ⟨e', he'⟩ := thread_pixWrite_error (m := m.putPixel (pixelAddr g e.1.1 e.1.2) e.2) this
      exact ⟨e', by simp only [thread, pixWrite_ok hf, he']⟩
    · obtain ⟨e', he'⟩ := pixWrite_error (m := m) (p := e.2) hf
      exact ⟨e', by simp only [thread, he']⟩

/-- `YUV2RGBA`; its results are specified when source and destination are disjoint. -/
def yuvDirect (hint : Bool) (c : Cfg) (g : HostRegs) (kern : Kernel) (m0 : Memory) (hS : RowsFit g) :
    Direct (yuvCommand hint) c g kern m0 where
  specified := planesOverlap g = false
  newPx p := convertedPixel g m0 p
  laneAdm p := FourAdmissible c (pixelAddr g p.1 p.2) ∧ SamplesIn c g p
  stride := hS
  family := by simp [yuvCommand]
  lanes v := by
    rw [pixelCoords_eq]; exact rowUnits_lanes (Nat.le_refl _) (rowGroups_le c v g.width)
  nonempty v := rowPlan_nonempty (vectorWidth_pos c)
  scalarTail := rfl
  vectorTail _ := rfl
  four _ h := h.1
  run v it hit m o _ hagree := by
    have hlanes : ∀ v, lanesOf (allItems ((yuvCommand hint).plan c g v)) = pixelCoords g := fun v => by
      rw [pixelCoords_eq]; exact rowUnits_lanes (Nat.le_refl _) (rowGroups_le c v g.width)
    have hin := lanes_in_image (k := yuvCommand hint) (hlanes v) hit
    have hsame : planesOverlap g = false → ∀ p ∈ it.lanes, convertedPixel g m p = convertedPixel g m0 p := by
      intro hd p hp
      have hoff : ∀ a ∈ sampleAddrs g p.1 p.2, m.read a = m0.read a := by
        intro a ha
        refine hagree a fun q hq => ?_
        exact (offPixels_all hS a).2 (sample_off_pixels hS hd (hin p hp) ha) q (List.mem_filter.1 hq).1
      unfold convertedPixel
      rw [hoff _ (by simp [sampleAddrs]), hoff _ (by simp [sampleAddrs]), hoff _ (by simp [sampleAddrs])]
    rcases runConvert_cases (c := c) (yuv_lanesOk hit) m with ⟨hall, heq⟩ | ⟨⟨p, hp, hna⟩, e, he⟩
    · by_cases hfour : ∀ p ∈ it.lanes, FourAdmissible c (pixelAddr g p.1 p.2)
      · exact .inl ⟨fun p hp => ⟨hfour p hp, hall p hp⟩, convertedPixel g m, hsame, by simp only [yuvCommand, heq]⟩
      · push Not at hfour
        obtain ⟨p, hp, hna⟩ := hfour
        refine .inr ⟨⟨p, hp, fun h => hna h.1⟩, ?_⟩
        obtain ⟨e, he⟩ := thread_pixWrite_error (c := c) (g := g) (m := m)
          (l := it.lanes.map fun p => (p, convertedPixel g m p)) ⟨_, List.mem_map_of_mem hp, hna⟩
        exact ⟨e, by simp only [yuvCommand, heq, he, Except.map]⟩
    · exact .inr ⟨⟨p, hp, fun h => hna h.2⟩, e, by simp only [yuvCommand, he, Except.map]⟩

end Sys2Proof.Machine
end

