-- ==== Sys2Proof/Laws/Convolution.lean ====
section
/-! SUPPORT. The neighbourhood filters executed item by item, and their copy-back (R191, R205, R206, R207). -/

namespace Sys2Proof.Machine

/-- Every pixel of the window of `p` lies in memory. -/
def WindowIn (c : Cfg) (g : HostRegs) (r : Nat) (p : Nat × Nat) : Prop :=
  ∀ q ∈ windowCoords r p.1 p.2, FourAdmissible c (pixelAddr g q.1 q.2)

/-- The window of `p` in memory `m`. -/
def windowOf (g : HostRegs) (m : Memory) (r : Nat) (p : Nat × Nat) : List Pixel :=
  (windowCoords r p.1 p.2).map fun q => m.pixelAt (pixelAddr g q.1 q.2)

theorem readWindow_ok {c : Cfg} {g : HostRegs} {m : Memory} {r : Nat} {p : Nat × Nat} (h : WindowIn c g r p) :
    readWindow c g m r p.1 p.2 = .ok (windowOf g m r p) :=
  gather_ok fun q hq => pixRead_ok (h q hq)

theorem readWindow_error {c : Cfg} {g : HostRegs} {m : Memory} {r : Nat} {p : Nat × Nat} (h : ¬ WindowIn c g r p) :
    ∃ e, readWindow c g m r p.1 p.2 = .error e := by
  unfold WindowIn at h
  push Not at h
  obtain ⟨q, hq, hna⟩ := h
  obtain ⟨e, he⟩ := pixRead_error (m := m) hna
  exact gather_error (f := fun q : Nat × Nat => pixRead c g m q.1 q.2) hq he

/-- The place of a pixel in the scratch store. -/
def slot (g : HostRegs) (p : Nat × Nat) : Nat := p.2 * g.width + p.1

theorem slot_lt {g : HostRegs} {p : Nat × Nat} (h : p ∈ pixelCoords g) : slot g p < g.width * g.height := by
  obtain ⟨h1, h2⟩ := mem_pixelCoords.1 h
  calc slot g p < p.2 * g.width + g.width := by unfold slot; omega
    _ = (p.2 + 1) * g.width := by rw [Nat.add_mul, Nat.one_mul]
    _ ≤ g.height * g.width := Nat.mul_le_mul_right _ h2
    _ = _ := Nat.mul_comm _ _

theorem slot_inj {g : HostRegs} {p q : Nat × Nat} (hp : p.1 < g.width) (hq : q.1 < g.width) (h : slot g p = slot g q) : p = q := by
  unfold slot at h
  have h1 := congrArg (· % g.width) h
  have h2 := congrArg (· / g.width) h
  simp only [Nat.add_comm (p.2 * g.width), Nat.add_comm (q.2 * g.width), Nat.add_mul_mod_self_right,
    Nat.add_mul_div_right _ _ (show 0 < g.width by omega), Nat.mod_eq_of_lt hp, Nat.mod_eq_of_lt hq,
    Nat.div_eq_of_lt hp, Nat.div_eq_of_lt hq] at h1 h2
  exact Prod.ext h1 (by omega)

/-- An unwritten scratch pixel. -/
def blankPixel : OutPixel := ⟨Pixel.zero, false⟩

theorem getD_set_ne {o : Scratch} {i j : Nat} {v d : OutPixel} (h : i ≠ j) : (o.set i v).getD j d = o.getD j d := by
  simp [List.getElem?_set_ne h]

theorem getD_set_eq {o : Scratch} {i : Nat} {v d : OutPixel} (h : i < o.length) : (o.set i v).getD i d = v := by
  simp [h]

/-- The windows of a list of pixels read and their results written to the scratch store. -/
theorem thread_scratch {c : Cfg} {g : HostRegs} {m : Memory} {r : Nat} {F : List Pixel → Pixel} :
    ∀ {l : List (Nat × Nat)} {o : Scratch}, o.length = g.width * g.height → (∀ p ∈ l, p ∈ pixelCoords g) → l.Nodup →
    (∀ p ∈ l, WindowIn c g r p) →
    ∃ o', thread (computePixel c g m r F) o l = .ok o' ∧ o'.length = g.width * g.height ∧
      (∀ p ∈ l, o'.getD (slot g p) blankPixel = ⟨F (windowOf g m r p), true⟩) ∧
      (∀ p ∈ pixelCoords g, p ∉ l → o'.getD (slot g p) blankPixel = o.getD (slot g p) blankPixel)
  | [], o, hlen, _, _, _ => ⟨o, rfl, hlen, by simp, fun _ _ _ => rfl⟩
  | p :: l, o, hlen, hin, hnd, hw => by
    rw [List.nodup_cons] at hnd
    have hs := slot_lt (hin p (by simp))
    obtain ⟨o', hrun, hlen', hl, hoth⟩ := thread_scratch (l := l) (m := m) (r := r) (F := F)
      (o := scratchWrite g o p.1 p.2 (F (windowOf g m r p))) (by simp [scratchWrite, hlen])
      (fun q hq => hin q (by simp [hq])) hnd.2 (fun q hq => hw q (by simp [hq]))
    refine ⟨o', by simp only [thread, computePixel, readWindow_ok (hw p (by simp)), hrun], hlen', ?_, ?_⟩
    · intro q hq
      rcases List.mem_cons.1 hq with rfl | hq
      · rw [hoth q (hin q (by simp)) hnd.1]
        exact getD_set_eq (by rw [hlen]; exact hs)
      · exact hl q hq
    · intro q hq hql
      rw [List.mem_cons, not_or] at hql
      rw [hoth q hq hql.2]
      refine getD_set_ne fun h => hql.1 ?_
      exact (slot_inj (mem_pixelCoords.1 (hin p (by simp))).1 (mem_pixelCoords.1 hq).1 h).symm

theorem thread_scratch_error {c : Cfg} {g : HostRegs} {m : Memory} {r : Nat} {F : List Pixel → Pixel} :
    ∀ {l : List (Nat × Nat)} {o : Scratch}, (∃ p ∈ l, ¬ WindowIn c g r p) →
    ∃ e, thread (computePixel c g m r F) o l = .error e
  | [], _, h => by simp at h
  | p :: l, o, h => by
    by_cases hp : WindowIn c g r p
    · have : ∃ q ∈ l, ¬ WindowIn c g r q := by
        obtain ⟨q, hq, hna⟩ := h
        rcases List.mem_cons.1 hq with rfl | hq
        · exact absurd hp hna
        · exact ⟨q, hq, hna⟩
      obtain ⟨e, he⟩ := thread_scratch_error (m := m) (F := F) (o := scratchWrite g o p.1 p.2 (F (windowOf g m r p))) this
      exact ⟨e, by simp only [thread, computePixel, readWindow_ok hp, he]⟩
    · obtain ⟨e, he⟩ := readWindow_error (m := m) hp
      exact ⟨e, by simp only [thread, computePixel, he]⟩

/-! ### Interior pixels and windows -/

theorem mem_interiorBox {g : HostRegs} {r : Nat} {p : Nat × Nat} :
    p ∈ boxCoords r r (interiorWidth g r) (g.height - 2 * r) ↔ interior g r p.1 p.2 = true := by
  rw [mem_boxCoords]
  unfold interior interiorWidth
  simp only [Bool.and_eq_true, decide_eq_true_eq]
  omega

theorem interior_mem {g : HostRegs} {r : Nat} {p : Nat × Nat} (h : interior g r p.1 p.2 = true) : p ∈ pixelCoords g := by
  rw [mem_pixelCoords]
  unfold interior at h
  simp only [Bool.and_eq_true, decide_eq_true_eq] at h
  omega

theorem window_mem {g : HostRegs} {r : Nat} {p q : Nat × Nat} (h : interior g r p.1 p.2 = true)
    (hq : q ∈ windowCoords r p.1 p.2) : q ∈ pixelCoords g := by
  rw [mem_pixelCoords]
  unfold interior at h
  simp only [Bool.and_eq_true, decide_eq_true_eq] at h
  simp only [windowCoords, List.mem_flatMap, List.mem_range, List.mem_map] at hq
  obtain ⟨j, hj, i, hi, rfl⟩ := hq
  simp only
  omega

theorem interior_exists {g : HostRegs} {r : Nat} {p : Nat × Nat} (h : interior g r p.1 p.2 = true) :
    2 * r < g.width ∧ 2 * r < g.height := by
  unfold interior at h
  simp only [Bool.and_eq_true, decide_eq_true_eq] at h
  omega

/-- When an interior exists every pixel of the image lies in the window of some interior pixel (R80). -/
theorem window_covers {g : HostRegs} {r : Nat} (hw : 2 * r < g.width) (hh : 2 * r < g.height) {q : Nat × Nat}
    (hq : q ∈ pixelCoords g) : ∃ p : Nat × Nat, interior g r p.1 p.2 = true ∧ q ∈ windowCoords r p.1 p.2 := by
  obtain ⟨h1, h2⟩ := mem_pixelCoords.1 hq
  refine ⟨(max r (min q.1 (g.width - 1 - r)), max r (min q.2 (g.height - 1 - r))), ?_, ?_⟩
  · unfold interior
    simp only [Bool.and_eq_true, decide_eq_true_eq]
    omega
  · simp only [windowCoords, List.mem_flatMap, List.mem_range, List.mem_map]
    refine ⟨q.2 + r - max r (min q.2 (g.height - 1 - r)), by omega, q.1 + r - max r (min q.1 (g.width - 1 - r)), by omega, ?_⟩
    exact Prod.ext (by simp only; omega) (by simp only; omega)

/-- The lanes of an item are all in full groups, or all outside them (R165). -/
theorem item_group {c : Cfg} {g : HostRegs} {r : Nat} {v : Bool} {rows : Nat} {it : Item}
    (hit : it ∈ allItems (rowPlan r r (interiorWidth g r) rows (vectorWidth c) (rowGroups c v (interiorWidth g r))))
    {p : Nat × Nat} (hp : p ∈ it.lanes) : it.group = inGroup c g r v p.1 := by
  unfold inGroup
  rcases mem_rowPlan hit with ⟨k, hk, u, -, rfl⟩ | ⟨k, hk, u, -, rfl⟩
  · simp only [rowLanes, List.mem_map, List.mem_range] at hp
    obtain ⟨j, hj, rfl⟩ := hp
    have : (k + 1) * vectorWidth c ≤ rowGroups c v (interiorWidth g r) * vectorWidth c := Nat.mul_le_mul_right _ hk
    rw [Nat.add_mul, Nat.one_mul] at this
    simp only
    symm
    rw [decide_eq_true_eq]
    omega
  · simp only [List.mem_singleton] at hp
    subst hp
    simp only
    symm
    rw [decide_eq_false_iff_not]
    omega

/-! ### The run -/

section Filter

variable (f : Filter) (c : Cfg) (g : HostRegs) (kern : Kernel) (m0 : Memory)

/-- The path of a neighbourhood filter. -/
abbrev filterPath : Bool := (selectPath Family.neighbourhood c).1

/-- What the filter leaves at an interior pixel. -/
def filteredPixel (p : Nat × Nat) : Pixel :=
  interiorPixel (f.radius g) (f.rgb c kern (inGroup c g (f.radius g) (filterPath c) p.1)) (windowOf g m0 (f.radius g) p)

/-- The scratch store once every row has been computed. -/
def outPixel (p : Nat × Nat) : OutPixel :=
  if interior g (f.radius g) p.1 p.2 then ⟨filteredPixel f c g kern m0 p, true⟩ else blankPixel

/-- Whether the copy-back writes the pixel (R206). -/
def written (p : Nat × Nat) : Prop := c.borderPolicy = .zero ∨ interior g (f.radius g) p.1 p.2 = true

/-- The stores while the items `R` are still to be executed. -/
structure Computing (R : List Item) (m : Memory) (o : Scratch) : Prop where
  mem : m = m0
  length : o.length = g.width * g.height
  doneItems : ∃ D, List.Perm (D ++ R) (allItems ((filterCommand f).plan c g (filterPath c))) ∧
    (∀ p ∈ lanesOf D, WindowIn c g (f.radius g) p ∧ o.getD (slot g p) blankPixel = ⟨filteredPixel f c g kern m0 p, true⟩) ∧
    (∀ p ∈ pixelCoords g, p ∉ lanesOf D → o.getD (slot g p) blankPixel = blankPixel)

/-- The stores while the first `n` pixels have been copied back. -/
structure Copying (n : Nat) (m : Memory) (o : Scratch) : Prop where
  wf : m.wf = true
  out : ∀ p ∈ pixelCoords g, o.getD (slot g p) blankPixel = outPixel f c g kern m0 p
  windows : ∀ p, interior g (f.radius g) p.1 p.2 = true → WindowIn c g (f.radius g) p
  copied : ∀ p ∈ pixelCoords g, slot g p < n → written f c g p →
    FourAdmissible c (pixelAddr g p.1 p.2) ∧ m.pixelAt (pixelAddr g p.1 p.2) = (outPixel f c g kern m0 p).px
  notYet : ∀ p ∈ pixelCoords g, ¬ (slot g p < n ∧ written f c g p) →
    ∀ k < 4, m.read (pixelAddr g p.1 p.2 + k) = m0.read (pixelAddr g p.1 p.2 + k)
  others : ∀ a, inPixels g a = false → m.read a = m0.read a

/-- Memory at the end. -/
structure Filtered (m : Memory) : Prop where
  wf : m.wf = true
  windows : ∀ p, interior g (f.radius g) p.1 p.2 = true → WindowIn c g (f.radius g) p
  copied : ∀ p ∈ pixelCoords g, written f c g p →
    FourAdmissible c (pixelAddr g p.1 p.2) ∧ m.pixelAt (pixelAddr g p.1 p.2) = (outPixel f c g kern m0 p).px
  kept : ∀ p ∈ pixelCoords g, ¬ written f c g p →
    ∀ k < 4, m.read (pixelAddr g p.1 p.2 + k) = m0.read (pixelAddr g p.1 p.2 + k)
  others : ∀ a, inPixels g a = false → m.read a = m0.read a

/-- Memory at any time. -/
structure FilterMidway (m : Memory) : Prop where
  wf : m.wf = true
  others : ∀ a, inPixels g a = false → m.read a = m0.read a
  kept : ∀ p ∈ pixelCoords g, (¬ written f c g p ∨ ¬ FourAdmissible c (pixelAddr g p.1 p.2) ∨
      ∃ q, interior g (f.radius g) q.1 q.2 = true ∧ ¬ WindowIn c g (f.radius g) q) →
    ∀ k < 4, m.read (pixelAddr g p.1 p.2 + k) = m0.read (pixelAddr g p.1 p.2 + k)

/-- Every byte of the footprint lies in memory (R281 premise 3). -/
def FilterAdm : Prop := ∀ a, (filterCommand f).footprint c g a = true → admissible c a = true

variable {f c g kern m0}

theorem filter_lanes (v : Bool) : lanesOf (allItems ((filterCommand f).plan c g v))
    = boxCoords (f.radius g) (f.radius g) (interiorWidth g (f.radius g)) (g.height - 2 * f.radius g) :=
  rowUnits_lanes (Nat.sub_le _ _) (rowGroups_le c v _)

theorem mem_filter_lanes {v : Bool} {p : Nat × Nat} :
    p ∈ lanesOf (allItems ((filterCommand f).plan c g v)) ↔ interior g (f.radius g) p.1 p.2 = true := by
  rw [filter_lanes, mem_interiorBox]

theorem footprint_pixel (hS : RowsFit g) {p : Nat × Nat} (hp : p ∈ pixelCoords g)
    (hw : c.borderPolicy = .zero ∨ (2 * f.radius g < g.width ∧ 2 * f.radius g < g.height)) {k : Nat} (hk : k < 4) :
    (filterCommand f).footprint c g (pixelAddr g p.1 p.2 + k) = true := by
  obtain ⟨h1, h2⟩ := mem_pixelCoords.1 hp
  have : inPixels g (pixelAddr g p.1 p.2 + k) = true := (inPixels_iff hS _).2 ⟨p.1, h1, p.2, h2, k, hk, rfl⟩
  simp only [filterCommand, this, Bool.true_and, Bool.or_eq_true, beq_iff_eq, Bool.and_eq_true, decide_eq_true_eq]
  exact hw

theorem not_adm_of_window (hS : RowsFit g) {p : Nat × Nat} (hp : interior g (f.radius g) p.1 p.2 = true)
    (hw : ¬ WindowIn c g (f.radius g) p) : ¬ FilterAdm f c g := by
  intro hadm
  refine hw fun q hq k hk => hadm _ (footprint_pixel hS (window_mem hp hq) (.inr (interior_exists hp)) hk)

theorem not_adm_of_pixel (hS : RowsFit g) {p : Nat × Nat} (hp : p ∈ pixelCoords g) (hw : written f c g p)
    (hf : ¬ FourAdmissible c (pixelAddr g p.1 p.2)) : ¬ FilterAdm f c g := by
  intro hadm
  refine hf fun k hk => hadm _ (footprint_pixel hS hp ?_ hk)
  rcases hw with h | h
  · exact .inl h
  · exact .inr (interior_exists h)

/-- A filter that has ended has found its whole footprint in memory. -/
theorem Filtered.adm (hS : RowsFit g) {m : Memory} (h : Filtered f c g kern m0 m) : FilterAdm f c g := by
  intro a ha
  simp only [filterCommand, Bool.and_eq_true, Bool.or_eq_true, beq_iff_eq, decide_eq_true_eq] at ha
  obtain ⟨hin, hw⟩ := ha
  obtain ⟨x, hx, y, hy, k, hk, rfl⟩ := (inPixels_iff hS a).1 hin
  have hp : (x, y) ∈ pixelCoords g := mem_pixelCoords.2 ⟨hx, hy⟩
  rcases hw with hz | ⟨hw, hh⟩
  · exact (h.copied (x, y) hp (.inl hz)).1 k hk
  · obtain ⟨p, hpi, hq⟩ := window_covers hw hh hp
    exact h.windows p hpi (x, y) hq k hk

theorem computing_step (hS : RowsFit g) {it : Item} {R : List Item} {m : Memory} {o : Scratch}
    (h : Computing f c g kern m0 (it :: R) m o) :
    (∃ m' o', (filterCommand f).runItem c g kern it m o = .ok (m', o') ∧ Computing f c g kern m0 R m' o') ∨
    (¬ FilterAdm f c g ∧ ∃ e, (filterCommand f).runItem c g kern it m o = .error e) := by
  obtain ⟨hm, hlen, D, hp, hD, hrest⟩ := h
  have hlp := lanesOf_perm hp
  rw [lanesOf_append, lanesOf_cons] at hlp
  have hnd := hlp.nodup_iff.2 (by rw [filter_lanes]; exact nodup_boxCoords _ _ _ _)
  have hint : ∀ p ∈ it.lanes, interior g (f.radius g) p.1 p.2 = true := fun p hp' =>
    mem_filter_lanes.1 (hlp.subset (by simp [hp']))
  have hmem : it ∈ allItems ((filterCommand f).plan c g (filterPath c)) := hp.subset (by simp)
  rw [List.nodup_append] at hnd
  obtain ⟨-, hnd2, hdis⟩ := hnd
  have hitnd : it.lanes.Nodup := (List.nodup_append.1 hnd2).1
  by_cases hall : ∀ p ∈ it.lanes, WindowIn c g (f.radius g) p
  · obtain ⟨o', hrun, hlen', hl, hoth⟩ := thread_scratch (m := m) (r := f.radius g)
      (F := interiorPixel (f.radius g) (f.rgb c kern it.group)) hlen (fun p hp' => interior_mem (hint p hp')) hitnd hall
    refine .inl ⟨m, o', ?_, hm, hlen', D ++ [it], by simpa using hp, ?_, ?_⟩
    · simp only [filterCommand, runWindow]
      rw [hrun]
      rfl
    · intro p hp'
      rw [lanesOf_append, List.mem_append, show lanesOf [it] = it.lanes by simp [lanesOf]] at hp'
      rcases hp' with hp' | hp'
      · refine ⟨(hD p hp').1, ?_⟩
        rw [hoth p (interior_mem (mem_filter_lanes.1 (hlp.subset (by simp [hp'])))) fun h2 => hdis p hp' p (by simp [h2]) rfl]
        exact (hD p hp').2
      · refine ⟨hall p hp', ?_⟩
        rw [hl p hp', filteredPixel, ← item_group hmem hp', hm]
    · intro p hp' hnot
      rw [lanesOf_append, List.mem_append, not_or, show lanesOf [it] = it.lanes by simp [lanesOf]] at hnot
      rw [hoth p hp' hnot.2]
      exact hrest p hp' hnot.1
  · push Not at hall
    obtain ⟨p, hp', hna⟩ := hall
    refine .inr ⟨not_adm_of_window hS (hint p hp') hna, ?_⟩
    obtain ⟨e, he⟩ := thread_scratch_error (m := m) (F := interiorPixel (f.radius g) (f.rgb c kern it.group)) (o := o)
      ⟨p, hp', hna⟩
    exact ⟨e, by simp only [filterCommand, runWindow]; rw [he]; rfl⟩

theorem copying_start (hwf : m0.wf = true) {m : Memory} {o : Scratch} (h : Computing f c g kern m0 [] m o) :
    Copying f c g kern m0 0 m o := by
  obtain ⟨hm, hlen, D, hp, hD, hrest⟩ := h
  rw [List.append_nil] at hp
  have hlp := lanesOf_perm hp
  have hiff : ∀ p : Nat × Nat, p ∈ lanesOf D ↔ interior g (f.radius g) p.1 p.2 = true := fun p => by
    rw [hlp.mem_iff, mem_filter_lanes]
  subst hm
  refine ⟨hwf, ?_, fun p hp' => (hD p ((hiff p).2 hp')).1, fun p _ h0 => absurd h0 (by omega), fun _ _ _ _ _ => rfl,
    fun _ _ => rfl⟩
  intro p hp'
  unfold outPixel
  split
  · next h => exact (hD p ((hiff p).2 h)).2
  · next h => exact hrest p hp' fun hd => h ((hiff p).1 hd)

theorem slot_succ {g : HostRegs} {p q : Nat × Nat} (hp : p.1 < g.width) (hq : q.1 < g.width) :
    slot g p < slot g q + 1 ↔ slot g p < slot g q ∨ p = q := by
  constructor
  · intro h
    by_cases heq : slot g p = slot g q
    · exact .inr (slot_inj hp hq heq)
    · exact .inl (by omega)
  · rintro (h | rfl) <;> omega

theorem copying_skip {y x : Nat} {m : Memory} {o : Scratch} (hx : x < g.width)
    (h : Copying f c g kern m0 (slot g (x, y)) m o) (hw : ¬ written f c g (x, y)) :
    Copying f c g kern m0 (slot g (x, y) + 1) m o := by
  refine ⟨h.wf, h.out, h.windows, ?_, ?_, h.others⟩
  · intro p hp hlt hwp
    rcases (slot_succ (mem_pixelCoords.1 hp).1 hx).1 hlt with h' | rfl
    · exact h.copied p hp h' hwp
    · exact absurd hwp hw
  · intro p hp hn
    refine h.notYet p hp fun ⟨h1, h2⟩ => hn ⟨by omega, h2⟩

theorem copying_write (hS : RowsFit g) {y x : Nat} {m : Memory} {o : Scratch} (hx : x < g.width) (hy : y < g.height)
    (h : Copying f c g kern m0 (slot g (x, y)) m o) (hw : written f c g (x, y))
    (hf : FourAdmissible c (pixelAddr g x y)) :
    Copying f c g kern m0 (slot g (x, y) + 1) (m.putPixel (pixelAddr g x y) (outPixel f c g kern m0 (x, y)).px) o := by
  have hoff : ∀ p ∈ pixelCoords g, p ≠ (x, y) → ∀ k < 4, ∀ k' < 4, pixelAddr g p.1 p.2 + k ≠ pixelAddr g x y + k' := by
    intro p hp hne k hk k' hk' heq
    obtain ⟨h1, h2, -⟩ := pixelByte_inj (hS.of_pixel hp) (mem_pixelCoords.1 hp).1 hk hx hk' heq
    exact hne (Prod.ext h1 h2)
  refine ⟨Memory.wf_putPixel h.wf _ _, h.out, h.windows, ?_, ?_, ?_⟩
  · intro p hp hlt hwp
    by_cases hpe : p = (x, y)
    · subst hpe
      exact ⟨hf, Memory.pixelAt_putPixel_same h.wf _ _⟩
    · have hlt' : slot g p < slot g (x, y) := by
        rcases (slot_succ (mem_pixelCoords.1 hp).1 hx).1 hlt with h' | h'
        · exact h'
        · exact absurd h' hpe
      obtain ⟨h1, h2⟩ := h.copied p hp hlt' hwp
      refine ⟨h1, ?_⟩
      rw [Memory.pixelAt_putPixel_other h.wf _ (hoff p hp hpe), h2]
  · intro p hp hn k hk
    have hpe : p ≠ (x, y) := by
      rintro rfl
      exact hn ⟨by omega, hw⟩
    rw [Memory.read_putPixel_other h.wf _ (hoff p hp hpe k hk)]
    exact h.notYet p hp (fun ⟨h1, h2⟩ => hn ⟨by omega, h2⟩) k hk
  · intro a ha
    rw [Memory.read_putPixel_other h.wf]
    · exact h.others a ha
    · rintro k hk rfl
      rw [← Bool.not_eq_true, inPixels_iff hS] at ha
      exact ha ⟨x, hx, y, hy, k, hk, rfl⟩

theorem Copying.midway {n : Nat} {m : Memory} {o : Scratch} (h : Copying f c g kern m0 n m o) :
    FilterMidway f c g m0 m := by
  refine ⟨h.wf, h.others, ?_⟩
  intro p hp hor
  refine h.notYet p hp fun ⟨hlt, hw⟩ => ?_
  rcases hor with h1 | h1 | ⟨q, hq, hna⟩
  · exact h1 hw
  · exact h1 (h.copied p hp hlt hw).1
  · exact hna (h.windows q hq)

omit f c g kern m0 in
/-- The meaning of the items and of the copy-back, as the engine wants it. -/
def filterSem (f : Filter) (c : Cfg) (g : HostRegs) (kern : Kernel) (m0 : Memory) (hS : RowsFit g)
    (hwf : m0.wf = true) : Sem (filterCommand f) c g kern m0 (blankScratch g) where
  J R m o := Computing f c g kern m0 R m o
  C y x m o := x < g.width + 1 ∧ (g.width = 0 ∨ Copying f c g kern m0 (y * g.width + x) m o) ∧
    (g.width = 0 → Copying f c g kern m0 0 m o)
  Adm := FilterAdm f c g
  G m := FilterMidway f c g m0 m
  F m _ := Filtered f c g kern m0 m
  perm := by
    rintro R R' m o hR ⟨hm, hl, D, hp, h⟩
    exact ⟨hm, hl, D, (List.Perm.append_left D hR.symm).trans hp, h⟩
  start := by
    refine ⟨rfl, by simp [blankScratch], [], by simp; rfl, by simp [lanesOf], ?_⟩
    intro p hp _
    have := slot_lt hp
    simp only [blankScratch]
    rw [List.getD_eq_getElem _ _ (by simpa using this)]
    simp [blankPixel]
  run h := computing_step hS h
  stable := by
    rintro R m o h
    obtain ⟨hm, -⟩ := h
    subst hm
    exact ⟨hwf, fun _ _ => rfl, fun _ _ _ _ _ => rfl⟩
  finish h := absurd rfl h
  copyStart _ := by
    intro m o h
    have hc := copying_start hwf h
    exact ⟨by omega, .inr (by simpa using hc), fun _ => hc⟩
  copyStep := by
    rintro y x m o ⟨-, hc, hc0⟩ hy hx
    have hcc : Copying f c g kern m0 (slot g (x, y)) m o := hc.resolve_left (by omega)
    have hp : (x, y) ∈ pixelCoords g := mem_pixelCoords.2 ⟨hx, hy⟩
    have hout : o.getD (y * g.width + x) ⟨Pixel.zero, false⟩ = outPixel f c g kern m0 (x, y) := hcc.out (x, y) hp
    have hset : (outPixel f c g kern m0 (x, y)).set = true ↔ interior g (f.radius g) x y = true := by
      unfold outPixel
      split
      · next h => simpa using h
      · next h => simpa [blankPixel] using h
    have hnext : (nextPixel g.width y x).unit * g.width + (nextPixel g.width y x).item = slot g (x, y) + 1 := by
      unfold nextPixel slot
      split
      · simp only; omega
      · simp only [Nat.add_mul, Nat.one_mul]; omega
    have hitem : (nextPixel g.width y x).item < g.width + 1 := by
      unfold nextPixel; split <;> simp only <;> omega
    rw [hout, hnext]
    have hwr : written f c g (x, y) ↔ c.borderPolicy = .zero ∨ (outPixel f c g kern m0 (x, y)).set = true := by
      rw [hset]; exact Iff.rfl
    by_cases hw : written f c g (x, y)
    · rw [if_pos (hwr.1 hw)]
      by_cases hf : FourAdmissible c (pixelAddr g x y)
      · exact .inl ⟨_, pixWrite_ok hf, hitem, .inr (copying_write hS hx hy hcc hw hf), fun h => by omega⟩
      · exact .inr ⟨not_adm_of_pixel hS hp hw hf, pixWrite_error hf⟩
    · rw [if_neg (fun h => hw (hwr.2 h))]
      exact ⟨hitem, .inr (copying_skip hx hcc hw), fun h => by omega⟩
  copyEnd := by
    rintro y x m o ⟨-, hc, hc0⟩ hend
    have key : ∀ n, Copying f c g kern m0 n m o → (∀ p ∈ pixelCoords g, slot g p < n) → Filtered f c g kern m0 m :=
      fun n h hall => ⟨h.wf, h.windows, fun p hp hw => h.copied p hp (hall p hp) hw,
        fun p hp hw => h.notYet p hp fun h' => hw h'.2, h.others⟩
    by_cases hw : g.width = 0
    · exact key 0 (hc0 hw) fun p hp => absurd (mem_pixelCoords.1 hp).1 (by omega)
    · have hy := hend.resolve_left hw
      refine key _ (hc.resolve_left hw) fun p hp => ?_
      calc slot g p < g.width * g.height := slot_lt hp
        _ = g.height * g.width := Nat.mul_comm _ _
        _ ≤ y * g.width := Nat.mul_le_mul_right _ hy
        _ ≤ _ := Nat.le_add_right _ _
  copyStable := by
    rintro y x m o ⟨-, hc, hc0⟩
    by_cases hw : g.width = 0
    · exact (hc0 hw).midway
    · exact (hc.resolve_left hw).midway
  bound v := by
    refine Nat.le_trans (length_le_lanes (rowPlan_nonempty (vectorWidth_pos c))) ?_
    rw [filter_lanes, length_boxCoords]
    exact Nat.mul_le_mul (Nat.sub_le _ _) (Nat.sub_le _ _)
  scalarTail := rfl
  vectorTail _ := rfl

end Filter

end Sys2Proof.Machine
end

