-- ==== Sys2Proof/Laws/Float.lean ====
section
/-! SUPPORT. binary32 patterns as numbers: what `unpack` reads in arithmetic on the pattern. -/

namespace Sys2Proof.Machine

theorem unpack_eq (x : F32) : unpack x =
    (if x.toNat / 8388608 % 256 = 255 then
      (if x.toNat % 8388608 = 0 then .inf (decide (2147483648 ≤ x.toNat)) else .nan)
    else if x.toNat / 8388608 % 256 = 0 then .fin (decide (2147483648 ≤ x.toNat)) (x.toNat % 8388608) (-149)
    else .fin (decide (2147483648 ≤ x.toNat)) (8388608 + x.toNat % 8388608) ((x.toNat / 8388608 % 256 : Nat) - 150)) := by
  have hx := x.isLt
  have h31 : x.getLsbD 31 = decide (2147483648 ≤ x.toNat) := by
    rw [BitVec.getLsbD, Nat.testBit_eq_decide_div_mod_eq, decide_eq_decide]
    omega
  have hex : (x.extractLsb' 23 8).toNat = x.toNat / 8388608 % 256 := by
    simp [BitVec.extractLsb'_toNat, Nat.shiftRight_eq_div_pow]
  have hfr : (x.extractLsb' 0 23).toNat = x.toNat % 8388608 := by
    simp [BitVec.extractLsb'_toNat]
  simp only [unpack]
  rw [hex, hfr, h31]
  rfl

/-- A pattern is a finite positive number when it lies strictly between `+0.0` and `+inf`. -/
theorem finite_positive_iff (x : F32) :
    (fIsFinite x = true ∧ fIsPositive x = true) ↔ (0 < x.toNat ∧ x.toNat < 0x7F800000) := by
  have hx := x.isLt
  unfold fIsFinite fIsPositive
  rw [unpack_eq]
  by_cases h255 : x.toNat / 8388608 % 256 = 255
  · rw [if_pos h255]
    by_cases hf : x.toNat % 8388608 = 0
    · rw [if_pos hf]; simp; omega
    · rw [if_neg hf]; simp; omega
  · rw [if_neg h255]
    by_cases h0 : x.toNat / 8388608 % 256 = 0
    · rw [if_pos h0]
      simp
      omega
    · rw [if_neg h0]
      simp
      omega
end Sys2Proof.Machine
end

