-- ==== Sys2Proof/Laws/Premises.lean ====
section
/-! SUPPORT. The checks and the footprints of the engine in the words of Safety.lean, and when a command's meaning is its run. -/

namespace Sys2Proof.Machine

/-! ### The meaning of a command is its run, unless it is refused -/

/-- What `exec` answers, for all commands at once. -/
theorem exec_eq (i : Instr) (s : State) : exec i s = commandOutcome (commandOf i) s := by cases i <;> rfl

theorem overlaps_of_not_yuv {i : Instr} (h : ∀ hint, i ≠ .yuv2rgba hint) (g : HostRegs) : (commandOf i).overlaps g = false := by
  cases i <;> first | rfl | exact absurd rfl (h _)

/-- The two refusals apart, a command answers with its run. -/
theorem exec_run {i : Instr} {s : State} (h1 : (commandOf i).overlaps s.latch.regs = false ∨ failsClosed (commandOf i) s = true)
    (h2 : endsUnmapped (commandOf i) s (runCommand (commandOf i) s) = false) :
    exec i s = .next (runCommand (commandOf i) s) := by
  rw [exec_eq]
  unfold commandOutcome
  rw [h2]
  rcases h1 with h | h <;> simp [h]

theorem exec_next {i : Instr} {s t : State} (h : exec i s = .next t) : t = runCommand (commandOf i) s := by
  rw [exec_eq] at h
  unfold commandOutcome at h
  split at h
  · cases h
  · split at h
    · cases h
    · injection h with h
      exact h.symm

/-! ### The footprint -/

theorem footprint_addrs {i : Instr} {c : Cfg} {g : HostRegs} {a : Nat} (h : (commandOf i).footprint c g a = true) :
    ∃ p ∈ pixelCoords g, a ∈ footprintAddrs g p.1 p.2 := by
  have hor : inPixels g a = true ∨ inPlanes g a = true := by
    cases i <;> simp only [commandOf, grayCommand, negCommand, pointwiseCommand, blurCommand, sharpCommand, embossCommand, edgeCommand,
      filterCommand, yuvCommand, Bool.and_eq_true, Bool.or_eq_true] at h
    case yuv2rgba => exact h
    case gray => exact .inl h
    case neg => exact .inl h
    all_goals exact .inl h.1
  rcases hor with h | h
  · obtain ⟨x, hx, y, hy, k, hk, rfl⟩ := pixelByte_of_inPixels h
    refine ⟨(x, y), mem_pixelCoords.2 ⟨hx, hy⟩, List.mem_append_left _ ?_⟩
    have : k = 0 ∨ k = 1 ∨ k = 2 ∨ k = 3 := by omega
    rcases this with rfl | rfl | rfl | rfl <;> simp
  · obtain ⟨p, hp, hpa⟩ := List.any_eq_true.1 h
    exact ⟨p, hp, List.mem_append_right _ (by simpa using hpa)⟩

/-- The check of the footprint, pixel by pixel, says of every address what it should. -/
theorem footprintMapped_iff (i : Instr) (s : State) : footprintMapped (commandOf i) s.cfg s.latch.regs = true ↔ FootprintIn i s := by
  unfold footprintMapped FootprintIn
  simp only [List.all_eq_true, Bool.or_eq_true, Bool.not_eq_true']
  constructor
  · intro h a ha
    obtain ⟨p, hp, hpa⟩ := footprint_addrs ha
    exact (h p hp a hpa).resolve_right (by simp [ha])
  · intro h p _ a _
    cases hf : (commandOf i).footprint s.cfg s.latch.regs a with
    | true => exact .inl (h a hf)
    | false => exact .inr rfl

theorem endsUnmapped_of_footprintIn {i : Instr} {s t : State} (h : FootprintIn i s) : endsUnmapped (commandOf i) s t = false := by
  unfold endsUnmapped
  rw [(footprintMapped_iff i s).2 h]
  simp

/-! ### Premises -/

theorem offImage_iff {g : HostRegs} (hS : RowsFit g) (a : Nat) : OffImage g a ↔ inPixels g a = false := by
  rw [← offPixels_all hS]
  constructor
  · intro h p hp k hk
    obtain ⟨h1, h2⟩ := mem_pixelCoords.1 hp
    exact h p.1 h1 p.2 h2 k hk
  · intro h x hx y hy k hk
    exact h (x, y) (mem_pixelCoords.2 ⟨hx, hy⟩) k hk

theorem inRows_iff (g : HostRegs) (a : Nat) :
    inRows g a = true ↔ ∃ y < g.height, g.base + y * g.stride ≤ a ∧ a < g.base + (y + 1) * g.stride := by
  unfold inRows
  simp only [Bool.and_eq_true, decide_eq_true_eq]
  constructor
  · rintro ⟨h1, h2⟩
    have hpos : 0 < g.stride := by
      by_contra h0
      have : g.stride = 0 := by omega
      rw [this] at h2
      omega
    have h3 := Nat.div_add_mod' (a - g.base) g.stride
    have h4 := Nat.mod_lt (a - g.base) hpos
    refine ⟨(a - g.base) / g.stride, (Nat.div_lt_iff_lt_mul hpos).2 (by omega), by omega, ?_⟩
    rw [Nat.add_mul]
    omega
  · rintro ⟨y, hy, h1, h2⟩
    have := Nat.mul_le_mul_right g.stride (show y + 1 ≤ g.height from hy)
    omega

theorem planesDisjoint_iff (g : HostRegs) : PlanesDisjoint g ↔ planesOverlap g = false := by
  unfold PlanesDisjoint planesOverlap
  simp only [List.any_eq_false, List.any_eq_true, inRows_iff, mem_pixelCoords]
  constructor
  · rintro h p ⟨h1, h2⟩ ⟨a, ha, y', hy', hr⟩
    exact h p.1 h1 p.2 h2 a ha y' hy' hr
  · intro h x hx y hy a ha y' hy' hr
    exact h (x, y) ⟨hx, hy⟩ ⟨a, ha, y', hy', hr⟩

theorem isNeighbourhood_iff (i : Instr) : isNeighbourhood i = true ↔ (commandOf i).family = .neighbourhood := by
  cases i <;> simp [isNeighbourhood, commandOf, grayCommand, negCommand, pointwiseCommand, blurCommand, sharpCommand,
    embossCommand, edgeCommand, filterCommand, yuvCommand]

theorem descriptorOk_iff (i : Instr) (c : Cfg) (g : HostRegs) :
    descriptorOk (commandOf i).family c g = true ↔ DescriptorFits i c g := by
  unfold descriptorOk DescriptorFits ScratchFits addressBits
  rw [isNeighbourhood_iff]
  have hrows : ((g.height == 0) = true ∨ 4 * g.width ≤ g.stride) ↔ (g.height ≠ 0 → 4 * g.width ≤ g.stride) := by
    rw [beq_iff_eq, ne_eq, ← Decidable.or_iff_not_imp_left]
  simp only [Bool.and_eq_true, decide_eq_true_eq, Bool.or_eq_true, bne_iff_ne, ge_iff_le, hrows]
  cases hs : c.scratchPixels with
  | none => simp
  | some n =>
    simp only [decide_eq_true_eq]
    constructor
    · rintro ⟨⟨h1, h2⟩, h3⟩
      refine ⟨h1, h2, fun hf m hm => ?_⟩
      injection hm with hm
      subst hm
      exact h3.resolve_left (by simpa using hf)
    · rintro ⟨h1, h2, h3⟩
      refine ⟨⟨h1, h2⟩, ?_⟩
      by_cases hf : (commandOf i).family = .neighbourhood
      · exact .inr (h3 hf n rfl)
      · exact .inl hf

theorem paramsOk_iff (i : Instr) (c : Cfg) (g : HostRegs) :
    (commandOf i).paramsOk c g = true ↔ (i = .blur → BlurParams c g) := by
  have hb : blurParamsOk c g = true ↔ BlurParams c g := by
    unfold blurParamsOk BlurParams
    simp only [Bool.and_eq_true, decide_eq_true_eq, and_assoc]
    rw [finite_positive_iff]
    exact Iff.rfl
  cases i <;> simp [commandOf, grayCommand, negCommand, pointwiseCommand, sharpCommand, embossCommand, edgeCommand,
    filterCommand, yuvCommand, sharpFilter, embossFilter, edgeFilter]
  simpa [blurCommand, filterCommand, blurFilter] using hb

theorem firstFailure_eq_none_iff (i : Instr) (s : State) :
    firstFailure (commandOf i) s.cfg s.latch.regs = none ↔
      Launchable i s ∧ (i = .blur → BlurParams s.cfg s.latch.regs) := by
  unfold firstFailure Launchable
  rw [← paramsOk_iff, ← descriptorOk_iff]
  by_cases h1 : s.latch.regs.pbFormat = 1#32 <;>
    cases h2 : descriptorOk (commandOf i).family s.cfg s.latch.regs <;>
    cases h3 : (commandOf i).paramsOk s.cfg s.latch.regs <;> simp [h1]

theorem kernel_eq_none_iff (i : Instr) (s : State) :
    (commandOf i).kernel s.cfg s.latch.regs s.freeCount s.kernel = none ↔
      i = .blur ∧ gaussKernel s.cfg s.latch.regs.blurRadius s.latch.regs.sigma = none := by
  cases i <;> simp [commandOf, grayCommand, negCommand, pointwiseCommand, blurCommand, sharpCommand, embossCommand, edgeCommand,
    filterCommand, yuvCommand, blurFilter, sharpFilter, embossFilter, edgeFilter]

/-- A command goes on to its work exactly when every check passes. -/
theorem failsClosed_eq_false_iff (i : Instr) (s : State) : failsClosed (commandOf i) s = false ↔ ChecksPass i s := by
  unfold failsClosed ChecksPass
  rw [Bool.or_eq_false_iff, Option.isSome_eq_false_iff, Option.isNone_iff_eq_none, firstFailure_eq_none_iff, and_assoc]
  refine and_congr_right fun _ => ?_
  rw [← Bool.not_eq_true, Option.isNone_iff_eq_none, kernel_eq_none_iff]
  by_cases h : i = .blur <;> simp [h]

theorem interior_iff {g : HostRegs} {r x y : Nat} : interior g r x y = true ↔ IsInterior g r x y := by
  simp [interior, IsInterior, and_assoc]

/-- The pixels of the write footprint (R80). -/
theorem writes_iff (i : Instr) (c : Cfg) (g : HostRegs) (x y : Nat) :
    (commandOf i).writes c g x y = true ↔ WritesPixel i c g x y := by
  unfold WritesPixel
  cases i <;> simp [commandOf, grayCommand, negCommand, pointwiseCommand, blurCommand, sharpCommand, embossCommand, edgeCommand,
    filterCommand, yuvCommand, blurFilter, sharpFilter, embossFilter, edgeFilter, isNeighbourhood, radiusOf, interior_iff]

/-- A pixel with a new value is in the write footprint. -/
theorem writes_of_newPixel {i : Instr} {c : Cfg} {g : HostRegs} {v : Bool} {m : Memory} {x y : Nat} {px : Pixel}
    (h : (commandOf i).newPixel c g v m x y = some px) : (commandOf i).writes c g x y = true := by
  have hf : ∀ f : Filter, (filterCommand f).newPixel c g v m x y = some px → (filterCommand f).writes c g x y = true := by
    intro f h
    simp only [filterCommand, Bool.or_eq_true, beq_iff_eq] at *
    split at h
    · unfold filterPixel at h
      dsimp only at h
      split at h
      · next hi => exact .inr hi
      · split at h
        · next hb => exact .inl hb
        · cases h
    · cases h
  cases i with
  | blur => exact hf _ h
  | sharp => exact hf _ h
  | emboss => exact hf _ h
  | edge => exact hf _ h
  | gray => rfl
  | neg => rfl
  | yuv2rgba hint => rfl

end Sys2Proof.Machine
end

