-- ==== Sys2Proof/Laws/Cut.lean ====
section
/-! SUPPORT. Memory after a command is cut short (R246, R270): what the footprint bytes hold, and that all others are as before. -/

namespace Sys2Proof.Machine

/-- One byte of the footprint settled: old or new, as the free value says. -/
def settle (s : State) (m : Memory) (p : Nat × Byte) : Memory :=
  m.write p.1 (if Config.freeKeepsOld s.freeCount p.1 then s.memAtAccept.read p.1 else p.2)

theorem cutFootprint_eq (s : State) (cut : CutBytes) : cutFootprint s cut = cut.foldl (settle s) s.mem := rfl

theorem wf_settle {s : State} {m : Memory} (h : m.wf = true) (p : Nat × Byte) : (settle s m p).wf = true :=
  Memory.wf_write h _ _

theorem wf_foldl_settle (s : State) : ∀ {cut : CutBytes} {m : Memory}, m.wf = true → (cut.foldl (settle s) m).wf = true
  | [], _, h => h
  | _ :: cut, _, h => wf_foldl_settle s (cut := cut) (wf_settle h _)

theorem foldl_settle_other (s : State) : ∀ {cut : CutBytes} {m : Memory} {a : Nat}, m.wf = true → (∀ b, (a, b) ∉ cut) →
    (cut.foldl (settle s) m).read a = m.read a
  | [], _, _, _, _ => rfl
  | p :: cut, m, a, h, ha => by
    rw [List.foldl_cons, foldl_settle_other s (wf_settle h _) fun b hb => ha b (by simp [hb])]
    refine Memory.read_write_other h (fun he => ha p.2 ?_) _
    simp [he]

theorem foldl_settle_mem (s : State) : ∀ {cut : CutBytes} {m : Memory} {a : Nat} {b : Byte}, m.wf = true →
    (cut.map Prod.fst).Nodup → (a, b) ∈ cut →
    (cut.foldl (settle s) m).read a = s.memAtAccept.read a ∨ (cut.foldl (settle s) m).read a = b
  | p :: cut, m, a, b, h, hnd, hab => by
    rw [List.map_cons, List.nodup_cons] at hnd
    rcases List.mem_cons.1 hab with rfl | hab
    · have hnot : ∀ b', (a, b') ∉ cut := fun b' hb' => hnd.1 (List.mem_map.2 ⟨_, hb', rfl⟩)
      rw [List.foldl_cons, foldl_settle_other s (wf_settle h _) hnot]
      unfold settle
      rw [Memory.read_write_same h]
      split
      · exact .inl rfl
      · exact .inr rfl
    · rw [List.foldl_cons]
      exact foldl_settle_mem s (wf_settle h _) hnd.2 hab

@[simp] theorem wf_cutFootprint {s : State} (h : s.mem.wf = true) (cut : CutBytes) : (cutFootprint s cut).wf = true :=
  wf_foldl_settle s h

/-- A byte of a pixel, with its value. -/
def PixelByteOf (g : HostRegs) (x y : Nat) (px : Pixel) (a : Nat) (b : Byte) : Prop :=
  (a, b) = (pixelAddr g x y, px.r) ∨ (a, b) = (pixelAddr g x y + 1, px.g) ∨
    (a, b) = (pixelAddr g x y + 2, px.b) ∨ (a, b) = (pixelAddr g x y + 3, px.a)

theorem mem_pixelBytes {c : Cfg} {g : HostRegs} {x y : Nat} {px : Pixel} {a : Nat} {b : Byte} :
    (a, b) ∈ pixelBytes c g x y px ↔ PixelByteOf g x y px a b ∧ admissible c a = true := by
  simp [pixelBytes, PixelByteOf, List.mem_filter]

theorem PixelByteOf.offset {g : HostRegs} {x y : Nat} {px : Pixel} {a : Nat} {b : Byte} (h : PixelByteOf g x y px a b) :
    ∃ k < 4, a = pixelAddr g x y + k := by
  rcases h with h | h | h | h <;> simp only [Prod.mk.injEq] at h
  · exact ⟨0, by omega, h.1⟩
  · exact ⟨1, by omega, h.1⟩
  · exact ⟨2, by omega, h.1⟩
  · exact ⟨3, by omega, h.1⟩

theorem nodup_pixelBytes (c : Cfg) (g : HostRegs) (x y : Nat) (px : Pixel) :
    ((pixelBytes c g x y px).map Prod.fst).Nodup := by
  unfold pixelBytes
  refine List.Nodup.sublist (List.Sublist.map _ List.filter_sublist) ?_
  simp

/-- What `cutBytes` lists: the bytes of the pixels of the write footprint, where there is memory. -/
theorem mem_cutBytes {k : Command} {s : State} {a : Nat} {b : Byte} :
    (a, b) ∈ cutBytes k s ↔ failsClosed k s = false ∧ (∃ x < s.latch.regs.width, ∃ y < s.latch.regs.height,
      k.writes s.cfg s.latch.regs x y = true ∧ PixelByteOf s.latch.regs x y (cutPixel k s x y) a b) ∧ admissible s.cfg a = true := by
  unfold cutBytes
  dsimp only
  split
  · next h => simp [h]
  · next h =>
    simp only [Bool.not_eq_true] at h
    simp only [h, true_and, List.mem_flatMap]
    constructor
    · rintro ⟨p, hp, hab⟩
      obtain ⟨h1, h2⟩ := mem_pixelCoords.1 hp
      split at hab
      · next hw =>
        obtain ⟨hb, hadm⟩ := mem_pixelBytes.1 hab
        exact ⟨⟨p.1, h1, p.2, h2, hw, hb⟩, hadm⟩
      · simp at hab
    · rintro ⟨⟨x, hx, y, hy, hw, hb⟩, hadm⟩
      exact ⟨(x, y), mem_pixelCoords.2 ⟨hx, hy⟩, by rw [if_pos hw]; exact mem_pixelBytes.2 ⟨hb, hadm⟩⟩

theorem nodup_cutBytes {k : Command} {s : State} (hS : RowsFit s.latch.regs) :
    ((cutBytes k s).map Prod.fst).Nodup := by
  unfold cutBytes
  dsimp only
  split
  · simp
  · rw [List.map_flatMap, List.nodup_flatMap]
    refine ⟨?_, ?_⟩
    · intro p _
      split
      · exact nodup_pixelBytes _ _ _ _ _
      · simp
    · refine List.Pairwise.imp_of_mem (R := (· ≠ ·)) ?_ (nodup_pixelCoords _)
      intro p q hp hq hpq
      have hmem : ∀ p : Nat × Nat, ∀ a, a ∈ List.map Prod.fst
          (if k.writes s.cfg s.latch.regs p.1 p.2 then pixelBytes s.cfg s.latch.regs p.1 p.2 (cutPixel k s p.1 p.2) else []) →
          ∃ j < 4, a = pixelAddr s.latch.regs p.1 p.2 + j := by
        intro p a ha
        split at ha
        · rw [List.mem_map] at ha
          obtain ⟨e, he, rfl⟩ := ha
          exact (mem_pixelBytes.1 (show (e.1, e.2) ∈ _ from he)).1.offset
        · simp at ha
      simp only [Function.onFun, List.disjoint_left]
      intro a ha ha'
      obtain ⟨j, hj, h1⟩ := hmem p a ha
      obtain ⟨j', hj', h2⟩ := hmem q a ha'
      obtain ⟨e1, e2, -⟩ := pixelByte_inj (hS.of_pixel hp) (mem_pixelCoords.1 hp).1 hj (mem_pixelCoords.1 hq).1 hj' (h1.symm.trans h2)
      exact hpq (Prod.ext e1 e2)

/-- A byte outside the write footprint of the cut command is as it was. -/
theorem cutFootprint_other {i : Instr} {s : State} (hwf : s.mem.wf = true) {a : Nat} (h : ¬ InWriteFootprint i s a) :
    (cutFootprint s (cutBytes (commandOf i) s)).read a = s.mem.read a :=
  foldl_settle_other s hwf fun b hb => by
    obtain ⟨hc, ⟨x, hx, y, hy, hw, hp⟩, -⟩ := mem_cutBytes.1 hb
    exact h ⟨(failsClosed_eq_false_iff i s).1 hc, x, hx, y, hy, (writes_iff i _ _ x y).1 hw, hp.offset⟩

/-- A byte of memory whose new value the cut command could compute holds the old value or the new one. -/
theorem cutFootprint_written {i : Instr} {s : State} (hwf : s.mem.wf = true) (hok : ChecksPass i s)
    (hr : (commandOf i).overlaps s.latch.regs = false) {a : Nat} {b : Byte} (h : WouldWrite i s a b)
    (hadm : admissible s.cfg a = true) :
    (cutFootprint s (cutBytes (commandOf i) s)).read a = s.memAtAccept.read a ∨
    (cutFootprint s (cutBytes (commandOf i) s)).read a = b := by
  obtain ⟨x, hx, y, hy, px, hpx, hb⟩ := h
  refine foldl_settle_mem s hwf (nodup_cutBytes hok.1.2.1) (mem_cutBytes.2 ⟨(failsClosed_eq_false_iff i s).2 hok,
    ⟨x, hx, y, hy, writes_of_newPixel hpx, ?_⟩, hadm⟩)
  have : cutPixel (commandOf i) s x y = px := by
    unfold cutPixel
    dsimp only
    rw [if_neg (by simp [hr]), hpx]
    rfl
  rw [this]
  exact hb

/-- A byte with no memory is not touched. -/
theorem cutFootprint_inadmissible {k : Command} {s : State} (hwf : s.mem.wf = true) {a : Nat} (h : admissible s.cfg a = false) :
    (cutFootprint s (cutBytes k s)).read a = s.mem.read a :=
  foldl_settle_other s hwf fun b hb => by
    have := (mem_cutBytes.1 hb).2.2
    rw [h] at this
    cases this

end Sys2Proof.Machine
end

