-- ==== Sys2Proof/Laws/FloatInt.lean ====
section
/-! SUPPORT. Integers below `2^24` as binary32 values (R159): addition and multiplication of such values are exact, and `quant` is `clamp`. -/

namespace Sys2Proof.Machine

/-! ### Rounding depends on the value alone -/

theorem roundShift_scale (m j k : Nat) : roundShift (m * 2 ^ k) (j + k) = roundShift m j := by
  have hk : 0 < 2 ^ k := Nat.two_pow_pos k
  have hdiv : m * 2 ^ k / 2 ^ (j + k) = m / 2 ^ j := by
    rw [Nat.pow_add]
    exact Nat.mul_div_mul_right _ _ hk
  have hmod : m * 2 ^ k % 2 ^ (j + k) = m % 2 ^ j * 2 ^ k := by
    rw [Nat.pow_add, Nat.mul_mod_mul_right]
  have hpow : 2 ^ (j + k) = 2 ^ j * 2 ^ k := Nat.pow_add 2 j k
  have hgt : 2 * (m % 2 ^ j * 2 ^ k) > 2 ^ j * 2 ^ k ↔ 2 * (m % 2 ^ j) > 2 ^ j := by
    rw [← Nat.mul_assoc]
    exact Nat.mul_lt_mul_right hk
  have heq : 2 * (m % 2 ^ j * 2 ^ k) = 2 ^ j * 2 ^ k ↔ 2 * (m % 2 ^ j) = 2 ^ j := by
    rw [← Nat.mul_assoc]
    exact Nat.mul_left_inj (by omega)
  unfold roundShift
  simp only [hdiv, hmod]
  simp only [hpow, Bool.or_eq_true, decide_eq_true_eq, Bool.and_eq_true, beq_iff_eq, hgt, heq]

theorem roundShift_zero (m : Nat) : roundShift m 0 = m := by simp [roundShift, Nat.mod_one]

theorem roundShift_exact (m k : Nat) : roundShift (m * 2 ^ k) k = m := by
  have := roundShift_scale m 0 k
  rwa [Nat.zero_add, roundShift_zero] at this

theorem log2_scale {m : Nat} (hm : m ≠ 0) (k : Nat) : (m * 2 ^ k).log2 = m.log2 + k := by
  have hk : 0 < 2 ^ k := Nat.two_pow_pos k
  rw [Nat.log2_eq_iff (Nat.mul_ne_zero hm (by omega))]
  have h1 := Nat.log2_self_le hm
  have h2 := Nat.lt_log2_self (n := m)
  refine ⟨?_, ?_⟩
  · rw [Nat.pow_add]
    exact Nat.mul_le_mul_right _ h1
  · rw [show m.log2 + k + 1 = m.log2 + 1 + k by omega, Nat.pow_add]
    exact Nat.mul_lt_mul_of_pos_right h2 hk

/-- The pattern nearest a number does not depend on how the number is split into a whole part and an exponent. -/
theorem roundPack_scale (neg : Bool) (m : Nat) (e : Int) (k : Nat) : roundPack neg (m * 2 ^ k) (e - k) = roundPack neg m e := by
  by_cases hm : m = 0
  · simp [roundPack, hm]
  have hk : 2 ^ k ≠ 0 := by
    have := Nat.two_pow_pos k
    omega
  have hq : e - k + ((m * 2 ^ k).log2 : Int) - 23 = e + m.log2 - 23 := by
    rw [log2_scale hm]
    push_cast
    omega
  have hmant : ∀ q : Int, (if q ≤ e - k then m * 2 ^ k * 2 ^ (e - k - q).toNat else roundShift (m * 2 ^ k) (q - (e - k)).toNat)
      = if q ≤ e then m * 2 ^ (e - q).toNat else roundShift m (q - e).toNat := by
    intro q
    by_cases h1 : q ≤ e - k
    · rw [if_pos h1, if_pos (by omega), Nat.mul_assoc, ← Nat.pow_add]
      congr 2
      omega
    · rw [if_neg h1]
      by_cases h2 : q ≤ e
      · rw [if_pos h2]
        have hs : k = (e - q).toNat + (q - (e - k)).toNat := by omega
        rw [show m * 2 ^ k = m * 2 ^ (e - q).toNat * 2 ^ (q - (e - k)).toNat by
          rw [Nat.mul_assoc, ← Nat.pow_add, ← hs]]
        exact roundShift_exact _ _
      · rw [if_neg h2, show (q - (e - k)).toNat = (q - e).toNat + k by omega]
        exact roundShift_scale _ _ _
  unfold roundPack
  rw [if_neg (Nat.mul_ne_zero hm hk), if_neg hm]
  simp only [hq, hmant]

/-! ### Patterns of integers -/

theorem toNat_signed {neg : Bool} {mag : Nat} (h : mag < 2 ^ 31) : (signed neg mag).toNat = (if neg then 2 ^ 31 else 0) + mag := by
  unfold signed
  rw [BitVec.toNat_append, BitVec.toNat_ofBool, BitVec.toNat_ofNat, Nat.mod_eq_of_lt h, ← Nat.shiftLeft_add_eq_or_of_lt h]
  cases neg <;> simp [Nat.shiftLeft_eq]

theorem unpack_signed_zero (neg : Bool) : unpack (signed neg 0) = .fin neg 0 (-149) := by cases neg <;> decide

/-- The binary32 value of a whole number below `2^24` that is not zero, taken apart. -/
theorem unpack_roundPack {neg : Bool} {m : Nat} (hm : m ≠ 0) (hlt : m < 2 ^ 24) :
    unpack (roundPack neg m 0) = .fin neg (m * 2 ^ (23 - m.log2)) ((m.log2 : Int) - 23) := by
  have hl : m.log2 < 24 := (Nat.log2_lt hm).2 hlt
  have h1 := Nat.log2_self_le hm
  have h2 := Nat.lt_log2_self (n := m)
  obtain ⟨M, hM⟩ : ∃ M, M = m * 2 ^ (23 - m.log2) := ⟨_, rfl⟩
  have hlo : 8388608 ≤ M := by
    rw [hM, show (8388608 : Nat) = 2 ^ m.log2 * 2 ^ (23 - m.log2) by rw [← Nat.pow_add, Nat.add_sub_cancel' (by omega)]]
    exact Nat.mul_le_mul_right _ h1
  have hhi : M < 16777216 := by
    rw [hM, show (16777216 : Nat) = 2 ^ (m.log2 + 1) * 2 ^ (23 - m.log2) by
      rw [← Nat.pow_add, show m.log2 + 1 + (23 - m.log2) = 24 by omega]]
    exact Nat.mul_lt_mul_of_pos_right h2 (Nat.two_pow_pos _)
  have hq : max (0 + (m.log2 : Int) - 23) (-149) = (m.log2 : Int) - 23 := by omega
  have hr : roundPack neg m 0 = signed neg ((m.log2 + 126) * 8388608 + M) := by
    unfold roundPack
    rw [if_neg hm]
    simp only [hq]
    rw [if_pos (show (m.log2 : Int) - 23 ≤ 0 by omega), show (0 - ((m.log2 : Int) - 23)).toNat = 23 - m.log2 by omega, ← hM,
      show ((m.log2 : Int) - 23 + 149).toNat = m.log2 + 126 by omega, if_neg (by omega),
      show (2 : Nat) ^ 23 = 8388608 by norm_num]
  have hn : (signed neg ((m.log2 + 126) * 8388608 + M)).toNat = (if neg then 2147483648 else 0) + ((m.log2 + 126) * 8388608 + M) :=
    toNat_signed (by omega)
  rw [hr, unpack_eq, hn, ← hM]
  have hsplit : (if neg then 2147483648 else 0) + ((m.log2 + 126) * 8388608 + M)
      = ((if neg then 256 else 0) + m.log2 + 127) * 8388608 + (M - 8388608) := by
    cases neg <;> simp <;> omega
  have hdiv : ((if neg then 2147483648 else 0) + ((m.log2 + 126) * 8388608 + M)) / 8388608 % 256 = m.log2 + 127 := by
    cases neg <;> simp <;> omega
  have hmod : ((if neg then 2147483648 else 0) + ((m.log2 + 126) * 8388608 + M)) % 8388608 = M - 8388608 := by
    cases neg <;> simp <;> omega
  have hsign : decide (2147483648 ≤ (if neg then 2147483648 else 0) + ((m.log2 + 126) * 8388608 + M)) = neg := by
    cases neg <;> simp <;> omega
  rw [hdiv, hmod, hsign, if_neg (by omega), if_neg (by omega)]
  rw [show 8388608 + (M - 8388608) = M by omega, show ((m.log2 + 127 : Nat) : Int) - 150 = (m.log2 : Int) - 23 by omega]

/-- `x` is a finite value that stands for the whole number `n` (`-0.0` stands for 0 too). -/
def IsWhole (x : F32) (n : Int) : Prop :=
  ∃ neg m e, unpack x = .fin neg m e ∧ e ≤ 0 ∧ signedMant neg m = n * 2 ^ (-e).toNat

theorem signedMant_sign {n : Int} {k : Nat} : signedMant (n < 0) (n.natAbs * k) = n * k := by
  unfold signedMant
  by_cases h : n < 0
  · simp only [h, decide_true, if_true]
    rw [Nat.cast_mul, ← Int.neg_mul]
    congr 1
    omega
  · simp only [h, decide_false, Bool.false_eq_true, if_false]
    rw [Nat.cast_mul]
    congr 1
    omega

theorem isWhole_zero (neg : Bool) : IsWhole (signed neg 0) 0 :=
  ⟨neg, 0, -149, unpack_signed_zero neg, by omega, by cases neg <;> simp [signedMant]⟩

theorem isWhole_i2f {n : Int} (h : n.natAbs < 2 ^ 24) : IsWhole (i2f n) n := by
  by_cases h0 : n = 0
  · subst h0
    exact isWhole_zero false
  have hm : n.natAbs ≠ 0 := by omega
  have hl : n.natAbs.log2 < 24 := (Nat.log2_lt hm).2 h
  refine ⟨_, _, _, unpack_roundPack (neg := n < 0) hm h, by omega, ?_⟩
  rw [signedMant_sign]
  push_cast
  congr 2
  omega

/-- A sum of the form `fadd` and `fmul` round is `i2f` of the whole number it is. -/
theorem roundPack_whole {z : Int} {k : Nat} : roundPack (decide (z * 2 ^ k < 0)) (z * 2 ^ k).natAbs (-(k : Int)) = i2f z := by
  have hk : (0 : Int) < 2 ^ k := by positivity
  have hs : (z * 2 ^ k < 0) ↔ z < 0 := by
    constructor
    · intro h
      by_contra hz
      have := mul_nonneg (not_lt.1 hz) hk.le
      omega
    · intro h
      exact Int.mul_neg_of_neg_of_pos h hk
  have ha : (z * 2 ^ k).natAbs = z.natAbs * 2 ^ k := by
    rw [Int.natAbs_mul, Int.natAbs_pow]
    rfl
  rw [ha, decide_eq_decide.2 hs]
  have := roundPack_scale (decide (z < 0)) z.natAbs 0 k
  rw [Int.zero_sub] at this
  exact this

/-- `fadd` of two whole numbers is exact. -/
theorem isWhole_fadd {a b : F32} {x y : Int} (ha : IsWhole a x) (hb : IsWhole b y) (h : (x + y).natAbs < 2 ^ 24) :
    IsWhole (fadd a b) (x + y) := by
  obtain ⟨n, m, e, hu, he, hv⟩ := ha
  obtain ⟨n', m', e', hu', he', hv'⟩ := hb
  have hsum : signedMant n m * 2 ^ (e - min e e').toNat + signedMant n' m' * 2 ^ (e' - min e e').toNat
      = (x + y) * 2 ^ (-(min e e')).toNat := by
    rw [hv, hv', mul_assoc, mul_assoc, ← pow_add, ← pow_add, add_mul]
    congr 3 <;> omega
  unfold fadd
  simp only [hu, hu', hsum]
  by_cases hz : (x + y) * 2 ^ (-(min e e')).toNat = 0
  · rw [if_pos hz]
    have : x + y = 0 := (mul_eq_zero.1 hz).resolve_right (by positivity)
    rw [this]
    exact isWhole_zero _
  · rw [if_neg hz]
    have hlo : min e e' = -(((-(min e e')).toNat : Nat) : Int) := by omega
    have := roundPack_whole (z := x + y) (k := (-(min e e')).toNat)
    rw [← hlo] at this
    rw [this]
    exact isWhole_i2f h

/-- `fmul` of two whole numbers is exact. -/
theorem isWhole_fmul {a b : F32} {x y : Int} (ha : IsWhole a x) (hb : IsWhole b y) (h : (x * y).natAbs < 2 ^ 24) :
    IsWhole (fmul a b) (x * y) := by
  obtain ⟨n, m, e, hu, he, hv⟩ := ha
  obtain ⟨n', m', e', hu', he', hv'⟩ := hb
  unfold fmul
  simp only [hu, hu']
  have habs : ∀ (c : Bool) (k : Nat), (signedMant c k).natAbs = k := by
    intro c k
    cases c <;> simp [signedMant]
  have hprod : signedMant n m * signedMant n' m' = (x * y) * 2 ^ ((-e).toNat + (-e').toNat) := by
    rw [hv, hv', pow_add]
    ring
  have hm : m * m' = (x * y * 2 ^ ((-e).toNat + (-e').toNat)).natAbs := by
    rw [← hprod, Int.natAbs_mul, habs, habs]
  by_cases h0 : m * m' = 0
  · have hz : x * y = 0 := by
      rw [h0] at hm
      exact (mul_eq_zero.1 (Int.natAbs_eq_zero.1 hm.symm)).resolve_right (by positivity)
    rw [hz]
    unfold roundPack
    rw [if_pos h0]
    exact isWhole_zero _
  · have hsign : (n != n') = decide (x * y * 2 ^ ((-e).toNat + (-e').toNat) < 0) := by
      rw [← hprod]
      have h1 : 0 < m := by
        rcases Nat.eq_zero_or_pos m with rfl | h1
        · simp at h0
        · exact h1
      have h2 : 0 < m' := by
        rcases Nat.eq_zero_or_pos m' with rfl | h2
        · simp at h0
        · exact h2
      have h3 : (0 : Int) < (m : Int) * m' := by positivity
      cases n <;> cases n' <;> simp [signedMant] <;> omega
    have hlo : e + e' = -((((-e).toNat + (-e').toNat : Nat)) : Int) := by omega
    have := roundPack_whole (z := x * y) (k := (-e).toNat + (-e').toNat)
    rw [hsign, hm, hlo, this]
    exact isWhole_i2f h

/-- `quant` of a whole number is `clamp` of it. -/
theorem quant_whole {a : F32} {x : Int} (h : IsWhole a x) : quant a = clamp x := by
  obtain ⟨n, m, e, hu, he, hv⟩ := h
  have hk : (0 : Int) < 2 ^ (-e).toNat := by positivity
  unfold quant clamp
  simp only [hu]
  cases n with
  | true =>
    have hx : x ≤ 0 := by
      by_contra hx
      have := mul_pos (not_le.1 hx) hk
      simp [signedMant] at hv
      omega
    simp only [if_true]
    rcases Int.lt_or_eq_of_le hx with h | h
    · rw [if_pos h]
    · subst h
      rfl
  | false =>
    simp only [signedMant, Bool.false_eq_true, if_false] at hv ⊢
    have hx : 0 ≤ x := by
      by_contra hx
      have := Int.mul_neg_of_neg_of_pos (not_le.1 hx) hk
      omega
    obtain ⟨u, rfl⟩ := Int.eq_ofNat_of_zero_le hx
    have hm : m = u * 2 ^ (-e).toNat := by exact_mod_cast hv
    have hfloor : (if 0 ≤ e then m * 2 ^ e.toNat else m / 2 ^ (-e).toNat) = u := by
      by_cases h0 : 0 ≤ e
      · have : e = 0 := by omega
        subst this
        simpa using hm
      · rw [if_neg h0, hm, Nat.mul_div_cancel _ (Nat.two_pow_pos _)]
    rw [hfloor, if_neg (show ¬ (u : Int) < 0 by omega)]
    by_cases h255 : 255 < u
    · rw [if_pos (show 255 ≤ u by omega), if_pos (show (u : Int) > 255 by omega)]
    · rw [if_neg (show ¬ (u : Int) > 255 by omega)]
      by_cases h : u = 255
      · subst h
        rfl
      · rw [if_neg (show ¬ 255 ≤ u by omega)]
        rfl

end Sys2Proof.Machine
end

