-- ==== Sys2Proof/Laws/Exponential.lean ====
section
/-! SUPPORT. The order of the binary32 numbers, that rounding keeps it, and that the reference instance of `fexp` is monotone (R158, P3). -/

namespace Sys2Proof.Machine

/-! ### Places and patterns -/

theorem fKey_eq (x : F32) : fKey x =
    if 2147483648 ≤ x.toNat then -((x.toNat % 2147483648 : Nat) : Int) else ((x.toNat % 2147483648 : Nat) : Int) := by
  have hx := x.isLt
  have h31 : x.getLsbD 31 = decide (2147483648 ≤ x.toNat) := by
    rw [BitVec.getLsbD, Nat.testBit_eq_decide_div_mod_eq, decide_eq_decide]
    omega
  have hmag : (x.extractLsb' 0 31).toNat = x.toNat % 2147483648 := by
    simp [BitVec.extractLsb'_toNat]
  unfold fKey signedMant
  rw [h31, hmag]
  simp

theorem isNan_iff (x : F32) : unpack x = .nan ↔ 0x7F800000 < x.toNat % 2147483648 := by
  have hx := x.isLt
  rw [unpack_eq]
  split
  · split <;> simp <;> omega
  · split <;> simp <;> omega

theorem isFinite_iff (x : F32) : fIsFinite x = true ↔ x.toNat % 2147483648 < 0x7F800000 := by
  have hx := x.isLt
  unfold fIsFinite
  rw [unpack_eq]
  by_cases h255 : x.toNat / 8388608 % 256 = 255
  · rw [if_pos h255]
    by_cases hf : x.toNat % 8388608 = 0
    · rw [if_pos hf]; simp; omega
    · rw [if_neg hf]; simp; omega
  · rw [if_neg h255]
    by_cases h0 : x.toNat / 8388608 % 256 = 0
    · rw [if_pos h0]; simp; omega
    · rw [if_neg h0]; simp; omega

theorem fLe_iff (a b : F32) : fLe a b = true ↔
    a.toNat % 2147483648 ≤ 0x7F800000 ∧ b.toNat % 2147483648 ≤ 0x7F800000 ∧ fKey a ≤ fKey b := by
  unfold fLe
  simp only [Bool.and_eq_true, bne_iff_ne, ne_eq, isNan_iff, decide_eq_true_eq, Nat.not_lt, and_assoc]

/-- Between two patterns without sign, neither a NaN, the order is that of the patterns. -/
theorem fLe_of_toNat_le {a b : F32} (h : a.toNat ≤ b.toNat) (hb : b.toNat ≤ 0x7F800000) : fLe a b = true := by
  rw [fLe_iff, fKey_eq, fKey_eq]
  refine ⟨by omega, by omega, ?_⟩
  rw [if_neg (by omega), if_neg (by omega)]
  omega

theorem fKey_range {t : F32} (h : fIsFinite t = true) : -maxFiniteKey ≤ fKey t ∧ fKey t ≤ maxFiniteKey := by
  rw [isFinite_iff] at h
  unfold maxFiniteKey
  rw [fKey_eq]
  split <;> omega

theorem toNat_fOfKey {k : Int} (h1 : -maxFiniteKey ≤ k) (h2 : k ≤ maxFiniteKey) :
    (fOfKey k).toNat = (if k < 0 then 2147483648 else 0) + k.natAbs := by
  unfold maxFiniteKey at *
  unfold fOfKey
  rw [toNat_signed (by omega)]
  simp

theorem fKey_fOfKey {k : Int} (h1 : -maxFiniteKey ≤ k) (h2 : k ≤ maxFiniteKey) : fKey (fOfKey k) = k := by
  rw [fKey_eq, toNat_fOfKey h1 h2]
  unfold maxFiniteKey at *
  by_cases h : k < 0
  · rw [if_pos h, if_pos (by omega)]
    omega
  · rw [if_neg h, if_neg (by omega)]
    omega

theorem isFinite_fOfKey {k : Int} (h1 : -maxFiniteKey ≤ k) (h2 : k ≤ maxFiniteKey) : fIsFinite (fOfKey k) = true := by
  rw [isFinite_iff, toNat_fOfKey h1 h2]
  unfold maxFiniteKey at *
  split <;> omega

/-- A number is the number at its place, but for `-0.0`. -/
theorem fOfKey_fKey {t : F32} (h : fIsFinite t = true) (hz : t ≠ fMinus0) : fOfKey (fKey t) = t := by
  obtain ⟨h1, h2⟩ := fKey_range h
  apply BitVec.eq_of_toNat_eq
  rw [toNat_fOfKey h1 h2, fKey_eq]
  have hx := t.isLt
  have hz' : t.toNat ≠ 2147483648 := fun h => hz (BitVec.eq_of_toNat_eq (by rw [h]; rfl))
  split <;> split <;> omega

/-! ### Rounding keeps the order -/

theorem roundShift_mono (k : Nat) {m m' : Nat} (h : m ≤ m') : roundShift m k ≤ roundShift m' k := by
  obtain ⟨p, hp⟩ : ∃ p, p = 2 ^ k := ⟨_, rfl⟩
  have hp0 : 0 < p := hp ▸ Nat.two_pow_pos k
  have h1 := Nat.div_add_mod m p
  have h2 := Nat.div_add_mod m' p
  have hq : m / p ≤ m' / p := Nat.div_le_div_right h
  unfold roundShift
  simp only [← hp, Bool.or_eq_true, decide_eq_true_eq, Bool.and_eq_true, beq_iff_eq]
  rcases Nat.lt_or_eq_of_le hq with hlt | heq
  · split <;> split <;> omega
  · rw [heq] at h1 ⊢
    have hr : m % p ≤ m' % p := by omega
    split <;> split <;> omega

theorem roundShift_bounds (m k : Nat) : m / 2 ^ k ≤ roundShift m k ∧ roundShift m k ≤ m / 2 ^ k + 1 := by
  unfold roundShift
  dsimp only
  split <;> omega

/-- The exponent of the last place of `m * 2^e`, and the mantissa there. -/
def lastPlace (m : Nat) (e : Int) : Int := max (e + m.log2 - 23) (-149)
def placedMant (m : Nat) (e : Int) : Nat :=
  if lastPlace m e ≤ e then m * 2 ^ (e - lastPlace m e).toNat else roundShift m (lastPlace m e - e).toNat

theorem placedMant_le (m : Nat) (e : Int) : placedMant m e ≤ 2 ^ 24 := by
  have hlt := Nat.lt_log2_self (n := m)
  have hq : e + m.log2 - 23 ≤ lastPlace m e := le_max_left _ _
  unfold placedMant
  split
  · next h =>
    calc m * 2 ^ (e - lastPlace m e).toNat ≤ 2 ^ (m.log2 + 1) * 2 ^ (e - lastPlace m e).toNat :=
          Nat.mul_le_mul_right _ (Nat.le_of_lt hlt)
      _ = 2 ^ (m.log2 + 1 + (e - lastPlace m e).toNat) := (Nat.pow_add _ _ _).symm
      _ ≤ 2 ^ 24 := Nat.pow_le_pow_right (by omega) (by omega)
  · next h =>
    refine Nat.le_trans (roundShift_bounds _ _).2 ?_
    have : m / 2 ^ (lastPlace m e - e).toNat < 2 ^ 24 := by
      rw [Nat.div_lt_iff_lt_mul (Nat.two_pow_pos _), ← Nat.pow_add]
      exact Nat.lt_of_lt_of_le hlt (Nat.pow_le_pow_right (by omega) (by omega))
    omega

theorem le_placedMant {m : Nat} (hm : m ≠ 0) {e : Int} (hq : -149 < lastPlace m e) : 2 ^ 23 ≤ placedMant m e := by
  have hle := Nat.log2_self_le hm
  have hq' : lastPlace m e = e + m.log2 - 23 := by unfold lastPlace at *; omega
  unfold placedMant
  split
  · next h =>
    calc 2 ^ 23 ≤ 2 ^ (m.log2 + (e - lastPlace m e).toNat) := Nat.pow_le_pow_right (by omega) (by omega)
      _ = 2 ^ m.log2 * 2 ^ (e - lastPlace m e).toNat := Nat.pow_add _ _ _
      _ ≤ _ := Nat.mul_le_mul_right _ hle
  · next h =>
    refine Nat.le_trans ?_ (roundShift_bounds _ _).1
    rw [Nat.le_div_iff_mul_le (Nat.two_pow_pos _), ← Nat.pow_add]
    exact Nat.le_trans (Nat.pow_le_pow_right (by omega) (by omega)) hle

theorem toNat_roundPack {m : Nat} (hm : m ≠ 0) (e : Int) :
    (roundPack false m e).toNat = min ((lastPlace m e + 149).toNat * 2 ^ 23 + placedMant m e) 0x7F800000 := by
  unfold roundPack
  rw [if_neg hm]
  change (if (lastPlace m e + 149).toNat * 2 ^ 23 + placedMant m e ≥ 0x7F800000 then infinity false
    else signed false ((lastPlace m e + 149).toNat * 2 ^ 23 + placedMant m e)).toNat = _
  split
  · next h =>
    rw [Nat.min_eq_right h]
    rfl
  · next h =>
    rw [Nat.min_eq_left (by omega), toNat_signed (by omega)]
    simp

theorem roundPack_mono {m m' : Nat} (hm : m ≠ 0) (h : m ≤ m') (e : Int) :
    (roundPack false m e).toNat ≤ (roundPack false m' e).toNat := by
  have hm' : m' ≠ 0 := by omega
  rw [toNat_roundPack hm, toNat_roundPack hm']
  refine min_le_min_right _ ?_
  have hl : m.log2 ≤ m'.log2 := (Nat.le_log2 hm').2 (Nat.le_trans (Nat.log2_self_le hm) h)
  have hq : lastPlace m e ≤ lastPlace m' e := by unfold lastPlace; omega
  have hlo : -149 ≤ lastPlace m e := le_max_right _ _
  rcases lt_or_eq_of_le hq with hlt | heq
  · have h1 := placedMant_le m e
    have h2 := le_placedMant (e := e) hm' (by omega)
    omega
  · have : placedMant m e ≤ placedMant m' e := by
      unfold placedMant
      rw [← heq]
      split
      · exact Nat.mul_le_mul_right _ h
      · exact roundShift_mono _ h
    omega

theorem roundPack_le {m : Nat} (hm : m ≠ 0) (e : Int) : (roundPack false m e).toNat ≤ 0x7F800000 := by
  rw [toNat_roundPack hm]
  exact min_le_right _ _

/-! ### The reference instance is monotone -/

theorem expSeries_mono {x x' : Nat} (hx : x ≤ x') : ∀ (fuel k : Nat) {t t' : Nat}, t ≤ t' →
    expSeries x fuel k t ≤ expSeries x' fuel k t'
  | 0, _, _, _, _ => Nat.le_refl _
  | fuel + 1, k, t, t', ht => by
    unfold expSeries
    split
    · omega
    · rw [if_neg (by omega)]
      exact Nat.add_le_add ht (expSeries_mono hx fuel (k + 1)
        (Nat.div_le_div_right (Nat.div_le_div_right (Nat.mul_le_mul ht hx))))

theorem le_expSeries (x fuel k t : Nat) : t ≤ expSeries x (fuel + 1) k t := by
  unfold expSeries
  split <;> omega

/-- The sum of the series at a magnitude in units of `2^-192`. -/
abbrev expSum (a : Nat) : Nat := expSeries a 600 0 (2 ^ 192)

theorem le_expSum (a : Nat) : 2 ^ 192 ≤ expSum a := le_expSeries a 599 0 _

theorem expSum_mono {a a' : Nat} (h : a ≤ a') : expSum a ≤ expSum a' := expSeries_mono h 600 0 (Nat.le_refl _)

/-- The rounded exponential of a magnitude, and of its negative. -/
def expUp (a : Nat) : F32 := roundPack false (2 * expSum a + 1) (-193)
def expDown (a : Nat) : F32 := roundPack false (2 * (2 ^ 200 * 2 ^ 200 * 2 ^ 192 / expSum a) + 1) (-401)

theorem expUp_mono {a a' : Nat} (h : a ≤ a') : (expUp a).toNat ≤ (expUp a').toNat :=
  roundPack_mono (by omega) (by have := expSum_mono h; omega) _

theorem expDown_anti {a a' : Nat} (h : a ≤ a') : (expDown a').toNat ≤ (expDown a).toNat := by
  refine roundPack_mono (by omega) ?_ _
  have h0 := le_expSum a
  have : 2 ^ 200 * 2 ^ 200 * 2 ^ 192 / expSum a' ≤ 2 ^ 200 * 2 ^ 200 * 2 ^ 192 / expSum a :=
    Nat.div_le_div_left (expSum_mono h) (Nat.lt_of_lt_of_le (Nat.two_pow_pos 192) h0)
  omega

theorem one_le_expUp (a : Nat) : f1.toNat ≤ (expUp a).toNat := by
  have h : (roundPack false (2 * 2 ^ 192) (-193)).toNat = f1.toNat := by decide
  rw [← h]
  refine roundPack_mono (by decide) ?_ _
  have := le_expSum a
  omega

set_option exponentiation.threshold 600 in
theorem expDown_le_one (a : Nat) : (expDown a).toNat ≤ f1.toNat := by
  have h : (roundPack false (2 * (2 ^ 200 * 2 ^ 200) + 1) (-401)).toNat = f1.toNat := by decide
  rw [← h]
  refine roundPack_mono (by omega) ?_ _
  have : 2 ^ 200 * 2 ^ 200 * 2 ^ 192 / expSum a ≤ 2 ^ 200 * 2 ^ 200 :=
    Nat.div_le_of_le_mul (by rw [Nat.mul_comm (expSum a)]; exact Nat.mul_le_mul_left _ (le_expSum a))
  omega

/-- Two magnitudes taken apart as `unpack` does, the first not above the second. -/
structure MagLe (m : Nat) (e : Int) (m' : Nat) (e' : Int) : Prop where
  exps : e ≤ e'
  mants : e = e' → m ≤ m'
  small : m < 2 ^ 24
  normal : -149 < e' → 2 ^ 23 ≤ m'

theorem MagLe.scaled {m m' : Nat} {e e' : Int} (h : MagLe m e m' e') {k : Int} (hk : 0 ≤ e + k) (h149 : -149 ≤ e) :
    m * 2 ^ (e + k).toNat ≤ m' * 2 ^ (e' + k).toNat := by
  rcases lt_or_eq_of_le h.exps with hlt | heq
  · have hn := h.normal (by omega)
    have hs := h.small
    calc m * 2 ^ (e + k).toNat ≤ 2 ^ 24 * 2 ^ (e + k).toNat := Nat.mul_le_mul_right _ (by omega)
      _ = 2 ^ 23 * 2 ^ ((e + k).toNat + 1) := by rw [Nat.pow_succ 2 (e + k).toNat]; omega
      _ ≤ m' * 2 ^ (e' + k).toNat := Nat.mul_le_mul hn (Nat.pow_le_pow_right (by omega) (by omega))
  · subst heq
    exact Nat.mul_le_mul_right _ (h.mants rfl)

theorem expReference_pos (m : Nat) (e : Int) : expReference false m e =
    if e < -64 then f1 else if m * 2 ^ (e + 64).toNat ≥ 89 * 2 ^ 64 then infinity false else expUp (m * 2 ^ (e + 192).toNat) := by
  simp only [expReference, expUp, Bool.false_eq_true, if_false]

theorem expReference_neg (m : Nat) (e : Int) : expReference true m e =
    if e < -64 then f1 else if m * 2 ^ (e + 64).toNat ≥ 104 * 2 ^ 64 then f0 else expDown (m * 2 ^ (e + 192).toNat) := by
  simp only [expReference, expDown, if_true]

theorem expReference_pos_range (m : Nat) (e : Int) :
    f1.toNat ≤ (expReference false m e).toNat ∧ (expReference false m e).toNat ≤ 0x7F800000 := by
  rw [expReference_pos]
  split
  · decide
  · split
    · decide
    · exact ⟨one_le_expUp _, roundPack_le (by omega) _⟩

theorem expReference_neg_range (m : Nat) (e : Int) : (expReference true m e).toNat ≤ f1.toNat := by
  rw [expReference_neg]
  split
  · decide
  · split
    · decide
    · exact expDown_le_one _

theorem expReference_up {m m' : Nat} {e e' : Int} (h : MagLe m e m' e') (h149 : -149 ≤ e) :
    (expReference false m e).toNat ≤ (expReference false m' e').toNat := by
  by_cases he : e < -64
  · rw [expReference_pos m e, if_pos he]
    exact (expReference_pos_range m' e').1
  · have he' : ¬ e' < -64 := by have := h.exps; omega
    have h64 := h.scaled (k := 64) (by omega) h149
    have h192 := h.scaled (k := 192) (by omega) h149
    by_cases hb : m' * 2 ^ (e' + 64).toNat ≥ 89 * 2 ^ 64
    · rw [expReference_pos m' e', if_neg he', if_pos hb]
      exact (expReference_pos_range m e).2
    · rw [expReference_pos, expReference_pos, if_neg he, if_neg he', if_neg hb,
        if_neg (fun hc => hb (Nat.le_trans hc h64))]
      exact expUp_mono h192

theorem expReference_down {m m' : Nat} {e e' : Int} (h : MagLe m e m' e') (h149 : -149 ≤ e) :
    (expReference true m' e').toNat ≤ (expReference true m e).toNat := by
  by_cases he : e < -64
  · rw [expReference_neg m e, if_pos he]
    exact expReference_neg_range m' e'
  · have he' : ¬ e' < -64 := by have := h.exps; omega
    have h64 := h.scaled (k := 64) (by omega) h149
    have h192 := h.scaled (k := 192) (by omega) h149
    by_cases hb : m' * 2 ^ (e' + 64).toNat ≥ 104 * 2 ^ 64
    · rw [expReference_neg m' e', if_neg he', if_pos hb]
      exact Nat.zero_le _
    · rw [expReference_neg, expReference_neg, if_neg he, if_neg he', if_neg hb,
        if_neg (fun hc => hb (Nat.le_trans hc h64))]
      exact expDown_anti h192

/-! ### `fexp` on finite operands -/

/-- The magnitude `unpack` gives a finite number, by its pattern. -/
def magParts (a : Nat) : Nat × Int :=
  if a / 8388608 = 0 then (a % 8388608, -149) else (8388608 + a % 8388608, ((a / 8388608 : Nat) : Int) - 150)

theorem unpack_finite {t : F32} (h : fIsFinite t = true) : unpack t =
    .fin (decide (2147483648 ≤ t.toNat)) (magParts (t.toNat % 2147483648)).1 (magParts (t.toNat % 2147483648)).2 := by
  have hx := t.isLt
  rw [isFinite_iff] at h
  have hd : t.toNat % 2147483648 / 8388608 = t.toNat / 8388608 % 256 := by omega
  have hm : t.toNat % 2147483648 % 8388608 = t.toNat % 8388608 := by omega
  rw [unpack_eq, if_neg (by omega)]
  unfold magParts
  rw [hd, hm]
  split <;> rfl

theorem magParts_zero {a : Nat} (h : (magParts a).1 = 0) : a = 0 := by
  unfold magParts at h
  split at h
  · simp only at h; omega
  · simp only at h; omega

theorem magLe_magParts {a b : Nat} (h : a ≤ b) : MagLe (magParts a).1 (magParts a).2 (magParts b).1 (magParts b).2 := by
  unfold magParts
  by_cases ha : a / 8388608 = 0 <;> by_cases hb : b / 8388608 = 0 <;> simp only [ha, hb, if_true, if_false] <;>
    constructor <;> omega

theorem magParts_exp (a : Nat) : -149 ≤ (magParts a).2 := by
  unfold magParts
  split <;> simp only <;> omega

/-- `fexpFrom` at a finite operand, by the operand's pattern. -/
theorem fexpFrom_finite (table : List (F32 × F32)) {t : F32} (h : fIsFinite t = true) : fexpFrom table t =
    if t.toNat % 2147483648 = 0 then f1
    else if 2147483648 ≤ t.toNat then
      clampUnit ((table.lookup t).getD
        (expReference true (magParts (t.toNat % 2147483648)).1 (magParts (t.toNat % 2147483648)).2))
    else (table.lookup t).getD (expReference false (magParts (t.toNat % 2147483648)).1 (magParts (t.toNat % 2147483648)).2) := by
  unfold fexpFrom
  rw [unpack_finite h]
  dsimp only
  by_cases h0 : t.toNat % 2147483648 = 0
  · rw [if_pos h0, if_pos (by rw [h0]; rfl)]
  · rw [if_neg h0, if_neg (fun hc => h0 (magParts_zero hc))]
    by_cases hn : 2147483648 ≤ t.toNat <;> simp [hn]

theorem clampUnit_of_le {v : F32} (h : v.toNat ≤ f1.toNat) : clampUnit v = v := by
  unfold clampUnit
  rw [if_pos (.inl h)]

/-- A clamped value is in `0 .. 1.0` (P2). -/
theorem clampUnit_range (v : F32) : (clampUnit v).toNat ≤ f1.toNat ∨ clampUnit v = fMinus0 := by
  unfold clampUnit
  split
  · next h => exact h
  · split
    · exact .inl (Nat.le_refl _)
    · exact .inl (by decide)

/-- The reference instance is monotone on finite operands. -/
theorem fexpFrom_nil_mono {t u : F32} (ht : fIsFinite t = true) (hu : fIsFinite u = true) (h : fLe t u = true) :
    fLe (fexpFrom [] t) (fexpFrom [] u) = true := by
  have hneg : ∀ m e, clampUnit (expReference true m e) = expReference true m e := fun m e =>
    clampUnit_of_le (expReference_neg_range m e)
  have hf1 : f1.toNat ≤ 0x7F800000 := by decide
  have hk := ((fLe_iff t u).1 h).2.2
  rw [fKey_eq, fKey_eq] at hk
  rw [fexpFrom_finite [] ht, fexpFrom_finite [] hu]
  simp only [List.lookup_nil, Option.getD_none, hneg]
  have hmag : ∀ {a b : Nat}, a ≤ b → MagLe (magParts a).1 (magParts a).2 (magParts b).1 (magParts b).2 := magLe_magParts
  by_cases t0 : t.toNat % 2147483648 = 0
  · rw [if_pos t0]
    by_cases u0 : u.toNat % 2147483648 = 0
    · rw [if_pos u0]; exact fLe_of_toNat_le (Nat.le_refl _) hf1
    · rw [if_neg u0, if_neg (by intro hn; rw [if_pos hn] at hk; split at hk <;> omega)]
      exact fLe_of_toNat_le (expReference_pos_range _ _).1 (expReference_pos_range _ _).2
  · rw [if_neg t0]
    by_cases tn : 2147483648 ≤ t.toNat
    · rw [if_pos tn]
      rw [if_pos tn] at hk
      by_cases u0 : u.toNat % 2147483648 = 0
      · rw [if_pos u0]; exact fLe_of_toNat_le (expReference_neg_range _ _) hf1
      · rw [if_neg u0]
        by_cases un : 2147483648 ≤ u.toNat
        · rw [if_pos un]
          rw [if_pos un] at hk
          exact fLe_of_toNat_le (expReference_down (hmag (by omega)) (magParts_exp _))
            (Nat.le_trans (expReference_neg_range _ _) hf1)
        · rw [if_neg un]
          exact fLe_of_toNat_le (Nat.le_trans (expReference_neg_range _ _) (expReference_pos_range _ _).1)
            (expReference_pos_range _ _).2
    · rw [if_neg tn]
      rw [if_neg tn] at hk
      have un : ¬ 2147483648 ≤ u.toNat := by intro hn; rw [if_pos hn] at hk; omega
      rw [if_neg un] at hk
      rw [if_neg (by omega), if_neg un]
      exact fLe_of_toNat_le (expReference_up (hmag (by omega)) (magParts_exp _)) (expReference_pos_range _ _).2

/-- A function that is monotone from each place to the next, and does not tell `-0.0` from `+0.0`, is monotone. -/
theorem monotone_of_steps {f : F32 → F32} (hz : f fMinus0 = f f0)
    (hstep : ∀ k, -maxFiniteKey ≤ k → k < maxFiniteKey → fLe (f (fOfKey k)) (f (fOfKey (k + 1))) = true)
    {t u : F32} (ht : fIsFinite t = true) (hu : fIsFinite u = true) (h : fLe t u = true) : fLe (f t) (f u) = true := by
  have hrefl : ∀ k, -maxFiniteKey ≤ k → k ≤ maxFiniteKey → fLe (f (fOfKey k)) (f (fOfKey k)) = true := by
    intro k h1 h2
    rcases lt_or_eq_of_le h2 with hlt | heq
    · have := (fLe_iff _ _).1 (hstep k h1 hlt)
      exact (fLe_iff _ _).2 ⟨this.1, this.1, Int.le_refl _⟩
    · have := (fLe_iff _ _).1 (hstep (k - 1) (by unfold maxFiniteKey at *; omega) (by omega))
      rw [show k - 1 + 1 = k by omega] at this
      exact (fLe_iff _ _).2 ⟨this.2.1, this.2.1, Int.le_refl _⟩
  have hchain : ∀ (n : Nat) k, -maxFiniteKey ≤ k → k + n ≤ maxFiniteKey → fLe (f (fOfKey k)) (f (fOfKey (k + n))) = true := by
    intro n
    induction n with
    | zero => intro k h1 h2; simpa using hrefl k h1 (by simpa using h2)
    | succ n ih =>
      intro k h1 h2
      have a := (fLe_iff _ _).1 (ih k h1 (by omega))
      have b := (fLe_iff _ _).1 (hstep (k + n) (by omega) (by omega))
      refine (fLe_iff _ _).2 ⟨a.1, ?_, ?_⟩
      · rw [show k + (n + 1 : Nat) = k + n + 1 by omega]; exact b.2.1
      · rw [show k + (n + 1 : Nat) = k + n + 1 by omega]; exact Int.le_trans a.2.2 b.2.2
  have hkey : ∀ {t : F32}, fIsFinite t = true → f (fOfKey (fKey t)) = f t := by
    intro t ht
    by_cases h0 : t = fMinus0
    · subst h0
      rw [hz]
      rfl
    · rw [fOfKey_fKey ht h0]
  have hk := ((fLe_iff t u).1 h).2.2
  have := hchain (fKey u - fKey t).toNat (fKey t) (fKey_range ht).1 (by have := (fKey_range hu).2; omega)
  rw [show fKey t + ((fKey u - fKey t).toNat : Int) = fKey u by omega] at this
  rwa [hkey ht, hkey hu] at this

end Sys2Proof.Machine
end

