-- ==== Sys2Proof/Laws/Outcomes.lean ====
section
/-! SUPPORT. How a run ends, in the words of Safety.lean: the two ways of failing closed, success, and the fatal fault. -/

namespace Sys2Proof.Machine

/-! ### Failing closed -/

theorem early_of_accepted {s : State} (h : Accepted s) : Early s s .validate :=
  ⟨⟨rfl, rfl, rfl, rfl, rfl, rfl, h.hostSilent⟩, h.phase, h.status, ⟨h.noWorkers, h.noTasks, h.noStop⟩, rfl, rfl, rfl, rfl⟩

theorem nextTurn_quiet {l : List Turn} (h : ∀ t ∈ l, t ≠ .host) : (nextTurn l).2 = l.drop 1 := by
  cases l with
  | nil => rfl
  | cons t l =>
    cases t with
    | host => exact absurd rfl (h .host (by simp))
    | cfe n => rfl

/-- With no pool, the next step is `SEQ`'s. -/
theorem engineStep_seq {k : Command} {s : State} (hw : s.workers = []) (hen : seqEnabled s = true)
    (hq : ∀ t ∈ s.sched, t ≠ .host) : engineStep k s = seqStep k { s with sched := s.sched.drop 1 } := by
  have ha : enabledAgents s = [Agent.seq] := by simp [enabledAgents, hw, hen]
  simp only [engineStep, ha]
  simp [Nat.mod_one, agentStep, nextTurn_quiet hq]

theorem runSteps_step {k : Command} {n : Nat} {s : State} (ha : s.phase.active = true) (hq : ∀ t ∈ s.sched, t ≠ .host) :
    runSteps k (n + 1) s = runSteps k n (engineStep k s) := by
  have hh : hostTurnNext s = false := by
    unfold hostTurnNext
    cases hs : s.sched with
    | nil => rfl
    | cons t l =>
      have := hq t (by simp [hs])
      simpa using this
  simp [runSteps, ha, hh]

theorem runCommand_fails {k : Command} {s : State} (h : Accepted s) {e : ErrCode}
    (hf : firstFailure k s.cfg s.latch.regs = some e) : runCommand k s = failedClosed e false 1 s := by
  obtain ⟨n, hn⟩ : ∃ n, stepBound s = n + 1 := ⟨stepBound s - 1, by unfold stepBound; omega⟩
  unfold runCommand
  rw [hn, runSteps_step (by simp [h.phase, Phase.active]) h.hostSilent,
    engineStep_seq h.noWorkers (by simp [seqEnabled, h.phase]) h.hostSilent]
  have : seqStep k { s with sched := s.sched.drop 1 } = failedClosed e false 1 s := by
    simp [seqStep, h.phase, hf, failClosed, failedClosed, Status.failed, h.status, Status.running]
  rw [this, runSteps_of_not_active rfl]

theorem runCommand_no_kernel {k : Command} {s : State} (h : Accepted s)
    (hf : firstFailure k s.cfg s.latch.regs = none) (hb : (selectPath k.family s.cfg).2 = false)
    (hk : k.kernel s.cfg s.latch.regs s.freeCount s.kernel = none) :
    runCommand k s = failedClosed .badParameter (selectPath k.family s.cfg).1 2 s := by
  obtain ⟨n, hn⟩ : ∃ n, stepBound s = n + 2 := ⟨stepBound s - 2, by unfold stepBound; omega⟩
  unfold runCommand
  rw [hn, runSteps_step (by simp [h.phase, Phase.active]) h.hostSilent,
    engineStep_seq h.noWorkers (by simp [seqEnabled, h.phase]) h.hostSilent]
  have h1 : seqStep k { s with sched := s.sched.drop 1 } = { s with sched := s.sched.drop 1, phase := .prepare } := by
    simp [seqStep, h.phase, hf]
  have hq : ∀ t ∈ s.sched.drop 1, t ≠ .host := fun t ht => h.hostSilent t (List.mem_of_mem_drop ht)
  rw [h1, runSteps_step rfl hq, engineStep_seq (by exact h.noWorkers) rfl hq]
  have h2 : seqStep k { s with sched := (s.sched.drop 1).drop 1, phase := .prepare }
      = failedClosed .badParameter (selectPath k.family s.cfg).1 2 s := by
    simp [seqStep, prepare, hk, failClosed, failedClosed, Status.failed, Status.onPath, h.status, Status.running, hb]
  exact (congrArg (runSteps k n) h2).trans (runSteps_of_not_active rfl n)

/-! ### Success and the fatal fault -/

theorem succeeded_of {k : Command} {s0 s : State} (frame : Frame s0 s) (status : s.status = pathStatus k s0)
    (noPool : NoPool s) (hwf : s.mem.wf = true) :
    Succeeded (selectPath k.family s0.cfg).1 (selectPath k.family s0.cfg).2 s0 (endSuccess k s) := by
  refine ⟨rfl, ?_, noPool.workers, noPool.queue, noPool.stop, ?_, ⟨frame.regs, frame.latch, frame.cfg, frame.hostQ, frame.lastRead, frame.memAtAccept⟩⟩
  · simp [endSuccess, Status.succeeded, status, pathStatus, Status.onPath, Status.running, pathOf]
  · exact hwf

theorem halted_of {k : Command} {s0 s : State} (frame : Frame s0 s) (status : s.status = pathStatus k s0)
    (hwf : s.mem.wf = true) (cut : CutBytes) : Halted s0 (takeFatalFault cut s) := by
  refine ⟨rfl, ?_, ?_, rfl, rfl, rfl, rfl, rfl, rfl, wf_cutFootprint hwf _,
    ⟨frame.regs, frame.latch, frame.cfg, frame.hostQ, frame.lastRead, frame.memAtAccept⟩⟩ <;>
    simp [takeFatalFault, Status.fatally, status, pathStatus, Status.onPath, Status.running]

/-- What the fatal fault leaves in memory, from what memory held when it was taken. -/
theorem fatal_memory {i : Instr} {s0 s : State} (h0 : Accepted s0) (frame : Frame s0 s) (hwf : s.mem.wf = true)
    (hok : ChecksPass i s0)
    (hun : ∀ a, ¬ InWriteFootprint i s0 a → s.mem.read a = s0.mem.read a)
    (hna : ∀ a, admissible s0.cfg a = false → s.mem.read a = s0.mem.read a) :
    (∀ a, ¬ InWriteFootprint i s0 a → (takeFatalFault (cutBytes (commandOf i) s) s).mem.read a = s0.mem.read a) ∧
    ((commandOf i).overlaps s0.latch.regs = false → ∀ a b, WouldWrite i s0 a b →
      (takeFatalFault (cutBytes (commandOf i) s) s).mem.read a = s0.mem.read a ∨
      (takeFatalFault (cutBytes (commandOf i) s) s).mem.read a = b) := by
  have hww : ∀ a b, WouldWrite i s a b ↔ WouldWrite i s0 a b := by
    intro a b
    unfold WouldWrite
    rw [frame.latch, frame.cfg, frame.memAtAccept]
  have hcp : ChecksPass i s ↔ ChecksPass i s0 := by
    unfold ChecksPass Launchable
    rw [frame.latch, frame.cfg]
  have hin : ∀ a, InWriteFootprint i s a ↔ InWriteFootprint i s0 a := by
    intro a
    unfold InWriteFootprint
    rw [hcp, frame.latch, frame.cfg]
  simp only [takeFatalFault]
  refine ⟨fun a ha => ?_, fun hr a b hb => ?_⟩
  · rw [cutFootprint_other hwf fun hb => ha ((hin a).1 hb)]
    exact hun a ha
  · cases hadm : admissible s0.cfg a with
    | true =>
      have := cutFootprint_written (i := i) (s := s) hwf (hcp.2 hok) (by rw [frame.latch]; exact hr) ((hww a b).2 hb)
        (by rw [frame.cfg]; exact hadm)
      rw [frame.memAtAccept, h0.snapshot] at this
      exact this
    | false =>
      left
      rw [cutFootprint_inadmissible hwf (by rw [frame.cfg]; exact hadm)]
      exact hna a hadm

/-! ### The run of each family -/

/-- A pointwise filter or the converter, from acceptance: success when every lane's accesses are in memory, else the fatal fault. -/
theorem direct_run {k : Command} {s : State} {kern : Kernel} (d : Direct k s.cfg s.latch.regs kern s.mem) (h : Accepted s)
    (hok : firstFailure k s.cfg s.latch.regs = none)
    (hk : k.kernel s.cfg s.latch.regs s.freeCount s.kernel = some kern) :
    ((∀ p ∈ pixelCoords s.latch.regs, d.laneAdm p) ∧ ∃ sl, runCommand k s = endSuccess k sl ∧ Frame s sl ∧
      sl.status = pathStatus k s ∧ NoPool sl ∧ sl.kernel = kern ∧ sl.out = s.out ∧ d.Final sl.mem) ∨
    (¬ (∀ p ∈ pixelCoords s.latch.regs, d.laneAdm p) ∧ ∃ sl, runCommand k s = takeFatalFault (cutBytes k sl) sl ∧
      Frame s sl ∧ sl.status = pathStatus k s ∧ d.Midway sl.mem) := by
  have hout : scratchAtStart k s = s.out := by simp [scratchAtStart, d.family]
  cases runCommand_finishes (d.sem h.memory (scratchAtStart k s)) hok hk (early_of_accepted h) with
  | success sl frame status noPool kernel mem stable eq =>
    exact .inl ⟨mem.2.adm, sl, eq, frame, status, noPool, kernel, mem.1.trans hout, mem.2⟩
  | fatal sl frame status stable notAdm eq => exact .inr ⟨notAdm, sl, eq, frame, status, stable⟩

/-- A neighbourhood filter, from acceptance: success when its footprint is in memory, else the fatal fault. -/
theorem filter_run {f : Filter} {s : State} {kern : Kernel} (h : Accepted s)
    (hS : RowsFit s.latch.regs)
    (hok : firstFailure (filterCommand f) s.cfg s.latch.regs = none)
    (hk : f.kernel s.cfg s.latch.regs s.freeCount = some kern) :
    (FilterAdm f s.cfg s.latch.regs ∧ ∃ sl, runCommand (filterCommand f) s = endSuccess (filterCommand f) sl ∧ Frame s sl ∧
      sl.status = pathStatus (filterCommand f) s ∧ NoPool sl ∧ Filtered f s.cfg s.latch.regs kern s.mem sl.mem) ∨
    (¬ FilterAdm f s.cfg s.latch.regs ∧ ∃ sl, runCommand (filterCommand f) s = takeFatalFault (cutBytes (filterCommand f) sl) sl ∧
      Frame s sl ∧ sl.status = pathStatus (filterCommand f) s ∧ FilterMidway f s.cfg s.latch.regs s.mem sl.mem) := by
  cases runCommand_finishes (k := filterCommand f) (filterSem f s.cfg s.latch.regs kern s.mem hS h.memory) hok hk (early_of_accepted h) with
  | success sl frame status noPool kernel mem stable eq =>
    exact .inl ⟨Filtered.adm hS mem, sl, eq, frame, status, noPool, mem⟩
  | fatal sl frame status stable notAdm eq => exact .inr ⟨notAdm, sl, eq, frame, status, stable⟩

/-! ### What an accepted command answers -/

/-- An accepted command that ends in success has found its whole footprint in memory. -/
theorem footprintIn_of_success {i : Instr} {s : State} (h : Accepted s) (hp : (runCommand (commandOf i) s).phase = .idle)
    (ho : (runCommand (commandOf i) s).status.ok = true) : FootprintIn i s := by
  cases hf : firstFailure (commandOf i) s.cfg s.latch.regs with
  | some e =>
    rw [runCommand_fails h hf] at ho
    cases ho
  | none =>
    have hS : RowsFit s.latch.regs := ((firstFailure_eq_none_iff i s).1 hf).1.2.1
    have hpoint : ∀ f, (firstFailure (pointwiseCommand f) s.cfg s.latch.regs = none) →
        (runCommand (pointwiseCommand f) s).phase = .idle → ∀ a, inPixels s.latch.regs a = true → admissible s.cfg a = true := by
      intro f hf hp a ha
      rcases direct_run (pointwiseDirect f s.cfg s.latch.regs s.kernel s.mem hS) h hf rfl with ⟨hall, -⟩ | ⟨-, sl, heq, -⟩
      · obtain ⟨x, hx, y, hy, k, hk, rfl⟩ := pixelByte_of_inPixels ha
        exact hall (x, y) (mem_pixelCoords.2 ⟨hx, hy⟩) k hk
      · rw [heq] at hp
        cases hp
    have hfilter : ∀ f, firstFailure (filterCommand f) s.cfg s.latch.regs = none → (selectPath (filterCommand f).family s.cfg).2 = false →
        (runCommand (filterCommand f) s).phase = .idle → (runCommand (filterCommand f) s).status.ok = true →
        FilterAdm f s.cfg s.latch.regs := by
      intro f hf hb hp ho
      cases hk : f.kernel s.cfg s.latch.regs s.freeCount with
      | none =>
        rw [runCommand_no_kernel h hf hb hk] at ho
        cases ho
      | some kern =>
        rcases filter_run h hS hf hk with ⟨hadm, -⟩ | ⟨-, sl, heq, -⟩
        · exact hadm
        · rw [heq] at hp
          cases hp
    cases i with
    | gray => exact hpoint grayPixel hf hp
    | neg => exact hpoint negPixel hf hp
    | blur => exact hfilter blurFilter hf rfl hp ho
    | sharp => exact hfilter sharpFilter hf rfl hp ho
    | emboss => exact hfilter embossFilter hf rfl hp ho
    | edge => exact hfilter edgeFilter hf rfl hp ho
    | yuv2rgba hint =>
      rcases direct_run (yuvDirect hint s.cfg s.latch.regs s.kernel s.mem hS) h hf rfl with ⟨hall, -⟩ | ⟨-, sl, heq, -⟩
      · intro a ha
        rcases Bool.or_eq_true_iff.1 (show (inPixels s.latch.regs a || inPlanes s.latch.regs a) = true from ha) with ha | ha
        · obtain ⟨x, hx, y, hy, k, hk, rfl⟩ := pixelByte_of_inPixels ha
          exact (hall (x, y) (mem_pixelCoords.2 ⟨hx, hy⟩)).1 k hk
        · obtain ⟨p, hp, hpa⟩ := List.any_eq_true.1 ha
          exact (hall p hp).2 a (by simpa using hpa)
      · have heq : runCommand (commandOf (.yuv2rgba hint)) s = _ := heq
        rw [heq] at hp
        cases hp

/-- An accepted command answers with its run, but for a converter launch that passes its checks and overlaps (R281 premise 4): no memory
disappears while the host is silent. -/
theorem exec_of_accepted {i : Instr} {s : State} (h : Accepted s)
    (ho : (commandOf i).overlaps s.latch.regs = false ∨ failsClosed (commandOf i) s = true) :
    exec i s = .next (runCommand (commandOf i) s) := by
  refine exec_run ho ?_
  rw [← Bool.not_eq_true]
  intro he
  unfold endsUnmapped at he
  simp only [Bool.and_eq_true, beq_iff_eq, Bool.not_eq_true'] at he
  obtain ⟨⟨⟨-, hp⟩, hok⟩, hm⟩ := he
  rw [(footprintMapped_iff i s).2 (footprintIn_of_success h hp hok)] at hm
  cases hm

end Sys2Proof.Machine
end

