-- ==== Sys2Proof/Laws/PerInstr.lean ====
section
/-! SUPPORT. Statements made for each command, one lemma a constructor. -/

namespace Sys2Proof.Laws.RoundTrip

/-- The command is well formed, and its own word decodes to it (R92, R99). -/
def Statement (i : Instr) : Prop := i.wellFormed = true ∧ decode (encode i) = some i

theorem gray : Statement .gray := ⟨by decide, by decide⟩
theorem neg : Statement .neg := ⟨by decide, by decide⟩
theorem blur : Statement .blur := ⟨by decide, by decide⟩
theorem sharp : Statement .sharp := ⟨by decide, by decide⟩
theorem emboss : Statement .emboss := ⟨by decide, by decide⟩
theorem edge : Statement .edge := ⟨by decide, by decide⟩
theorem yuv2rgba (hint : Bool) : Statement (.yuv2rgba hint) := by cases hint <;> exact ⟨by decide, by decide⟩

end Sys2Proof.Laws.RoundTrip
end

