-- ==== Sys2Proof/Laws/Steps.lean ====
section
/-! SUPPORT. Everything one step of one agent of CFE can do, from any state (R113, R126), what no such step changes, and that it keeps
memory in canonical form and the kernel store in its shape. -/

namespace Sys2Proof.Machine

/-- The moves of `SEQ` and of the workers, one constructor each, with what each needs and what it does. -/
inductive Move (k : Command) (s t : State) : Prop where
  /-- no agent has a step -/
  | stays (eq : t = s)
  | fails (phase : s.phase = .validate) (e : ErrCode) (check : firstFailure k s.cfg s.latch.regs = some e) (eq : t = failClosed e s)
  | passes (phase : s.phase = .validate) (check : firstFailure k s.cfg s.latch.regs = none) (eq : t = { s with phase := .prepare })
  | prepares (phase : s.phase = .prepare) (eq : t = prepare k s)
  | scalarItem (phase : s.phase = .scalar) (it : Item) (m : Memory) (o : Scratch) (cur : Cursor)
      (run : k.runItem s.cfg s.latch.regs s.kernel it s.mem s.out = .ok (m, o))
      (eq : t = { s with mem := m, out := o, cursor := cur })
  | scalarFault (phase : s.phase = .scalar) (eq : t = takeFatalFault (cutBytes k s) s)
  | scalarDone (phase : s.phase = .scalar) (eq : t = afterCompute k s)
  | constructs (phase : s.phase = .fork) (none : s.workers = []) (eq : t = { s with workers := List.replicate (nWorkers s.cfg) .waiting })
  | enqueues (phase : s.phase = .fork) (some : s.workers ≠ []) (lt : s.cursor.unit < nWorkers s.cfg)
      (eq : t = { s with
        queue := s.queue ++ [taskOf (k.plan s.cfg s.latch.regs true).units (nWorkers s.cfg) (k.family == .pointwise) s.cursor.unit]
        cursor := ⟨s.cursor.unit + 1, 0⟩ })
  | drains (phase : s.phase = .fork) (some : s.workers ≠ []) (ge : ¬ s.cursor.unit < nWorkers s.cfg)
      (eq : t = { s with stop := true, phase := .run })
  | joins (phase : s.phase = .run) (exited : allExited s = true) (eq : t = afterCompute k { s with workers := [], stop := false })
  | copies (phase : s.phase = .copyBack) (x y : Nat) (p : Pixel) (m : Memory) (cur : Cursor)
      (write : pixWrite s.cfg s.latch.regs s.mem x y p = .ok m) (eq : t = { s with mem := m, cursor := cur })
  | skips (phase : s.phase = .copyBack) (cur : Cursor) (eq : t = { s with cursor := cur })
  | copyFault (phase : s.phase = .copyBack) (eq : t = takeFatalFault (cutBytes k s) s)
  | copied (phase : s.phase = .copyBack) (eq : t = endSuccess k s)
  | pops (active : s.phase.active = true) (i : Nat) (lt : i < s.workers.length) (was : s.workers.getD i .absent = .waiting)
      (task : Task) (rest : List Task) (queue : s.queue = task :: rest) (cur : Cursor)
      (eq : t = { s with queue := rest, workers := s.workers.set i (.running task cur) })
  | exits (active : s.phase.active = true) (i : Nat) (lt : i < s.workers.length) (was : s.workers.getD i .absent = .waiting)
      (queue : s.queue = []) (stop : s.stop = true) (eq : t = { s with workers := s.workers.set i .exited })
  | works (active : s.phase.active = true) (i : Nat) (lt : i < s.workers.length) (task : Task) (cur cur' : Cursor)
      (was : s.workers.getD i .absent = .running task cur) (it : Item) (m : Memory) (o : Scratch)
      (run : k.runItem s.cfg s.latch.regs s.kernel it s.mem s.out = .ok (m, o))
      (eq : t = { s with mem := m, out := o, workers := s.workers.set i (.running task cur') })
  | workFault (active : s.phase.active = true) (eq : t = takeFatalFault (cutBytes k s) s)
  | rests (active : s.phase.active = true) (i : Nat) (lt : i < s.workers.length) (task : Task) (cur : Cursor)
      (was : s.workers.getD i .absent = .running task cur) (eq : t = { s with workers := s.workers.set i .waiting })

theorem seqStep_move {k : Command} {s : State} (hen : seqEnabled s = true) : Move k s (seqStep k s) := by
  unfold seqStep
  split
  · next hp =>
    split
    · next e he => exact .fails hp e he rfl
    · next he => exact .passes hp he rfl
  · next hp => exact .prepares hp rfl
  · next hp =>
    unfold scalarStep
    dsimp only
    split
    · next it _ =>
      unfold runOn
      split
      · next m o hr => exact .scalarItem hp it m o _ hr rfl
      · exact .scalarFault hp rfl
    · exact .scalarDone hp rfl
  · next hp =>
    unfold forkStep
    dsimp only
    split
    · next h => exact .constructs hp h rfl
    · next h =>
      split
      · next h' => exact .enqueues hp h h' rfl
      · next h' => exact .drains hp h h' rfl
  · next hp => exact .joins hp (by simpa [seqEnabled, hp] using hen) rfl
  · next hp =>
    unfold copyBackStep
    dsimp only
    split
    · exact .copied hp rfl
    · split
      · split
        · next m hm => exact .copies hp _ _ _ m _ hm rfl
        · exact .copyFault hp rfl
      · exact .skips hp _ rfl
  · exact .stays rfl
  · exact .stays rfl

theorem workerStep_move {k : Command} {s : State} {i : Nat} (hi : i < s.workers.length)
    (hen : workerEnabled s (s.workers.getD i .absent) = true) : Move k s (workerStep k i s) := by
  unfold workerStep
  dsimp only
  split
  · next hw =>
    have ha : s.phase.active = true := by
      rw [hw] at hen
      simp only [workerEnabled, Bool.and_eq_true] at hen
      exact hen.1
    split
    · next t rest hq => exact .pops ha i hi hw t rest hq _ rfl
    · next hq =>
      split
      · next hs => exact .exits ha i hi hw hq hs rfl
      · exact .stays rfl
  · next t cur hw =>
    have ha : s.phase.active = true := by
      rw [hw] at hen
      exact hen
    split
    · next it _ =>
      unfold runOn
      split
      · next m o hr => exact .works ha i hi t cur _ hw it m o hr rfl
      · exact .workFault ha rfl
    · exact .rests ha i hi t cur hw rfl
  · exact .stays rfl
  · exact .stays rfl

/-- One step of the engine is a move, but for the choice of the schedule it uses. -/
theorem engineStep_move (k : Command) (s : State) : Move k { s with sched := (nextTurn s.sched).2 } (engineStep k s) := by
  unfold engineStep
  dsimp only
  split
  · next a ha =>
    have hmem := List.mem_of_getElem? ha
    cases a with
    | seq =>
      refine seqStep_move (s := { s with sched := (nextTurn s.sched).2 }) ?_
      rcases mem_enabled hmem with ⟨-, h⟩ | ⟨i, -, h, -⟩
      · exact h
      · cases h
    | worker i =>
      rcases mem_enabled hmem with ⟨h, -⟩ | ⟨j, h1, h, h2⟩
      · cases h
      · cases h
        exact workerStep_move (s := { s with sched := (nextTurn s.sched).2 }) h1 h2
  · exact .stays rfl

/-- What no move changes: the register block, the latch, the configuration, and the host's own fields. -/
theorem Move.kept {k : Command} {s t : State} (h : Move k s t) :
    t.regs = s.regs ∧ t.latch = s.latch ∧ t.cfg = s.cfg ∧ t.hostQ = s.hostQ ∧ t.lastRead = s.lastRead ∧
    t.memAtAccept = s.memAtAccept ∧ t.sched = s.sched := by
  have hprep : ∀ u : State, u = prepare k s → u.regs = s.regs ∧ u.latch = s.latch ∧ u.cfg = s.cfg ∧ u.hostQ = s.hostQ ∧
      u.lastRead = s.lastRead ∧ u.memAtAccept = s.memAtAccept ∧ u.sched = s.sched := by
    rintro u rfl
    unfold prepare
    dsimp only
    split <;> exact ⟨rfl, rfl, rfl, rfl, rfl, rfl, rfl⟩
  have hafter : ∀ u : State, (afterCompute k u).regs = u.regs ∧ (afterCompute k u).latch = u.latch ∧
      (afterCompute k u).cfg = u.cfg ∧ (afterCompute k u).hostQ = u.hostQ ∧ (afterCompute k u).lastRead = u.lastRead ∧
      (afterCompute k u).memAtAccept = u.memAtAccept ∧ (afterCompute k u).sched = u.sched := by
    intro u
    unfold afterCompute
    split <;> exact ⟨rfl, rfl, rfl, rfl, rfl, rfl, rfl⟩
  cases h with
  | prepares _ eq => exact hprep t eq
  | scalarDone _ eq => subst eq; exact hafter s
  | joins _ _ eq => subst eq; exact hafter _
  | _ => subst_vars; exact ⟨rfl, rfl, rfl, rfl, rfl, rfl, rfl⟩

/-! ### The kernel store keeps its shape -/

@[simp] theorem freeWeights_length (n r : Nat) : (freeWeights n r).length = (2 * r + 1) * (2 * r + 1) := by simp [freeWeights]

theorem freeKernel_shape (c : Cfg) (n : Nat) : KernelShape c (freeKernel c n) :=
  ⟨Nat.le_of_lt_succ (Nat.mod_lt _ (Nat.succ_pos _)), freeWeights_length ..⟩

theorem gaussKernel_shape {c : Cfg} {r : Nat} {sigma : F32} {k : Kernel} (hr : r ≤ rMax c) (h : gaussKernel c r sigma = some k) :
    KernelShape c k := by
  unfold gaussKernel at h
  dsimp only at h
  split at h
  · cases h
    exact ⟨hr, by simp [gaussWeights, windowOffsets]⟩
  · cases h

/-- `PREPARE` of a command that passed its checks leaves a kernel store in its shape (R192, R195, R198, R202). -/
theorem kernel_shape {i : Instr} {s : State} {kern : Kernel} (checked : firstFailure (commandOf i) s.cfg s.latch.regs = none)
    (hs : KernelShape s.cfg s.kernel) (h : (commandOf i).kernel s.cfg s.latch.regs s.freeCount s.kernel = some kern) :
    KernelShape s.cfg kern := by
  have h1 : 1 ≤ rMax s.cfg := by unfold rMax; omega
  cases i with
  | gray | neg | yuv2rgba =>
    cases h
    exact hs
  | blur =>
    have hp := ((firstFailure_eq_none_iff .blur s).1 checked).2 rfl
    refine gaussKernel_shape ?_ h
    have h2 := hp.1
    unfold HostRegs.blurRadius HostRegs.radiusInt
    omega
  | sharp | emboss =>
    cases h
    exact ⟨h1, rfl⟩
  | edge =>
    cases h
    exact ⟨h1, freeWeights_length ..⟩

theorem endSuccess_shape {k : Command} {s : State} (h : KernelShape s.cfg s.kernel) :
    KernelShape (endSuccess k s).cfg (endSuccess k s).kernel := by
  rw [endSuccess_cfg, endSuccess_kernel]
  split
  · exact freeKernel_shape ..
  · exact h

theorem afterCompute_shape {k : Command} {s : State} (h : KernelShape s.cfg s.kernel) :
    KernelShape (afterCompute k s).cfg (afterCompute k s).kernel := by
  unfold afterCompute
  split
  · exact h
  · exact endSuccess_shape h

/-- Every move of a command that, past `VALIDATE`, passed its checks keeps the shape of the kernel store. -/
theorem Move.kernelShape {i : Instr} {s t : State} (h : Move (commandOf i) s t)
    (checked : s.phase = .prepare → firstFailure (commandOf i) s.cfg s.latch.regs = none) (hs : KernelShape s.cfg s.kernel) :
    KernelShape t.cfg t.kernel := by
  cases h with
  | prepares phase eq =>
    subst eq
    unfold prepare
    dsimp only
    split
    · exact hs
    · next hk => exact kernel_shape (s := s) (checked phase) hs hk
  | scalarDone _ eq => subst eq; exact afterCompute_shape hs
  | joins _ _ eq => subst eq; exact afterCompute_shape (s := { s with workers := [], stop := false }) hs
  | copied _ eq => subst eq; exact endSuccess_shape hs
  | _ => subst_vars; exact hs

/-! ### Items keep the canonical form of memory -/

theorem pixWrite_wf {c : Cfg} {g : HostRegs} {m m' : Memory} {x y : Nat} {p : Pixel} (h : m.wf = true)
    (hw : pixWrite c g m x y p = .ok m') : m'.wf = true := by
  by_cases hf : FourAdmissible c (pixelAddr g x y)
  · rw [pixWrite_ok hf] at hw
    injection hw with hw
    subst hw
    exact Memory.wf_putPixel h _ _
  · obtain ⟨e, he⟩ := pixWrite_error (m := m) (p := p) hf
    rw [he] at hw
    cases hw

theorem thread_invariant {ε σ α : Type} {f : σ → α → Except ε σ} {P : σ → Prop} (hf : ∀ s a s', P s → f s a = .ok s' → P s') :
    ∀ {l : List α} {s s' : σ}, P s → thread f s l = .ok s' → P s'
  | [], s, s', h, ht => by
    injection ht with ht
    exact ht ▸ h
  | a :: l, s, s', h, ht => by
    simp only [thread] at ht
    split at ht
    · cases ht
    · next s1 h1 => exact thread_invariant hf (hf s a s1 h h1) ht

theorem runPointwise_wf {f : Pixel → Pixel} {c : Cfg} {g : HostRegs} {it : Item} {m m' : Memory} (h : m.wf = true)
    (hr : runPointwise f c g it m = .ok m') : m'.wf = true := by
  unfold runPointwise at hr
  split at hr
  · cases hr
  · exact thread_invariant (P := fun m : Memory => m.wf = true) (fun _ _ _ hm hw => pixWrite_wf hm hw) h hr

theorem runConvert_wf {c : Cfg} {g : HostRegs} {it : Item} {m m' : Memory} (h : m.wf = true)
    (hr : runConvert c g it m = .ok m') : m'.wf = true := by
  unfold runConvert at hr
  split at hr
  · cases hr
  · split at hr
    · cases hr
    · split at hr
      · cases hr
      · exact thread_invariant (P := fun m : Memory => m.wf = true) (fun _ _ _ hm hw => pixWrite_wf hm hw) h hr

theorem map_ok {ε α β : Type} {x : Except ε α} {f : α → β} {b : β} (h : x.map f = .ok b) : ∃ a, x = .ok a ∧ f a = b := by
  cases x with
  | error e => cases h
  | ok a => exact ⟨a, rfl, by injection h⟩

/-- An executed item of any command leaves memory in canonical form. -/
theorem runItem_wf (i : Instr) {c : Cfg} {g : HostRegs} {kern : Kernel} {it : Item} {m m' : Memory} {o o' : Scratch} (h : m.wf = true)
    (hr : (commandOf i).runItem c g kern it m o = .ok (m', o')) : m'.wf = true := by
  have hf : ∀ f : Filter, (filterCommand f).runItem c g kern it m o = .ok (m', o') → m'.wf = true := by
    intro f hr
    obtain ⟨a, -, ha⟩ := map_ok hr
    injection ha with ha
    exact ha ▸ h
  have hp : ∀ f : Pixel → Pixel, (pointwiseCommand f).runItem c g kern it m o = .ok (m', o') → m'.wf = true := by
    intro f hr
    obtain ⟨a, ha, heq⟩ := map_ok hr
    injection heq with heq
    exact heq ▸ runPointwise_wf h ha
  cases i with
  | gray => exact hp _ hr
  | neg => exact hp _ hr
  | blur => exact hf _ hr
  | sharp => exact hf _ hr
  | emboss => exact hf _ hr
  | edge => exact hf _ hr
  | yuv2rgba hint =>
    obtain ⟨a, ha, heq⟩ := map_ok hr
    injection heq with heq
    exact heq ▸ runConvert_wf h ha

end Sys2Proof.Machine
end

