-- ==== Sys2Proof/Tests/Slice0.lean ====
section
/-! SUPPORT. The author's own tests: the checks of WellFormed, the words of R92, the worked examples of the spec on single steps, and for
every obligation with hypotheses a state and operands that meet them. Expected values come from the spec's examples and from
spec/95_test_vectors.md, never from the model. -/

open Sys2Proof Sys2Proof.Machine

namespace Sys2Proof.Tests

set_option maxRecDepth 100000
set_option exponentiation.threshold 600

/-! ### Well-formedness: each check of R94 refuses an ill-formed word -/

theorem test_op_zero_refused : (CmdFields.mk 0 false 0).opNotZero = false ∧ (CmdFields.mk 0 false 0).wellFormed = false := by decide
theorem test_op_eight_refused : (CmdFields.mk 8 false 0).opBelowEight = false ∧ (CmdFields.mk 8 false 0).wellFormed = false := by decide
theorem test_rsv_refused : (CmdFields.mk 1 false 1).rsvZero = false ∧ (CmdFields.mk 1 false 1).wellFormed = false := by decide
theorem test_hint_on_filter_refused : (CmdFields.mk 6 true 0).hintAllowed = false ∧ (CmdFields.mk 6 true 0).wellFormed = false := by decide
theorem test_hint_on_converter_allowed : (CmdFields.mk 7 true 0).wellFormed = true := by decide

/-! ### Decoding: each word written out from R90 and R92 (95_test_vectors.md 2.1) -/

theorem test_decode_gray : decode 0b00000000000000000000000000000001#32 = some .gray := by decide
theorem test_decode_neg : decode 0b00000000000000000000000000000010#32 = some .neg := by decide
theorem test_decode_blur : decode 0b00000000000000000000000000000011#32 = some .blur := by decide
theorem test_decode_sharp : decode 0b00000000000000000000000000000100#32 = some .sharp := by decide
theorem test_decode_emboss : decode 0b00000000000000000000000000000101#32 = some .emboss := by decide
theorem test_decode_edge : decode 0b00000000000000000000000000000110#32 = some .edge := by decide
theorem test_decode_yuv : decode 0b00000000000000000000000000000111#32 = some (.yuv2rgba false) := by decide
theorem test_decode_yuv_hint : decode 0b00000000000000000000000000010111#32 = some (.yuv2rgba true) := by decide
theorem test_decode_illegal :
    decode 0x00#32 = none ∧ decode 0x08#32 = none ∧ decode 0x0F#32 = none ∧ decode 0x11#32 = none ∧ decode 0x16#32 = none ∧
    decode 0x10#32 = none ∧ decode 0x27#32 = none ∧ decode 0x107#32 = none ∧ decode 0x80000001#32 = none ∧
    decode 0xFFFFFFFF#32 = none := by decide
theorem test_decodeTableWord : decodeTableWord 32 0x17 = some (.yuv2rgba true) ∧ decodeTableWord 32 0x18 = none := by decide

/-! ### A small machine -/

/-- Memory at `0 .. 0xFFF`, two workers, groups of two pixels; the exponential is the reference instance and the vector results are
the scalar ones. -/
def cfgOf (vector : Bool) (border : BorderPolicy) : Cfg where
  regBase := 0
  hasQuery := true
  cpuFamily := if vector then .arm64 else .other
  neonBit := false
  hwConcurrency := 2
  vwPairs := 0
  rMaxLessOne := 7
  scratchPixels := none
  borderPolicy := border
  memMap := [⟨0, 0x1000⟩]
  fexpTable := []
  vecBlur := []
  vecSharp := []
  vecEmboss := []
  vecEdge := []

/-- The scalar machine with border policy `ZERO`, and the vector one. -/
abbrev plain : Cfg := cfgOf false .zero
abbrev vect : Cfg := cfgOf true .zero

/-- A `w x h` image at 0x100 with four bytes of padding in a row, `RADIUS = 1`, `SIGMA = 1.0`, and planes at 0x800, 0x900, 0xA00. -/
def image (w h : Nat) : HostRegs where
  pbBase := 0x100
  pbWidth := BitVec.ofNat 32 w
  pbHeight := BitVec.ofNat 32 h
  pbStride := BitVec.ofNat 32 (4 * w + 4)
  pbFormat := 1
  radius := 1
  sigma := 0x3F800000
  yBase := 0x800
  yStride := 16
  uBase := 0x900
  uRStride := 16
  uPStride := 1
  vBase := 0xA00
  vRStride := 16
  vPStride := 1

/-- Memory with these bytes at these addresses. -/
def memOf (l : List (Nat × Byte)) : Memory := l.foldl (fun m e => m.write e.1 e.2) []

/-- The pixels of one row from address `a` on. -/
def rowAt (a : Nat) (l : List Pixel) : List (Nat × Byte) :=
  (l.mapIdx fun k p => [(a + 4 * k, p.r), (a + 4 * k + 1, p.g), (a + 4 * k + 2, p.b), (a + 4 * k + 3, p.a)]).flatten

/-- The engine right after it has accepted command word `cmd`. -/
def started (c : Cfg) (cmd : Word) (g : HostRegs) (m : Memory) : State :=
  { State.reset with
    regs := g
    status := Status.running
    latch := ⟨cmd, g⟩
    phase := .validate
    mem := m
    memAtAccept := m
    cfg := c }

/-- The engine at rest, with these moves of the host pending. -/
def resting (q : List HostMove) : State := { State.reset with cfg := plain, hostQ := q }

/-- What a step leaves satisfies `p`. -/
def after (s : State) (p : State → Bool) : Bool :=
  match step s with
  | .next t => p t
  | .fault _ => false
  | .refused _ => false

/-- A 3 x 3 image with these nine values in every colour channel, alpha 9. -/
def grid (l : List Byte) : Memory :=
  memOf (rowAt 0x100 ((l.take 3).map fun v => ⟨v, v, v, 9⟩) ++ rowAt 0x110 (((l.drop 3).take 3).map fun v => ⟨v, v, v, 9⟩)
    ++ rowAt 0x120 ((l.drop 6).map fun v => ⟨v, v, v, 9⟩))

/-- The centre pixel of the 3 x 3 image. -/
def centre (t : State) : Pixel := t.mem.pixelAt 0x114

/-! ### One step of each command -/

/-- R182's worked example. -/
theorem test_gray : after (started plain 1 (image 1 1) (memOf (rowAt 0x100 [⟨255, 0, 0, 200⟩])))
    (fun t => t.mem.pixelAt 0x100 == ⟨77, 77, 77, 200⟩ && t.status.toWord == 6) = true := by decide

/-- 95_test_vectors.md 2.2, one full group and a tail on the vector path; the padding stays. -/
theorem test_gray_vector : after (started vect 1 (image 3 1)
      (memOf (rowAt 0x100 [⟨10, 20, 30, 1⟩, ⟨200, 100, 50, 2⟩, ⟨0, 255, 0, 3⟩] ++ [(0x10C, 0x55)])))
    (fun t => t.mem.pixelAt 0x100 == ⟨18, 18, 18, 1⟩ && t.mem.pixelAt 0x104 == ⟨124, 124, 124, 2⟩
      && t.mem.pixelAt 0x108 == ⟨149, 149, 149, 3⟩ && t.mem.read 0x10C == 0x55 && t.status.toWord == 0x106) = true := by decide

/-- R183's worked example. -/
theorem test_neg : after (started plain 2 (image 1 1) (memOf (rowAt 0x100 [⟨10, 20, 30, 40⟩])))
    (fun t => t.mem.pixelAt 0x100 == ⟨245, 235, 225, 40⟩) = true := by decide

/-- R194's worked example: centre 255 among zeros, `r = 1`, `sigma = 1.0`, gives 52; the border follows `ZERO`. -/
theorem test_blur : after (started plain 3 (image 3 3) (grid [0, 0, 0, 0, 255, 0, 0, 0, 0]))
    (fun t => centre t == ⟨52, 52, 52, 9⟩ && t.mem.pixelAt 0x100 == ⟨0, 0, 0, 0⟩ && t.status.toWord == 6) = true := by decide

/-- 95_test_vectors.md 2.3: a uniform 200 becomes 199 with `sigma = 2.0`; under `SOURCE` the border is unchanged. -/
theorem test_blur_uniform : after (started (cfgOf false .source) 3 { image 3 3 with sigma := 0x40000000 } (grid (List.replicate 9 200)))
    (fun t => centre t == ⟨199, 199, 199, 9⟩ && t.mem.pixelAt 0x100 == ⟨200, 200, 200, 9⟩) = true := by decide

/-- R196's worked example: centre 100, eight neighbours 90. -/
theorem test_sharp : after (started plain 4 (image 3 3) (grid [90, 90, 90, 90, 100, 90, 90, 90, 90]))
    (fun t => centre t == ⟨180, 180, 180, 9⟩) = true := by decide

/-- R199's worked example: flat 100 gives 228. -/
theorem test_emboss : after (started vect 5 (image 3 3) (grid (List.replicate 9 100)))
    (fun t => centre t == ⟨228, 228, 228, 9⟩) = true := by decide

/-- R203's worked example: every row of the window `10, 20, 30`. -/
theorem test_edge : after (started vect 6 (image 3 3) (grid [10, 20, 30, 10, 20, 30, 10, 20, 30]))
    (fun t => centre t == ⟨80, 80, 80, 9⟩ && t.status.toWord == 0x106) = true := by decide

/-- R225's worked examples: full white and black. -/
theorem test_yuv : after (started plain 7 (image 2 1) (memOf [(0x800, 235), (0x801, 16), (0x900, 128), (0xA00, 128)]))
    (fun t => t.mem.pixelAt 0x100 == ⟨255, 255, 255, 255⟩ && t.mem.pixelAt 0x104 == ⟨0, 0, 0, 255⟩) = true := by decide

/-- The hint without the capability (R118): the scalar path, `FALLBACK = 1`, the same bytes (program P4 shows 0x206). -/
theorem test_yuv_fallback : after (started plain 0x17 (image 2 1) (memOf [(0x800, 235), (0x801, 16), (0x900, 128), (0xA00, 128)]))
    (fun t => t.mem.pixelAt 0x100 == ⟨255, 255, 255, 255⟩ && t.status.toWord == 0x206) = true := by decide

/-- Program P5: the words of `STATUS` after the errors. -/
theorem test_errors :
    after (started plain 1 HostRegs.zero []) (fun t => t.status.toWord == 0x12) = true ∧
    after (started plain 0x11 (image 1 1) []) (fun t => t.status.toWord == 0x22) = true ∧
    after (started plain 2 { image 4 2 with pbStride := 12 } []) (fun t => t.status.toWord == 0x32) = true ∧
    after (started plain 3 { image 4 2 with sigma := 0 } []) (fun t => t.status.toWord == 0x42) = true := by decide

/-- Program P6: the fatal fault, at the end of memory. -/
theorem test_fatal : after (started plain 1 { image 4 1 with pbBase := 0xFF8 } [])
    (fun t => t.status.toWord == 0xF9 && t.phase == .halted) = true := by decide

/-- R281 premise 2, U7: when the memory of its image disappears, the running command is fatal and its pool is gone. -/
theorem test_unmapped_fatal :
    after { started vect 1 (image 2 1) [] with sched := [.host], hostQ := [.unmap ⟨0x100, 1⟩] } (fun t =>
      after t fun u => u.status.toWord == 0x1F9 && u.workers.isEmpty && u.queue.isEmpty && !u.stop) = true := by decide

/-- R117: in an image of width 0 every task has count 0; the command succeeds. -/
theorem test_width_zero :
    ((List.range 2).map fun i => (taskOf ((yuvCommand true).plan vect (image 0 5) true).units 2 false i).count) = [0, 0] ∧
    after (started vect 6 (image 0 5) []) (fun t => t.status.toWord == 0x106 && t.mem == []) = true := by decide

/-- R117: an image of height 0 is legal whatever its stride, on both paths: the command succeeds and nothing is touched. -/
theorem test_height_zero :
    after (started plain 1 { image 5 0 with pbStride := 0 } []) (fun t => t.status.toWord == 0x006 && t.mem == []) = true ∧
    after (started vect 4 { image 5 0 with pbStride := 3 } []) (fun t => t.status.toWord == 0x106 && t.mem == []) = true := by decide

/-- R281 premise 2: the memory of the image disappears after the command's last access to it; no result is specified. -/
theorem test_unmapped_unread :
    after { started plain 1 (image 1 1) [] with sched := [.cfe 0, .cfe 0, .cfe 0, .host], hostQ := [.unmap ⟨0x100, 1⟩] } (fun t =>
      after t fun u =>
        match step u with
        | .refused .footprintDisappeared => true
        | _ => false) = true := by decide

/-- U7: a converter launch is refused when its destination overlaps its planes, in a pixel or in the padding of a row. -/
theorem test_overlap_refused :
    step (started plain 7 { image 1 1 with yBase := 0x103 } []) = .refused .destinationOverlapsPlanes ∧
    step (started plain 7 { image 1 1 with yBase := 0x107 } []) = .refused .destinationOverlapsPlanes := ⟨rfl, rfl⟩

/-! ### Witnesses: states and operands that meet the hypotheses of the obligations -/

theorem accepted_started (c : Cfg) (cmd : Word) (g : HostRegs) {m : Memory} (h : m.wf = true) : Accepted (started c cmd g m) :=
  ⟨rfl, rfl, rfl, rfl, rfl, h, rfl, by simp [started, State.reset]⟩

theorem launchable_started (i : Instr) {c : Cfg} {cmd : Word} {g : HostRegs} {m : Memory} (h1 : g.pbFormat = 1)
    (h2 : 4 * g.width ≤ g.stride ∧ g.base + g.height * g.stride ≤ 2 ^ 32) (h3 : c.scratchPixels = none) :
    Launchable i (started c cmd g m) := by
  refine ⟨h1, fun _ => h2.1, h2.2, fun _ n hn => ?_⟩
  have : c.scratchPixels = some n := hn
  simp [h3] at this

/-- Every byte of every pixel and of every plane sample is in memory. -/
theorem footprint_started (i : Instr) {c : Cfg} {cmd : Word} {g : HostRegs} {m : Memory} (hS : 4 * g.width ≤ g.stride)
    (h1 : ∀ p ∈ pixelCoords g, ∀ k < 4, admissible c (pixelAddr g p.1 p.2 + k) = true)
    (h2 : ∀ p ∈ pixelCoords g, ∀ a ∈ sampleAddrs g p.1 p.2, admissible c a = true) :
    FootprintIn i (started c cmd g m) := by
  have hpix : ∀ a, inPixels g a = true → admissible c a = true := by
    intro a ha
    by_contra hc
    have : OffImage g a := by
      intro x hx y hy k hk hak
      exact hc (hak ▸ h1 (x, y) (mem_pixelCoords.2 ⟨hx, hy⟩) k hk)
    rw [offImage_iff fun _ => hS] at this
    simp [this] at ha
  have hpl : ∀ a, inPlanes g a = true → admissible c a = true := by
    intro a ha
    obtain ⟨p, hp, hpa⟩ := List.any_eq_true.1 ha
    exact h2 p hp a (by simpa using hpa)
  intro a ha
  have hreg : (started c cmd g m).latch.regs = g := rfl
  have hcfg : (started c cmd g m).cfg = c := rfl
  rw [hreg, hcfg] at ha
  rw [hcfg]
  cases i <;>
    simp only [commandOf, grayCommand, negCommand, pointwiseCommand, blurCommand, sharpCommand, embossCommand, edgeCommand,
      filterCommand, yuvCommand, Bool.and_eq_true, Bool.or_eq_true] at ha
  case yuv2rgba => exact ha.elim (hpix a) (hpl a)
  case gray => exact hpix a ha
  case neg => exact hpix a ha
  all_goals exact hpix a ha.1

/-- The premises of a command on a `5 x 3` image, whose rows have one full group and a column after it in their interior. -/
theorem premises (i : Instr) (v : Bool) (b : BorderPolicy) (cmd : Word) :
    Accepted (started (cfgOf v b) cmd (image 5 3) []) ∧ Launchable i (started (cfgOf v b) cmd (image 5 3) []) ∧
    FootprintIn i (started (cfgOf v b) cmd (image 5 3) []) :=
  ⟨accepted_started _ _ _ rfl, launchable_started i rfl (by decide) rfl,
    footprint_started i (by decide) (by cases v <;> cases b <;> decide) (by cases v <;> cases b <;> decide)⟩

theorem blurParams_image (v : Bool) (b : BorderPolicy) : BlurParams (cfgOf v b) (image 5 3) :=
  ⟨⟨by decide, by cases v <;> cases b <;> decide⟩, by decide⟩

theorem kernel_exists (v : Bool) (b : BorderPolicy) :
    ∃ kern, gaussKernel (cfgOf v b) (image 5 3).blurRadius (image 5 3).sigma = some kern := by
  cases v <;> cases b <;> exact Option.isSome_iff_exists.1 (by decide)

theorem planesDisjoint_image : PlanesDisjoint (image 5 3) := (planesDisjoint_iff _).2 (by decide)

/-- Premises of `IllegalWordsFailClosed`: one word for each of the four illegalities. -/
theorem test_witness_IllegalWordsFailClosed :
    Accepted (started plain 0 (image 1 1) []) ∧ IllegalWord 0x00#32 ∧ IllegalWord 0x08#32 ∧ IllegalWord 0x0F#32 ∧
    IllegalWord 0x21#32 ∧ IllegalWord 0x80000001#32 ∧ IllegalWord 0x11#32 ∧ IllegalWord 0x16#32 :=
  ⟨accepted_started _ _ _ rfl, .inl (by decide), .inr (.inl (by decide)), .inr (.inl (by decide)),
    .inr (.inr (.inl (by decide))), .inr (.inr (.inl (by decide))), .inr (.inr (.inr (by decide))), .inr (.inr (.inr (by decide)))⟩

theorem test_witness_StepRunsTheLatchedCommand :
    (started plain 1 (image 1 1) []).phase.active = true ∧ hostTurnNext (started plain 1 (image 1 1) []) = false ∧
    decode (started plain 1 (image 1 1) []).latch.cmd = some .gray ∧ decode (BitVec.ofNat 32 0x17) = some (.yuv2rgba true) := by
  decide

/-- The resting machine meets the invariant, whatever the host will do. -/
theorem inv_resting (q : List HostMove) : Inv (resting q) := by
  constructor <;> simp [KernelShape, resting, State.reset, Status.cleared, Memory.wf, Phase.active]

theorem test_witness_RegistersHoldWhatIsWritten :
    Inv (resting [.wr 0x10 7]) ∧ (resting [.wr 0x10 7]).phase = .idle ∧ 0x10 ∈ readWriteOffsets ∧
    Inv (resting [.wr 0x4C 7]) ∧ 0x4C ∈ readWriteOffsets := ⟨inv_resting _, rfl, by decide, inv_resting _, by decide⟩

/-- A running command during which the host has the turn. -/
def polled (q : List HostMove) : State := { started plain 1 (image 1 1) [] with hostQ := q, sched := [.host] }

theorem test_witness_ReservedAndReadOnlyRegisters :
    ((0x0C ∉ readWriteOffsets ∧ 0x50 ∉ readWriteOffsets ∧ 0x2C ∉ readWriteOffsets) ∧
      HostMovesNext (resting [.wr 0x04 1]) ∧ 0x04 ∉ readWriteOffsets) ∧
    (HostMovesNext (polled [.wr 0x10 1]) ∧ (polled [.wr 0x10 1]).status.busy = true) ∧
    (1 ≤ 7 ∧ 10 ≤ 31) ∧ (0x20#32).extractLsb' 5 27 ≠ 0 ∧
    ((0x11#32).getLsbD 4 = true ∧ ((0x11#32).extractLsb' 0 4).toNat = 1) ∧
    ((0x16#32).getLsbD 4 = true ∧ ((0x16#32).extractLsb' 0 4).toNat = 6) :=
  ⟨⟨by decide, .inl rfl, by decide⟩, ⟨.inr rfl, rfl⟩, by decide, by decide, by decide, by decide⟩

theorem test_witness_DoorbellIsAccepted :
    Inv (resting [.wr 0x00 0xFFFFFFFF]) ∧ (resting [.wr 0x00 0xFFFFFFFF]).phase = .idle ∧
    ∀ u ∈ (resting [.wr 0x00 0xFFFFFFFF]).sched, u ≠ .host := ⟨inv_resting _, rfl, by decide⟩

/-- The dead engine. -/
def dead (q : List HostMove) : State :=
  { started plain 1 (image 1 1) [] with
    phase := .halted
    status := ⟨true, false, false, true, .fatalConcurrencyFault, false, false⟩
    hostQ := q }

theorem inv_dead (q : List HostMove) : Inv (dead q) := by
  constructor <;> simp [KernelShape, dead, started, State.reset, Memory.wf, Phase.active]

theorem test_witness_BlockWhileBusyOrFatal :
    (HostMovesNext (polled [.wr 0x00 1]) ∧ (polled [.wr 0x00 1]).status.busy = true) ∧
    (HostMovesNext (dead [.rd 0x04]) ∧ (dead [.rd 0x04]).status.fatal = true) := ⟨⟨.inr rfl, rfl⟩, .inl rfl, rfl⟩

theorem test_witness_OnlyTheDoorbellStartsACommand :
    Inv (resting [.wr 0x00 1]) ∧ (resting [.wr 0x00 1]).phase = .idle ∧
    ∃ t, step (resting [.wr 0x00 1]) = .next t ∧ t.phase ≠ .idle :=
  ⟨inv_resting _, rfl, _, rfl, by decide⟩

theorem test_witness_CapLayoutAndConstancy :
    (∃ t, step (resting [.rd 0x08]) = .next t) ∧ HostMovesNext (resting [.rd 0x08]) := ⟨⟨_, rfl⟩, .inl rfl⟩

theorem test_witness_ResultStaysReadable :
    Inv (resting [.wait]) ∧ (resting [.wait]).phase = .idle ∧ (∃ t, step (resting [.wait]) = .next t) ∧
    (∀ c q, (resting [.wait]).hostQ ≠ .wr 0x00 c :: q) ∧ (∀ q, (resting [.wait]).hostQ ≠ .reset :: q) :=
  ⟨inv_resting _, rfl, ⟨_, rfl⟩, by simp [resting], by simp [resting]⟩

theorem test_witness_ResetValues : (dead [.reset]).phase.active = false ∧ (dead [.reset]).hostQ = [.reset] := by decide

/-- A running `GRAY` on a `1 x 1` image meets the invariant. -/
theorem inv_polled (q : List HostMove) : Inv (polled q) := by
  constructor <;> simp [KernelShape, polled, started, State.reset, Memory.wf, Phase.active, Status.running]

theorem checksPass_started (i : Instr) {c : Cfg} {cmd : Word} {g : HostRegs} {m : Memory} (hi : i ≠ .blur)
    (h : Launchable i (started c cmd g m)) : ChecksPass i (started c cmd g m) := ⟨h, fun hb => absurd hb hi⟩

/-- The `1 x 1` image, all zeros, that `GRAY` would write as `(0,0,0,0)`: byte 0x100 is in the footprint, byte 0x104 is not. -/
theorem wouldWrite_polled (q : List HostMove) :
    ChecksPass .gray (polled q) ∧ WouldWrite .gray (polled q) 0x100 0 ∧ ¬ InWriteFootprint .gray (polled q) 0x104 := by
  refine ⟨⟨⟨rfl, fun _ => (by decide : 4 * (image 1 1).width ≤ (image 1 1).stride),
    (by decide : (image 1 1).base + (image 1 1).height * (image 1 1).stride ≤ 2 ^ 32), nofun⟩, nofun⟩, ?_, ?_⟩
  · exact ⟨0, by show 0 < 1; decide, 0, by show 0 < 1; decide, ⟨0, 0, 0, 0⟩,
      (by decide : grayCommand.newPixel plain (image 1 1) false [] 0 0 = some ⟨0, 0, 0, 0⟩),
      .inl (by decide : ((0x100, 0) : Nat × Byte) = (pixelAddr (image 1 1) 0 0, 0))⟩
  · rintro ⟨-, x, hx, y, hy, -, k, hk, h⟩
    have hx0 : x = 0 := by
      have : x < 1 := hx
      omega
    have hy0 : y = 0 := by
      have : y < 1 := hy
      omega
    subst hx0 hy0
    have hb : pixelAddr (polled q).latch.regs 0 0 = 0x100 := (by decide : pixelAddr (image 1 1) 0 0 = 0x100)
    omega

/-- A `GRAY` in `VALIDATE` that is going to fail closed, its format being 0, with the host's turn. -/
def failing (q : List HostMove) : State :=
  { started plain 1 { image 1 1 with pbFormat := 0 } [] with hostQ := q, sched := [.host] }

theorem inv_failing (q : List HostMove) : Inv (failing q) := by
  constructor <;> simp [KernelShape, failing, started, State.reset, Memory.wf, Phase.active, Status.running]

theorem not_checksPass_failing (i : Instr) (q : List HostMove) : ¬ ChecksPass i (failing q) :=
  fun h => absurd (show (0 : Word) = 1 from h.1.1) (by decide)

theorem test_witness_ResetEvent :
    (Inv (polled [.reset]) ∧ HostMovesNext (polled [.reset]) ∧ (polled [.reset]).hostQ = [.reset] ∧
      (polled [.reset]).phase.active = true ∧ decode (polled [.reset]).latch.cmd = some .gray ∧
      ChecksPass .gray (polled [.reset]) ∧ admissible (polled [.reset]).cfg 0x100 = true ∧
      WouldWrite .gray (polled [.reset]) 0x100 0 ∧ ¬ InWriteFootprint .gray (polled [.reset]) 0x104) ∧
    (Inv (failing [.reset]) ∧ HostMovesNext (failing [.reset]) ∧ (failing [.reset]).phase.active = true ∧
      ¬ InWriteFootprint .gray (failing [.reset]) 0x100) ∧
    (Inv (dead [.wait]) ∧ (dead [.wait]).phase = .halted ∧ ∃ t, step (dead [.wait]) = .next t) :=
  ⟨⟨inv_polled _, .inr rfl, rfl, rfl, rfl, (wouldWrite_polled _).1, by decide, (wouldWrite_polled _).2.1, (wouldWrite_polled _).2.2⟩,
    ⟨inv_failing _, .inr rfl, rfl, fun h => not_checksPass_failing _ _ h.1⟩, inv_dead _, rfl, _, rfl⟩

theorem test_witness_ResetDescriptorFailsClosed :
    (Accepted (started plain 1 HostRegs.zero []) ∧ (started plain 1 HostRegs.zero []).latch.regs = State.reset.regs) ∧
    (Accepted (started plain 3 { image 1 1 with sigma := 0 } []) ∧
      Launchable .blur (started plain 3 { image 1 1 with sigma := 0 } []) ∧
      (started plain 3 { image 1 1 with sigma := 0 } []).latch.regs.sigma = State.reset.regs.sigma) :=
  ⟨⟨accepted_started _ _ _ rfl, rfl⟩, accepted_started _ _ _ rfl, launchable_started _ rfl (by decide) rfl, rfl⟩

/-- A machine whose scratch store holds four pixels. -/
def smallScratch : Cfg := { plain with scratchPixels := some 4 }

/-- Each check of `VALIDATE` fails somewhere and all pass somewhere, at the boundaries: a stride one below four times the width, a buffer that ends
one byte past the address space, five pixels for a scratch store of four, a radius one above `R_MAX`, a radius of -1. -/
theorem test_witness_ValidationInOrder :
    Accepted (started plain 0 (image 1 1) []) ∧ decode 0#32 = none ∧ decode 1#32 = some .gray ∧ decode 3#32 = some .blur ∧
    decode 4#32 = some .sharp ∧ { image 1 1 with pbFormat := 2 }.pbFormat ≠ 1 ∧
    ¬ DescriptorFits .gray plain { image 2 1 with pbStride := 7 } ∧
    ¬ DescriptorFits .gray plain { image 2 1 with pbBase := 0xFFFFFFF5 } ∧
    DescriptorFits .gray plain { image 2 1 with pbBase := 0xFFFFFFF4 } ∧
    ¬ DescriptorFits .sharp smallScratch (image 5 1) ∧ DescriptorFits .sharp smallScratch (image 4 1) ∧
    DescriptorFits .gray smallScratch (image 5 1) ∧
    ¬ BlurParams plain { image 1 1 with radius := 9 } ∧ BlurParams plain { image 1 1 with radius := 8 } ∧
    ¬ BlurParams plain { image 1 1 with radius := 0xFFFFFFFF } ∧ ¬ BlurParams plain { image 1 1 with sigma := 0x7F800000 } ∧
    BlurParams plain { image 1 1 with sigma := 0x7F7FFFFF } ∧ BlurParams plain { image 1 1 with sigma := 1 } ∧
    Launchable .blur (started plain 3 (image 1 1) []) := by
  have hn : ∀ g, ScratchFits .gray plain g := by
    intro g h
    cases h
  have hg : ScratchFits .gray smallScratch (image 5 1) := by
    intro h
    cases h
  have hs : ScratchFits .sharp smallScratch (image 4 1) := by
    intro _ n hn
    have : n = 4 := by simpa [smallScratch] using hn.symm
    subst this
    decide
  refine ⟨accepted_started _ _ _ rfl, by decide, by decide, by decide, by decide, by decide,
    fun h => absurd h.1 (by decide), fun h => absurd h.2.1 (by decide), ⟨by decide, by decide, hn _⟩,
    fun h => absurd (h.2.2 rfl 4 rfl) (by decide), ⟨by decide, by decide, hs⟩, ⟨by decide, by decide, hg⟩, ?_⟩
  refine ⟨fun h => absurd h.1.2 (by decide), ⟨⟨by decide, by decide⟩, by decide⟩, fun h => absurd h.1.1 (by decide),
    fun h => absurd h.2.2 (by decide), ⟨⟨by decide, by decide⟩, by decide⟩, ⟨⟨by decide, by decide⟩, by decide⟩,
    launchable_started _ rfl (by decide) rfl⟩

/-- A kernel with an infinite sum: the spec's `sigma = 1e-20`, at radius 0. -/
def refusedKernel : HostRegs := { image 1 1 with radius := 0, sigma := 0x1E3CE508 }

theorem test_witness_BadParameterIsBlurs :
    (Accepted (started plain 3 { image 1 1 with radius := 9 } []) ∧
      Launchable .blur (started plain 3 { image 1 1 with radius := 9 } []) ∧ ¬ BlurParams plain { image 1 1 with radius := 9 }) ∧
    (Accepted (started vect 3 refusedKernel []) ∧ Launchable .blur (started vect 3 refusedKernel []) ∧
      BlurParams vect refusedKernel ∧
      fIsFinite ((gaussWeights vect refusedKernel.blurRadius refusedKernel.sigma).foldl fadd 0x00000000#32) = false) ∧
    (Accepted (started plain 6 (image 1 1) []) ∧ ∃ t, exec .edge (started plain 6 (image 1 1) []) = .next t) ∧
    (Accepted (started vect 0 (image 1 1) []) ∧
      ∀ i, decode (started vect 0 (image 1 1) []).latch.cmd = some i → ¬ (Launchable i (started vect 0 (image 1 1) []) ∧
        (i = .blur → BlurParams (started vect 0 (image 1 1) []).cfg (started vect 0 (image 1 1) []).latch.regs))) :=
  ⟨⟨accepted_started _ _ _ rfl, launchable_started _ rfl (by decide) rfl, fun h => absurd h.1.2 (by decide)⟩,
    ⟨accepted_started _ _ _ rfl, launchable_started _ rfl (by decide) rfl, ⟨⟨by decide, by decide⟩, by decide⟩, by decide⟩,
    ⟨accepted_started _ _ _ rfl, _, rfl⟩, accepted_started _ _ _ rfl,
    fun i h => absurd ((show decode 0#32 = none by decide).symm.trans h) (by simp)⟩

/-- The engine in `PREPARE`. -/
def preparing (c : Cfg) (cmd : Word) (g : HostRegs) : State := { started c cmd g [] with phase := .prepare }

theorem test_witness_PathSelection : (preparing vect 0x17 (image 2 2)).phase = .prepare := rfl

theorem test_witness_Preparation :
    (preparing vect 3 (image 5 3)).phase = .prepare ∧
    (∃ kern, gaussKernel vect (image 5 3).blurRadius (image 5 3).sigma = some kern) ∧
    gaussKernel vect refusedKernel.blurRadius refusedKernel.sigma = none :=
  ⟨rfl, kernel_exists true .zero, Option.isNone_iff_eq_none.1 (by decide)⟩

/-- Seven units over three workers, and two units over four. -/
theorem test_witness_TaskPartition :
    (taskOf 7 3 true 0 = ⟨0, 0, 3, false⟩ ∧ taskOf 7 3 true 1 = ⟨1, 3, 2, false⟩ ∧ taskOf 7 3 true 2 = ⟨2, 5, 2, true⟩) ∧
    (2 < 4 ∧ taskOf 2 4 false 2 = ⟨2, 2, 0, false⟩ ∧ taskOf 2 4 false 3 = ⟨3, 2, 0, false⟩) := by decide

/-- A pool of two workers on a `2 x 1` image under `GRAY`: one full group, worker 0's; worker 1 has the empty task. -/
def pool (phase : Phase) (workers : List Worker) (queue : List Task) (stop : Bool) (enqueued : Nat) : State :=
  { started vect 1 (image 2 1) [] with
    phase := phase
    status := ⟨true, false, false, false, .none, true, false⟩
    cursor := ⟨enqueued, 0⟩
    workers := workers
    queue := queue
    stop := stop }

def task0 : Task := ⟨0, 0, 1, false⟩
def task1 : Task := ⟨1, 1, 0, true⟩

theorem test_witness_WorkerLoop :
    ((pool .fork [.waiting, .waiting] [task0] false 1).workers.getD 0 .absent = .waiting) ∧
    ((pool .run [.waiting, .waiting] [] true 2).workers.getD 1 .absent = .waiting) ∧
    (pool .fork [.waiting, .waiting] [] false 0).queue = [] ∧
    (∃ it m o, itemAt (grayCommand.plan vect (image 2 1) true) task0 ⟨0, 0⟩ = some it ∧
      grayCommand.runItem vect (image 2 1) ⟨0, [0]⟩ it [] [] = .ok (m, o)) ∧
    (pool .run [.running task0 ⟨0, 0⟩, .exited] [] true 2).workers.getD 0 .absent = .running task0 ⟨0, 0⟩ ∧
    itemAt (grayCommand.plan vect (image 2 1) true) task0 ⟨1, 0⟩ = none ∧
    (pool .run [.running task0 ⟨0, 0⟩, .exited] [] true 2).workers.getD 1 .absent = .exited :=
  ⟨rfl, rfl, rfl, ⟨_, _, _, rfl, rfl⟩, rfl, by decide, rfl⟩

theorem past_pool {phase : Phase} {workers : List Worker} {queue : List Task} {stop : Bool} {n : Nat}
    (hp : phase = .fork ∨ phase = .run) (hq : ∀ t ∈ queue, t = task0 ∨ t = task1)
    (hw : ∀ t cur, Worker.running t cur ∈ workers → t = task0 ∨ t = task1) :
    PastValidation (pool phase workers queue stop n) .gray := by
  have ht : ∀ t, t = task0 ∨ t = task1 → IsTaskOf .gray (pool phase workers queue stop n) t := by
    rintro t (rfl | rfl)
    · exact ⟨0, by show 0 < 2; decide, (by decide : task0 = taskOf (grayCommand.plan vect (image 2 1) true).units 2 true 0)⟩
    · exact ⟨1, by show 1 < 2; decide, (by decide : task1 = taskOf (grayCommand.plan vect (image 2 1) true).units 2 true 1)⟩
  refine ⟨(by decide : decode 1#32 = some .gray), (by decide : firstFailure grayCommand vect (image 2 1) = none), fun _ => ⟨rfl, rfl⟩,
    ?_, fun _ => rfl, ?_, fun t h => ht t (hq t h), fun t cur h => ht t (hw t cur h)⟩
  · intro h
    have h : phase = .scalar := h
    subst h
    rcases hp with h | h <;> cases h
  · intro h
    have h : phase = .copyBack := h
    subst h
    rcases hp with h | h <;> cases h

theorem test_witness_PoolLifeCycle :
    Inv (pool .fork [] [] false 0) ∧ Inv (pool .fork [.waiting, .waiting] [task0] false 1) ∧
    Inv (pool .fork [.waiting, .waiting] [task0, task1] false 2) ∧ Inv (pool .run [.exited, .exited] [] true 2) ∧
    (pool .fork [.waiting, .waiting] [task0] false 1).cursor.unit < nWorkers vect ∧
    (pool .fork [.waiting, .waiting] [task0, task1] false 2).cursor.unit = nWorkers vect ∧
    ∀ w ∈ (pool .run [.exited, .exited] [] true 2).workers, w = .exited := by
  have h1 := past_pool (phase := .fork) (workers := []) (queue := []) (stop := false) (n := 0) (.inl rfl) (by simp) (by simp)
  have h2 := past_pool (phase := .fork) (workers := [.waiting, .waiting]) (queue := [task0]) (stop := false) (n := 1) (.inl rfl)
    (by simp) (by simp)
  have h3 := past_pool (phase := .fork) (workers := [.waiting, .waiting]) (queue := [task0, task1]) (stop := false) (n := 2)
    (.inl rfl) (by simp) (by simp)
  have h4 := past_pool (phase := .run) (workers := [.exited, .exited]) (queue := []) (stop := true) (n := 2) (.inr rfl)
    (by simp) (by simp)
  have hn : nWorkers vect = 2 := rfl
  refine ⟨?_, ?_, ?_, ?_, by decide, rfl, by simp [pool]⟩
  · constructor <;> first | exact fun _ _ => ⟨_, h1⟩ | simp [KernelShape, pool, started, State.reset, Memory.wf, Phase.active, hn]
  · constructor <;> first | exact fun _ _ => ⟨_, h2⟩ | simp [KernelShape, pool, started, State.reset, Memory.wf, Phase.active, hn]
  · constructor <;> first | exact fun _ _ => ⟨_, h3⟩ | simp [KernelShape, pool, started, State.reset, Memory.wf, Phase.active, hn]
  · constructor <;> first | exact fun _ _ => ⟨_, h4⟩ | simp [KernelShape, pool, started, State.reset, Memory.wf, Phase.active, hn]

/-- Premises of `GrayResult` and `NegResult`, on both paths; a pixel, and an address that is padding. -/
theorem test_witness_PointwiseResults (i : Instr) (_hi : i = .gray ∨ i = .neg) :
    (∃ s, Accepted s ∧ Launchable i s ∧ FootprintIn i s ∧ wide s.cfg = true) ∧
    (∃ s, Accepted s ∧ Launchable i s ∧ FootprintIn i s ∧ wide s.cfg = false) ∧
    (4 < (image 5 3).width ∧ 2 < (image 5 3).height) ∧ OffImage (image 5 3) 0x114 :=
  ⟨⟨_, (premises i true .zero 1).1, (premises i true .zero 1).2.1, (premises i true .zero 1).2.2, by decide⟩,
    ⟨_, (premises i false .zero 1).1, (premises i false .zero 1).2.1, (premises i false .zero 1).2.2, by decide⟩,
    by decide, (offImage_iff (by decide) _).2 (by decide)⟩

theorem test_witness_GrayResult : ∃ s, Accepted s ∧ Launchable .gray s ∧ FootprintIn .gray s :=
  ⟨_, premises .gray true .zero 1⟩
theorem test_witness_NegResult : ∃ s, Accepted s ∧ Launchable .neg s ∧ FootprintIn .neg s :=
  ⟨_, premises .neg true .zero 2⟩

/-- The interior of the `5 x 3` image is columns 1 to 3 of row 1; columns 1 and 2 are a full group on the vector path. -/
theorem interior_image :
    IsInterior (image 5 3) 1 1 1 ∧ IsInterior (image 5 3) 1 3 1 ∧ ¬ IsInterior (image 5 3) 1 0 1 ∧ ¬ IsInterior (image 5 3) 1 4 1 ∧
    InFullGroup vect (image 5 3) 1 2 ∧ ¬ InFullGroup vect (image 5 3) 1 3 ∧ ¬ InFullGroup plain (image 5 3) 1 1 := by
  unfold IsInterior InFullGroup
  decide

theorem test_witness_BlurResult :
    ∃ s kern, Accepted s ∧ Launchable .blur s ∧ BlurParams s.cfg s.latch.regs ∧ FootprintIn .blur s ∧
      gaussKernel s.cfg s.latch.regs.blurRadius s.latch.regs.sigma = some kern ∧
      IsInterior s.latch.regs s.latch.regs.blurRadius 2 1 ∧ InFullGroup s.cfg s.latch.regs s.latch.regs.blurRadius 2 ∧
      IsInterior s.latch.regs s.latch.regs.blurRadius 3 1 ∧ ¬ InFullGroup s.cfg s.latch.regs s.latch.regs.blurRadius 3 := by
  obtain ⟨kern, hk⟩ := kernel_exists true .source
  obtain ⟨h1, h2, h3⟩ := premises .blur true .source 3
  exact ⟨_, kern, h1, h2, blurParams_image _ _, h3, hk, by unfold IsInterior; decide, by unfold InFullGroup; decide,
    by unfold IsInterior; decide, by unfold InFullGroup; decide⟩

theorem test_witness_SharpResult : ∃ s, Accepted s ∧ Launchable .sharp s ∧ FootprintIn .sharp s ∧ IsInterior s.latch.regs 1 2 1 ∧
    InFullGroup s.cfg s.latch.regs 1 2 ∧ ¬ InFullGroup s.cfg s.latch.regs 1 3 := by
  obtain ⟨h1, h2, h3⟩ := premises .sharp true .zero 4
  exact ⟨_, h1, h2, h3, by unfold IsInterior; decide, by unfold InFullGroup; decide, by unfold InFullGroup; decide⟩

theorem test_witness_EmbossResult : ∃ s, Accepted s ∧ Launchable .emboss s ∧ FootprintIn .emboss s ∧ IsInterior s.latch.regs 1 2 1 ∧
    InFullGroup s.cfg s.latch.regs 1 2 ∧ ¬ InFullGroup s.cfg s.latch.regs 1 3 := by
  obtain ⟨h1, h2, h3⟩ := premises .emboss true .zero 5
  exact ⟨_, h1, h2, h3, by unfold IsInterior; decide, by unfold InFullGroup; decide, by unfold InFullGroup; decide⟩

theorem test_witness_EdgeResult : ∃ s, Accepted s ∧ Launchable .edge s ∧ FootprintIn .edge s ∧ IsInterior s.latch.regs 1 2 1 ∧
    InFullGroup s.cfg s.latch.regs 1 2 ∧ ¬ InFullGroup s.cfg s.latch.regs 1 3 := by
  obtain ⟨h1, h2, h3⟩ := premises .edge true .zero 6
  exact ⟨_, h1, h2, h3, by unfold IsInterior; decide, by unfold InFullGroup; decide, by unfold InFullGroup; decide⟩

theorem test_witness_ConverterResult (hint : Bool) :
    ∃ s, Accepted s ∧ Launchable (.yuv2rgba hint) s ∧ FootprintIn (.yuv2rgba hint) s ∧ PlanesDisjoint s.latch.regs := by
  obtain ⟨h1, h2, h3⟩ := premises (.yuv2rgba hint) true .zero (encode (.yuv2rgba hint))
  exact ⟨_, h1, h2, h3, planesDisjoint_image⟩

/-- The luma plane is the last byte of the destination. -/
def overlapping : HostRegs := { image 1 1 with yBase := 0x103 }

theorem overlapping_not_disjoint : ¬ PlanesDisjoint overlapping := fun h =>
  h 0 (by decide) 0 (by decide) 0x103 (by decide) 0 (by decide) (by decide)

/-- The luma plane is the last padding byte of the destination's row; one byte further it is disjoint. -/
theorem padding_not_disjoint :
    ¬ PlanesDisjoint { image 1 1 with yBase := 0x107 } ∧ PlanesDisjoint { image 1 1 with yBase := 0x108 } :=
  ⟨fun h => h 0 (by decide) 0 (by decide) 0x107 (by decide) 0 (by decide) (by decide), (planesDisjoint_iff _).2 (by decide)⟩

/-- Refused; completing on disjoint planes; failing closed although the planes overlap. -/
theorem test_witness_OverlappingConverterIsRefused (hint : Bool) :
    (∃ s, ChecksPass (.yuv2rgba hint) s ∧ ¬ PlanesDisjoint s.latch.regs) ∧
    (∃ s, Accepted s ∧ ChecksPass (.yuv2rgba hint) s ∧ PlanesDisjoint s.latch.regs) ∧
    ∃ s, Accepted s ∧ ¬ ChecksPass (.yuv2rgba hint) s := by
  obtain ⟨h1, h2, -⟩ := premises (.yuv2rgba hint) true .zero (encode (.yuv2rgba hint))
  exact ⟨⟨started vect (encode (.yuv2rgba hint)) overlapping [],
      checksPass_started _ nofun (launchable_started _ rfl (by decide) rfl), overlapping_not_disjoint⟩,
    ⟨_, h1, checksPass_started _ nofun h2, planesDisjoint_image⟩,
    started plain 7 { image 1 1 with pbFormat := 0 } [], accepted_started _ _ _ rfl,
    fun h => absurd (show (0 : Word) = 1 from h.1.1) (by decide)⟩

/-- Two pixels at the end of memory: 0xFFF is admissible, 0x1000 is not (program P6 in small). -/
def atTheEnd : State := started plain 1 { image 2 1 with pbBase := 0xFFC } []

theorem test_witness_FatalFault :
    (Accepted atTheEnd ∧ ChecksPass .gray atTheEnd ∧ ¬ FootprintIn .gray atTheEnd ∧ WouldWrite .gray atTheEnd 0xFFC 0 ∧
      ¬ InWriteFootprint .gray atTheEnd 0xFFB) ∧
    (∃ s, Accepted s ∧ ChecksPass .blur s ∧ ¬ FootprintIn .blur s) ∧
    (∃ s, Accepted s ∧ ChecksPass (.yuv2rgba true) s ∧ PlanesDisjoint s.latch.regs ∧ ¬ FootprintIn (.yuv2rgba true) s) := by
  refine ⟨⟨accepted_started _ _ _ rfl, checksPass_started _ nofun (launchable_started _ rfl (by decide) rfl),
    fun h => absurd (h 0x1000 (by decide)) (by decide), ?_, ?_⟩, ?_, ?_⟩
  · exact ⟨0, by decide, 0, by decide, ⟨0, 0, 0, 0⟩,
      (by decide : grayCommand.newPixel plain { image 2 1 with pbBase := 0xFFC } false [] 0 0 = some ⟨0, 0, 0, 0⟩), .inl (by decide)⟩
  · rintro ⟨-, x, -, y, -, -, k, -, h⟩
    have hb : pixelAddr atTheEnd.latch.regs x y = 0xFFC + y * 12 + 4 * x := rfl
    omega
  · obtain ⟨kern, hk⟩ := kernel_exists false .zero
    exact ⟨started plain 3 { image 5 3 with pbBase := 0xFFC } [], accepted_started _ _ _ rfl,
      ⟨launchable_started _ rfl (by decide) rfl, fun _ => ⟨blurParams_image _ _, fun h => nomatch h.symm.trans hk⟩⟩,
      fun h => absurd (h 0x1000 (by decide)) (by decide)⟩
  · exact ⟨started plain 0x17 { image 1 1 with yBase := 0x1000 } [], accepted_started _ _ _ rfl,
      checksPass_started _ nofun (launchable_started _ rfl (by decide) rfl), (planesDisjoint_iff _).2 (by decide),
      fun h => absurd (h 0x1000 (by decide)) (by decide)⟩

/-- `GRAY` in `SCALAR`, its cursor at the pixel that is not in memory. -/
def faultingScalar : State := { atTheEnd with phase := .scalar, cursor := ⟨1, 0⟩ }

/-- `SHARP` in `COPYBACK` at the same pixel. -/
def faultingCopyBack : State :=
  { started plain 4 { image 2 1 with pbBase := 0xFFC } [] with
    phase := .copyBack
    cursor := ⟨0, 1⟩
    out := List.replicate 2 ⟨⟨0, 0, 0, 0⟩, false⟩ }

theorem past_faultingScalar : PastValidation faultingScalar .gray :=
  ⟨by decide, by decide, fun _ => ⟨rfl, rfl⟩, fun _ => rfl, by simp [faultingScalar], by simp [faultingScalar],
    fun _ h => absurd h List.not_mem_nil, fun _ _ h => absurd h List.not_mem_nil⟩

theorem past_faultingCopyBack : PastValidation faultingCopyBack .sharp :=
  ⟨by decide, by decide, fun _ => ⟨rfl, rfl⟩, by simp [faultingCopyBack], by simp [faultingCopyBack], fun _ => rfl,
    fun _ h => absurd h List.not_mem_nil, fun _ _ h => absurd h List.not_mem_nil⟩

theorem test_witness_AccessFaultHalts :
    (Inv faultingScalar ∧ faultingScalar.phase.active = true ∧ PastValidation faultingScalar .gray ∧
      ∃ it f, (commandOf .gray).runItem faultingScalar.cfg faultingScalar.latch.regs faultingScalar.kernel it faultingScalar.mem
        faultingScalar.out = .error f) ∧
    (Inv faultingCopyBack ∧ faultingCopyBack.phase.active = true ∧ PastValidation faultingCopyBack .sharp ∧
      faultingCopyBack.phase = .copyBack ∧ faultingCopyBack.cursor.item < faultingCopyBack.latch.regs.width ∧
      faultingCopyBack.cursor.unit < faultingCopyBack.latch.regs.height ∧
      ∃ px set f, faultingCopyBack.out.getD 1 ⟨⟨0, 0, 0, 0⟩, false⟩ = ⟨px, set⟩ ∧
        (faultingCopyBack.cfg.borderPolicy = .zero ∨ set = true) ∧
        pixWrite faultingCopyBack.cfg faultingCopyBack.latch.regs faultingCopyBack.mem 1 0 px = .error f) := by
  refine ⟨⟨?_, rfl, past_faultingScalar, ⟨false, [(1, 0)]⟩, ⟨0x1000⟩, rfl⟩,
    ⟨?_, rfl, past_faultingCopyBack, rfl, by decide, by decide, _, _, ⟨0x1000⟩, rfl, .inl rfl, rfl⟩⟩
  · constructor <;> first | exact fun _ _ => ⟨_, past_faultingScalar⟩ |
      simp [KernelShape, faultingScalar, atTheEnd, started, State.reset, Memory.wf, Phase.active, Status.running]
  · constructor <;> first | exact fun _ _ => ⟨_, past_faultingCopyBack⟩ |
      simp [KernelShape, faultingCopyBack, started, State.reset, Memory.wf, Phase.active, Status.running]

theorem test_witness_ThreeOutcomes :
    Accepted (started plain 3 (image 5 3) []) ∧ (Accepted (started plain 7 (image 5 3) []) ∧ PlanesDisjoint (image 5 3)) :=
  ⟨accepted_started _ _ _ rfl, accepted_started _ _ _ rfl, planesDisjoint_image⟩

/-- Two schedules, and different private stores and registers. -/
theorem test_witness_ScheduleIndependence :
    ∃ s s' t t', Accepted s ∧ Accepted s' ∧ s'.mem = s.mem ∧ s'.latch = s.latch ∧ s'.cfg = s.cfg ∧ s'.sched ≠ s.sched ∧
      s'.kernel ≠ s.kernel ∧ FootprintIn (.yuv2rgba true) s ∧ PlanesDisjoint s.latch.regs ∧
      exec (.yuv2rgba true) s = .next t ∧ exec (.yuv2rgba true) s' = .next t' := by
  obtain ⟨h1, -, h3⟩ := premises (.yuv2rgba true) true .zero 0x17
  exact ⟨_, { started vect 0x17 (image 5 3) [] with sched := [.cfe 1, .cfe 0, .cfe 2], kernel := ⟨0, []⟩ }, _, _, h1,
    ⟨rfl, rfl, rfl, rfl, rfl, rfl, rfl, by simp⟩, rfl, rfl, rfl, by simp [started, State.reset],
    by simp [started, State.reset], h3, planesDisjoint_image, rfl, rfl⟩

/-- Registers that differ outside the operands of `GRAY`. -/
theorem test_witness_OperandRegistersOnly :
    SameOperands .gray (image 1 1) { image 1 1 with radius := 5, sigma := 0, yBase := 1, vPStride := 9 } ∧
    image 1 1 ≠ { image 1 1 with radius := 5, sigma := 0, yBase := 1, vPStride := 9 } ∧
    ∃ t, exec .gray (started plain 1 (image 1 1) []) = .next t :=
  ⟨⟨⟨rfl, rfl, rfl, rfl, rfl⟩, nofun, nofun⟩, by decide, _, rfl⟩

theorem test_witness_InvariantKept : Inv (polled [.reset]) ∧ ∃ t, step (polled [.reset]) = .next t := ⟨inv_polled _, _, rfl⟩

/-- One pixel, run twice: the state after the first run starts the second. -/
theorem test_witness_PointwiseConsequences :
    ∃ s t s' t', Accepted s ∧ Launchable .neg s ∧ FootprintIn .neg s ∧ exec .neg s = .next t ∧ Accepted s' ∧ s'.mem = t.mem ∧
      s'.latch.regs = s.latch.regs ∧ s'.cfg = s.cfg ∧ exec .neg s' = .next t' :=
  ⟨started plain 2 (image 1 1) [], _, started plain 2 (image 1 1) (runCommand negCommand (started plain 2 (image 1 1) [])).mem, _,
    accepted_started _ _ _ rfl, launchable_started _ rfl (by decide) rfl, footprint_started _ (by decide) (by decide) (by decide),
    rfl, accepted_started _ _ _ (by decide), rfl, rfl, rfl, rfl⟩

/-- A pair of columns with one luma, over grey chroma; the second run has another destination, path and configuration. -/
theorem test_witness_ConverterConsequences :
    (∃ s' t', Accepted s' ∧ Launchable (.yuv2rgba true) s' ∧ FootprintIn (.yuv2rgba true) s' ∧ PlanesDisjoint s'.latch.regs ∧
      s'.latch.regs.pbBase ≠ (image 2 1).pbBase ∧ s'.latch.regs.pbWidth = (image 2 1).pbWidth ∧
      (∀ x y, sampleAddrs s'.latch.regs x y = sampleAddrs (image 2 1) x y) ∧ exec (.yuv2rgba true) s' = .next t') ∧
    ∃ s t, Accepted s ∧ Launchable (.yuv2rgba false) s ∧ FootprintIn (.yuv2rgba false) s ∧ PlanesDisjoint s.latch.regs ∧
      exec (.yuv2rgba false) s = .next t ∧ 2 * 0 + 1 < s.latch.regs.width ∧
      s.mem.read (addrY s.latch.regs 0 0) = s.mem.read (addrY s.latch.regs 1 0) ∧
      s.mem.read (addrU s.latch.regs 0 0) = 128 ∧ s.mem.read (addrV s.latch.regs 0 0) = 128 :=
  ⟨⟨started plain 0x17 { image 2 1 with pbBase := 0x200 } [(0x800, 77), (0x801, 77), (0x900, 128), (0xA00, 128)], _,
    accepted_started _ _ _ (by decide), launchable_started _ rfl (by decide) rfl,
    footprint_started _ (by decide) (by decide) (by decide), (planesDisjoint_iff _).2 (by decide), by decide, rfl,
    fun _ _ => rfl, rfl⟩,
    started vect 7 (image 2 1) [(0x800, 77), (0x801, 77), (0x900, 128), (0xA00, 128)], _, accepted_started _ _ _ (by decide),
    launchable_started _ rfl (by decide) rfl, footprint_started _ (by decide) (by decide) (by decide),
    (planesDisjoint_iff _).2 (by decide), rfl, by decide, by decide, by decide, by decide⟩

/-- For `BLUR` on a `5 x 3` image, and for the filters with fixed kernels. -/
theorem test_witness_FilterConsequences (i : Instr) (hi : isNeighbourhood i = true) :
    ∃ s t kern, Accepted s ∧ Launchable i s ∧ FootprintIn i s ∧
      (i = .blur → BlurParams s.cfg s.latch.regs ∧ gaussKernel s.cfg s.latch.regs.blurRadius s.latch.regs.sigma = some kern) ∧
      exec i s = .next t ∧ IsInterior s.latch.regs (radiusOf i s.latch.regs) 2 1 ∧
      ¬ InFullGroup s.cfg s.latch.regs (radiusOf i s.latch.regs) 3 := by
  obtain ⟨kern, hk⟩ := kernel_exists true .source
  obtain ⟨h1, h2, h3⟩ := premises i true .source (encode i)
  refine ⟨_, _, kern, h1, h2, h3, fun _ => ⟨blurParams_image _ _, hk⟩, exec_of_accepted h1 (.inl (overlaps_of_not_yuv (by rintro hint rfl; cases hi) _)), ?_⟩
  cases i <;> first | (exact Bool.noConfusion hi) | (unfold IsInterior InFullGroup; decide)

theorem test_witness_BlurOfRadiusZeroIsTheIdentity :
    ∃ s kern, Accepted s ∧ Launchable .blur s ∧ BlurParams s.cfg s.latch.regs ∧ FootprintIn .blur s ∧ s.latch.regs.radius = 0 ∧
      gaussKernel s.cfg 0 s.latch.regs.sigma = some kern := by
  obtain ⟨kern, hk⟩ := Option.isSome_iff_exists.1 (by decide : (gaussKernel vect 0 0x3F800000#32).isSome = true)
  exact ⟨started vect 3 { image 5 3 with radius := 0 } [], kern, accepted_started _ _ _ rfl, launchable_started _ rfl (by decide) rfl,
    ⟨⟨by decide, by decide⟩, by decide⟩, footprint_started _ (by decide) (by decide) (by decide), rfl, hk⟩

/-- The clauses of `quant` at their boundaries: a NaN of each sign, `-0.0`, `+0.0`, 255.0, `+inf`, the value below 255.0, and 1.0. -/
theorem test_witness_QuantDropsTheFraction :
    unpack 0x7FC00000#32 = .nan ∧ unpack 0xFFC00000#32 = .nan ∧ (0x80000000#32).getLsbD 31 = true ∧
    (unpack 0x437F0000#32 ≠ .nan ∧ (0x437F0000#32).getLsbD 31 = false ∧ (i2f 255).toNat ≤ (0x437F0000#32).toNat) ∧
    (unpack 0x7F800000#32 ≠ .nan ∧ (i2f 255).toNat ≤ (0x7F800000#32).toNat) ∧
    ((i2f (254 : Nat)).toNat ≤ (0x437EFFFF#32).toNat ∧ (0x437EFFFF#32).toNat < (i2f (254 + 1 : Nat)).toNat) ∧
    ((i2f (1 : Nat)).toNat ≤ (0x3F800000#32).toNat ∧ (0x3F800000#32).toNat < (i2f (1 + 1 : Nat)).toNat) := by decide

theorem test_witness_ExponentialProperties :
    (fIsFinite 0xBF800000#32 = true ∧ (0xBF800000#32).getLsbD 31 = true) ∧
    (fIsFinite 0x80000000#32 = true ∧ (0x80000000#32).getLsbD 31 = true) ∧
    (fIsFinite 0xFF7FFFFF#32 = true ∧ fIsFinite 0x7F7FFFFF#32 = true ∧ fLe 0xFF7FFFFF#32 0x7F7FFFFF#32 = true) ∧
    unpack 0x7FC00000#32 = .nan := by decide

/-- The function that is 1.0 everywhere. -/
theorem test_witness_ExponentialIsOpen :
    ∃ f : F32 → F32, f 0x00000000#32 = 0x3F800000#32 ∧ f 0x80000000#32 = 0x3F800000#32 ∧
      (∀ t, fIsFinite t = true → t.getLsbD 31 = true → (f t).toNat ≤ 0x3F800000 ∨ f t = 0x80000000#32) ∧
      (∀ t u, fIsFinite t = true → fIsFinite u = true → fLe t u = true → fLe (f t) (f u) = true) :=
  ⟨fun _ => 0x3F800000#32, rfl, rfl, fun _ _ _ => .inl (by decide : (0x3F800000#32).toNat ≤ 0x3F800000),
    fun _ _ _ _ _ => (by decide : fLe 0x3F800000#32 0x3F800000#32 = true)⟩

/-- R158: a table value `-0.0` at an operand below -104 stays; a table that breaks P3 (0.0 at -1.0) stands for the reference instance. -/
theorem test_fexp_table :
    fexp { plain with fexpTable := [(0xC3000000#32, 0x80000000#32)] } 0xC3000000#32 = 0x80000000#32 ∧
    fexp { plain with fexpTable := [(0xBF800000#32, 0x00000000#32)] } 0xBF800000#32 = fexp plain 0xBF800000#32 := by decide

theorem test_witness_VectorResultsWithinOne :
    sharpKernel.r ≠ 0 ∧ ([1, 2, 3, 4, 5, 6, 7, 8, 9] : List Byte).length = 9 ∧ (Kernel.mk 0 [0x3F800000#32]).r = 0 := by decide

/-- Corners of a `3 x 3` kernel lie at the same distance from the centre. -/
theorem test_witness_GaussianKernelShape :
    (∃ k, gaussKernel plain 1 0x3F800000#32 = some k) ∧ 0 < 2 * 1 + 1 ∧ 2 < 2 * 1 + 1 ∧
    (((0 : Nat) : Int) - (1 : Nat)) ^ 2 + (((0 : Nat) : Int) - (1 : Nat)) ^ 2 =
      (((2 : Nat) : Int) - (1 : Nat)) ^ 2 + (((2 : Nat) : Int) - (1 : Nat)) ^ 2 :=
  ⟨Option.isSome_iff_exists.1 (by decide), by decide, by decide, by decide⟩

/-- The window of R203's worked example: `gx = 80`, `gy = 0`, and the root is 80. -/
theorem test_witness_EdgeIsTheIntegerRoot :
    (let gx : Int := (30 + 2 * 30 + 30) - (10 + 2 * 10 + 10)
     let gy : Int := (10 + 2 * 20 + 30) - (10 + 2 * 20 + 30)
     (80 : Int) * 80 ≤ gx * gx + gy * gy ∧ gx * gx + gy * gy < (80 + 1) * (80 + 1)) := by decide

theorem test_witness_FootprintTable :
    4 * (image 5 3).width ≤ (image 5 3).stride ∧ (image 5 0).height = 0 ∧
    sharpCommand.footprint (cfgOf false .source) (image 5 3) 0x100 = true ∧
    sharpCommand.footprint (cfgOf false .source) (image 2 3) 0x100 = false ∧ grayCommand.footprint plain (image 5 3) 0x114 = false ∧
    (yuvCommand false).footprint plain (image 5 3) 0x800 = true := by decide

theorem test_witness_HostStoreThenLoad :
    Inv (resting [.store 0xFFF 7, .load 0]) ∧ (resting [.store 0xFFF 7, .load 0]).phase.active = false ∧
    admissible plain 0xFFF = true ∧ admissible plain 0 = true := ⟨inv_resting _, rfl, by decide, by decide⟩

/-- Byte 0x103 is in the footprint of the running command, 0x104 is not, 0x1000 is no memory; a command that fails closed. -/
theorem test_witness_HostAccessStops :
    (HostMovesNext (polled [.load 0x103]) ∧ inRunningFootprint (polled [.load 0x103]) 0x103 = true) ∧
    (inRunningFootprint (polled [.store 0x1000 1]) 0x1000 = false ∧ admissible (polled [.store 0x1000 1]).cfg 0x1000 = false) ∧
    (inRunningFootprint (polled [.store 0x104 1]) 0x104 = false ∧ admissible (polled [.store 0x104 1]).cfg 0x104 = true) ∧
    (decode (failing []).latch.cmd = some .gray ∧ ¬ ChecksPass .gray (failing [])) :=
  ⟨⟨.inr rfl, by decide⟩, by decide, by decide, rfl, not_checksPass_failing _ _⟩

/-- `GRAY` after its only pixel, whose first byte has disappeared. -/
def vanished : State :=
  { started (unmapMemory ⟨0x100, 1⟩ plain) 1 (image 1 1) [] with phase := .scalar, cursor := ⟨1, 0⟩ }

/-- The boundaries of an unmapped region 0x104 .. 0x107; a command that would succeed without its memory, and one that has it. -/
theorem test_witness_UnmappedMemoryIsInadmissible :
    HostMovesNext (resting [.unmap ⟨0x104, 4⟩]) ∧ HostMovesNext (polled [.unmap ⟨0x104, 4⟩]) ∧
    admissible (unmapMemory ⟨0x104, 4⟩ plain) 0x103 = true ∧ admissible (unmapMemory ⟨0x104, 4⟩ plain) 0x104 = false ∧
    admissible (unmapMemory ⟨0x104, 4⟩ plain) 0x107 = false ∧ admissible (unmapMemory ⟨0x104, 4⟩ plain) 0x108 = true ∧
    (vanished.phase.active = true ∧ (runCommand (commandOf .gray) vanished).phase = .idle ∧
      (runCommand (commandOf .gray) vanished).status.ok = true ∧ ¬ FootprintIn .gray vanished) ∧
    ∃ s, FootprintIn (.yuv2rgba true) s ∧ PlanesDisjoint s.latch.regs :=
  ⟨.inl rfl, .inr rfl, by decide, by decide, by decide, by decide,
    ⟨rfl, by decide, by decide, fun h => absurd (h 0x100 (by decide)) (by decide)⟩,
    _, (premises (.yuv2rgba true) true .zero 0x17).2.2, planesDisjoint_image⟩

theorem test_witness_WaitReadsUntilTheEnd :
    HostMovesNext (resting [.wait]) ∧ (HostMovesNext (polled [.wait]) ∧ (polled [.wait]).status.busy = true) ∧
    (HostMovesNext (dead [.wait]) ∧ (dead [.wait]).status.fatal = true) := ⟨.inl rfl, ⟨.inr rfl, rfl⟩, .inl rfl, rfl⟩

theorem test_witness_DescriptorPrograms :
    Inv (resting (HostProgram.setPB 0x1000 3 2 16 ++ [])) ∧ Inv (resting (HostProgram.setYUV 1 2 3 4 5 6 7 8 ++ [])) ∧
    (resting []).phase = .idle := ⟨inv_resting _, inv_resting _, rfl⟩

end Sys2Proof.Tests
end

section
/-! PROOFS. Every function with P1 to P3 of R158 is the `fexp` of a configuration: the one whose table lists its whole graph (R6, log 2). -/

namespace Sys2Proof.Machine

/-! ### The graph of a function as a table -/

/-- The table that lists the values of `f` at the given operands. -/
def graphTable (f : F32 → F32) (operands : List F32) : List (F32 × F32) := operands.map fun t => (t, f t)

theorem lookup_graphTable (f : F32 → F32) {operands : List F32} {t : F32} (h : t ∈ operands) :
    (graphTable f operands).lookup t = some (f t) := List.lookup_graph f h

/-- The binary32 operands can be listed. -/
theorem exists_list_all_operands : ∃ operands : List F32, ∀ t, t ∈ operands := by
  have : Finite F32 := Finite.of_injective _ (BitVec.toFin_injective (n := 32))
  obtain ⟨operands, -, hall⟩ := Finite.exists_univ_list F32
  exact ⟨operands, hall⟩

theorem getLsbD_31_of_le {t : F32} (h : 2147483648 ≤ t.toNat) : t.getLsbD 31 = true := by
  have ht := t.isLt
  rw [BitVec.getLsbD, Nat.testBit_eq_decide_div_mod_eq, decide_eq_true_eq]
  omega

theorem eq_zero_or_eq_fMinus0 {t : F32} (h : t.toNat % 2147483648 = 0) : t = f0 ∨ t = fMinus0 := by
  have ht := t.isLt
  rcases (by omega : t.toNat = 0 ∨ t.toNat = 2147483648) with h0 | h0
  · exact .inl (BitVec.eq_of_toNat_eq h0)
  · exact .inr (BitVec.eq_of_toNat_eq h0)

/-- `clampUnit` keeps what is in `0 .. 1.0` already. -/
theorem clampUnit_of_range {v : F32} (h : v.toNat ≤ f1.toNat ∨ v = fMinus0) : clampUnit v = v := if_pos h

/-- The three parts of `fexpFrom_finite`, for a function with P1 and P2: 1.0 at the zeros is P1, the clamp below 0 is idle by P2, and above
0 the table's value is taken as it is. -/
theorem fexpFrom_graphTable {f : F32 → F32} (hp : f f0 = f1) (hm : f fMinus0 = f1)
    (hunit : ∀ t, fIsFinite t = true → t.getLsbD 31 = true → (f t).toNat ≤ f1.toNat ∨ f t = fMinus0)
    {operands : List F32} {t : F32} (hmem : t ∈ operands) (ht : fIsFinite t = true) :
    fexpFrom (graphTable f operands) t = f t := by
  rw [fexpFrom_finite _ ht, lookup_graphTable f hmem, Option.getD_some, Option.getD_some]
  split
  · next h0 =>
    obtain rfl | rfl := eq_zero_or_eq_fMinus0 h0
    · exact hp.symm
    · exact hm.symm
  · split
    · next hneg => exact clampUnit_of_range (hunit t ht (getLsbD_31_of_le hneg))
    · rfl

/-! ### A table with P3 is kept -/

theorem fLe_of_fKey_le {t u : F32} (ht : fIsFinite t = true) (hu : fIsFinite u = true) (h : fKey t ≤ fKey u) : fLe t u = true :=
  (fLe_iff t u).2 ⟨Nat.le_of_lt ((isFinite_iff t).1 ht), Nat.le_of_lt ((isFinite_iff u).1 hu), h⟩

/-- A function that is monotone on the finite operands (P3) passes the check at every operand: the places next to a finite one that are
not past an end of the range are finite numbers, in order. -/
theorem monotoneAt_of_monotone {g : F32 → F32}
    (hmono : ∀ t u, fIsFinite t = true → fIsFinite u = true → fLe t u = true → fLe (g t) (g u) = true) (t : F32) :
    monotoneAt g t = true := by
  unfold monotoneAt
  cases ht : fIsFinite t with
  | false => rfl
  | true =>
    obtain ⟨hlo, hhi⟩ := fKey_range ht
    simp only [Bool.not_true, Bool.false_or, Bool.and_eq_true, Bool.or_eq_true, beq_iff_eq, or_iff_not_imp_left]
    constructor
    · intro hne
      have hbelow : -maxFiniteKey ≤ fKey t - 1 ∧ fKey t - 1 ≤ maxFiniteKey := by omega
      have hf := isFinite_fOfKey hbelow.1 hbelow.2
      exact hmono _ _ hf ht (fLe_of_fKey_le hf ht (by rw [fKey_fOfKey hbelow.1 hbelow.2]; omega))
    · intro hne
      have habove : -maxFiniteKey ≤ fKey t + 1 ∧ fKey t + 1 ≤ maxFiniteKey := by omega
      have hf := isFinite_fOfKey habove.1 habove.2
      exact hmono _ _ ht hf (fLe_of_fKey_le ht hf (by rw [fKey_fOfKey habove.1 habove.2]; omega))

/-- A table that gives a monotone function on the finite operands is not thrown away. -/
theorem fexpTableOk_of_monotone {table : List (F32 × F32)}
    (hmono : ∀ t u, fIsFinite t = true → fIsFinite u = true → fLe t u = true →
      fLe (fexpFrom table t) (fexpFrom table u) = true) : fexpTableOk table = true :=
  List.all_eq_true.2 fun e _ => monotoneAt_of_monotone hmono e.1

theorem fexp_of_tableOk {c : Cfg} (h : fexpTableOk c.fexpTable = true) (t : F32) : fexp c t = fexpFrom c.fexpTable t := by
  unfold fexp
  rw [if_pos h]

end Sys2Proof.Machine

namespace Sys2Proof

open Machine

/-- Settles O49: the configuration whose table is the graph of the function over all operands. By P1 and P2 the table gives the function on
finite operands, and by P3 it is kept. -/
theorem exponentialIsOpen : Obligations.ExponentialIsOpen := by
  unfold Obligations.ExponentialIsOpen
  intro f hp hm hunit hmono
  obtain ⟨operands, hall⟩ := exists_list_all_operands
  have hgraph : ∀ t, fIsFinite t = true → fexpFrom (graphTable f operands) t = f t :=
    fun t ht => fexpFrom_graphTable hp hm hunit (hall t) ht
  have hok : fexpTableOk (graphTable f operands) = true := by
    refine fexpTableOk_of_monotone fun t u ht hu htu => ?_
    rw [hgraph t ht, hgraph u hu]
    exact hmono t u ht hu htu
  refine ⟨{ (default : Cfg) with fexpTable := graphTable f operands }, fun t ht => ?_⟩
  rw [fexp_of_tableOk hok, hgraph t ht]

end Sys2Proof
end

section
/-! PROOFS. The register block: offsets and registers, what a read returns after a write, and what a host write does (R23, R27,
R32, R114). -/

namespace Sys2Proof.Machine

/-! ### Offsets and registers -/

/-- The byte offset of a register (R23). -/
def Reg.offset : Reg → Nat
  | .cmd => 0x00
  | .status => 0x04
  | .cap => 0x08
  | .pbBase => 0x10
  | .pbWidth => 0x14
  | .pbHeight => 0x18
  | .pbStride => 0x1C
  | .pbFormat => 0x20
  | .radius => 0x24
  | .sigma => 0x28
  | .yBase => 0x30
  | .yStride => 0x34
  | .uBase => 0x38
  | .uRStride => 0x3C
  | .uPStride => 0x40
  | .vBase => 0x44
  | .vRStride => 0x48
  | .vPStride => 0x4C

/-- Whether a host write can replace the value of a register (R23 to R26). -/
def Reg.readWrite : Reg → Bool
  | .cmd | .status | .cap => false
  | _ => true

theorem regAt_eq_some_iff {off : Nat} {r : Reg} : regAt off = some r ↔ off = r.offset := by
  constructor
  · intro h
    unfold regAt at h
    split at h <;> cases h <;> rfl
  · rintro rfl
    cases r <;> rfl

theorem offset_mem_readWriteOffsets (r : Reg) : r.offset ∈ readWriteOffsets ↔ r.readWrite = true := by cases r <;> decide

theorem exists_reg_of_mem_readWriteOffsets {off : Nat} (h : off ∈ readWriteOffsets) :
    ∃ r, regAt off = some r ∧ r.readWrite = true :=
  (Option.any_eq_true _ _).1 ((by decide : ∀ o ∈ readWriteOffsets, (regAt o).any Reg.readWrite = true) off h)

/-- Every offset outside the table of R23 is reserved. -/
theorem regAt_eq_none {off : Nat} (h : off ∉ readWriteOffsets) (h0 : off ≠ 0x00) (h4 : off ≠ 0x04) (h8 : off ≠ 0x08) :
    regAt off = none := by
  rw [Option.eq_none_iff_forall_ne_some]
  intro r hr
  obtain rfl := regAt_eq_some_iff.1 hr
  have hro : r.readWrite = false := by simpa [offset_mem_readWriteOffsets] using h
  cases r with
  | cmd => exact h0 rfl
  | status => exact h4 rfl
  | cap => exact h8 rfl
  | _ => cases hro

/-! ### Reads -/

theorem readOffset_of_regAt {off : Nat} {r : Reg} (h : regAt off = some r) (s : State) : readOffset s off = readReg s r := by
  simp [readOffset, h]

theorem readOffset_of_none {off : Nat} (h : regAt off = none) (s : State) : readOffset s off = 0 := by simp [readOffset, h]

@[simp] theorem readOffset_cmd (s : State) : readOffset s 0x00 = 0 := rfl
@[simp] theorem readOffset_status (s : State) : readOffset s 0x04 = s.status.toWord := rfl
@[simp] theorem readOffset_cap (s : State) : readOffset s 0x08 = capWord s.cfg := rfl

/-- After reset every read-write register reads 0 (R43). -/
theorem readOffset_of_regs_zero {s : State} (h : s.regs = HostRegs.zero) {off : Nat} (hoff : off ∈ readWriteOffsets) :
    readOffset s off = 0 := by
  obtain ⟨r, hr, hrw⟩ := exists_reg_of_mem_readWriteOffsets hoff
  rw [readOffset_of_regAt hr]
  cases r with
  | cmd | status | cap => cases hrw
  | _ => simp [readReg, h, HostRegs.zero]

theorem readReg_put_same {r : Reg} (h : r.readWrite = true) (s : State) (v : Word) :
    readReg { s with regs := s.regs.put v r } r = v := by
  cases r with
  | cmd | status | cap => cases h
  | _ => rfl

theorem readReg_put_other {r r' : Reg} (h : r' ≠ r) (s : State) (v : Word) :
    readReg { s with regs := s.regs.put v r } r' = readReg s r' := by
  cases r <;> cases r' <;> first | rfl | exact absurd rfl h

theorem readOffset_put_same {off : Nat} {r : Reg} (hr : regAt off = some r) (h : r.readWrite = true) (s : State) (v : Word) :
    readOffset { s with regs := s.regs.put v r } off = v := by
  rw [readOffset_of_regAt hr, readReg_put_same h]

theorem readOffset_put_other {off off' : Nat} {r : Reg} (hr : regAt off = some r) (h : off' ≠ off) (s : State) (v : Word) :
    readOffset { s with regs := s.regs.put v r } off' = readOffset s off' := by
  cases hr' : regAt off' with
  | none => rw [readOffset_of_none hr', readOffset_of_none hr']
  | some r' =>
    have hne : r' ≠ r := by
      rintro rfl
      exact h ((regAt_eq_some_iff.1 hr').trans (regAt_eq_some_iff.1 hr).symm)
    rw [readOffset_of_regAt hr', readOffset_of_regAt hr', readReg_put_other hne]

/-! ### Writes -/

theorem put_of_readOnly {r : Reg} (h : r.readWrite = false) (g : HostRegs) (v : Word) : g.put v r = g := by
  cases r with
  | cmd | status | cap => rfl
  | _ => cases h

theorem writeOffset_of_busy_or_fatal {s : State} (h : s.status.busy = true ∨ s.status.fatal = true) (off : Nat) (v : Word) :
    writeOffset off v s = s := if_pos (by simpa using h)

theorem writeOffset_of_none {off : Nat} (h : regAt off = none) (v : Word) (s : State) : writeOffset off v s = s := by
  unfold writeOffset
  rw [h]
  exact ite_self s

theorem writeOffset_of_regAt {off : Nat} {r : Reg} (h : regAt off = some r) (hne : r ≠ .cmd) {s : State}
    (hopen : ¬(s.status.busy = true ∨ s.status.fatal = true)) (v : Word) :
    writeOffset off v s = { s with regs := s.regs.put v r } := by
  unfold writeOffset
  rw [if_neg (by simpa using hopen), h]
  cases r with
  | cmd => exact absurd rfl hne
  | _ => rfl

theorem writeOffset_cmd {s : State} (hopen : ¬(s.status.busy = true ∨ s.status.fatal = true)) (v : Word) :
    writeOffset 0x00 v s = if s.phase = .idle then acceptCommand v s else s := if_neg (by simpa using hopen)

/-- A write outside the read-write registers and `CMD` is ignored (R32). -/
theorem writeOffset_of_not_readWrite {off : Nat} (h : off ∉ readWriteOffsets) (h0 : off ≠ 0x00) (v : Word) (s : State) :
    writeOffset off v s = s := by
  by_cases hopen : s.status.busy = true ∨ s.status.fatal = true
  · exact writeOffset_of_busy_or_fatal hopen off v
  · cases hr : regAt off with
    | none => exact writeOffset_of_none hr v s
    | some r =>
      have hoff := regAt_eq_some_iff.1 hr
      have hro : r.readWrite = false := by simpa [hoff, offset_mem_readWriteOffsets] using h
      have hne : r ≠ .cmd := by
        rintro rfl
        exact h0 hoff
      rw [writeOffset_of_regAt hr hne hopen, put_of_readOnly hro]

/-- A host write stores into the register block at most, unless it is the accepted doorbell. -/
theorem writeOffset_cases (off : Nat) (v : Word) (s : State) :
    (∃ g, writeOffset off v s = { s with regs := g }) ∨
    (off = 0x00 ∧ ¬(s.status.busy = true ∨ s.status.fatal = true) ∧ s.phase = .idle ∧ writeOffset off v s = acceptCommand v s) := by
  by_cases hopen : s.status.busy = true ∨ s.status.fatal = true
  · exact .inl ⟨s.regs, writeOffset_of_busy_or_fatal hopen off v⟩
  · cases hr : regAt off with
    | none => exact .inl ⟨s.regs, writeOffset_of_none hr v s⟩
    | some r =>
      by_cases hcmd : r = .cmd
      · obtain rfl : off = 0x00 := by simpa [hcmd, Reg.offset] using regAt_eq_some_iff.1 hr
        have heq := writeOffset_cmd hopen v
        split at heq
        · next hidle => exact .inr ⟨rfl, hopen, hidle, heq⟩
        · exact .inl ⟨s.regs, heq⟩
      · exact .inl ⟨_, writeOffset_of_regAt hr hcmd hopen v⟩

end Sys2Proof.Machine
end

section
/-! PROOFS. Everything one step of the machine can do: one move of the host, or the run of the latched command (R280). -/

namespace Sys2Proof.Machine

/-- What one move of the host does to the state, one constructor a kind of move. -/
inductive HostEffect (s t : State) : Prop where
  /-- a read, or no pending move: only the host's own fields change -/
  | reads (q : List HostMove) (w : Word) (eq : t = { s with hostQ := q, lastRead := w })
  | writes (q : List HostMove) (g : HostRegs) (eq : t = { s with hostQ := q, regs := g })
  | rings (c : Word) (q : List HostMove) (move : s.hostQ = .wr 0x00 c :: q)
      (quiet : ¬(s.status.busy = true ∨ s.status.fatal = true)) (idle : s.phase = .idle)
      (eq : t = acceptCommand c { s with hostQ := q })
  | resets (q : List HostMove) (move : s.hostQ = .reset :: q) (cut : CutBytes) (eq : t = resetEvent cut { s with hostQ := q })
  | stores (q : List HostMove) (a : Nat) (b : Byte) (eq : t = { s with hostQ := q, mem := s.mem.write a b })
  | unmaps (q : List HostMove) (gone : MemRegion) (eq : t = { s with hostQ := q, cfg := unmapMemory gone s.cfg })

theorem hostAccess_next {a : Nat} {f : State → State} {s t : State} (h : hostAccess a f s = .next t) : t = f s := by
  unfold hostAccess at h
  split at h
  · cases h
  · split at h
    · injection h with h
      exact h.symm
    · cases h

theorem hostMove_effect {s t : State} (h : hostMove s = .next t) : HostEffect s t := by
  unfold hostMove at h
  split at h
  · injection h with h
    exact .reads s.hostQ s.lastRead h.symm
  · next move q hq =>
    dsimp only at h
    cases move with
    | wr off v =>
      injection h with h
      rcases writeOffset_cases off v { s with hostQ := q } with ⟨g, hg⟩ | ⟨rfl, hopen, hidle, hacc⟩
      · exact .writes q g (h.symm.trans hg)
      · exact .rings v q hq hopen hidle (h.symm.trans hacc)
    | rd off =>
      injection h with h
      exact .reads q _ h.symm
    | wait =>
      dsimp only at h
      split at h
      · injection h with h
        exact .reads q _ h.symm
      · injection h with h
        exact .reads s.hostQ _ h.symm
    | reset =>
      injection h with h
      exact .resets q hq _ h.symm
    | store a b => exact .stores q a b (hostAccess_next h)
    | load a => exact .reads q _ (hostAccess_next h)
    | unmap gone =>
      injection h with h
      exact .unmaps q gone h.symm

/-- No move of the host changes the value of `CAP` (R31). -/
theorem HostEffect.cap {s t : State} (h : HostEffect s t) : capWord t.cfg = capWord s.cfg := by
  cases h <;> subst_vars <;> rfl

/-- From `IDLE` only the doorbell leads out. -/
theorem HostEffect.idle {s t : State} (h : HostEffect s t) (hidle : s.phase = .idle) :
    t.phase = .idle ∨ ∃ c q, s.hostQ = .wr 0x00 c :: q := by
  cases h with
  | rings c q move => exact .inr ⟨c, q, move⟩
  | resets _ _ _ eq => exact .inl (eq ▸ rfl)
  | _ => subst_vars; exact .inl hidle

/-- Only an accepted doorbell and the reset write `STATUS`. -/
theorem HostEffect.status {s t : State} (h : HostEffect s t) :
    t.status = s.status ∨ (∃ c q, s.hostQ = .wr 0x00 c :: q) ∨ ∃ q, s.hostQ = .reset :: q := by
  cases h with
  | rings c q move => exact .inr (.inl ⟨c, q, move⟩)
  | resets q move => exact .inr (.inr ⟨q, move⟩)
  | _ => subst_vars; exact .inl rfl

/-! ### One step -/

theorem step_of_hostMovesNext {s : State} (h : HostMovesNext s) : step s = hostMove { s with sched := schedAfterHost s } := by
  unfold step schedAfterHost
  split
  · next ha =>
    rw [if_pos (h.resolve_left (by simp [ha]))]
  · rfl

theorem step_of_engineNext {s : State} (ha : s.phase.active = true) (hturn : hostTurnNext s = false) : step s = runLatched s := by
  simp [step, ha, hturn]

theorem step_of_decoded {s : State} {i : Instr} (ha : s.phase.active = true) (hturn : hostTurnNext s = false)
    (hdec : decode s.latch.cmd = some i) : step s = exec i s := by
  rw [step_of_engineNext ha hturn, runLatched, hdec]

theorem runLatched_next {s t : State} (h : runLatched s = .next t) :
    (∃ i, decode s.latch.cmd = some i ∧ t = runCommand (commandOf i) s) ∨
    (s.phase = .validate ∧ t = failClosed .illegalCommand s) := by
  unfold runLatched at h
  split at h
  · next i hi => exact .inl ⟨i, hi, exec_next h⟩
  · unfold illegalLatched at h
    split at h
    · next hp =>
      injection h with h
      exact .inr ⟨hp, h.symm⟩
    · cases h

/-- A step is a move of the host, the run of the latched command, or the failure of a latched word that is no command. -/
theorem step_cases {s t : State} (h : step s = .next t) :
    HostEffect { s with sched := schedAfterHost s } t ∨
    (s.phase.active = true ∧ ∃ i, decode s.latch.cmd = some i ∧ t = runCommand (commandOf i) s) ∨
    (s.phase = .validate ∧ t = failClosed .illegalCommand s) := by
  by_cases hhost : HostMovesNext s
  · rw [step_of_hostMovesNext hhost] at h
    exact .inl (hostMove_effect h)
  · obtain ⟨ha, hturn⟩ : s.phase.active = true ∧ hostTurnNext s = false := by simpa [HostMovesNext] using hhost
    rw [step_of_engineNext ha hturn] at h
    rcases runLatched_next h with hrun | hfail
    · exact .inr (.inl ⟨ha, hrun⟩)
    · exact .inr (.inr hfail)

theorem step_of_idle {s t : State} (hidle : s.phase = .idle) (h : step s = .next t) :
    HostEffect { s with sched := schedAfterHost s } t := by
  rw [step_of_hostMovesNext (.inl (by rw [hidle]; rfl))] at h
  exact hostMove_effect h

/-- The step in which the host writes a register. -/
theorem step_of_write {s : State} {off : Nat} {v : Word} {q : List HostMove} (hnext : HostMovesNext s)
    (hq : s.hostQ = .wr off v :: q) :
    step s = .next (writeOffset off v { s with hostQ := q, sched := schedAfterHost s }) := by
  rw [step_of_hostMovesNext hnext]
  simp only [hostMove, hq]

/-- The step in which the host reads a register. -/
theorem step_of_read {s : State} {off : Nat} {q : List HostMove} (hnext : HostMovesNext s) (hq : s.hostQ = .rd off :: q) :
    step s = .next { s with hostQ := q, sched := schedAfterHost s, lastRead := readOffset s off } := by
  rw [step_of_hostMovesNext hnext]
  simp only [hostMove, hq]
  rfl

/-! ### What a run of a command leaves alone -/

theorem engineStep_cfg (k : Command) (s : State) : (engineStep k s).cfg = s.cfg := by
  obtain ⟨-, -, hcfg, -⟩ := (engineStep_move k s).kept
  exact hcfg

theorem engineStep_latch (k : Command) (s : State) : (engineStep k s).latch = s.latch := by
  obtain ⟨-, hlatch, -⟩ := (engineStep_move k s).kept
  exact hlatch

/-- What every step of the engine keeps, a run keeps. -/
theorem runSteps_keeps {k : Command} {P : State → Prop} (hstep : ∀ s, P s → P (engineStep k s)) :
    ∀ n s, P s → P (runSteps k n s)
  | 0, _, h => h
  | n + 1, s, h => by
    unfold runSteps
    split
    · exact runSteps_keeps hstep n _ (hstep s h)
    · exact h

theorem runCommand_cfg (k : Command) (s : State) : (runCommand k s).cfg = s.cfg :=
  runSteps_keeps (P := fun u => u.cfg = s.cfg) (fun u hu => (engineStep_cfg k u).trans hu) _ s rfl

/-- `CAP` is constant (R31). -/
theorem step_cap {s t : State} (h : step s = .next t) : capWord t.cfg = capWord s.cfg := by
  rcases step_cases h with heff | ⟨-, i, -, rfl⟩ | ⟨-, rfl⟩
  · exact heff.cap
  · rw [runCommand_cfg]
  · rfl

end Sys2Proof.Machine
end

section
/-! PROOFS. The invariant of the machine is kept: one lemma for each kind of state a move leads to (ended, halted, running without a pool,
running with a pool), then one line for each move of `SEQ`, of a worker and of the host (R22, R28, R29, R35 to R38, R124 to R129). -/

namespace Sys2Proof.Machine

/-! ### Tasks and checks do not depend on where memory is -/

/-- A configuration with another memory map. -/
def withMemMap (map : List MemRegion) (c : Cfg) : Cfg := { c with memMap := map }

theorem plan_withMemMap (i : Instr) (map : List MemRegion) (c : Cfg) (g : HostRegs) (v : Bool) :
    (commandOf i).plan (withMemMap map c) g v = (commandOf i).plan c g v := by cases i <;> rfl

theorem firstFailure_withMemMap (i : Instr) (map : List MemRegion) (c : Cfg) (g : HostRegs) :
    firstFailure (commandOf i) (withMemMap map c) g = firstFailure (commandOf i) c g := by cases i <;> rfl

theorem selectPath_withMemMap (f : Family) (map : List MemRegion) (c : Cfg) : selectPath f (withMemMap map c) = selectPath f c := by
  cases f <;> rfl

theorem nWorkers_withMemMap (map : List MemRegion) (c : Cfg) : nWorkers (withMemMap map c) = nWorkers c := rfl

theorem IsTaskOf.congr {i : Instr} {s t : State} {task : Task} (h : IsTaskOf i s task) (latch : t.latch = s.latch)
    {map : List MemRegion} (cfg : t.cfg = withMemMap map s.cfg) : IsTaskOf i t task := by
  obtain ⟨j, hj, rfl⟩ := h
  refine ⟨j, cfg ▸ hj, ?_⟩
  rw [cfg, latch, plan_withMemMap, nWorkers_withMemMap]

/-- The task `SEQ` enqueues next is one of the partition. -/
theorem isTaskOf_taskOf (i : Instr) (s : State) {j : Nat} (h : j < nWorkers s.cfg) :
    IsTaskOf i s (taskOf ((commandOf i).plan s.cfg s.latch.regs true).units (nWorkers s.cfg) ((commandOf i).family == .pointwise) j) :=
  ⟨j, h, rfl⟩

/-- Past `VALIDATE`, as long as nothing but the pool, the stores and the memory map changes. -/
theorem PastValidation.congr {i : Instr} {s t : State} (h : PastValidation s i) (latch : t.latch = s.latch)
    {map : List MemRegion} (cfg : t.cfg = withMemMap map s.cfg) (phase : t.phase = s.phase) (status : t.status = s.status)
    (queued : ∀ task ∈ t.queue, IsTaskOf i s task) (running : ∀ task cur, Worker.running task cur ∈ t.workers → IsTaskOf i s task) :
    PastValidation t i := by
  refine ⟨latch ▸ h.decoded, ?_, ?_, ?_, ?_, phase ▸ h.copyBack, fun task ht => (queued task ht).congr latch cfg,
    fun task cur ht => (running task cur ht).congr latch cfg⟩
  · rw [cfg, latch, firstFailure_withMemMap]
    exact h.checked
  · rw [cfg, phase, status, selectPath_withMemMap]
    exact h.path
  · rw [cfg, phase, selectPath_withMemMap]
    exact h.scalar
  · rw [cfg, phase, selectPath_withMemMap]
    exact h.vector

/-- Past `VALIDATE` in a new phase, the latched command and the configuration the same, with no pool. -/
theorem PastValidation.enter {i : Instr} {s t : State} (h : PastValidation s i) (latch : t.latch = s.latch) (cfg : t.cfg = s.cfg)
    (noPool : NoPool t)
    (path : t.phase ≠ .prepare → t.status.path = (selectPath (commandOf i).family s.cfg).1 ∧
      t.status.fallback = (selectPath (commandOf i).family s.cfg).2)
    (scalar : t.phase = .scalar → (selectPath (commandOf i).family s.cfg).1 = false)
    (vector : t.phase = .fork ∨ t.phase = .run → (selectPath (commandOf i).family s.cfg).1 = true)
    (copyBack : t.phase = .copyBack → isNeighbourhood i = true) : PastValidation t i :=
  ⟨latch ▸ h.decoded, by rw [cfg, latch]; exact h.checked, cfg ▸ path, cfg ▸ scalar, cfg ▸ vector, copyBack,
    by simp [noPool.queue], by simp [noPool.workers]⟩

/-! ### Phase and `STATUS` -/

theorem Phase.active_iff (p : Phase) : p.active = true ↔ p ≠ .idle ∧ p ≠ .halted := by cases p <;> decide

theorem Inv.fatal_of_active {s : State} (h : Inv s) (ha : s.phase.active = true) : s.status.fatal = false := by
  simpa [h.halted] using ((Phase.active_iff _).1 ha).2

theorem Inv.busy_of_active {s : State} (h : Inv s) (ha : s.phase.active = true) : s.status.busy = true := by
  simpa [h.idle, h.fatal_of_active ha] using ((Phase.active_iff _).1 ha).1

/-- While a command runs, `STATUS` is as the acceptance left it, but for the path bits (R29). -/
theorem Inv.status_of_active {s : State} (h : Inv s) (ha : s.phase.active = true) :
    s.status = Status.running.onPath s.status.path s.status.fallback := by
  have hbusy := h.busy_of_active ha
  have hfatal := h.fatal_of_active ha
  obtain ⟨hdone, hok, herr⟩ := h.running ha
  generalize s.status = st at *
  cases st
  simp_all [Status.running, Status.onPath]

theorem Inv.noPool_of {s : State} (h : Inv s) (hfork : s.phase ≠ .fork) (hrun : s.phase ≠ .run) : NoPool s :=
  ⟨(h.noPool hfork hrun).1, (h.noPool hfork hrun).2.1, (h.noPool hfork hrun).2.2⟩

/-! ### The kinds of states -/

/-- A state in which no command runs or has gone fatal. -/
theorem inv_of_idle {t : State} (phase : t.phase = .idle) (busy : t.status.busy = false) (fatal : t.status.fatal = false)
    (ended : t.status.err ≠ .fatalConcurrencyFault ∧ (t.status.ok = true → t.status.done = true) ∧
      (t.status.done = true → (t.status.ok = true ↔ t.status.err = .none)) ∧ (t.status.done = false → t.status.err = .none))
    (noPool : NoPool t) (memory : t.mem.wf = true) (snapshot : t.memAtAccept.wf = true) (kernel : KernelShape t.cfg t.kernel) :
    Inv t where
  memory := memory
  snapshot := snapshot
  idle := by simp [phase, busy, fatal]
  halted := by simp [phase, fatal]
  fatal := by simp [fatal]
  running := by simp [phase, Phase.active]
  ended _ := ended
  unselected := by simp [phase]
  noPool _ _ := ⟨noPool.workers, noPool.queue, noPool.stop⟩
  fork := by simp [phase]
  run := by simp [phase]
  exited := by simp [noPool.workers]
  present := by simp [noPool.workers]
  latched := by simp [phase, Phase.active]
  kernel := kernel

/-- A running command without a pool: outside `FORK` and `RUN`, or in `FORK` before the construction. -/
theorem inv_of_noPool {t : State} {vector fallback : Bool} (active : t.phase.active = true)
    (status : t.status = Status.running.onPath vector fallback) (noPool : NoPool t) (notRun : t.phase ≠ .run)
    (fork : t.phase = .fork → t.cursor.unit = 0)
    (unselected : t.phase = .validate ∨ t.phase = .prepare → vector = false ∧ fallback = false)
    (latched : t.phase ≠ .validate → ∃ i, PastValidation t i)
    (memory : t.mem.wf = true) (snapshot : t.memAtAccept.wf = true) (kernel : KernelShape t.cfg t.kernel) : Inv t where
  memory := memory
  snapshot := snapshot
  idle := by simp [status, Status.running, Status.onPath, ((Phase.active_iff _).1 active).1]
  halted := by simp [status, Status.running, Status.onPath, ((Phase.active_iff _).1 active).2]
  fatal := by simp [status, Status.running, Status.onPath]
  running _ := by simp [status, Status.running, Status.onPath]
  ended hidle := absurd hidle ((Phase.active_iff _).1 active).1
  unselected := by rw [status]; exact unselected
  noPool _ _ := ⟨noPool.workers, noPool.queue, noPool.stop⟩
  fork hfork := ⟨noPool.stop, .inl ⟨noPool.workers, noPool.queue, fork hfork⟩⟩
  run hrun := absurd hrun notRun
  exited := by simp [noPool.workers]
  present := by simp [noPool.workers]
  latched _ := latched
  kernel := kernel

/-- The shape of a live pool: `N` workers, the queue no longer than the tasks enqueued, and `stop` set exactly in `RUN` (R37, R124,
R128). -/
structure PoolShape (t : State) : Prop where
  phase : (t.phase = .fork ∧ t.stop = false ∧ t.cursor.unit ≤ nWorkers t.cfg ∧ t.queue.length ≤ t.cursor.unit) ∨
    (t.phase = .run ∧ t.stop = true ∧ t.queue.length ≤ nWorkers t.cfg)
  length : t.workers.length = nWorkers t.cfg
  exited : Worker.exited ∈ t.workers → t.queue = [] ∧ t.stop = true
  present : Worker.absent ∉ t.workers

theorem PoolShape.fork_or_run {t : State} (h : PoolShape t) : t.phase = .fork ∨ t.phase = .run :=
  h.phase.imp And.left And.left

/-- A running command with a live pool. -/
theorem inv_of_pool {t : State} {vector fallback : Bool} {i : Instr} (pool : PoolShape t)
    (status : t.status = Status.running.onPath vector fallback) (latched : PastValidation t i)
    (memory : t.mem.wf = true) (snapshot : t.memAtAccept.wf = true) (kernel : KernelShape t.cfg t.kernel) : Inv t := by
  obtain ⟨hidle, hhalt, hearly⟩ : t.phase ≠ .idle ∧ t.phase ≠ .halted ∧ ¬(t.phase = .validate ∨ t.phase = .prepare) := by
    rcases pool.fork_or_run with hp | hp <;> rw [hp] <;> decide
  exact
  { memory := memory
    snapshot := snapshot
    idle := by simp [status, Status.running, Status.onPath, hidle]
    halted := by simp [status, Status.running, Status.onPath, hhalt]
    fatal := by simp [status, Status.running, Status.onPath]
    running := fun _ => by simp [status, Status.running, Status.onPath]
    ended := (absurd · hidle)
    unselected := (absurd · hearly)
    noPool := fun hfork hrun => absurd pool.fork_or_run (not_or.2 ⟨hfork, hrun⟩)
    fork := by
      intro hfork
      rcases pool.phase with ⟨-, hstop, hunit, hqueue⟩ | ⟨hrun, -⟩
      · exact ⟨hstop, .inr ⟨pool.length, hunit, hqueue⟩⟩
      · exact absurd (hfork.symm.trans hrun) nofun
    run := by
      intro hrun
      rcases pool.phase with ⟨hfork, -⟩ | ⟨-, hstop, hqueue⟩
      · exact absurd (hfork.symm.trans hrun) nofun
      · exact ⟨hstop, pool.length, hqueue⟩
    exited := pool.exited
    present := pool.present
    latched := fun _ _ => ⟨i, latched⟩
    kernel := kernel }

/-- In `FORK` and `RUN`, once there are workers, the pool has its shape. -/
theorem Inv.poolShape {s : State} (h : Inv s) (hworkers : s.workers ≠ []) : PoolShape s := by
  refine ⟨?_, ?_, h.exited, h.present⟩ <;> by_cases hfork : s.phase = .fork
  · obtain ⟨hstop, ⟨hnone, -⟩ | ⟨-, hunit, hqueue⟩⟩ := h.fork hfork
    · exact absurd hnone hworkers
    · exact .inl ⟨hfork, hstop, hunit, hqueue⟩
  · by_cases hrun : s.phase = .run
    · obtain ⟨hstop, -, hqueue⟩ := h.run hrun
      exact .inr ⟨hrun, hstop, hqueue⟩
    · exact absurd (h.noPool_of hfork hrun).workers hworkers
  · obtain ⟨-, ⟨hnone, -⟩ | ⟨hlen, -⟩⟩ := h.fork hfork
    · exact absurd hnone hworkers
    · exact hlen
  · by_cases hrun : s.phase = .run
    · obtain ⟨-, hlen, -⟩ := h.run hrun
      exact hlen
    · exact absurd (h.noPool_of hfork hrun).workers hworkers

/-! ### The shared ends of a command -/

/-- The fatal fault of a running command (R246). -/
theorem inv_takeFatalFault {s : State} (h : Inv s) (ha : s.phase.active = true) (cut : CutBytes) : Inv (takeFatalFault cut s) := by
  obtain ⟨hdone, -⟩ := h.running ha
  constructor <;> simp [Status.fatally, hdone, h.busy_of_active ha, Phase.active, wf_cutFootprint h.memory, h.snapshot, h.kernel]

/-- A running command without a pool fails closed (R136). -/
theorem inv_failClosed {s : State} (h : Inv s) (ha : s.phase.active = true) (noPool : NoPool s) {e : ErrCode} (hne : e ≠ .none)
    (hnf : e ≠ .fatalConcurrencyFault) : Inv (failClosed e s) :=
  inv_of_idle rfl rfl (h.fatal_of_active ha) (by simp [Status.failed, hne, hnf])
    ⟨noPool.workers, noPool.queue, noPool.stop⟩ h.memory h.snapshot h.kernel

/-- A running command without a pool succeeds (R135). -/
theorem inv_endSuccess {k : Command} {s : State} {vector fallback : Bool} (status : s.status = Status.running.onPath vector fallback)
    (noPool : NoPool s) (memory : s.mem.wf = true) (snapshot : s.memAtAccept.wf = true) (kernel : KernelShape s.cfg s.kernel) :
    Inv (endSuccess k s) :=
  inv_of_idle rfl rfl (by rw [endSuccess_status, status]; rfl) (by simp [Status.succeeded])
    ⟨noPool.workers, noPool.queue, noPool.stop⟩ memory snapshot (endSuccess_shape kernel)

/-- After the last unit (R113): the copy-back or the end. -/
theorem inv_afterCompute {i : Instr} {s : State} {vector fallback : Bool} (status : s.status = Status.running.onPath vector fallback)
    (noPool : NoPool s) (latched : PastValidation s i) (notPrepare : s.phase ≠ .prepare) (memory : s.mem.wf = true)
    (snapshot : s.memAtAccept.wf = true) (kernel : KernelShape s.cfg s.kernel) : Inv (afterCompute (commandOf i) s) := by
  unfold afterCompute
  split
  · next hf =>
    exact inv_of_noPool rfl status ⟨noPool.workers, noPool.queue, noPool.stop⟩ nofun nofun nofun
      (fun _ => ⟨i, latched.enter rfl rfl ⟨noPool.workers, noPool.queue, noPool.stop⟩ (fun _ => latched.path notPrepare) nofun nofun
        fun _ => (isNeighbourhood_iff i).2 hf⟩)
      memory snapshot kernel
  · exact inv_endSuccess status noPool memory snapshot kernel

/-! ### The moves of the engine -/

/-- The codes `VALIDATE` records: never 0 and never 15. -/
theorem firstFailure_code {k : Command} {c : Cfg} {g : HostRegs} {e : ErrCode} (h : firstFailure k c g = some e) :
    e ≠ .none ∧ e ≠ .fatalConcurrencyFault := by
  unfold firstFailure at h
  repeat' split at h
  all_goals cases h
  all_goals decide

/-- The latched command of a state past `VALIDATE`. -/
theorem Inv.pastValidation {i : Instr} {s : State} (h : Inv s) (hdec : decode s.latch.cmd = some i) (ha : s.phase.active = true)
    (hv : s.phase ≠ .validate) : PastValidation s i := by
  obtain ⟨j, hj⟩ := h.latched ha hv
  obtain rfl : j = i := Option.some.inj (hj.decoded.symm.trans hdec)
  exact hj

/-- `PREPARE` (R118, R123). -/
theorem inv_prepare {i : Instr} {s : State} (h : Inv s) (hdec : decode s.latch.cmd = some i) (hp : s.phase = .prepare) :
    Inv (prepare (commandOf i) s) := by
  have ha : s.phase.active = true := by rw [hp]; rfl
  have hpast := h.pastValidation hdec ha (by rw [hp]; nofun)
  have hpool := h.noPool_of (by rw [hp]; nofun) (by rw [hp]; nofun)
  have hstatus := h.status_of_active ha
  have hkernel := (Move.prepares (k := commandOf i) hp rfl).kernelShape (fun _ => hpast.checked) h.kernel
  unfold prepare at hkernel ⊢
  dsimp only at hkernel ⊢
  split at hkernel
  · exact inv_of_idle rfl rfl (h.fatal_of_active ha) (by simp [Status.failed, Status.onPath])
      ⟨hpool.workers, hpool.queue, hpool.stop⟩ h.memory h.snapshot hkernel
  · refine inv_of_noPool (vector := (selectPath (commandOf i).family s.cfg).1) (fallback := (selectPath (commandOf i).family s.cfg).2)
      ?_ (by rw [hstatus]; rfl) ⟨hpool.workers, hpool.queue, hpool.stop⟩ ?_ ?_ ?_
      (fun _ => ⟨i, hpast.enter rfl rfl ⟨hpool.workers, hpool.queue, hpool.stop⟩ (fun _ => ⟨rfl, rfl⟩) ?_ ?_ ?_⟩)
      h.memory h.snapshot hkernel
    all_goals cases (selectPath (commandOf i).family s.cfg).1 <;> simp [Phase.active]

/-- A worker takes another state, and with it perhaps the head of the queue or one item of its task (R126). -/
theorem Inv.setWorker {i : Instr} {s : State} (h : Inv s) (hdec : decode s.latch.cmd = some i) (ha : s.phase.active = true) {j : Nat}
    (hj : j < s.workers.length) {w : Worker} {q : List Task} {m : Memory} {o : Scratch} (hq : q <:+ s.queue)
    (hpresent : w ≠ .absent) (hexit : w = .exited → q = [] ∧ s.stop = true)
    (htask : ∀ task cur, w = .running task cur → PastValidation s i → IsTaskOf i s task) (hm : m.wf = true) :
    Inv { s with workers := s.workers.set j w, queue := q, mem := m, out := o } := by
  have hpool := h.poolShape (List.ne_nil_of_length_pos (by omega))
  have hpast := h.pastValidation hdec ha (by rcases hpool.fork_or_run with hp | hp <;> rw [hp] <;> nofun)
  have hlen := hq.length_le
  refine inv_of_pool ⟨?_, ?_, ?_, ?_⟩ (h.status_of_active ha)
    (hpast.congr rfl (map := s.cfg.memMap) rfl rfl rfl (fun task ht => hpast.queued task (hq.subset ht)) fun task cur ht => ?_)
    hm h.snapshot h.kernel
  · exact hpool.phase.imp (fun ⟨h1, h2, h3, h4⟩ => ⟨h1, h2, h3, hlen.trans h4⟩) fun ⟨h1, h2, h3⟩ => ⟨h1, h2, hlen.trans h3⟩
  · simpa using hpool.length
  · intro hex
    rcases List.mem_or_eq_of_mem_set hex with hold | hnew
    · obtain ⟨hqueue, hstop⟩ := hpool.exited hold
      exact ⟨List.suffix_nil.1 (hqueue ▸ hq), hstop⟩
    · exact hexit hnew.symm
  · intro habs
    exact (List.mem_or_eq_of_mem_set habs).elim hpool.present fun hnew => hpresent hnew.symm
  · rcases List.mem_or_eq_of_mem_set ht with hold | hnew
    · exact hpast.running task cur hold
    · exact htask task cur hnew.symm hpast

/-- A task a worker runs is one of the partition. -/
theorem isTaskOf_of_running {i : Instr} {s : State} (h : PastValidation s i) {j : Nat} (hj : j < s.workers.length) {task : Task}
    {cur : Cursor} (hw : s.workers.getD j .absent = .running task cur) : IsTaskOf i s task := by
  rw [List.getD_eq_getElem _ _ hj] at hw
  exact h.running task cur (hw ▸ List.getElem_mem hj)

/-- A phase without a pool goes on: the stores and the cursor change, and nothing else (R119, R206). -/
theorem inv_stores {i : Instr} {s : State} (h : Inv s) (hdec : decode s.latch.cmd = some i)
    (hp : s.phase = .scalar ∨ s.phase = .copyBack) {m : Memory} (hm : m.wf = true) (o : Scratch) (cur : Cursor) :
    Inv { s with mem := m, out := o, cursor := cur } := by
  obtain ⟨ha, hv, hprep, hfork, hrun⟩ :
      s.phase.active = true ∧ s.phase ≠ .validate ∧ s.phase ≠ .prepare ∧ s.phase ≠ .fork ∧ s.phase ≠ .run := by
    rcases hp with hp | hp <;> rw [hp] <;> decide
  have hpast := h.pastValidation hdec ha hv
  have hpool := h.noPool_of hfork hrun
  exact inv_of_noPool ha (h.status_of_active ha) ⟨hpool.workers, hpool.queue, hpool.stop⟩ hrun (absurd · hfork)
    (fun hp => hp.elim (absurd · hv) (absurd · hprep))
    (fun _ => ⟨i, hpast.congr rfl (map := s.cfg.memMap) rfl rfl rfl hpast.queued hpast.running⟩) hm h.snapshot h.kernel

/-- The checks of `VALIDATE` pass (R115). -/
theorem inv_passes {i : Instr} {s : State} (h : Inv s) (hdec : decode s.latch.cmd = some i) (hp : s.phase = .validate)
    (check : firstFailure (commandOf i) s.cfg s.latch.regs = none) : Inv { s with phase := .prepare } := by
  have hpool := h.noPool_of (by rw [hp]; nofun) (by rw [hp]; nofun)
  have hpast : PastValidation { s with phase := .prepare } i :=
    ⟨hdec, check, fun hne => absurd rfl hne, nofun, nofun, nofun, by simp [hpool.queue], by simp [hpool.workers]⟩
  exact inv_of_noPool rfl (h.status_of_active (by rw [hp]; rfl)) ⟨hpool.workers, hpool.queue, hpool.stop⟩ nofun nofun
    (fun _ => h.unselected (.inl hp)) (fun _ => ⟨i, hpast⟩) h.memory h.snapshot h.kernel

/-- The construction of the pool (R124): `N` waiting workers, and no task yet. -/
theorem inv_constructs {i : Instr} {s : State} (h : Inv s) (hdec : decode s.latch.cmd = some i) (hp : s.phase = .fork)
    (hnone : s.workers = []) : Inv { s with workers := List.replicate (nWorkers s.cfg) .waiting } := by
  have ha : s.phase.active = true := by rw [hp]; rfl
  have hpast := h.pastValidation hdec ha (by rw [hp]; nofun)
  have hpos := nWorkers_pos s.cfg
  obtain ⟨hstop, ⟨-, hqueue, hunit⟩ | ⟨hlen, -⟩⟩ := h.fork hp
  · refine inv_of_pool (i := i) ⟨.inl ⟨hp, hstop, by simp [hunit], by simp [hqueue]⟩, by simp, by simp, by simp⟩
      (h.status_of_active ha) (hpast.congr rfl (map := s.cfg.memMap) rfl rfl rfl hpast.queued (by simp)) h.memory h.snapshot h.kernel
  · simp only [hnone, List.length_nil] at hlen
    omega

/-- In `FORK` no worker has exited, since `stop` is 0 (R126, R128). -/
theorem Inv.not_exited_of_fork {s : State} (h : Inv s) (hp : s.phase = .fork) : Worker.exited ∉ s.workers := by
  intro hex
  obtain ⟨hstop, -⟩ := h.fork hp
  exact absurd ((h.exited hex).2.symm.trans hstop) nofun

/-- `SEQ` enqueues the next task (R125). -/
theorem inv_enqueues {i : Instr} {s : State} (h : Inv s) (hdec : decode s.latch.cmd = some i) (hp : s.phase = .fork)
    (hsome : s.workers ≠ []) (hlt : s.cursor.unit < nWorkers s.cfg) {task : Task} (htask : IsTaskOf i s task) :
    Inv { s with queue := s.queue ++ [task], cursor := ⟨s.cursor.unit + 1, 0⟩ } := by
  have ha : s.phase.active = true := by rw [hp]; rfl
  have hpast := h.pastValidation hdec ha (by rw [hp]; nofun)
  have hqueued : ∀ u ∈ s.queue ++ [task], IsTaskOf i s u := by
    intro u hu
    rcases List.mem_append.1 hu with hold | hnew
    · exact hpast.queued u hold
    · exact List.mem_singleton.1 hnew ▸ htask
  obtain ⟨hstop, ⟨hnone, -⟩ | ⟨hlen, -, hqueue⟩⟩ := h.fork hp
  · exact absurd hnone hsome
  · exact inv_of_pool
      ⟨.inl ⟨hp, hstop, hlt, by simpa using hqueue⟩, hlen, fun hex => absurd hex (h.not_exited_of_fork hp), h.present⟩
      (h.status_of_active ha) (hpast.congr rfl (map := s.cfg.memMap) rfl rfl rfl hqueued hpast.running) h.memory h.snapshot h.kernel

/-- `SEQ` sets `stop` once all tasks are enqueued (R128). -/
theorem inv_drains {i : Instr} {s : State} (h : Inv s) (hdec : decode s.latch.cmd = some i) (hp : s.phase = .fork)
    (hsome : s.workers ≠ []) : Inv { s with stop := true, phase := .run } := by
  have ha : s.phase.active = true := by rw [hp]; rfl
  have hpast := h.pastValidation hdec ha (by rw [hp]; nofun)
  have hrun : PastValidation { s with stop := true, phase := .run } i :=
    ⟨hdec, hpast.checked, fun _ => hpast.path (by rw [hp]; nofun), nofun, fun _ => hpast.vector (.inl hp), nofun,
      hpast.queued, hpast.running⟩
  obtain ⟨-, ⟨hnone, -⟩ | ⟨hlen, hunit, hqueue⟩⟩ := h.fork hp
  · exact absurd hnone hsome
  · exact inv_of_pool ⟨.inr ⟨rfl, rfl, hqueue.trans hunit⟩, hlen, fun hex => absurd hex (h.not_exited_of_fork hp), h.present⟩
      (h.status_of_active ha) hrun h.memory h.snapshot h.kernel

/-- The join (R129): some worker has exited, so the queue is empty, and no pool is left. -/
theorem inv_joins {i : Instr} {s : State} (h : Inv s) (hdec : decode s.latch.cmd = some i) (hp : s.phase = .run)
    (hexited : allExited s = true) : Inv (afterCompute (commandOf i) { s with workers := [], stop := false }) := by
  have ha : s.phase.active = true := by rw [hp]; rfl
  have hpast := h.pastValidation hdec ha (by rw [hp]; nofun)
  have hpos := nWorkers_pos s.cfg
  obtain ⟨-, hlen, -⟩ := h.run hp
  obtain ⟨w, hw⟩ := List.exists_mem_of_length_pos (by omega : 0 < s.workers.length)
  have hwx : w = .exited := by simpa using List.all_eq_true.1 hexited w hw
  obtain ⟨hqueue, -⟩ := h.exited (hwx ▸ hw)
  exact inv_afterCompute (s := { s with workers := [], stop := false }) (h.status_of_active ha) ⟨rfl, hqueue, rfl⟩
    (hpast.congr rfl (map := s.cfg.memMap) rfl rfl rfl hpast.queued nofun) (by simp [hp]) h.memory h.snapshot h.kernel

/-- Every move of `SEQ` or of a worker keeps the invariant. -/
theorem Inv.move {i : Instr} {s t : State} (h : Inv s) (hdec : decode s.latch.cmd = some i) (hmove : Move (commandOf i) s t) : Inv t := by
  cases hmove with
  | stays eq => exact eq ▸ h
  | fails phase e check eq =>
    obtain ⟨hnone, hfatal⟩ := firstFailure_code check
    exact eq ▸ inv_failClosed h (by rw [phase]; rfl) (h.noPool_of (by rw [phase]; nofun) (by rw [phase]; nofun)) hnone hfatal
  | passes phase check eq => exact eq ▸ inv_passes h hdec phase check
  | prepares phase eq => exact eq ▸ inv_prepare h hdec phase
  | scalarItem phase it m o cur run eq => exact eq ▸ inv_stores h hdec (.inl phase) (runItem_wf i h.memory run) o cur
  | scalarFault phase eq => exact eq ▸ inv_takeFatalFault h (by rw [phase]; rfl) _
  | scalarDone phase eq =>
    have ha : s.phase.active = true := by rw [phase]; rfl
    exact eq ▸ inv_afterCompute (h.status_of_active ha) (h.noPool_of (by rw [phase]; nofun) (by rw [phase]; nofun))
      (h.pastValidation hdec ha (by rw [phase]; nofun)) (by rw [phase]; nofun) h.memory h.snapshot h.kernel
  | constructs phase hnone eq => exact eq ▸ inv_constructs h hdec phase hnone
  | enqueues phase hsome lt eq => exact eq ▸ inv_enqueues h hdec phase hsome lt (isTaskOf_taskOf i s lt)
  | drains phase hsome ge eq => exact eq ▸ inv_drains h hdec phase hsome
  | joins phase exited eq => exact eq ▸ inv_joins h hdec phase exited
  | copies phase x y p m cur write eq => exact eq ▸ inv_stores h hdec (.inr phase) (pixWrite_wf h.memory write) s.out cur
  | skips phase cur eq => exact eq ▸ inv_stores h hdec (.inr phase) h.memory s.out cur
  | copyFault phase eq => exact eq ▸ inv_takeFatalFault h (by rw [phase]; rfl) _
  | copied phase eq =>
    exact eq ▸ inv_endSuccess (h.status_of_active (by rw [phase]; rfl)) (h.noPool_of (by rw [phase]; nofun) (by rw [phase]; nofun))
      h.memory h.snapshot h.kernel
  | pops active j lt was task rest queue cur eq =>
    refine eq ▸ h.setWorker hdec active lt (queue ▸ List.suffix_cons task rest) nofun nofun (fun u _ hw hpast => ?_) h.memory
    cases hw
    exact hpast.queued task (queue ▸ List.mem_cons_self)
  | exits active j lt was queue stop eq =>
    exact eq ▸ h.setWorker hdec active lt List.suffix_rfl nofun (fun _ => ⟨queue, stop⟩) nofun h.memory
  | works active j lt task cur cur' was it m o run eq =>
    refine eq ▸ h.setWorker hdec active lt List.suffix_rfl nofun nofun (fun u _ hw hpast => ?_) (runItem_wf i h.memory run)
    cases hw
    exact isTaskOf_of_running hpast lt was
  | workFault active eq => exact eq ▸ inv_takeFatalFault h active _
  | rests active j lt task cur was eq => exact eq ▸ h.setWorker hdec active lt List.suffix_rfl nofun nofun nofun h.memory

/-! ### The run of a command -/

/-- The invariant speaks neither of the register block, nor of the host's own fields, nor of the memory map, and of memory its form only. -/
theorem inv_hostFields {s : State} (h : Inv s) (g : HostRegs) {m : Memory} (hm : m.wf = true) (map : List MemRegion)
    (q : List HostMove) (w : Word) (sc : List Turn) :
    Inv { s with regs := g, mem := m, cfg := withMemMap map s.cfg, hostQ := q, lastRead := w, sched := sc } :=
  { h with
    memory := hm
    latched := fun ha hv => (h.latched ha hv).imp fun _ hpast => hpast.congr rfl rfl rfl rfl hpast.queued hpast.running }

theorem inv_engineStep {i : Instr} {s : State} (h : Inv s) (hdec : decode s.latch.cmd = some i) : Inv (engineStep (commandOf i) s) :=
  Inv.move (inv_hostFields h s.regs h.memory s.cfg.memMap s.hostQ s.lastRead (nextTurn s.sched).2) hdec (engineStep_move (commandOf i) s)

theorem inv_runCommand {i : Instr} {s : State} (h : Inv s) (hdec : decode s.latch.cmd = some i) : Inv (runCommand (commandOf i) s) := by
  have hkeep := runSteps_keeps (k := commandOf i) (P := fun u => Inv u ∧ decode u.latch.cmd = some i)
    (fun u ⟨hu, hd⟩ => ⟨inv_engineStep hu hd, by rw [engineStep_latch]; exact hd⟩) (stepBound s) s ⟨h, hdec⟩
  exact hkeep.1

/-! ### The moves of the host -/

/-- The kernel store after reset (log 6). -/
theorem kernelShape_reset (c : Cfg) : KernelShape c ⟨0, [0]⟩ := ⟨Nat.zero_le _, rfl⟩

theorem inv_resetEvent {s : State} (h : s.mem.wf = true) (cut : CutBytes) : Inv (resetEvent cut s) :=
  inv_of_idle rfl rfl rfl (by simp [Status.cleared]) ⟨rfl, rfl, rfl⟩ (wf_cutFootprint h cut) rfl (kernelShape_reset s.cfg)

/-- The accepted doorbell (R112): it needs `FATAL = 0`, and no pool is left from an earlier command. -/
theorem inv_acceptCommand {s : State} (h : Inv s) (hidle : s.phase = .idle) (c : Word) : Inv (acceptCommand c s) := by
  have hpool := h.noPool_of (by rw [hidle]; nofun) (by rw [hidle]; nofun)
  obtain ⟨-, hfatal⟩ := h.idle.1 hidle
  exact inv_of_noPool rfl (vector := false) (fallback := false) (by simp [Status.accepted, Status.onPath, Status.running, hfatal])
    ⟨hpool.workers, hpool.queue, hpool.stop⟩ nofun nofun (fun _ => ⟨rfl, rfl⟩) (absurd rfl) h.memory h.memory h.kernel

theorem inv_hostEffect {s t : State} (h : Inv s) (heff : HostEffect s t) : Inv t := by
  cases heff with
  | reads q w eq => exact eq ▸ inv_hostFields h s.regs h.memory s.cfg.memMap q w s.sched
  | writes q g eq => exact eq ▸ inv_hostFields h g h.memory s.cfg.memMap q s.lastRead s.sched
  | rings c q move quiet idle eq =>
    exact eq ▸ inv_acceptCommand (inv_hostFields h s.regs h.memory s.cfg.memMap q s.lastRead s.sched) idle c
  | resets q move cut eq => exact eq ▸ inv_resetEvent (s := { s with hostQ := q }) h.memory cut
  | stores q a b eq => exact eq ▸ inv_hostFields h s.regs (Memory.wf_write h.memory a b) s.cfg.memMap q s.lastRead s.sched
  | unmaps q gone eq => exact eq ▸ inv_hostFields h s.regs h.memory _ q s.lastRead s.sched

/-- Every step of the machine keeps the invariant. -/
theorem inv_step {s t : State} (h : Inv s) (hstep : step s = .next t) : Inv t := by
  rcases step_cases hstep with heff | ⟨-, i, hdec, rfl⟩ | ⟨hp, rfl⟩
  · exact inv_hostEffect (inv_hostFields h s.regs h.memory s.cfg.memMap s.hostQ s.lastRead _) heff
  · exact inv_runCommand h hdec
  · exact inv_failClosed h (by rw [hp]; rfl) (h.noPool_of (by rw [hp]; nofun) (by rw [hp]; nofun)) nofun nofun

end Sys2Proof.Machine

namespace Sys2Proof

open Machine

/-- Settles O40: the state after reset is an ended one, with no pool and a kernel store of one weight. -/
theorem invariantAtReset : Obligations.InvariantAtReset :=
  inv_of_idle rfl rfl rfl (by simp [State.reset, Status.cleared]) ⟨rfl, rfl, rfl⟩ rfl rfl (kernelShape_reset _)

/-- Settles O41: a step is a move of the host or a run of moves of the engine's agents, and each of them keeps the invariant. -/
theorem invariantKept : Obligations.InvariantKept := by
  unfold Obligations.InvariantKept
  intro s t h hstep
  exact inv_step h hstep

end Sys2Proof
end

section
/-! PROOFS. The words the host reads, field by field: `STATUS` (R28, R240) and `CAP` (R31). -/

namespace Sys2Proof.Machine

/-! ### `STATUS` -/

theorem toWord_flags (f : Status) :
    f.toWord.getLsbD 0 = f.busy ∧ f.toWord.getLsbD 1 = f.done ∧ f.toWord.getLsbD 2 = f.ok ∧ f.toWord.getLsbD 3 = f.fatal ∧
    f.toWord.getLsbD 8 = f.path ∧ f.toWord.getLsbD 9 = f.fallback := by
  simp only [Status.toWord, BitVec.getLsbD_append]
  simp

theorem toWord_err (f : Status) : f.toWord.extractLsb' 4 4 = f.err.code := by
  simp only [Status.toWord]
  rw [BitVec.extractLsb'_append_eq_of_add_le (by decide), BitVec.extractLsb'_append_eq_of_add_le (by decide),
    BitVec.extractLsb'_append_eq_of_add_le (by decide)]
  exact BitVec.extractLsb'_append_eq_left

theorem toWord_reserved (f : Status) : f.toWord.extractLsb' 10 22 = 0 := BitVec.extractLsb'_append_eq_left

theorem toWord_getLsbD_reserved (f : Status) {k : Nat} (h : 10 ≤ k) : f.toWord.getLsbD k = false := by
  simp only [Status.toWord, BitVec.getLsbD_append (n := 22)]
  rw [if_neg (by omega), BitVec.getLsbD_zero]

theorem toWord_cleared : Status.cleared.toWord = 0 := rfl

/-! ### `CAP` -/

theorem capWord_wide (c : Cfg) : (capWord c).getLsbD 0 = wide c := by
  simp only [capWord, BitVec.getLsbD_append]
  simp

theorem capWord_reserved (c : Cfg) : (capWord c).extractLsb' 1 7 = 0 := by
  simp only [capWord]
  rw [BitVec.extractLsb'_append_eq_of_add_le (by decide)]
  exact BitVec.extractLsb'_append_eq_left

theorem capWord_nWorkers (c : Cfg) : (capWord c).extractLsb' 8 8 = BitVec.ofNat 8 (nWorkers c) := by
  simp only [capWord]
  rw [BitVec.extractLsb'_append_eq_of_le (by decide)]
  exact BitVec.extractLsb'_append_eq_right

theorem capWord_vectorWidth (c : Cfg) : (capWord c).extractLsb' 16 8 = BitVec.ofNat 8 (vectorWidth c) := by
  simp only [capWord]
  rw [BitVec.extractLsb'_append_eq_of_le (by decide), BitVec.extractLsb'_append_eq_of_le (by decide)]
  exact BitVec.extractLsb'_append_eq_right

theorem capWord_rMax (c : Cfg) : (capWord c).extractLsb' 24 8 = BitVec.ofNat 8 (rMax c) := by
  simp only [capWord]
  rw [BitVec.extractLsb'_append_eq_of_le (by decide), BitVec.extractLsb'_append_eq_of_le (by decide)]
  exact BitVec.extractLsb'_append_eq_left

theorem capWord_getLsbD_reserved (c : Cfg) {k : Nat} (h1 : 1 ≤ k) (h7 : k ≤ 7) : (capWord c).getLsbD k = false := by
  have h := congrArg (fun v : BitVec 7 => v.getLsbD (k - 1)) (capWord_reserved c)
  simpa [BitVec.getLsbD_extractLsb', show k - 1 < 7 by omega, show 1 + (k - 1) = k by omega] using h

theorem nWorkers_bounds (c : Cfg) : 2 ≤ nWorkers c ∧ nWorkers c ≤ 255 := by
  unfold nWorkers
  split <;> omega

theorem vectorWidth_le (c : Cfg) : vectorWidth c ≤ 254 := by
  unfold vectorWidth
  omega

theorem rMax_le (c : Cfg) : rMax c ≤ 255 := by
  unfold rMax
  omega

theorem toNat_ofNat_byte {n : Nat} (h : n ≤ 255) : (BitVec.ofNat 8 n).toNat = n := by
  rw [BitVec.toNat_ofNat]
  omega

end Sys2Proof.Machine
end

section
/-! PROOFS. The statements about the register block: what reads return, which writes are ignored, what starts a command, and the reset. -/

namespace Sys2Proof.Machine

theorem decode_of_rsv {w : Word} (h : w.extractLsb' 5 27 ≠ 0) : decode w = none := if_pos (by simpa [fieldsOf] using h)

theorem decode_of_hint {w : Word} (hint : w.getLsbD 4 = true) (hop : (w.extractLsb' 0 4).toNat ≤ 6) : decode w = none := by
  have hne : (fieldsOf w).op ≠ 7 := by
    intro h7
    rw [show w.extractLsb' 0 4 = 7 from h7] at hop
    exact absurd hop (by decide)
  unfold decode
  dsimp only
  split
  · rfl
  · rw [if_neg (by simpa using hne)]
    exact if_pos hint

/-- The schedule `withFetchWord` leaves gives the engine the turn. -/
theorem hostTurnNext_dropWhile (s : State) : hostTurnNext { s with sched := s.sched.dropWhile (· == .host) } = false := by
  have hhead := List.head?_dropWhile_not (· == Turn.host) s.sched
  unfold hostTurnNext
  dsimp only
  cases hd : (s.sched.dropWhile (· == .host)).head? with
  | none => rfl
  | some t => simpa [hd] using hhead

/-- A reset while no command runs cuts nothing. -/
theorem runningCut_of_not_active {s : State} (h : s.phase.active = false) : runningCut s = [] := if_neg (by simp [h])

theorem step_of_reset {s : State} {q : List HostMove} (hidle : s.phase.active = false) (hq : s.hostQ = .reset :: q) :
    step s = .next (resetEvent [] { s with hostQ := q }) := by
  rw [step_of_hostMovesNext (.inl hidle)]
  simp only [hostMove, hq, schedAfterHost, hidle, runningCut_of_not_active]
  rfl

end Sys2Proof.Machine

namespace Sys2Proof

open Machine

/-- Settles O5: `withFetchWord` leaves the phase `VALIDATE` and a schedule that does not begin with the host. -/
theorem stepRunsTheLatchedCommand : Obligations.StepRunsTheLatchedCommand := by
  unfold Obligations.StepRunsTheLatchedCommand
  refine ⟨fun s i => step_of_decoded, fun s n w i hdec => ⟨rfl, rfl, ?_⟩⟩
  exact step_of_decoded rfl (hostTurnNext_dropWhile s) hdec

/-- Settles O6: the offset names one register, which the write replaces; every other offset names another one, or none. -/
theorem registersHoldWhatIsWritten : Obligations.RegistersHoldWhatIsWritten := by
  unfold Obligations.RegistersHoldWhatIsWritten
  intro s off v q hinv hidle hoff hq
  obtain ⟨r, hr, hrw⟩ := exists_reg_of_mem_readWriteOffsets hoff
  obtain ⟨hbusy, hfatal⟩ := hinv.idle.1 hidle
  have hactive : s.phase.active = false := by rw [hidle]; rfl
  have hsched : schedAfterHost s = s.sched := if_neg (by simp [hactive])
  have hne : r ≠ .cmd := by
    rintro rfl
    cases hrw
  have hstep := step_of_write (.inl hactive) hq
  rw [writeOffset_of_regAt hr hne (by simp [hbusy, hfatal]), hsched] at hstep
  exact ⟨_, hstep, readOffset_put_same hr hrw { s with hostQ := q } v,
    fun off' h => readOffset_put_other hr h { s with hostQ := q } v, rfl⟩

/-- Settles O7: an offset outside the table names no register, the read-only registers store nothing, and the reserved bits of the words
are zeros where the fields are joined. -/
theorem reservedAndReadOnlyRegisters : Obligations.ReservedAndReadOnlyRegisters := by
  unfold Obligations.ReservedAndReadOnlyRegisters
  refine ⟨fun s off h h0 h4 h8 => readOffset_of_none (regAt_eq_none h h0 h4 h8) s, ?_, ?_, ?_⟩
  · intro s off v q hnext hq hign
    rw [step_of_write hnext hq]
    rcases hign with ⟨hoff, h0⟩ | hbusy
    · rw [writeOffset_of_not_readWrite hoff h0]
    · exact congrArg _ (writeOffset_of_busy_or_fatal (s := { s with hostQ := q, sched := schedAfterHost s }) hbusy off v)
  · exact fun s k => ⟨toWord_getLsbD_reserved s.status, capWord_getLsbD_reserved s.cfg⟩
  · rintro w (hrsv | ⟨hint, -, hop⟩)
    · exact decode_of_rsv hrsv
    · exact decode_of_hint hint hop

/-- Settles O10: of the host's moves only the accepted doorbell leads out of `IDLE`. -/
theorem onlyTheDoorbellStartsACommand : Obligations.OnlyTheDoorbellStartsACommand := by
  unfold Obligations.OnlyTheDoorbellStartsACommand
  refine ⟨readOffset_cmd, fun s t _ hidle hstep hleft => ?_⟩
  exact ((step_of_idle hidle hstep).idle hidle).resolve_left hleft

/-- Settles O11: each field stands where R28 puts it. -/
theorem statusLayout : Obligations.StatusLayout := by
  unfold Obligations.StatusLayout
  intro s
  rw [readOffset_status]
  obtain ⟨hbusy, hdone, hok, hfatal, hpath, hfallback⟩ := toWord_flags s.status
  refine ⟨hbusy, hdone, hok, hfatal, ?_, hpath, hfallback, toWord_reserved s.status⟩
  rw [toWord_err]
  cases s.status.err <;> rfl

/-- Settles O12: `CAP` is a function of the configuration, of which a step changes the memory map only; each of its fields is a byte. -/
theorem capLayoutAndConstancy : Obligations.CapLayoutAndConstancy := by
  unfold Obligations.CapLayoutAndConstancy
  refine ⟨fun s => ?_, fun c => rfl, fun s t hstep => step_cap hstep, fun s q => step_of_read, fun s v q hnext hq => ?_⟩
  · obtain ⟨hlow, hhigh⟩ := nWorkers_bounds s.cfg
    have hvw := vectorWidth_le s.cfg
    have hr := rMax_le s.cfg
    rw [readOffset_cap, capWord_nWorkers, capWord_vectorWidth, capWord_rMax]
    exact ⟨capWord_wide s.cfg, capWord_reserved s.cfg, toNat_ofNat_byte hhigh, hlow, hhigh, toNat_ofNat_byte (by omega), hvw,
      toNat_ofNat_byte hr⟩
  · rw [step_of_write hnext hq, writeOffset_of_not_readWrite (by decide) (by decide)]

/-- Settles O14: in `IDLE` the host alone moves, and of its moves only the doorbell and the reset write `STATUS`. -/
theorem resultStaysReadable : Obligations.ResultStaysReadable := by
  unfold Obligations.ResultStaysReadable
  intro s t _ hidle hstep hbell hreset
  rcases (step_of_idle hidle hstep).status with heq | ⟨c, q, hq⟩ | ⟨q, hq⟩
  · exact heq
  · exact absurd hq (hbell c q)
  · exact absurd hq (hreset q)

/-- Settles O15: the values of the reset state, and that the reset event sets them and cuts no footprint while no command runs. -/
theorem resetValues : Obligations.ResetValues := by
  unfold Obligations.ResetValues
  refine ⟨⟨rfl, toWord_cleared, rfl, fun off => readOffset_of_regs_zero rfl, rfl, rfl, rfl, rfl⟩, fun s q hidle hq => ?_⟩
  exact ⟨_, step_of_reset hidle hq, rfl, toWord_cleared, rfl, fun off => readOffset_of_regs_zero rfl, rfl, rfl, rfl, rfl, rfl⟩

end Sys2Proof
end

section
/-! PROOFS. The engine neither reads nor writes the register block (R33, R79): each of its operations commutes with putting other values
into the read-write registers, from one item up to the run of a command. -/

namespace Sys2Proof.Machine

/-- The state with other values in the read-write registers. -/
def withRegs (g : HostRegs) (s : State) : State := { s with regs := g }

@[simp] theorem withRegs_status (g : HostRegs) (s : State) : (withRegs g s).status = s.status := rfl
@[simp] theorem withRegs_latch (g : HostRegs) (s : State) : (withRegs g s).latch = s.latch := rfl
@[simp] theorem withRegs_phase (g : HostRegs) (s : State) : (withRegs g s).phase = s.phase := rfl
@[simp] theorem withRegs_cursor (g : HostRegs) (s : State) : (withRegs g s).cursor = s.cursor := rfl
@[simp] theorem withRegs_kernel (g : HostRegs) (s : State) : (withRegs g s).kernel = s.kernel := rfl
@[simp] theorem withRegs_workers (g : HostRegs) (s : State) : (withRegs g s).workers = s.workers := rfl
@[simp] theorem withRegs_queue (g : HostRegs) (s : State) : (withRegs g s).queue = s.queue := rfl
@[simp] theorem withRegs_stop (g : HostRegs) (s : State) : (withRegs g s).stop = s.stop := rfl
@[simp] theorem withRegs_out (g : HostRegs) (s : State) : (withRegs g s).out = s.out := rfl
@[simp] theorem withRegs_mem (g : HostRegs) (s : State) : (withRegs g s).mem = s.mem := rfl
@[simp] theorem withRegs_cfg (g : HostRegs) (s : State) : (withRegs g s).cfg = s.cfg := rfl
@[simp] theorem withRegs_sched (g : HostRegs) (s : State) : (withRegs g s).sched = s.sched := rfl
@[simp] theorem withRegs_freeCount (g : HostRegs) (s : State) : (withRegs g s).freeCount = s.freeCount := rfl

theorem runOn_withRegs (k : Command) (it : Item) {fin : State → State} (g : HostRegs)
    (hfin : ∀ u, fin (withRegs g u) = withRegs g (fin u)) (s : State) :
    runOn k it fin (withRegs g s) = withRegs g (runOn k it fin s) := by
  unfold runOn
  simp only [withRegs_cfg, withRegs_latch, withRegs_kernel, withRegs_mem, withRegs_out]
  split
  · next m o _ => exact hfin { s with mem := m, out := o }
  · rfl

theorem afterCompute_withRegs (k : Command) (g : HostRegs) (s : State) :
    afterCompute k (withRegs g s) = withRegs g (afterCompute k s) := by
  unfold afterCompute
  rw [apply_ite (withRegs g)]
  rfl

theorem prepare_withRegs (k : Command) (g : HostRegs) (s : State) : prepare k (withRegs g s) = withRegs g (prepare k s) := by
  unfold prepare
  simp only [withRegs_cfg, withRegs_latch, withRegs_kernel, withRegs_freeCount]
  split <;> rfl

theorem scalarStep_withRegs (k : Command) (g : HostRegs) (s : State) :
    scalarStep k (withRegs g s) = withRegs g (scalarStep k s) := by
  unfold scalarStep
  simp only [withRegs_cfg, withRegs_latch, withRegs_cursor]
  split
  · refine runOn_withRegs k _ g ?_ s
    exact fun _ => rfl
  · exact afterCompute_withRegs k g s

theorem forkStep_withRegs (k : Command) (g : HostRegs) (s : State) : forkStep k (withRegs g s) = withRegs g (forkStep k s) := by
  unfold forkStep
  dsimp only
  rw [apply_ite (withRegs g), apply_ite (withRegs g)]
  rfl

theorem copyBackStep_withRegs (k : Command) (g : HostRegs) (s : State) :
    copyBackStep k (withRegs g s) = withRegs g (copyBackStep k s) := by
  unfold copyBackStep
  dsimp only
  rw [apply_ite (withRegs g), apply_ite (withRegs g)]
  congr 2
  simp only [withRegs_cfg, withRegs_latch, withRegs_mem, withRegs_out, withRegs_cursor]
  split <;> rfl

theorem seqStep_withRegs (k : Command) (g : HostRegs) (s : State) : seqStep k (withRegs g s) = withRegs g (seqStep k s) := by
  unfold seqStep
  simp only [withRegs_cfg, withRegs_latch, withRegs_phase]
  split
  · split <;> rfl
  · exact prepare_withRegs k g s
  · exact scalarStep_withRegs k g s
  · exact forkStep_withRegs k g s
  · exact afterCompute_withRegs k g { s with workers := [], stop := false }
  · exact copyBackStep_withRegs k g s
  · rfl
  · rfl

theorem workerStep_withRegs (k : Command) (i : Nat) (g : HostRegs) (s : State) :
    workerStep k i (withRegs g s) = withRegs g (workerStep k i s) := by
  unfold workerStep
  simp only [withRegs_cfg, withRegs_latch, withRegs_workers, withRegs_queue]
  split
  · split
    · rfl
    · rw [apply_ite (withRegs g)]
      rfl
  · split
    · refine runOn_withRegs k _ g ?_ s
      exact fun _ => rfl
    · rfl
  · rfl
  · rfl

theorem enabledAgents_withRegs (g : HostRegs) (s : State) : enabledAgents (withRegs g s) = enabledAgents s := rfl

theorem engineStep_withRegs (k : Command) (g : HostRegs) (s : State) :
    engineStep k (withRegs g s) = withRegs g (engineStep k s) := by
  unfold engineStep
  dsimp only
  rw [enabledAgents_withRegs]
  split
  · next a ha =>
    rw [withRegs_sched] at ha
    rw [ha]
    cases a with
    | seq => exact seqStep_withRegs k g { s with sched := (nextTurn s.sched).2 }
    | worker i => exact workerStep_withRegs k i g { s with sched := (nextTurn s.sched).2 }
  · next ha =>
    rw [withRegs_sched] at ha
    rw [ha]
    rfl

theorem runSteps_withRegs (k : Command) (g : HostRegs) :
    ∀ n s, runSteps k n (withRegs g s) = withRegs g (runSteps k n s)
  | 0, _ => rfl
  | n + 1, s => by
    unfold runSteps
    rw [engineStep_withRegs, runSteps_withRegs k g n]
    exact (apply_ite (withRegs g) _ _ _).symm

theorem runCommand_withRegs (k : Command) (g : HostRegs) (s : State) :
    runCommand k (withRegs g s) = withRegs g (runCommand k s) := runSteps_withRegs k g (stepBound s) s

/-- Whether a command is refused does not depend on the register block. -/
theorem commandOutcome_withRegs (k : Command) (g : HostRegs) (s : State) :
    commandOutcome k (withRegs g s) =
      match commandOutcome k s with
      | .next t => .next (withRegs g t)
      | .fault f => .fault f
      | .refused r => .refused r := by
  have hends : endsUnmapped k (withRegs g s) (withRegs g (runCommand k s)) = endsUnmapped k s (runCommand k s) := rfl
  have hfails : failsClosed k (withRegs g s) = failsClosed k s := rfl
  unfold commandOutcome
  rw [runCommand_withRegs, hends, hfails, withRegs_latch]
  split
  · rfl
  · split <;> rfl

end Sys2Proof.Machine

namespace Sys2Proof

open Machine

/-- Settles O38: putting other values into the registers commutes with every step of a run, and with the tests that refuse one. -/
theorem runningCommandIgnoresRegisters : Obligations.RunningCommandIgnoresRegisters := by
  unfold Obligations.RunningCommandIgnoresRegisters
  intro i s g
  rw [exec_eq, exec_eq]
  exact commandOutcome_withRegs (commandOf i) g s

end Sys2Proof
end

section
/-! PROOFS. The statements about pixel memory: the bytes of a command's footprint (R80), and the host's own loads and stores (R60, R70). -/

namespace Sys2Proof.Machine

/-! ### The footprint -/

theorem inPixels_iff_not_offImage {g : HostRegs} (hS : RowsFit g) (a : Nat) : inPixels g a = true ↔ ¬ OffImage g a := by
  rw [offImage_iff hS, Bool.not_eq_false]

theorem inPlanes_iff (g : HostRegs) (a : Nat) : inPlanes g a = true ↔ ∃ x < g.width, ∃ y < g.height, a ∈ sampleAddrs g x y := by
  simp only [inPlanes, List.any_eq_true, List.contains_iff_mem, Prod.exists, mem_pixelCoords]
  constructor
  · rintro ⟨x, y, ⟨hx, hy⟩, ha⟩
    exact ⟨x, hx, y, hy, ha⟩
  · rintro ⟨x, hx, y, hy, ha⟩
    exact ⟨x, y, ⟨hx, hy⟩, ha⟩

theorem pointwise_footprint_iff (f : Pixel → Pixel) (c : Cfg) {g : HostRegs} (hS : RowsFit g) (a : Nat) :
    (pointwiseCommand f).footprint c g a = true ↔ ¬ OffImage g a := inPixels_iff_not_offImage hS a

theorem yuv_footprint_iff (hint : Bool) (c : Cfg) {g : HostRegs} (hS : RowsFit g) (a : Nat) :
    (yuvCommand hint).footprint c g a = true ↔ ¬ OffImage g a ∨ ∃ x < g.width, ∃ y < g.height, a ∈ sampleAddrs g x y := by
  rw [← inPixels_iff_not_offImage hS, ← inPlanes_iff]
  exact Bool.or_eq_true_iff

/-- A filter touches the pixels when it has a border to clear or an interior to compute (R80). -/
theorem filter_footprint_iff (f : Filter) (c : Cfg) {g : HostRegs} (hS : RowsFit g) (a : Nat) :
    (filterCommand f).footprint c g a = true ↔
      ¬ OffImage g a ∧ (c.borderPolicy = .zero ∨ (2 * f.radius g < g.width ∧ 2 * f.radius g < g.height)) := by
  rw [← inPixels_iff_not_offImage hS]
  simp only [filterCommand, Bool.and_eq_true, Bool.or_eq_true, beq_iff_eq, decide_eq_true_eq]

theorem filter_writes_iff (f : Filter) (c : Cfg) (g : HostRegs) (x y : Nat) :
    (filterCommand f).writes c g x y = true ↔ c.borderPolicy = .zero ∨ IsInterior g (f.radius g) x y := by
  rw [← interior_iff]
  simp only [filterCommand, Bool.or_eq_true, beq_iff_eq]

/-! ### The host's loads and stores -/

theorem inRunningFootprint_of_not_active {s : State} (h : s.phase.active = false) (a : Nat) : inRunningFootprint s a = false := by
  simp [inRunningFootprint, h]

theorem schedAfterHost_of_not_active {s : State} (h : s.phase.active = false) : schedAfterHost s = s.sched := if_neg (by simp [h])

theorem hostAccess_of_admissible {s : State} {a : Nat} (hfoot : inRunningFootprint s a = false) (hadm : admissible s.cfg a = true)
    (f : State → State) : hostAccess a f s = .next (f s) := by
  simp [hostAccess, hfoot, hadm]

/-- The step in which the host stores a byte. -/
theorem step_of_store {s : State} {a : Nat} {b : Byte} {q : List HostMove} (hnext : HostMovesNext s) (hq : s.hostQ = .store a b :: q) :
    step s = hostAccess a (fun u => { u with mem := u.mem.write a b }) { s with hostQ := q, sched := schedAfterHost s } := by
  rw [step_of_hostMovesNext hnext]
  simp only [hostMove, hq]

/-- The step in which the host loads a byte. -/
theorem step_of_load {s : State} {a : Nat} {q : List HostMove} (hnext : HostMovesNext s) (hq : s.hostQ = .load a :: q) :
    step s = hostAccess a (fun u => { u with lastRead := (u.mem.read a).setWidth 32 })
      { s with hostQ := q, sched := schedAfterHost s } := by
  rw [step_of_hostMovesNext hnext]
  simp only [hostMove, hq]

/-- While no command runs no byte is in a footprint, and the host's move uses up no turn of the schedule. -/
theorem step_of_store_of_not_active {s : State} {a : Nat} {b : Byte} {q : List HostMove} (hidle : s.phase.active = false)
    (hq : s.hostQ = .store a b :: q) (hadm : admissible s.cfg a = true) :
    step s = .next { s with hostQ := q, mem := s.mem.write a b } := by
  rw [step_of_store (.inl hidle) hq, schedAfterHost_of_not_active hidle]
  exact hostAccess_of_admissible (s := { s with hostQ := q }) (inRunningFootprint_of_not_active hidle a) hadm _

theorem step_of_load_of_not_active {s : State} {a : Nat} {q : List HostMove} (hidle : s.phase.active = false) (hq : s.hostQ = .load a :: q)
    (hadm : admissible s.cfg a = true) :
    step s = .next { s with hostQ := q, lastRead := (s.mem.read a).setWidth 32 } := by
  rw [step_of_load (.inl hidle) hq, schedAfterHost_of_not_active hidle]
  exact hostAccess_of_admissible (s := { s with hostQ := q }) (inRunningFootprint_of_not_active hidle a) hadm _

end Sys2Proof.Machine

namespace Sys2Proof

open Machine

/-- Settles O55: one lemma a family, the filters at their radii. -/
theorem footprintTable : Obligations.FootprintTable := by
  unfold Obligations.FootprintTable
  intro i c g hS
  cases i with
  | gray => exact ⟨pointwise_footprint_iff grayPixel c hS, fun x _ y _ => iff_of_true rfl trivial⟩
  | neg => exact ⟨pointwise_footprint_iff negPixel c hS, fun x _ y _ => iff_of_true rfl trivial⟩
  | blur => exact ⟨filter_footprint_iff blurFilter c hS, fun x _ y _ => filter_writes_iff blurFilter c g x y⟩
  | sharp => exact ⟨filter_footprint_iff sharpFilter c hS, fun x _ y _ => filter_writes_iff sharpFilter c g x y⟩
  | emboss => exact ⟨filter_footprint_iff embossFilter c hS, fun x _ y _ => filter_writes_iff embossFilter c g x y⟩
  | edge => exact ⟨filter_footprint_iff edgeFilter c hS, fun x _ y _ => filter_writes_iff edgeFilter c g x y⟩
  | yuv2rgba hint => exact ⟨yuv_footprint_iff hint c hS, fun x _ y _ => iff_of_true rfl trivial⟩

/-- Settles O56: two moves of the host, and a read after a write in a memory of canonical form. -/
theorem hostStoreThenLoad : Obligations.HostStoreThenLoad := by
  unfold Obligations.HostStoreThenLoad
  intro s a a' b q hinv hidle hq ha ha'
  refine ⟨_, _, step_of_store_of_not_active hidle hq ha, step_of_load_of_not_active hidle rfl ha', rfl, ?_⟩
  dsimp only
  rw [Memory.read_write hinv.memory]

end Sys2Proof
end

section
/-! PROOFS. The statements about the command words: which word decodes to which command (R92, R99), and what an illegal one does
(R94, R242). -/

namespace Sys2Proof

open Machine

/-! ### The words of the commands -/

theorem encode_gray : encode .gray = 0x01#32 := by decide
theorem encode_neg : encode .neg = 0x02#32 := by decide
theorem encode_blur : encode .blur = 0x03#32 := by decide
theorem encode_sharp : encode .sharp = 0x04#32 := by decide
theorem encode_emboss : encode .emboss = 0x05#32 := by decide
theorem encode_edge : encode .edge = 0x06#32 := by decide
theorem encode_yuv2rgba_false : encode (.yuv2rgba false) = 0x07#32 := by decide
theorem encode_yuv2rgba_true : encode (.yuv2rgba true) = 0x17#32 := by decide

theorem roundTrip (i : Instr) : Laws.RoundTrip.Statement i := by
  cases i with
  | gray => exact Laws.RoundTrip.gray
  | neg => exact Laws.RoundTrip.neg
  | blur => exact Laws.RoundTrip.blur
  | sharp => exact Laws.RoundTrip.sharp
  | emboss => exact Laws.RoundTrip.emboss
  | edge => exact Laws.RoundTrip.edge
  | yuv2rgba hint => exact Laws.RoundTrip.yuv2rgba hint

@[simp] theorem decode_encode (i : Instr) : decode (encode i) = some i := (roundTrip i).2

/-! ### Legal fields are a command's -/

/-- The three fields are the whole word (R90). -/
theorem toWord_fieldsOf (w : Word) : (fieldsOf w).toWord = w := by
  refine BitVec.eq_of_getLsbD_eq fun k hk => ?_
  simp only [CmdFields.toWord, fieldsOf, BitVec.getLsbD_append, BitVec.getLsbD_extractLsb', BitVec.getLsbD_ofBool]
  rcases lt_trichotomy k 4 with hop | rfl | hrsv
  · simp [hop, hop.trans (by decide : 4 < 1 + 4)]
  · rfl
  · have hlt : k - 5 < 27 := by omega
    have hsum : 5 + (k - 5) = k := by omega
    simp [show ¬ k < 1 + 4 by omega, hlt, hsum]

theorem CmdFields.wellFormed_iff (f : CmdFields) :
    f.wellFormed = true ↔ f.op ≠ 0 ∧ f.op.toNat < 8 ∧ f.rsv = 0 ∧ (f.vhint = false ∨ f.op = 7) := by
  simp only [wellFormed, opNotZero, opBelowEight, rsvZero, hintAllowed, Bool.and_eq_true, bne_iff_ne, decide_eq_true_eq, beq_iff_eq,
    Bool.or_eq_true, Bool.not_eq_true', and_assoc]

theorem op_of_legal : ∀ op : BitVec 4, op ≠ 0 → op.toNat < 8 →
    op = 1 ∨ op = 2 ∨ op = 3 ∨ op = 4 ∨ op = 5 ∨ op = 6 ∨ op = 7 := by decide

theorem exists_fields_of_wellFormed {f : CmdFields} (h : f.wellFormed = true) : ∃ i : Instr, f = i.fields := by
  obtain ⟨hzero, hlt, hrsv, hhint⟩ := f.wellFormed_iff.1 h
  obtain ⟨op, hint, rsv⟩ := f
  subst hrsv
  rcases hhint with rfl | rfl
  · rcases op_of_legal op hzero hlt with rfl | rfl | rfl | rfl | rfl | rfl | rfl
    exacts [⟨.gray, rfl⟩, ⟨.neg, rfl⟩, ⟨.blur, rfl⟩, ⟨.sharp, rfl⟩, ⟨.emboss, rfl⟩, ⟨.edge, rfl⟩, ⟨.yuv2rgba false, rfl⟩]
  · exact ⟨.yuv2rgba hint, rfl⟩

/-! ### Illegal words -/

theorem wellFormed_of_not_illegalWord {w : Word} (h : ¬ IllegalWord w) : (fieldsOf w).wellFormed = true := by
  unfold IllegalWord at h
  push Not at h
  obtain ⟨hzero, hlt, hrsv, hhint⟩ := h
  refine (fieldsOf w).wellFormed_iff.2 ⟨hzero, hlt, hrsv, or_iff_not_imp_left.2 fun hset => BitVec.eq_of_toNat_eq ?_⟩
  have hlarge := hhint (Bool.eq_true_of_not_eq_false hset) (Nat.pos_of_ne_zero fun h0 => hzero (BitVec.eq_of_toNat_eq h0))
  exact Nat.le_antisymm (Nat.le_of_lt_succ hlt) hlarge

theorem exists_encode_of_not_illegalWord {w : Word} (h : ¬ IllegalWord w) : ∃ i, w = encode i := by
  obtain ⟨i, hi⟩ := exists_fields_of_wellFormed (wellFormed_of_not_illegalWord h)
  exact ⟨i, by rw [encode, ← hi, toWord_fieldsOf]⟩

/-- The decoder has no command for an `OP` that is 0 or at least 8. -/
theorem decode_of_op {w : Word} (h : w.extractLsb' 0 4 = 0 ∨ 8 ≤ (w.extractLsb' 0 4).toNat) : decode w = none := by
  have hne : ∀ n : BitVec 4, n ≠ 0 → n.toNat < 8 → (fieldsOf w).op ≠ n := by
    rintro n hn hlt rfl
    exact h.elim hn (Nat.not_le_of_lt hlt)
  simp [decode, hne]

theorem decode_of_illegalWord {w : Word} (h : IllegalWord w) : decode w = none := by
  rcases h with hzero | hlarge | hrsv | ⟨hint, -, hop⟩
  · exact decode_of_op (.inl hzero)
  · exact decode_of_op (.inr hlarge)
  · exact decode_of_rsv hrsv
  · exact decode_of_hint hint hop

theorem decode_eq_none_iff {w : Word} : decode w = none ↔ IllegalWord w := by
  refine ⟨fun h => ?_, decode_of_illegalWord⟩
  by_contra hw
  obtain ⟨i, rfl⟩ := exists_encode_of_not_illegalWord hw
  simp at h

/-- A command's own word is the only one that decodes to it. -/
theorem decode_eq_some_iff {w : Word} {i : Instr} : decode w = some i ↔ w = encode i := by
  constructor
  · intro h
    have hlegal : ¬ IllegalWord w := by simp [← decode_eq_none_iff, h]
    obtain ⟨j, rfl⟩ := exists_encode_of_not_illegalWord hlegal
    rw [decode_encode, Option.some.injEq] at h
    rw [h]
  · rintro rfl
    exact decode_encode i

theorem decode_ne_none_iff {w : Word} : decode w ≠ none ↔ ∃ i, w = encode i := by
  simp only [Option.ne_none_iff_exists', decode_eq_some_iff]

/-- An accepted illegal word fails the first check of `VALIDATE` (R115). -/
theorem step_of_illegalWord {s : State} (h : Accepted s) (hw : IllegalWord s.latch.cmd) :
    step s = .next (failedClosed .illegalCommand false 0 s) := by
  have hactive : s.phase.active = true := by rw [h.phase]; rfl
  rw [step_of_engineNext hactive (early_of_accepted h).frame.hostTurn]
  simp [runLatched, decode_of_illegalWord hw, illegalLatched, h.phase, failClosed, failedClosed, Status.failed, h.status, Status.running]

/-- Settles O3: a word that decodes is the word of the command it decodes to. -/
theorem onlyTheEightWordsDecode : Obligations.OnlyTheEightWordsDecode := by
  unfold Obligations.OnlyTheEightWordsDecode
  intro w
  refine ⟨decode_eq_some_iff, decode_eq_some_iff, decode_eq_some_iff, decode_eq_some_iff, decode_eq_some_iff, decode_eq_some_iff,
    decode_eq_some_iff, decode_eq_some_iff, decode_ne_none_iff.trans ⟨?_, ?_⟩⟩
  · rintro ⟨i, rfl⟩
    cases i with
    | yuv2rgba hint => cases hint <;> decide
    | _ => decide
  · rintro (h | h | h | h | h | h | h | h)
    exacts [⟨.gray, h⟩, ⟨.neg, h⟩, ⟨.blur, h⟩, ⟨.sharp, h⟩, ⟨.emboss, h⟩, ⟨.edge, h⟩, ⟨.yuv2rgba false, h⟩, ⟨.yuv2rgba true, h⟩]

/-- Settles O4: the decoder refuses the four illegalities and nothing else. -/
theorem illegalWordsFailClosed : Obligations.IllegalWordsFailClosed := by
  unfold Obligations.IllegalWordsFailClosed
  exact ⟨fun _ => decode_eq_none_iff, fun _ => or_iff_not_imp_left.2 exists_encode_of_not_illegalWord, fun _ => step_of_illegalWord⟩

/-- Settles O1: the eight words are those of the encoder, which the decoder reads back. -/
theorem commandWordsDecode : Obligations.CommandWordsDecode := by
  unfold Obligations.CommandWordsDecode
  exact ⟨⟨decode_encode .gray, decode_encode .neg, decode_encode .blur, decode_encode .sharp, decode_encode .emboss,
      decode_encode .edge, decode_encode (.yuv2rgba false), decode_encode (.yuv2rgba true)⟩,
    encode_gray, encode_neg, encode_blur, encode_sharp, encode_emboss, encode_edge, encode_yuv2rgba_false, encode_yuv2rgba_true⟩

/-- Settles O2: one lemma a constructor. -/
theorem encodedCommandsDecode : Obligations.EncodedCommandsDecode := roundTrip

end Sys2Proof
end

section
/-! PROOFS. A command depends on the latched registers through its operand registers alone (R91): two sets of registers that agree in them
tell a command the same, and its run commutes with putting one in the place of the other. -/

namespace Sys2Proof.Machine

/-! ### What depends on the operand registers -/

/-- The registers with those of the PixelBuffer kept and every other one 0. -/
def HostRegs.pixelBuffer (g : HostRegs) : HostRegs :=
  { HostRegs.zero with
    pbBase := g.pbBase, pbWidth := g.pbWidth, pbHeight := g.pbHeight, pbStride := g.pbStride, pbFormat := g.pbFormat }

/-- What reads the registers of the PixelBuffer alone is the same for two sets of registers that agree in them. -/
theorem pixelBuffer_congr {α : Sort*} {F : HostRegs → α} {g g' : HostRegs} (h : g.pixelBuffer = g'.pixelBuffer)
    (hF : ∀ u, F u.pixelBuffer = F u) : F g = F g' := by
  rw [← hF g, h, hF]

/-- Two sets of registers tell command `k`, and the engine that runs it, the same. -/
structure ReadsAlike (k : Command) (g g' : HostRegs) : Prop where
  buffer : g.pixelBuffer = g'.pixelBuffer
  paramsOk : ∀ c, k.paramsOk c g = k.paramsOk c g'
  kernel : ∀ c, k.kernel c g = k.kernel c g'
  plan : ∀ c, k.plan c g = k.plan c g'
  runItem : ∀ c, k.runItem c g = k.runItem c g'
  writes : ∀ c, k.writes c g = k.writes c g'
  newPixel : ∀ c, k.newPixel c g = k.newPixel c g'
  footprint : ∀ c, k.footprint c g = k.footprint c g'
  overlaps : k.overlaps g = k.overlaps g'

theorem SameOperands.pixelBuffer {i : Instr} {g g' : HostRegs} (h : SameOperands i g g') : g.pixelBuffer = g'.pixelBuffer := by
  obtain ⟨hbase, hwidth, hheight, hstride, hformat⟩ := h.pb
  simp only [HostRegs.pixelBuffer, hbase, hwidth, hheight, hstride, hformat]

theorem readsAlike_pointwise (f : Pixel → Pixel) {g g' : HostRegs} (h : g.pixelBuffer = g'.pixelBuffer) :
    ReadsAlike (pointwiseCommand f) g g' where
  buffer := h
  paramsOk _ := rfl
  kernel _ := rfl
  plan _ := pixelBuffer_congr h fun _ => rfl
  runItem _ := pixelBuffer_congr h fun _ => rfl
  writes _ := rfl
  newPixel _ := pixelBuffer_congr h fun _ => rfl
  footprint _ := pixelBuffer_congr h fun _ => rfl
  overlaps := rfl

/-- Beside the PixelBuffer a filter reads what its radius, its checks and its kernel are made from. -/
theorem readsAlike_filter {f : Filter} {g g' : HostRegs} (h : g.pixelBuffer = g'.pixelBuffer) (hradius : f.radius g = f.radius g')
    (hparams : ∀ c, f.paramsOk c g = f.paramsOk c g') (hkernel : ∀ c, f.kernel c g = f.kernel c g') :
    ReadsAlike (filterCommand f) g g' := by
  have hinterior : interior g = interior g' := pixelBuffer_congr h fun _ => rfl
  have hwidth : g.width = g'.width := pixelBuffer_congr h fun _ => rfl
  have hheight : g.height = g'.height := pixelBuffer_congr h fun _ => rfl
  have hcolumns : interiorWidth g = interiorWidth g' := pixelBuffer_congr h fun _ => rfl
  have hgroup : ∀ c, inGroup c g = inGroup c g' := fun _ => pixelBuffer_congr h fun _ => rfl
  have hrows : rowUnits g = rowUnits g' := pixelBuffer_congr h fun _ => rfl
  have hpixels : inPixels g = inPixels g' := pixelBuffer_congr h fun _ => rfl
  have hwindow : ∀ c, readWindow c g = readWindow c g' := fun _ => pixelBuffer_congr h fun _ => rfl
  have hcompute : ∀ c, computePixel c g = computePixel c g' := fun _ => pixelBuffer_congr h fun _ => rfl
  exact {
    buffer := h
    paramsOk := hparams
    kernel := fun c => by simp only [filterCommand, hkernel]
    plan := fun c => by simp only [filterCommand, hradius, hheight, hcolumns, hrows]
    runItem := fun c => by simp only [filterCommand, runWindow, hradius, hcompute]
    writes := fun c => by simp only [filterCommand, hradius, hinterior]
    newPixel := fun c => by simp only [filterCommand, filterPixel, hkernel, hradius, hinterior, hwindow, hgroup]
    footprint := fun c => by simp only [filterCommand, hradius, hwidth, hheight, hpixels]
    overlaps := rfl }

theorem readsAlike_yuv {hint : Bool} {g g' : HostRegs} (h : SameOperands (.yuv2rgba hint) g g') :
    ReadsAlike (yuvCommand hint) g g' := by
  obtain ⟨⟨hbase, hwidth, hheight, hstride, hformat⟩, -, hplanes⟩ := h
  obtain ⟨hyBase, hyStride, huBase, huRStride, huPStride, hvBase, hvRStride, hvPStride⟩ := hplanes hint rfl
  cases g
  cases g'
  dsimp only at *
  subst_vars
  constructor <;> intros <;> rfl

theorem SameOperands.readsAlike {i : Instr} {g g' : HostRegs} (h : SameOperands i g g') : ReadsAlike (commandOf i) g g' := by
  have hbuffer := h.pixelBuffer
  cases i with
  | gray => exact readsAlike_pointwise grayPixel hbuffer
  | neg => exact readsAlike_pointwise negPixel hbuffer
  | blur =>
    obtain ⟨hradius, hsigma⟩ := h.blur rfl
    have hint : g.radiusInt = g'.radiusInt := congrArg BitVec.toInt hradius
    have hnat : g.blurRadius = g'.blurRadius := congrArg Int.toNat hint
    refine readsAlike_filter hbuffer hnat (fun c => ?_) (fun c => ?_)
    · simp only [blurFilter, blurParamsOk, hint, hsigma]
    · simp only [blurFilter, hnat, hsigma]
  | sharp => exact readsAlike_filter hbuffer rfl (fun _ => rfl) fun _ => rfl
  | emboss => exact readsAlike_filter hbuffer rfl (fun _ => rfl) fun _ => rfl
  | edge => exact readsAlike_filter hbuffer rfl (fun _ => rfl) fun _ => rfl
  | yuv2rgba hint => exact readsAlike_yuv h

theorem ReadsAlike.symm {k : Command} {g g' : HostRegs} (h : ReadsAlike k g g') : ReadsAlike k g' g where
  buffer := h.buffer.symm
  paramsOk c := (h.paramsOk c).symm
  kernel c := (h.kernel c).symm
  plan c := (h.plan c).symm
  runItem c := (h.runItem c).symm
  writes c := (h.writes c).symm
  newPixel c := (h.newPixel c).symm
  footprint c := (h.footprint c).symm
  overlaps := h.overlaps.symm

theorem firstFailure_readsAlike {k : Command} {g g' : HostRegs} (h : ReadsAlike k g g') (c : Cfg) :
    firstFailure k c g = firstFailure k c g' := by
  have hformat : g.pbFormat = g'.pbFormat := pixelBuffer_congr h.buffer fun _ => rfl
  have hfits : descriptorOk k.family c g = descriptorOk k.family c g' := pixelBuffer_congr h.buffer fun _ => rfl
  simp only [firstFailure, hformat, hfits, h.paramsOk]

/-! ### The engine with other latched registers -/

/-- The state with other values in the latched registers. -/
def withLatchRegs (g : HostRegs) (s : State) : State := { s with latch := ⟨s.latch.cmd, g⟩ }

@[simp] theorem withLatchRegs_latch_regs (g : HostRegs) (s : State) : (withLatchRegs g s).latch.regs = g := rfl
@[simp] theorem withLatchRegs_phase (g : HostRegs) (s : State) : (withLatchRegs g s).phase = s.phase := rfl
@[simp] theorem withLatchRegs_cursor (g : HostRegs) (s : State) : (withLatchRegs g s).cursor = s.cursor := rfl
@[simp] theorem withLatchRegs_kernel (g : HostRegs) (s : State) : (withLatchRegs g s).kernel = s.kernel := rfl
@[simp] theorem withLatchRegs_workers (g : HostRegs) (s : State) : (withLatchRegs g s).workers = s.workers := rfl
@[simp] theorem withLatchRegs_queue (g : HostRegs) (s : State) : (withLatchRegs g s).queue = s.queue := rfl
@[simp] theorem withLatchRegs_stop (g : HostRegs) (s : State) : (withLatchRegs g s).stop = s.stop := rfl
@[simp] theorem withLatchRegs_out (g : HostRegs) (s : State) : (withLatchRegs g s).out = s.out := rfl
@[simp] theorem withLatchRegs_mem (g : HostRegs) (s : State) : (withLatchRegs g s).mem = s.mem := rfl
@[simp] theorem withLatchRegs_cfg (g : HostRegs) (s : State) : (withLatchRegs g s).cfg = s.cfg := rfl
@[simp] theorem withLatchRegs_sched (g : HostRegs) (s : State) : (withLatchRegs g s).sched = s.sched := rfl
@[simp] theorem withLatchRegs_memAtAccept (g : HostRegs) (s : State) : (withLatchRegs g s).memAtAccept = s.memAtAccept := rfl
@[simp] theorem withLatchRegs_freeCount (g : HostRegs) (s : State) : (withLatchRegs g s).freeCount = s.freeCount := rfl

section Commutes

variable {k : Command} {g : HostRegs} {s : State}

theorem failsClosed_withLatchRegs (h : ReadsAlike k g s.latch.regs) : failsClosed k (withLatchRegs g s) = failsClosed k s := by
  simp only [failsClosed, withLatchRegs_latch_regs, withLatchRegs_cfg, withLatchRegs_freeCount, withLatchRegs_kernel,
    firstFailure_readsAlike h, h.kernel]

theorem cutPixel_withLatchRegs (h : ReadsAlike k g s.latch.regs) : cutPixel k (withLatchRegs g s) = cutPixel k s := by
  have haddr : pixelAddr g = pixelAddr s.latch.regs := pixelBuffer_congr h.buffer fun _ => rfl
  funext x y
  simp only [cutPixel, withLatchRegs_latch_regs, withLatchRegs_cfg, withLatchRegs_freeCount, withLatchRegs_memAtAccept, haddr,
    h.overlaps, h.newPixel]

theorem cutBytes_withLatchRegs (h : ReadsAlike k g s.latch.regs) : cutBytes k (withLatchRegs g s) = cutBytes k s := by
  have hcoords : pixelCoords g = pixelCoords s.latch.regs := pixelBuffer_congr h.buffer fun _ => rfl
  have hbytes : ∀ c, pixelBytes c g = pixelBytes c s.latch.regs := fun _ => pixelBuffer_congr h.buffer fun _ => rfl
  simp only [cutBytes, withLatchRegs_latch_regs, withLatchRegs_cfg, failsClosed_withLatchRegs h, cutPixel_withLatchRegs h, hcoords,
    hbytes, h.writes]

theorem runOn_withLatchRegs (h : ReadsAlike k g s.latch.regs) (it : Item) {fin : State → State}
    (hfin : ∀ u, fin (withLatchRegs g u) = withLatchRegs g (fin u)) :
    runOn k it fin (withLatchRegs g s) = withLatchRegs g (runOn k it fin s) := by
  unfold runOn
  simp only [withLatchRegs_latch_regs, withLatchRegs_cfg, withLatchRegs_kernel, withLatchRegs_mem, withLatchRegs_out, h.runItem,
    cutBytes_withLatchRegs h]
  split
  · next m o _ => exact hfin { s with mem := m, out := o }
  · rfl

theorem prepare_withLatchRegs (h : ReadsAlike k g s.latch.regs) :
    prepare k (withLatchRegs g s) = withLatchRegs g (prepare k s) := by
  have hblank : blankScratch g = blankScratch s.latch.regs := pixelBuffer_congr h.buffer fun _ => rfl
  unfold prepare
  simp only [withLatchRegs_latch_regs, withLatchRegs_cfg, withLatchRegs_kernel, withLatchRegs_freeCount, h.kernel, h.plan, hblank]
  split <;> rfl

theorem endSuccess_withLatchRegs (h : ReadsAlike k g s.latch.regs) :
    endSuccess k (withLatchRegs g s) = withLatchRegs g (endSuccess k s) := by
  have hfree : freeScratch g = freeScratch s.latch.regs := pixelBuffer_congr h.buffer fun _ => rfl
  unfold endSuccess
  simp only [withLatchRegs_latch_regs, hfree]
  rfl

theorem afterCompute_withLatchRegs (h : ReadsAlike k g s.latch.regs) :
    afterCompute k (withLatchRegs g s) = withLatchRegs g (afterCompute k s) := by
  unfold afterCompute
  rw [endSuccess_withLatchRegs h, apply_ite (withLatchRegs g)]
  rfl

theorem scalarStep_withLatchRegs (h : ReadsAlike k g s.latch.regs) :
    scalarStep k (withLatchRegs g s) = withLatchRegs g (scalarStep k s) := by
  unfold scalarStep
  simp only [withLatchRegs_latch_regs, withLatchRegs_cfg, withLatchRegs_cursor, h.plan]
  split
  · refine runOn_withLatchRegs h _ ?_
    exact fun _ => rfl
  · exact afterCompute_withLatchRegs h

theorem forkStep_withLatchRegs (h : ReadsAlike k g s.latch.regs) :
    forkStep k (withLatchRegs g s) = withLatchRegs g (forkStep k s) := by
  unfold forkStep
  simp only [withLatchRegs_latch_regs, withLatchRegs_cfg, h.plan]
  rw [apply_ite (withLatchRegs g), apply_ite (withLatchRegs g)]
  rfl

theorem copyBackStep_withLatchRegs (h : ReadsAlike k g s.latch.regs) :
    copyBackStep k (withLatchRegs g s) = withLatchRegs g (copyBackStep k s) := by
  have hwidth : g.width = s.latch.regs.width := pixelBuffer_congr h.buffer fun _ => rfl
  have hheight : g.height = s.latch.regs.height := pixelBuffer_congr h.buffer fun _ => rfl
  have hwrite : ∀ c, pixWrite c g = pixWrite c s.latch.regs := fun _ => pixelBuffer_congr h.buffer fun _ => rfl
  unfold copyBackStep
  simp only [withLatchRegs_latch_regs, withLatchRegs_cfg, withLatchRegs_mem, withLatchRegs_out, withLatchRegs_cursor, hwidth, hheight,
    hwrite, endSuccess_withLatchRegs h, cutBytes_withLatchRegs h]
  rw [apply_ite (withLatchRegs g), apply_ite (withLatchRegs g)]
  congr 2
  split <;> rfl

theorem seqStep_withLatchRegs (h : ReadsAlike k g s.latch.regs) :
    seqStep k (withLatchRegs g s) = withLatchRegs g (seqStep k s) := by
  unfold seqStep
  simp only [withLatchRegs_latch_regs, withLatchRegs_cfg, withLatchRegs_phase, firstFailure_readsAlike h]
  split
  · split <;> rfl
  · exact prepare_withLatchRegs h
  · exact scalarStep_withLatchRegs h
  · exact forkStep_withLatchRegs h
  · exact afterCompute_withLatchRegs (s := { s with workers := [], stop := false }) h
  · exact copyBackStep_withLatchRegs h
  · rfl
  · rfl

theorem workerStep_withLatchRegs (h : ReadsAlike k g s.latch.regs) (i : Nat) :
    workerStep k i (withLatchRegs g s) = withLatchRegs g (workerStep k i s) := by
  unfold workerStep
  simp only [withLatchRegs_latch_regs, withLatchRegs_cfg, withLatchRegs_workers, withLatchRegs_queue, h.plan]
  split
  · split
    · rfl
    · rw [apply_ite (withLatchRegs g)]
      rfl
  · split
    · refine runOn_withLatchRegs h _ ?_
      exact fun _ => rfl
    · rfl
  · rfl
  · rfl

theorem agentStep_withLatchRegs (h : ReadsAlike k g s.latch.regs) (a : Agent) :
    agentStep k a (withLatchRegs g s) = withLatchRegs g (agentStep k a s) := by
  cases a with
  | seq => exact seqStep_withLatchRegs h
  | worker i => exact workerStep_withLatchRegs h i

theorem engineStep_withLatchRegs (h : ReadsAlike k g s.latch.regs) :
    engineStep k (withLatchRegs g s) = withLatchRegs g (engineStep k s) := by
  have hagents : enabledAgents (withLatchRegs g s) = enabledAgents s := rfl
  unfold engineStep
  simp only [withLatchRegs_sched, hagents]
  split
  · next a _ => exact agentStep_withLatchRegs (s := { s with sched := (nextTurn s.sched).2 }) h a
  · rfl

theorem runSteps_withLatchRegs (n : Nat) (h : ReadsAlike k g s.latch.regs) :
    runSteps k n (withLatchRegs g s) = withLatchRegs g (runSteps k n s) := by
  induction n generalizing s with
  | zero => rfl
  | succ n ih =>
    have hnext : ReadsAlike k g (engineStep k s).latch.regs := by rwa [engineStep_latch]
    unfold runSteps
    rw [engineStep_withLatchRegs h, ih hnext]
    exact (apply_ite (withLatchRegs g) _ _ _).symm

theorem runCommand_withLatchRegs (h : ReadsAlike k g s.latch.regs) :
    runCommand k (withLatchRegs g s) = withLatchRegs g (runCommand k s) := by
  have hbound : stepBound (withLatchRegs g s) = stepBound s :=
    pixelBuffer_congr (F := fun u => stepBound (withLatchRegs u s)) h.buffer fun _ => rfl
  unfold runCommand
  rw [hbound, runSteps_withLatchRegs _ h]

end Commutes

/-- A command's answer, a refusal included, with other latched registers that tell it the same. -/
theorem exec_withLatchRegs {i : Instr} {g : HostRegs} {s : State} (h : ReadsAlike (commandOf i) g s.latch.regs) :
    exec i (withLatchRegs g s) =
      match exec i s with
      | .next t => .next (withLatchRegs g t)
      | .fault f => .fault f
      | .refused r => .refused r := by
  have hmapped : footprintMapped (commandOf i) s.cfg g = footprintMapped (commandOf i) s.cfg s.latch.regs := by
    refine Bool.eq_iff_iff.2 ((footprintMapped_iff i (withLatchRegs g s)).trans (Iff.trans ?_ (footprintMapped_iff i s).symm))
    simp only [FootprintIn, withLatchRegs_latch_regs, withLatchRegs_cfg, h.footprint]
  have hends : endsUnmapped (commandOf i) (withLatchRegs g s) (withLatchRegs g (runCommand (commandOf i) s)) =
      endsUnmapped (commandOf i) s (runCommand (commandOf i) s) := by
    simp only [endsUnmapped, withLatchRegs_latch_regs, withLatchRegs_cfg, withLatchRegs_phase, hmapped]
    rfl
  rw [exec_eq, exec_eq]
  unfold commandOutcome
  simp only [withLatchRegs_latch_regs, h.overlaps, failsClosed_withLatchRegs h, runCommand_withLatchRegs h, hends]
  split
  · rfl
  · split <;> rfl

/-! ### What no run writes -/

theorem engineStep_regs (k : Command) (s : State) : (engineStep k s).regs = s.regs := by
  obtain ⟨hregs, -⟩ := (engineStep_move k s).kept
  exact hregs

theorem runCommand_regs (k : Command) (s : State) : (runCommand k s).regs = s.regs :=
  runSteps_keeps (P := fun u => u.regs = s.regs) (fun u hu => (engineStep_regs k u).trans hu) _ s rfl

theorem runCommand_latch (k : Command) (s : State) : (runCommand k s).latch = s.latch :=
  runSteps_keeps (P := fun u => u.latch = s.latch) (fun u hu => (engineStep_latch k u).trans hu) _ s rfl

end Sys2Proof.Machine

namespace Sys2Proof

open Machine

/-- Settles O39: registers that agree in the operands of a command tell it the same, and a run keeps the registers and the latch. -/
theorem operandRegistersOnly : Obligations.OperandRegistersOnly := by
  unfold Obligations.OperandRegistersOnly
  constructor
  · intro i s g hsame
    refine (exec_withLatchRegs hsame.readsAlike.symm).trans ?_
    cases hexec : exec i s with
    | next t =>
      have hlatch : t.latch = s.latch := exec_next hexec ▸ runCommand_latch (commandOf i) s
      simp only [withLatchRegs, hlatch]
    | fault f => rfl
    | refused r => rfl
  · intro i s t hexec
    obtain rfl := exec_next hexec
    exact ⟨runCommand_regs (commandOf i) s, runCommand_latch (commandOf i) s⟩

end Sys2Proof
end

section
/-! PROOFS. The statements about host programs: `WAIT`, and the writes of `SETPB` and `SETYUV` (R97, R98). -/

namespace Sys2Proof.Machine

/-- The step in which `WAIT` reads `STATUS`. -/
theorem step_of_wait {s : State} {q : List HostMove} (hnext : HostMovesNext s) (hq : s.hostQ = .wait :: q) :
    step s = .next { s with
      hostQ := if s.status.busy = false ∨ s.status.fatal = true then q else .wait :: q
      sched := schedAfterHost s
      lastRead := s.status.toWord } := by
  rw [step_of_hostMovesNext hnext]
  simp only [hostMove, hq, Bool.or_eq_true, Bool.not_eq_true']
  split
  · rfl
  · rw [← hq]

/-! ### Programs of register writes -/

/-- The moves that write the given values to the given registers, in this order. -/
def writeMoves (ws : List (Reg × Word)) : List HostMove := ws.map fun p => .wr p.1.offset p.2

/-- The read-write registers after these writes. -/
def HostRegs.putAll (g : HostRegs) (ws : List (Reg × Word)) : HostRegs := ws.foldl (fun g p => g.put p.2 p.1) g

/-- A write of a register other than `CMD` in an idle engine. -/
theorem step_of_write_of_idle {s : State} {r : Reg} {v : Word} {q : List HostMove} (hidle : s.phase = .idle)
    (hopen : ¬(s.status.busy = true ∨ s.status.fatal = true)) (hne : r ≠ .cmd) (hq : s.hostQ = .wr r.offset v :: q) :
    step s = .next { s with hostQ := q, regs := s.regs.put v r } := by
  have hactive : s.phase.active = false := by rw [hidle]; rfl
  rw [step_of_write (.inl hactive) hq, schedAfterHost_of_not_active hactive]
  exact congrArg _ (writeOffset_of_regAt (s := { s with hostQ := q }) (regAt_eq_some_iff.2 rfl) hne hopen v)

theorem run_succ {M : Host.Core} {s t : M.State} (h : M.step s = .next t) (n : Nat) : M.run (n + 1) s = M.run n t := by
  simp [Host.Core.run, h]

/-- As many steps as there are writes leave the values in the registers and change nothing else. -/
theorem run_writeMoves {ws : List (Reg × Word)} (hws : ∀ p ∈ ws, p.1 ≠ .cmd) {s : State} {q : List HostMove} (hidle : s.phase = .idle)
    (hopen : ¬(s.status.busy = true ∨ s.status.fatal = true)) (hq : s.hostQ = writeMoves ws ++ q) :
    Host.Core.run core ws.length s = .next { s with hostQ := q, regs := s.regs.putAll ws } := by
  induction ws generalizing s with
  | nil =>
    obtain rfl : s.hostQ = q := hq
    rfl
  | cons p ws ih =>
    obtain ⟨hp, hws⟩ := List.forall_mem_cons.1 hws
    have hstep := step_of_write_of_idle (q := writeMoves ws ++ q) hidle hopen hp hq
    have hrest := ih (s := { s with hostQ := writeMoves ws ++ q, regs := s.regs.put p.2 p.1 }) hws hidle hopen rfl
    exact (run_succ (M := core) hstep ws.length).trans hrest

end Sys2Proof.Machine

namespace Sys2Proof

open Machine

/-- Settles O58: one read of `STATUS`. -/
theorem waitReadsUntilTheEnd : Obligations.WaitReadsUntilTheEnd := fun _ _ => step_of_wait

/-- Settles O59: both programs are writes of read-write registers. -/
theorem descriptorPrograms : Obligations.DescriptorPrograms := by
  unfold Obligations.DescriptorPrograms
  intro s q hinv hidle
  have hopen : ¬(s.status.busy = true ∨ s.status.fatal = true) := by simp [hinv.idle.1 hidle]
  constructor
  · intro b w h st hq
    have hrun := run_writeMoves (ws := [(.pbBase, b), (.pbWidth, w), (.pbHeight, h), (.pbStride, st), (.pbFormat, 1)])
      (by simp) hidle hopen hq
    simpa only [HostRegs.putAll, HostRegs.put, List.foldl, List.length_cons, List.length_nil] using hrun
  · intro yb ys ub urs ups vb vrs vps hq
    have hrun := run_writeMoves (ws := [(.yBase, yb), (.yStride, ys), (.uBase, ub), (.uRStride, urs), (.uPStride, ups), (.vBase, vb),
      (.vRStride, vrs), (.vPStride, vps)]) (by simp) hidle hopen hq
    simpa only [HostRegs.putAll, HostRegs.put, List.foldl, List.length_cons, List.length_nil] using hrun

end Sys2Proof
end

section
/-! PROOFS. How a command that passes its checks ends, once for all seven commands: in success with its memory settled byte by byte, or in
the fatal fault at an inadmissible byte of its footprint (R134, R138, R284). -/

namespace Sys2Proof.Machine

/-! ### Memory at the end and on the way -/

/-- What command `i` accepted in `s` would write at pixel `p`, where it writes it and can compute it (R80, U5). -/
abbrev newPixelAt (i : Instr) (s : State) (p : Nat × Nat) : Option Pixel :=
  (commandOf i).newPixel s.cfg s.latch.regs (selectPath (commandOf i).family s.cfg).1 s.memAtAccept p.1 p.2

/-- Memory once command `i` accepted in `s` has done its work: each byte it would have written holds that value, every other one is as
before. -/
structure Completed (i : Instr) (s : State) (m : Memory) : Prop where
  wf : m.wf = true
  written : ∀ a b, WouldWrite i s a b → m.read a = b
  kept : ∀ a, (∀ b, ¬ WouldWrite i s a b) → m.read a = s.mem.read a

/-- Memory at any time before: only bytes of the write footprint at which there is memory differ. -/
structure Unfinished (i : Instr) (s : State) (m : Memory) : Prop where
  wf : m.wf = true
  outside : ∀ a, ¬ InWriteFootprint i s a → m.read a = s.mem.read a
  noMemory : ∀ a, admissible s.cfg a = false → m.read a = s.mem.read a

/-- What a command would write depends on memory at acceptance, the latch and the configuration alone. -/
theorem wouldWrite_congr {i : Instr} {s s' : State} (hlatch : s'.latch = s.latch) (hcfg : s'.cfg = s.cfg)
    (hsnap : s'.memAtAccept = s.memAtAccept) {a : Nat} {b : Byte} : WouldWrite i s' a b ↔ WouldWrite i s a b := by
  unfold WouldWrite
  rw [hlatch, hcfg, hsnap]

/-- Memory of a completed command is determined. -/
theorem Completed.unique {i : Instr} {s s' : State} {m m' : Memory} (h : Completed i s m) (h' : Completed i s' m')
    (hmem : s'.mem = s.mem) (hww : ∀ a b, WouldWrite i s' a b ↔ WouldWrite i s a b) : m' = m := by
  refine Memory.ext_of_read h'.wf h.wf fun a => ?_
  by_cases hw : ∃ b, WouldWrite i s a b
  · obtain ⟨b, hb⟩ := hw
    rw [h.written a b hb, h'.written a b ((hww a b).2 hb)]
  · push Not at hw
    rw [h.kept a hw, h'.kept a fun b hb => hw b ((hww a b).1 hb), hmem]

theorem PixelByteOf.read {g : HostRegs} {x y : Nat} {m : Memory} {a : Nat} {b : Byte}
    (h : PixelByteOf g x y (m.pixelAt (pixelAddr g x y)) a b) : m.read a = b := by
  rcases h with h | h | h | h <;> (obtain ⟨rfl, rfl⟩ := Prod.mk.inj h; rfl)

theorem exists_pixelByteOf (g : HostRegs) (x y : Nat) (px : Pixel) {k : Nat} (hk : k < 4) :
    ∃ b, PixelByteOf g x y px (pixelAddr g x y + k) b := by
  unfold PixelByteOf
  interval_cases k <;> simp

/-- Every byte is one of no pixel, or one of a pixel of the image. -/
theorem pixel_cases (g : HostRegs) (a : Nat) :
    inPixels g a = false ∨ ∃ p ∈ pixelCoords g, ∃ k < 4, a = pixelAddr g p.1 p.2 + k := by
  cases hin : inPixels g a with
  | false => exact .inl rfl
  | true =>
    obtain ⟨x, hx, y, hy, k, hk, rfl⟩ := pixelByte_of_inPixels hin
    exact .inr ⟨(x, y), mem_pixelCoords.2 ⟨hx, hy⟩, k, hk, rfl⟩

/-- A byte outside the write footprint is a byte of no pixel, or of a pixel the command does not write. -/
theorem outside_cases {i : Instr} {s : State} (hpass : ChecksPass i s) {a : Nat} (h : ¬ InWriteFootprint i s a) :
    inPixels s.latch.regs a = false ∨ ∃ p ∈ pixelCoords s.latch.regs, ¬ WritesPixel i s.cfg s.latch.regs p.1 p.2 ∧
      ∃ k < 4, a = pixelAddr s.latch.regs p.1 p.2 + k := by
  rcases pixel_cases s.latch.regs a with hoff | ⟨p, hp, k, hk, rfl⟩
  · exact .inl hoff
  · obtain ⟨hx, hy⟩ := mem_pixelCoords.1 hp
    exact .inr ⟨p, hp, fun hw => h ⟨hpass, p.1, hx, p.2, hy, hw, k, hk, rfl⟩, k, hk, rfl⟩

/-- Memory in which every pixel with a new value holds it, and every other byte is as before, is that of a completed command. -/
theorem completed_of_pixels {i : Instr} {s : State} {m : Memory} (hwf : m.wf = true)
    (hnew : ∀ p ∈ pixelCoords s.latch.regs, ∀ px, newPixelAt i s p = some px → m.pixelAt (pixelAddr s.latch.regs p.1 p.2) = px)
    (hold : ∀ p ∈ pixelCoords s.latch.regs, newPixelAt i s p = none →
      ∀ k < 4, m.read (pixelAddr s.latch.regs p.1 p.2 + k) = s.mem.read (pixelAddr s.latch.regs p.1 p.2 + k))
    (hoff : ∀ a, inPixels s.latch.regs a = false → m.read a = s.mem.read a) : Completed i s m := by
  refine ⟨hwf, ?_, ?_⟩
  · rintro a b ⟨x, hx, y, hy, px, hpx, hb⟩
    obtain rfl := hnew (x, y) (mem_pixelCoords.2 ⟨hx, hy⟩) px hpx
    exact PixelByteOf.read hb
  · intro a ha
    rcases pixel_cases s.latch.regs a with hno | ⟨p, hp, k, hk, rfl⟩
    · exact hoff a hno
    · cases hpx : newPixelAt i s p with
      | none => exact hold p hp hpx k hk
      | some px =>
        obtain ⟨hx, hy⟩ := mem_pixelCoords.1 hp
        obtain ⟨b, hb⟩ := exists_pixelByteOf s.latch.regs p.1 p.2 px hk
        exact absurd ⟨p.1, hx, p.2, hy, px, hpx, hb⟩ (ha b)

/-- A command that passes its checks has rows that do not overlap (R116). -/
theorem ChecksPass.rowsFit {i : Instr} {s : State} (h : ChecksPass i s) : RowsFit s.latch.regs := by
  obtain ⟨⟨-, hrows, -⟩, -⟩ := h
  exact hrows

theorem ChecksPass.firstFailure_eq_none {i : Instr} {s : State} (h : ChecksPass i s) :
    firstFailure (commandOf i) s.cfg s.latch.regs = none := by
  obtain ⟨hlaunch, hblur⟩ := h
  exact (firstFailure_eq_none_iff i s).2 ⟨hlaunch, fun hi => (hblur hi).1⟩

/-- How a command that passes its checks ends: with its whole footprint in memory in success, otherwise in the fatal fault. -/
inductive Ending (i : Instr) (s t : State) : Prop where
  | success (footprint : FootprintIn i s) (last : State) (frame : Frame s last) (status : last.status = pathStatus (commandOf i) s)
      (noPool : NoPool last) (wf : last.mem.wf = true)
      (completed : (commandOf i).overlaps s.latch.regs = false → Completed i s last.mem) (eq : t = endSuccess (commandOf i) last)
  | fatal (footprint : ¬ FootprintIn i s) (last : State) (frame : Frame s last) (status : last.status = pathStatus (commandOf i) s)
      (unfinished : Unfinished i s last.mem) (eq : t = takeFatalFault (cutBytes (commandOf i) last) last)

/-! ### The commands that write as they go -/

section Direct

variable {i : Instr} {s : State} {kern : Kernel}

/-- Every pixel of such a command is in its write footprint (R80). -/
theorem Direct.writesPixel (d : Direct (commandOf i) s.cfg s.latch.regs kern s.mem) (x y : Nat) : WritesPixel i s.cfg s.latch.regs x y :=
  fun hn => absurd ((isNeighbourhood_iff i).1 hn) d.family

theorem Direct.Final.completed {d : Direct (commandOf i) s.cfg s.latch.regs kern s.mem} {m : Memory} (h : d.Final m) (hs : d.specified)
    (hnew : ∀ p, d.laneAdm p → newPixelAt i s p = some (d.newPx p)) : Completed i s m := by
  refine completed_of_pixels h.wf (fun p hp px hpx => ?_) (fun p hp hnone => ?_) h.others
  · rw [hnew p (h.adm p hp), Option.some.injEq] at hpx
    exact (h.written hs p hp).trans hpx
  · rw [hnew p (h.adm p hp)] at hnone
    cases hnone

theorem Direct.Midway.unfinished {d : Direct (commandOf i) s.cfg s.latch.regs kern s.mem} {m : Memory} (h : d.Midway m)
    (hpass : ChecksPass i s) : Unfinished i s m := by
  refine ⟨h.wf, fun a ha => ?_, fun a ha => ?_⟩
  · rcases outside_cases hpass ha with hoff | ⟨p, -, hw, -⟩
    · exact h.others a hoff
    · exact absurd (d.writesPixel p.1 p.2) hw
  · rcases pixel_cases s.latch.regs a with hoff | ⟨p, hp, k, hk, rfl⟩
    · exact h.others a hoff
    · refine h.unread p hp (fun hl => ?_) k hk
      exact absurd ((d.four p hl k hk).symm.trans ha) nofun

/-- A pointwise filter or the converter ends so, when its lanes are what its footprint lists. -/
theorem ending_of_direct (d : Direct (commandOf i) s.cfg s.latch.regs kern s.mem) (h : Accepted s) (hpass : ChecksPass i s)
    (hk : (commandOf i).kernel s.cfg s.latch.regs s.freeCount s.kernel = some kern)
    (hadm : (∀ p ∈ pixelCoords s.latch.regs, d.laneAdm p) ↔ FootprintIn i s)
    (hspec : (commandOf i).overlaps s.latch.regs = false → d.specified)
    (hnew : ∀ v p, d.laneAdm p → (commandOf i).newPixel s.cfg s.latch.regs v s.mem p.1 p.2 = some (d.newPx p)) :
    Ending i s (runCommand (commandOf i) s) := by
  have hat : ∀ p, d.laneAdm p → newPixelAt i s p = some (d.newPx p) := by
    intro p hl
    rw [newPixelAt, h.snapshot]
    exact hnew _ p hl
  rcases direct_run d h hpass.firstFailure_eq_none hk with
    ⟨hall, last, heq, hframe, hstatus, hpool, -, -, hfinal⟩ | ⟨hnot, last, heq, hframe, hstatus, hmid⟩
  · exact .success (hadm.1 hall) last hframe hstatus hpool hfinal.wf (fun ho => hfinal.completed (hspec ho) hat) heq
  · exact .fatal (fun hf => hnot (hadm.2 hf)) last hframe hstatus (hmid.unfinished hpass) heq

end Direct

/-! ### The neighbourhood filters -/

section Filter

variable {i : Instr} {f : Filter} {s : State} {kern : Kernel}

/-- What a filter writes at a pixel is the `newPixel` of its command, which is made with the kernel of free value number 0. -/
theorem filter_newPixel {c : Cfg} {g : HostRegs} {m0 : Memory} {k0 : Kernel} {p : Nat × Nat} (h0 : f.kernel c g 0 = some k0)
    (hrgb : f.rgb c k0 = f.rgb c kern) (hwindow : interior g (f.radius g) p.1 p.2 = true → WindowIn c g (f.radius g) p)
    (hw : written f c g p) :
    (filterCommand f).newPixel c g (filterPath c) m0 p.1 p.2 = some (outPixel f c g kern m0 p).px := by
  simp only [filterCommand, h0, filterPixel, outPixel]
  split
  · next hi => simp only [readWindow_ok (hwindow hi), filteredPixel, hrgb]
  · next hi =>
    rw [if_pos (hw.resolve_right hi)]
    rfl

theorem filter_writes_iff_written {c : Cfg} {g : HostRegs} {p : Nat × Nat} :
    (filterCommand f).writes c g p.1 p.2 = true ↔ written f c g p := by
  simp only [filterCommand, written, Bool.or_eq_true, beq_iff_eq]

theorem Filtered.completed (hi : commandOf i = filterCommand f) (hsnap : s.memAtAccept = s.mem) {k0 : Kernel}
    (h0 : f.kernel s.cfg s.latch.regs 0 = some k0) (hrgb : f.rgb s.cfg k0 = f.rgb s.cfg kern) {m : Memory}
    (h : Filtered f s.cfg s.latch.regs kern s.mem m) : Completed i s m := by
  have hnew : ∀ p, written f s.cfg s.latch.regs p → newPixelAt i s p = some (outPixel f s.cfg s.latch.regs kern s.mem p).px := by
    intro p hw
    rw [newPixelAt, hi, hsnap]
    exact filter_newPixel h0 hrgb (h.windows p) hw
  refine completed_of_pixels h.wf (fun p hp px hpx => ?_) (fun p hp hnone => ?_) h.others
  · have hw : written f s.cfg s.latch.regs p := filter_writes_iff_written.1 (hi ▸ writes_of_newPixel hpx)
    rw [hnew p hw, Option.some.injEq] at hpx
    exact (h.copied p hp hw).2.trans hpx
  · refine h.kept p hp fun hw => ?_
    rw [hnew p hw] at hnone
    cases hnone

theorem FilterMidway.unfinished (hi : commandOf i = filterCommand f) (hpass : ChecksPass i s) {m : Memory}
    (h : FilterMidway f s.cfg s.latch.regs s.mem m) : Unfinished i s m := by
  refine ⟨h.wf, fun a ha => ?_, fun a ha => ?_⟩
  · rcases outside_cases hpass ha with hoff | ⟨p, hp, hw, k, hk, rfl⟩
    · exact h.others a hoff
    · rw [← writes_iff, hi, filter_writes_iff_written] at hw
      exact h.kept p hp (.inl hw) k hk
  · rcases pixel_cases s.latch.regs a with hoff | ⟨p, hp, k, hk, rfl⟩
    · exact h.others a hoff
    · refine h.kept p hp (.inr (.inl fun hfour => ?_)) k hk
      exact absurd ((hfour k hk).symm.trans ha) nofun

/-- A neighbourhood filter ends so, when its results do not depend on the free values of its kernel store. -/
theorem ending_of_filter (hi : commandOf i = filterCommand f) (h : Accepted s) (hpass : ChecksPass i s)
    (hk : f.kernel s.cfg s.latch.regs s.freeCount = some kern) {k0 : Kernel} (h0 : f.kernel s.cfg s.latch.regs 0 = some k0)
    (hrgb : f.rgb s.cfg k0 = f.rgb s.cfg kern) : Ending i s (runCommand (commandOf i) s) := by
  have hok : firstFailure (filterCommand f) s.cfg s.latch.regs = none :=
    hi ▸ hpass.firstFailure_eq_none
  have hfoot : FootprintIn i s ↔ FilterAdm f s.cfg s.latch.regs := by
    unfold FootprintIn FilterAdm
    rw [hi]
  rcases filter_run h hpass.rowsFit hok hk with
    ⟨hadm, last, heq, hframe, hstatus, hpool, hfiltered⟩ | ⟨hnot, last, heq, hframe, hstatus, hmid⟩
  · exact .success (hfoot.2 hadm) last hframe (hi ▸ hstatus) hpool hfiltered.wf
      (fun _ => hfiltered.completed hi h.snapshot h0 hrgb) (hi ▸ heq)
  · exact .fatal (fun hf => hnot (hfoot.1 hf)) last hframe (hi ▸ hstatus) (hmid.unfinished hi hpass) (hi ▸ heq)

end Filter

/-! ### Every command -/

theorem forall_fourAdmissible_iff {c : Cfg} {g : HostRegs} (hS : RowsFit g) :
    (∀ p ∈ pixelCoords g, FourAdmissible c (pixelAddr g p.1 p.2)) ↔ ∀ a, inPixels g a = true → admissible c a = true := by
  constructor
  · intro h a ha
    obtain ⟨x, hx, y, hy, k, hk, rfl⟩ := pixelByte_of_inPixels ha
    exact h (x, y) (mem_pixelCoords.2 ⟨hx, hy⟩) k hk
  · intro h p hp k hk
    obtain ⟨hx, hy⟩ := mem_pixelCoords.1 hp
    exact h _ ((inPixels_iff hS _).2 ⟨p.1, hx, p.2, hy, k, hk, rfl⟩)

theorem pointwise_newPixel {f : Pixel → Pixel} {c : Cfg} {g : HostRegs} {m : Memory} {p : Nat × Nat} (v : Bool)
    (h : FourAdmissible c (pixelAddr g p.1 p.2)) :
    (pointwiseCommand f).newPixel c g v m p.1 p.2 = some (f (m.pixelAt (pixelAddr g p.1 p.2))) := by
  simp only [pointwiseCommand, pixRead_ok h]

theorem forall_samplesIn_iff {c : Cfg} {g : HostRegs} :
    (∀ p ∈ pixelCoords g, SamplesIn c g p) ↔ ∀ a, inPlanes g a = true → admissible c a = true := by
  simp only [inPlanes_iff, SamplesIn, Prod.forall, mem_pixelCoords]
  constructor
  · rintro h a ⟨x, hx, y, hy, ha⟩
    exact h x y ⟨hx, hy⟩ a ha
  · rintro h x y ⟨hx, hy⟩ a ha
    exact h a ⟨x, hx, y, hy, ha⟩

theorem yuv_newPixel {hint : Bool} {c : Cfg} {g : HostRegs} {m : Memory} {p : Nat × Nat} (v : Bool) (h : SamplesIn c g p) :
    (yuvCommand hint).newPixel c g v m p.1 p.2 = some (convertedPixel g m p) := by
  simp only [yuvCommand, convertPixel_ok h]

/-- The pixels and samples of the converter lie in memory exactly when its footprint does (R80). -/
theorem yuv_laneAdm_iff {hint : Bool} {s : State} (hS : RowsFit s.latch.regs) :
    (∀ p ∈ pixelCoords s.latch.regs, FourAdmissible s.cfg (pixelAddr s.latch.regs p.1 p.2) ∧ SamplesIn s.cfg s.latch.regs p) ↔
      FootprintIn (.yuv2rgba hint) s := by
  have hfoot : ∀ a, (commandOf (.yuv2rgba hint)).footprint s.cfg s.latch.regs a = true ↔
      inPixels s.latch.regs a = true ∨ inPlanes s.latch.regs a = true := fun a => Bool.or_eq_true_iff
  simp only [FootprintIn, hfoot, or_imp, forall_and, ← forall_samplesIn_iff, ← forall_fourAdmissible_iff hS]

/-- **How every command that passes its checks ends**, under every schedule that leaves the engine the turns. -/
theorem runCommand_ending {i : Instr} {s : State} (h : Accepted s) (hpass : ChecksPass i s) : Ending i s (runCommand (commandOf i) s) := by
  have hS := hpass.rowsFit
  cases i with
  | gray =>
    exact ending_of_direct (pointwiseDirect grayPixel s.cfg s.latch.regs s.kernel s.mem hS) h hpass rfl (forall_fourAdmissible_iff hS)
      (fun _ => trivial) fun v _ => pointwise_newPixel v
  | neg =>
    exact ending_of_direct (pointwiseDirect negPixel s.cfg s.latch.regs s.kernel s.mem hS) h hpass rfl (forall_fourAdmissible_iff hS)
      (fun _ => trivial) fun v _ => pointwise_newPixel v
  | blur =>
    obtain ⟨kern, hk⟩ := Option.ne_none_iff_exists'.1 (hpass.2 rfl).2
    exact ending_of_filter rfl h hpass (f := blurFilter) hk hk rfl
  | sharp => exact ending_of_filter rfl h hpass (f := sharpFilter) rfl rfl rfl
  | emboss => exact ending_of_filter rfl h hpass (f := embossFilter) rfl rfl rfl
  | edge => exact ending_of_filter rfl h hpass (f := edgeFilter) rfl rfl rfl
  | yuv2rgba hint =>
    exact ending_of_direct (yuvDirect hint s.cfg s.latch.regs s.kernel s.mem hS) h hpass rfl (yuv_laneAdm_iff hS) (fun ho => ho)
      fun v _ hl => yuv_newPixel v hl.2

/-! ### Commands whose checks do not pass -/

/-- `PREPARE` refuses the kernel of `BLUR`, and of no other command (R192). -/
theorem runCommand_kernel_refused {i : Instr} {s : State} (h : Accepted s) (hf : firstFailure (commandOf i) s.cfg s.latch.regs = none)
    (hk : (commandOf i).kernel s.cfg s.latch.regs s.freeCount s.kernel = none) :
    runCommand (commandOf i) s = failedClosed .badParameter (wide s.cfg) 2 s := by
  obtain ⟨rfl, -⟩ := (kernel_eq_none_iff i s).1 hk
  exact runCommand_no_kernel h hf rfl hk

theorem checksPass_of_some {i : Instr} {s : State} {kern : Kernel} (hf : firstFailure (commandOf i) s.cfg s.latch.regs = none)
    (hk : (commandOf i).kernel s.cfg s.latch.regs s.freeCount s.kernel = some kern) : ChecksPass i s := by
  rw [← failsClosed_eq_false_iff]
  simp [failsClosed, hf, hk]

theorem overlaps_of_planesDisjoint {i : Instr} {s : State} (h : ∀ hint, i = .yuv2rgba hint → PlanesDisjoint s.latch.regs) :
    (commandOf i).overlaps s.latch.regs = false := by
  by_cases hyuv : ∃ hint, i = .yuv2rgba hint
  · obtain ⟨hint, rfl⟩ := hyuv
    exact (planesDisjoint_iff _).1 (h hint rfl)
  · exact overlaps_of_not_yuv (fun hint hi => hyuv ⟨hint, hi⟩) _

/-- Only a converter launch that passes its checks can be refused for its overlap (R281 premise 4). -/
theorem not_overlap_refused {i : Instr} {s : State} (h : ∀ hint, i = .yuv2rgba hint → ChecksPass i s → PlanesDisjoint s.latch.regs) :
    (commandOf i).overlaps s.latch.regs = false ∨ failsClosed (commandOf i) s = true := by
  rw [or_iff_not_imp_right, Bool.not_eq_true, failsClosed_eq_false_iff]
  exact fun hpass => overlaps_of_planesDisjoint fun hint hi => h hint hi hpass

/-! ### What depends on the latch and the configuration alone -/

theorem checksPass_congr {i : Instr} {s s' : State} (hlatch : s'.latch = s.latch) (hcfg : s'.cfg = s.cfg) :
    ChecksPass i s' ↔ ChecksPass i s := by
  unfold ChecksPass Launchable
  rw [hlatch, hcfg]

theorem footprintIn_congr {i : Instr} {s s' : State} (hlatch : s'.latch = s.latch) (hcfg : s'.cfg = s.cfg) :
    FootprintIn i s' ↔ FootprintIn i s := by
  unfold FootprintIn
  rw [hlatch, hcfg]

/-- Two launches of a command that both complete leave the same memory and the same `STATUS` (R132). -/
theorem Ending.unique {i : Instr} {s s' t t' : State} (h : Ending i s t) (h' : Ending i s' t') (hfoot : FootprintIn i s)
    (hoverlap : (commandOf i).overlaps s.latch.regs = false) (hmem : s'.mem = s.mem) (hlatch : s'.latch = s.latch)
    (hcfg : s'.cfg = s.cfg) (hsnap : s'.memAtAccept = s.memAtAccept) : t'.mem = t.mem ∧ t'.status = t.status := by
  cases h with
  | fatal footprint => exact absurd hfoot footprint
  | success _ last _ status _ _ completed eq =>
    cases h' with
    | fatal footprint => exact absurd ((footprintIn_congr hlatch hcfg).2 hfoot) footprint
    | success _ last' _ status' _ _ completed' eq' =>
      have hsame := (completed hoverlap).unique (completed' (hlatch ▸ hoverlap)) hmem fun _ _ => wouldWrite_congr hlatch hcfg hsnap
      have hstatus : last'.status = last.status := by rw [status, status', pathStatus, pathStatus, pathOf, pathOf, hcfg]
      rw [eq, eq', endSuccess_mem, endSuccess_mem, endSuccess_status, endSuccess_status, hstatus]
      exact ⟨hsame, rfl⟩

end Sys2Proof.Machine

namespace Sys2Proof

open Machine

/-- Settles O34: a command that passed its checks with a byte of its footprint outside memory takes the fatal fault, and the cut settles each
byte of the write footprint at its old value or the new one. -/
theorem fatalFault : Obligations.FatalFault := by
  unfold Obligations.FatalFault
  intro i s h hpass hdisjoint hfoot
  have hoverlap := overlaps_of_planesDisjoint hdisjoint
  refine ⟨_, exec_of_accepted h (.inl hoverlap), ?_⟩
  cases runCommand_ending h hpass with
  | success footprint => exact absurd footprint hfoot
  | fatal _ last frame status unfinished eq =>
    obtain ⟨hout, hin⟩ := fatal_memory h frame unfinished.wf hpass unfinished.outside unfinished.noMemory
    rw [eq]
    exact ⟨halted_of frame status unfinished.wf _, hout, hin hoverlap⟩

/-- Settles O36: a check of `VALIDATE` fails, or `PREPARE` refuses the kernel, or the command ends as `Ending` says. -/
theorem threeOutcomes : Obligations.ThreeOutcomes := by
  unfold Obligations.ThreeOutcomes
  intro i s h hdisjoint
  refine ⟨_, exec_of_accepted h (not_overlap_refused hdisjoint), ?_⟩
  cases hf : firstFailure (commandOf i) s.cfg s.latch.regs with
  | some e =>
    rw [runCommand_fails h hf]
    exact .inr (.inl ⟨rfl, rfl, rfl, rfl, rfl, (firstFailure_code hf).1, rfl⟩)
  | none =>
    cases hk : (commandOf i).kernel s.cfg s.latch.regs s.freeCount s.kernel with
    | none =>
      rw [runCommand_kernel_refused h hf hk]
      exact .inr (.inl ⟨rfl, rfl, rfl, rfl, rfl, nofun, rfl⟩)
    | some kern =>
      cases runCommand_ending h (checksPass_of_some hf hk) with
      | success _ last frame status noPool wf _ eq => exact .inl ⟨_, _, eq ▸ succeeded_of frame status noPool wf⟩
      | fatal _ last frame status unfinished eq => exact .inr (.inr (eq ▸ halted_of frame status unfinished.wf _))

/-- Settles O37: what fails closed does so on the latch and the configuration, and the memory of a completed command is determined. -/
theorem scheduleIndependence : Obligations.ScheduleIndependence := by
  unfold Obligations.ScheduleIndependence
  intro i s s' t t' h h' hmem hlatch hcfg hfoot hdisjoint hexec hexec'
  obtain rfl := exec_next hexec
  obtain rfl := exec_next hexec'
  cases hf : firstFailure (commandOf i) s.cfg s.latch.regs with
  | some e =>
    rw [runCommand_fails h hf, runCommand_fails h' (by rw [hcfg, hlatch, hf])]
    exact ⟨hmem, rfl⟩
  | none =>
    have hf' : firstFailure (commandOf i) s'.cfg s'.latch.regs = none := by rw [hcfg, hlatch, hf]
    by_cases hk : (commandOf i).kernel s.cfg s.latch.regs s.freeCount s.kernel = none
    · have hk' : (commandOf i).kernel s'.cfg s'.latch.regs s'.freeCount s'.kernel = none := by
        rwa [kernel_eq_none_iff, hcfg, hlatch, ← kernel_eq_none_iff i s]
      rw [runCommand_kernel_refused h hf hk, runCommand_kernel_refused h' hf' hk', hcfg]
      exact ⟨hmem, rfl⟩
    · obtain ⟨kern, hkern⟩ := Option.ne_none_iff_exists'.1 hk
      have hpass := checksPass_of_some hf hkern
      have hsnap : s'.memAtAccept = s.memAtAccept := by rw [h'.snapshot, h.snapshot, hmem]
      exact (runCommand_ending h hpass).unique (runCommand_ending h' ((checksPass_congr hlatch hcfg).2 hpass)) hfoot
        (overlaps_of_planesDisjoint hdisjoint) hmem hlatch hcfg hsnap

end Sys2Proof
end

section
/-! PROOFS. The phases `VALIDATE` and `PREPARE` and the phase table: which check fails first, what the preparation leaves, and where each
move of the engine leads (R113, R115, R116, R118, R123, R193). -/

namespace Sys2Proof.Machine

/-! ### `VALIDATE` -/

section Checks

variable {k : Command} {c : Cfg} {g : HostRegs}

theorem firstFailure_format (h : g.pbFormat ≠ 1) : firstFailure k c g = some .unsupportedFormat := if_pos (by simpa using h)

theorem firstFailure_descriptor (hformat : g.pbFormat = 1) (h : descriptorOk k.family c g = false) :
    firstFailure k c g = some .badDescriptor := by
  simp [firstFailure, hformat, h]

theorem firstFailure_parameter (hformat : g.pbFormat = 1) (hfits : descriptorOk k.family c g = true) (h : k.paramsOk c g = false) :
    firstFailure k c g = some .badParameter := by
  simp [firstFailure, hformat, hfits, h]

end Checks

/-- The first check that fails ends the command (R115, R136). -/
theorem step_of_firstFailure {i : Instr} {s : State} {e : ErrCode} (h : Accepted s) (hdec : decode s.latch.cmd = some i)
    (hf : firstFailure (commandOf i) s.cfg s.latch.regs = some e) : step s = .next (failedClosed e false 1 s) := by
  have hactive : s.phase.active = true := by rw [h.phase]; rfl
  have hfails : failsClosed (commandOf i) s = true := by simp [failsClosed, hf]
  rw [step_of_decoded hactive (early_of_accepted h).frame.hostTurn hdec, exec_of_accepted h (.inr hfails), runCommand_fails h hf]

theorem seqStep_of_passes {k : Command} {s : State} (hp : s.phase = .validate) (hf : firstFailure k s.cfg s.latch.regs = none) :
    seqStep k s = { s with phase := .prepare } := by
  simp only [seqStep, hp, hf]

/-! ### `PREPARE` -/

theorem seqStep_of_prepare {k : Command} {s : State} (hp : s.phase = .prepare) : seqStep k s = prepare k s := by
  simp only [seqStep, hp]

section Prepare

variable {k : Command} {s : State} {kern : Kernel}

@[simp] theorem prepare_mem : (prepare k s).mem = s.mem := by
  unfold prepare
  dsimp only
  split <;> rfl

@[simp] theorem prepare_status_path : (prepare k s).status.path = (selectPath k.family s.cfg).1 := by
  unfold prepare
  dsimp only
  split <;> rfl

@[simp] theorem prepare_status_fallback : (prepare k s).status.fallback = (selectPath k.family s.cfg).2 := by
  unfold prepare
  dsimp only
  split <;> rfl

theorem prepare_kernel (h : k.kernel s.cfg s.latch.regs s.freeCount s.kernel = some kern) : (prepare k s).kernel = kern := by
  simp only [prepare, h]

theorem prepare_out (h : k.kernel s.cfg s.latch.regs s.freeCount s.kernel = some kern) :
    (prepare k s).out = if k.family = .neighbourhood then blankScratch s.latch.regs else s.out := by
  simp only [prepare, h]

theorem prepare_phase (h : k.kernel s.cfg s.latch.regs s.freeCount s.kernel = some kern) :
    (prepare k s).phase = if (selectPath k.family s.cfg).1 then .fork else .scalar := by
  simp only [prepare, h]

/-- A refused kernel: the path is selected, and the command fails closed (R118, R192). -/
theorem prepare_of_no_kernel (h : k.kernel s.cfg s.latch.regs s.freeCount s.kernel = none) :
    prepare k s =
      failClosed .badParameter { s with status := s.status.onPath (selectPath k.family s.cfg).1 (selectPath k.family s.cfg).2 } := by
  simp only [prepare, h]

end Prepare

/-- A command other than the neighbourhood filters keeps the kernel store (R123). -/
theorem kernel_of_not_neighbourhood {i : Instr} (h : isNeighbourhood i = false) (c : Cfg) (g : HostRegs) (n : Nat) (kern : Kernel) :
    (commandOf i).kernel c g n kern = some kern := by
  cases i with
  | gray | neg | yuv2rgba => rfl
  | blur | sharp | emboss | edge => cases h

/-! ### The phase table -/

theorem phaseChange_halted (i : Instr) {p : Phase} (h : p.active = true) : phaseChange i p .halted = true := by
  cases p with
  | idle | halted => cases h
  | _ => rfl

theorem afterCompute_phase (i : Instr) (s : State) :
    (afterCompute (commandOf i) s).phase = if isNeighbourhood i then .copyBack else .idle := by
  simp only [afterCompute, ← isNeighbourhood_iff]
  split <;> rfl

/-- From the compute phases the end and the copy-back are the next ones (R113). -/
theorem phaseChange_afterCompute (i : Instr) (s : State) {p : Phase} (hp : p = .scalar ∨ p = .run) :
    phaseChange i p (afterCompute (commandOf i) s).phase = true := by
  rw [afterCompute_phase]
  rcases hp with rfl | rfl <;> cases hn : isNeighbourhood i <;> simp [phaseChange, hn]

theorem phaseChange_prepare (i : Instr) (s : State) : phaseChange i .prepare (prepare (commandOf i) s).phase = true := by
  cases hk : (commandOf i).kernel s.cfg s.latch.regs s.freeCount s.kernel with
  | none =>
    obtain ⟨rfl, -⟩ := (kernel_eq_none_iff i s).1 hk
    rw [prepare_of_no_kernel hk]
    rfl
  | some kern =>
    rw [prepare_phase hk]
    split <;> rfl

/-- Every move leaves the phase or changes it as the table lists. -/
theorem Move.phaseChange {i : Instr} {s t : State} (h : Move (commandOf i) s t) :
    t.phase = s.phase ∨ phaseChange i s.phase t.phase = true := by
  cases h with
  | fails phase _ _ eq | passes phase _ eq | drains phase _ _ eq | copied phase eq =>
    rw [eq, phase]
    exact .inr rfl
  | prepares phase eq =>
    rw [eq, phase]
    exact .inr (phaseChange_prepare i s)
  | scalarDone phase eq =>
    rw [eq, phase]
    exact .inr (phaseChange_afterCompute i s (.inl rfl))
  | joins phase _ eq =>
    rw [eq, phase]
    exact .inr (phaseChange_afterCompute i _ (.inr rfl))
  | scalarFault phase eq | copyFault phase eq =>
    rw [eq, phase]
    exact .inr rfl
  | workFault active eq =>
    rw [eq]
    exact .inr (phaseChange_halted i active)
  | _ =>
    subst_vars
    exact .inl rfl

end Sys2Proof.Machine

namespace Sys2Proof

open Machine

/-- Settles O18: one lemma for each check that can fail first. -/
theorem validationInOrder : Obligations.ValidationInOrder := by
  unfold Obligations.ValidationInOrder
  refine fun s h => ⟨fun hdec => step_of_illegalWord h (decode_eq_none_iff.1 hdec), fun i hdec => ⟨?_, ?_, ?_, ?_⟩⟩
  · exact fun hformat => step_of_firstFailure h hdec (firstFailure_format hformat)
  · intro hformat hfits
    rw [← descriptorOk_iff, Bool.not_eq_true] at hfits
    exact step_of_firstFailure h hdec (firstFailure_descriptor hformat hfits)
  · rintro ⟨hformat, hfits⟩ hblur hparams
    have hbad : (commandOf i).paramsOk s.cfg s.latch.regs = false := by
      rw [← Bool.not_eq_true, paramsOk_iff]
      exact fun hok => hparams (hok hblur)
    exact step_of_firstFailure h hdec (firstFailure_parameter hformat ((descriptorOk_iff i _ _).2 hfits) hbad)
  · exact fun hlaunch hparams => seqStep_of_passes h.phase ((firstFailure_eq_none_iff i s).2 ⟨hlaunch, hparams⟩)

/-- Settles O20: every step of an agent is a move. -/
theorem phaseTransitions : Obligations.PhaseTransitions := by
  unfold Obligations.PhaseTransitions
  exact fun i s => (engineStep_move (commandOf i) s).phaseChange

/-- Settles O21: `PREPARE` writes the path bits whether or not it accepts the kernel. -/
theorem pathSelection : Obligations.PathSelection := by
  unfold Obligations.PathSelection
  intro i s hp
  rw [seqStep_of_prepare hp, prepare_status_path, prepare_status_fallback]
  cases i <;> exact ⟨rfl, rfl⟩

/-- Settles O22: what `PREPARE` leaves when it has a kernel and when it refuses one. -/
theorem preparation : Obligations.Preparation := by
  unfold Obligations.Preparation
  intro i s hp
  rw [seqStep_of_prepare hp]
  refine ⟨prepare_mem, ?_, ?_, ?_, ?_, ?_, ?_, ?_⟩
  · rintro rfl
    exact prepare_kernel (kern := sharpKernel) rfl
  · rintro rfl
    exact prepare_kernel (kern := embossKernel) rfl
  · rintro rfl
    exact congrArg Kernel.r (prepare_kernel (kern := ⟨1, freeWeights s.freeCount 1⟩) rfl)
  · rintro kern rfl hk
    exact prepare_kernel hk
  · intro hn
    have hk := kernel_of_not_neighbourhood hn s.cfg s.latch.regs s.freeCount s.kernel
    exact ⟨prepare_kernel hk, (prepare_out hk).trans (if_neg (by simp [← isNeighbourhood_iff, hn]))⟩
  · intro hblur
    have hsome : (commandOf i).kernel s.cfg s.latch.regs s.freeCount s.kernel ≠ none := by
      rw [ne_eq, kernel_eq_none_iff]
      exact fun ⟨hi, hnone⟩ => hblur hi hnone
    obtain ⟨kern, hk⟩ := Option.ne_none_iff_exists'.1 hsome
    refine ⟨by rw [prepare_status_path, prepare_phase hk], fun hn => ?_⟩
    exact (prepare_out hk).trans (if_pos ((isNeighbourhood_iff i).1 hn))
  · intro hi hnone
    rw [prepare_of_no_kernel ((kernel_eq_none_iff i s).2 ⟨hi, hnone⟩)]
    exact ⟨rfl, rfl, rfl, rfl⟩

end Sys2Proof
end

section
/-! PROOFS. The partition of units into tasks, the loop of a worker, and the life of the pool (R120, R122, R124 to R129). -/

namespace Sys2Proof.Machine

/-! ### The partition -/

theorem taskOf_first_mono (u n : Nat) (pw : Bool) {i j : Nat} (h : i ≤ j) : (taskOf u n pw i).first ≤ (taskOf u n pw j).first := by
  refine monotone_nat_of_le_succ (f := fun i => (taskOf u n pw i).first) (fun i => ?_) h
  rw [taskOf_first_succ]
  exact Nat.le_add_right _ _

/-- Of two tasks that hold the same unit neither comes before the other. -/
theorem taskOf_index_le {u n : Nat} {pw : Bool} {v i j : Nat} (hi : (taskOf u n pw i).first ≤ v ∧ v < (taskOf u n pw (i + 1)).first)
    (hj : (taskOf u n pw j).first ≤ v ∧ v < (taskOf u n pw (j + 1)).first) : j ≤ i := by
  by_contra hlt
  have := taskOf_first_mono u n pw (show i + 1 ≤ j by omega)
  omega

/-- A unit below the first of task `n` is in one of the tasks before it. -/
theorem exists_taskOf (u n : Nat) (pw : Bool) {v : Nat} :
    ∀ m, v < (taskOf u n pw m).first → ∃ i < m, (taskOf u n pw i).first ≤ v ∧ v < (taskOf u n pw (i + 1)).first
  | 0, h => by simp [taskOf_first_zero] at h
  | m + 1, h => by
    by_cases hm : v < (taskOf u n pw m).first
    · obtain ⟨i, hi, hv⟩ := exists_taskOf u n pw m hm
      exact ⟨i, by omega, hv⟩
    · exact ⟨m, by omega, by omega, h⟩

/-- With fewer units than workers the tasks from number `u` on are empty (R122). -/
theorem taskOf_empty {u n : Nat} (pw : Bool) {i : Nat} (h : u < n) (hi : u ≤ i) :
    (taskOf u n pw i).count = 0 ∧ (taskOf u n pw i).first = u := by
  simp only [taskOf, Nat.div_eq_of_lt h, Nat.mod_eq_of_lt h, if_neg (Nat.not_lt.2 hi), Nat.min_eq_right hi, Nat.mul_zero, Nat.zero_add,
    and_self]

/-! ### Who has a step -/

theorem seq_mem_enabledAgents_iff {s : State} : Agent.seq ∈ enabledAgents s ↔ seqEnabled s = true := by
  refine ⟨fun h => ?_, seq_mem_enabled⟩
  rcases mem_enabled h with ⟨-, hen⟩ | ⟨i, -, heq, -⟩
  · exact hen
  · cases heq

theorem worker_mem_enabledAgents_iff {s : State} {i : Nat} (hi : i < s.workers.length) {w : Worker}
    (hw : s.workers.getD i .absent = w) : Agent.worker i ∈ enabledAgents s ↔ workerEnabled s w = true := by
  subst hw
  refine ⟨fun h => ?_, worker_mem_enabled hi⟩
  rcases mem_enabled h with ⟨heq, -⟩ | ⟨j, -, heq, hen⟩
  · cases heq
  · cases heq
    exact hen

/-! ### The worker loop -/

section Worker

variable {k : Command} {s : State} {i : Nat}

theorem workerStep_pops {t : Task} {rest : List Task} (hw : s.workers.getD i .absent = .waiting) (hq : s.queue = t :: rest) :
    workerStep k i s = { s with
      queue := rest
      workers := s.workers.set i (.running t (startCursor (k.plan s.cfg s.latch.regs true) t)) } := by
  simp only [workerStep, hw, hq]

theorem workerStep_exits (hw : s.workers.getD i .absent = .waiting) (hq : s.queue = []) (hstop : s.stop = true) :
    workerStep k i s = { s with workers := s.workers.set i .exited } := by
  simp only [workerStep, hw, hq, hstop, if_true]

theorem workerStep_works {t : Task} {cur : Cursor} {it : Item} {m : Memory} {o : Scratch}
    (hw : s.workers.getD i .absent = .running t cur) (hit : itemAt (k.plan s.cfg s.latch.regs true) t cur = some it)
    (hrun : k.runItem s.cfg s.latch.regs s.kernel it s.mem s.out = .ok (m, o)) :
    workerStep k i s = { s with
      mem := m
      out := o
      workers := s.workers.set i (.running t (advance (k.plan s.cfg s.latch.regs true) t cur)) } := by
  simp only [workerStep, hw, hit, runOn, hrun]

theorem workerStep_rests {t : Task} {cur : Cursor} (hw : s.workers.getD i .absent = .running t cur)
    (hit : itemAt (k.plan s.cfg s.latch.regs true) t cur = none) :
    workerStep k i s = { s with workers := s.workers.set i .waiting } := by
  simp only [workerStep, hw, hit]

end Worker

/-! ### The pool -/

theorem seqStep_of_fork {k : Command} {s : State} (hp : s.phase = .fork) : seqStep k s = forkStep k s := by simp only [seqStep, hp]

theorem seqStep_of_run {k : Command} {s : State} (hp : s.phase = .run) :
    seqStep k s = afterCompute k { s with workers := [], stop := false } := by
  simp only [seqStep, hp, joinStep]

section Fork

variable {k : Command} {s : State}

theorem forkStep_constructs (h : s.workers = []) : forkStep k s = { s with workers := List.replicate (nWorkers s.cfg) .waiting } :=
  if_pos h

theorem forkStep_enqueues (h : s.workers ≠ []) (hlt : s.cursor.unit < nWorkers s.cfg) :
    forkStep k s = { s with
      queue := s.queue ++ [taskOf (k.plan s.cfg s.latch.regs true).units (nWorkers s.cfg) (k.family == .pointwise) s.cursor.unit]
      cursor := ⟨s.cursor.unit + 1, 0⟩ } := (if_neg h).trans (if_pos hlt)

theorem forkStep_stops (h : s.workers ≠ []) (hge : ¬ s.cursor.unit < nWorkers s.cfg) :
    forkStep k s = { s with stop := true, phase := .run } := (if_neg h).trans (if_neg hge)

end Fork

theorem allExited_iff {s : State} : allExited s = true ↔ ∀ w ∈ s.workers, w = .exited := by
  simp only [allExited, List.all_eq_true, beq_iff_eq]

/-- Once every worker of the pool has exited the queue is empty: there is a worker, and it exited with the queue empty (R126). -/
theorem Inv.queue_of_allExited {s : State} (h : Inv s) (hp : s.phase = .run) (hall : ∀ w ∈ s.workers, w = .exited) : s.queue = [] := by
  obtain ⟨-, hlen, -⟩ := h.run hp
  obtain ⟨w, hw⟩ := List.exists_mem_of_length_pos (hlen ▸ nWorkers_pos s.cfg)
  exact (h.exited (hall w hw ▸ hw)).1

/-- The end of the compute phases leaves the pool as it finds it. -/
theorem afterCompute_pool (k : Command) (s : State) :
    (afterCompute k s).workers = s.workers ∧ (afterCompute k s).queue = s.queue ∧ (afterCompute k s).stop = s.stop := by
  unfold afterCompute
  split <;> exact ⟨rfl, rfl, rfl⟩

end Sys2Proof.Machine

namespace Sys2Proof

open Machine

/-- Settles O23: each task begins where the one before ends, so each unit is in the one task whose ends it lies between. -/
theorem taskPartition : Obligations.TaskPartition := by
  unfold Obligations.TaskPartition
  intro U N pw hN
  have hend : (taskOf U N pw (N - 1)).first + (taskOf U N pw (N - 1)).count = U := by
    rw [← taskOf_first_succ, Nat.sub_add_cancel hN, taskOf_last hN]
  refine ⟨fun i hi => ?_, taskOf_first_zero U N pw, fun i _ => taskOf_first_succ U N pw i, hend, fun u hu => ?_,
    fun hlt i _ hi => taskOf_empty pw hlt hi⟩
  · have hlast : (i + 1 == N) = decide (i = N - 1) := decide_eq_decide.2 (by omega)
    simp only [taskOf, hlast]
  · obtain ⟨i, hi, hin⟩ := exists_taskOf U N pw N (by rwa [taskOf_last hN])
    refine ⟨i, hi, fun j _ => ?_⟩
    rw [← taskOf_first_succ]
    constructor
    · exact fun hj => Nat.le_antisymm (taskOf_index_le hin hj) (taskOf_index_le hj hin)
    · rintro rfl
      exact hin

/-- Settles O24: one lemma for each line of the loop. -/
theorem workerLoop : Obligations.WorkerLoop := by
  unfold Obligations.WorkerLoop
  intro k s i hi hp
  have hactive : s.phase.active = true := by rcases hp with hp | hp <;> rw [hp] <;> rfl
  have henabled := fun w => worker_mem_enabledAgents_iff (w := w) hi
  refine ⟨?_, ?_, ?_, ?_, ?_, ?_⟩
  · intro t rest hw hq
    exact ⟨(henabled _ hw).2 (by simp [workerEnabled, hactive, hq]), workerStep_pops hw hq⟩
  · intro hw hq hstop
    exact ⟨(henabled _ hw).2 (by simp [workerEnabled, hactive, hstop]), workerStep_exits hw hq hstop⟩
  · intro hw hq hstop
    rw [henabled _ hw]
    simp [workerEnabled, hq, hstop]
  · intro t cur it m o hw hit hrun
    exact ⟨(henabled _ hw).2 hactive, workerStep_works hw hit hrun⟩
  · intro t cur hw hit
    exact ⟨(henabled _ hw).2 hactive, workerStep_rests hw hit⟩
  · rintro (hw | hw) <;>
    · rw [henabled _ hw]
      exact nofun

/-- Settles O25: the three steps of `FORK`, and the join, which finds the queue empty. -/
theorem poolLifeCycle : Obligations.PoolLifeCycle := by
  unfold Obligations.PoolLifeCycle
  intro i s hinv
  refine ⟨?_, ?_, ?_, ?_, ?_⟩
  · intro hp hnone
    rw [seqStep_of_fork hp]
    obtain ⟨hstop, ⟨-, hqueue, -⟩ | ⟨hlen, -⟩⟩ := hinv.fork hp
    · exact ⟨hqueue, hstop, forkStep_constructs hnone⟩
    · exact absurd (hlen.symm.trans (congrArg List.length hnone)) (nWorkers_pos s.cfg).ne'
  · intro hp hsome hlt
    rw [seqStep_of_fork hp]
    exact forkStep_enqueues hsome hlt
  · intro hp hsome heq
    rw [seqStep_of_fork hp]
    exact forkStep_stops hsome heq.not_lt
  · intro hp
    rw [seq_mem_enabledAgents_iff, ← allExited_iff]
    simp only [seqEnabled, hp]
  · intro hp hall
    obtain ⟨hworkers, hqueue, hstop⟩ := afterCompute_pool (commandOf i) { s with workers := [], stop := false }
    have hempty := hinv.queue_of_allExited hp hall
    rw [seqStep_of_run hp]
    exact ⟨hempty, hworkers, hqueue.trans hempty, hstop, afterCompute_phase i _⟩

end Sys2Proof
end

section
/-! PROOFS. The host's accesses to the register block (R112, R114), and the capability (R110). -/

namespace Sys2Proof.Machine

theorem wide_iff (c : Cfg) :
    wide c = true ↔ c.hasQuery = true ∧ (c.cpuFamily = .arm64 ∨ (c.cpuFamily = .arm32 ∧ c.neonBit = true)) := by
  simp only [wide, Bool.and_eq_true, Bool.or_eq_true, beq_iff_eq]

/-- The doorbell in an idle engine (R112). -/
theorem step_of_doorbell {s : State} {c : Word} {q : List HostMove} (hidle : s.phase = .idle)
    (hopen : ¬(s.status.busy = true ∨ s.status.fatal = true)) (hq : s.hostQ = .wr 0x00 c :: q) :
    step s = .next (acceptCommand c { s with hostQ := q }) := by
  have hactive : s.phase.active = false := by rw [hidle]; rfl
  rw [step_of_write (.inl hactive) hq, schedAfterHost_of_not_active hactive]
  exact congrArg _ ((writeOffset_cmd (s := { s with hostQ := q }) hopen c).trans (if_pos hidle))

/-- `FATAL` is 0 when a doorbell is accepted, so `STATUS` is that of a running command (R29). -/
theorem accepted_of_not_fatal {f : Status} (h : f.fatal = false) : f.accepted = Status.running := by
  simp only [Status.accepted, Status.running, h]

end Sys2Proof.Machine

namespace Sys2Proof

open Machine

/-- Settles O8: the accepted doorbell, in an idle engine that has no pool. -/
theorem doorbellIsAccepted : Obligations.DoorbellIsAccepted := by
  unfold Obligations.DoorbellIsAccepted
  intro s c q hinv hidle hq
  obtain ⟨hbusy, hfatal⟩ := hinv.idle.1 hidle
  have hpool := hinv.noPool_of (by rw [hidle]; nofun) (by rw [hidle]; nofun)
  refine ⟨?_, fun hsilent => ⟨rfl, rfl, hpool.workers, hpool.queue, hpool.stop, hinv.memory, rfl, hsilent⟩⟩
  rw [step_of_doorbell hidle (by simp [hbusy, hfatal]) hq, acceptCommand, accepted_of_not_fatal hfatal]
  rfl

/-- Settles O9: a write is ignored and a read has no side effect. -/
theorem blockWhileBusyOrFatal : Obligations.BlockWhileBusyOrFatal := by
  unfold Obligations.BlockWhileBusyOrFatal
  refine fun s q hnext hclosed => ⟨fun off v hq => ?_, fun off => step_of_read hnext⟩
  rw [step_of_write hnext hq]
  exact congrArg _ (writeOffset_of_busy_or_fatal (s := { s with hostQ := q, sched := schedAfterHost s }) hclosed off v)

/-- Settles O13: the two arms of the capability. -/
theorem wideCapability : Obligations.WideCapability := wide_iff

end Sys2Proof
end

section
/-! PROOFS. The fixed-point functions and the conversion to 8 bits: `asr` is a floor, `clamp` saturates, `quant` drops the fraction (R151,
R152, R160). -/

namespace Sys2Proof.Machine

/-! ### Fixed point -/

theorem asr_bounds (v : Int) (k : Nat) : asr v k * 2 ^ k ≤ v ∧ v < (asr v k + 1) * 2 ^ k := by
  have hk : (0 : Int) < 2 ^ k := by positivity
  exact ⟨Int.ediv_mul_le v hk.ne', Int.lt_ediv_add_one_mul_self v hk⟩

theorem asr_of_nonneg {v : Int} (h : 0 ≤ v) (k : Nat) : asr v k = ((v.toNat / 2 ^ k : Nat) : Int) := by
  unfold asr
  push_cast
  rw [Int.toNat_of_nonneg h]

theorem toNat_clamp (v : Int) : (clamp v).toNat = if v < 0 then 0 else if v > 255 then 255 else v.toNat := by
  unfold clamp
  split
  · rfl
  · split
    · rfl
    · rw [BitVec.toNat_ofNat, Nat.mod_eq_of_lt (by omega)]

/-! ### The value of a magnitude -/

theorem getLsbD_31_eq_decide (t : F32) : t.getLsbD 31 = decide (2147483648 ≤ t.toNat) :=
  (BitVec.msb_eq_getLsbD_last t).symm.trans (BitVec.msb_eq_decide t)

/-- The value of a finite magnitude in units of the least subnormal, `2^-149`. -/
def magValue (a : Nat) : Nat := (magParts a).1 * 2 ^ ((magParts a).2 + 149).toNat

/-- With the same exponent, the larger magnitude has the larger mantissa. -/
theorem magParts_fst_lt {a b : Nat} (h : a < b) (hexp : (magParts a).2 = (magParts b).2) : (magParts a).1 < (magParts b).1 := by
  unfold magParts at hexp ⊢
  split_ifs at hexp ⊢ <;> dsimp only at hexp ⊢ <;> omega

/-- Magnitudes are ordered as their values: a larger exponent outweighs any mantissa, because its own mantissa is normal. -/
theorem magValue_strictMono : StrictMono magValue := by
  intro a b h
  obtain ⟨hexps, -, hsmall, hnormal⟩ := magLe_magParts (Nat.le_of_lt h)
  have hlo := magParts_exp a
  rcases lt_or_eq_of_le hexps with hlt | heq
  · have hmant := hnormal (by omega)
    calc magValue a < 2 ^ 24 * 2 ^ ((magParts a).2 + 149).toNat := Nat.mul_lt_mul_of_pos_right hsmall (Nat.two_pow_pos _)
      _ = 2 ^ 23 * 2 ^ (((magParts a).2 + 149).toNat + 1) := by rw [Nat.pow_succ 2 ((magParts a).2 + 149).toNat]; omega
      _ ≤ magValue b := Nat.mul_le_mul hmant (Nat.pow_le_pow_right (by omega) (by omega))
  · unfold magValue
    rw [← heq]
    exact Nat.mul_lt_mul_of_pos_right (magParts_fst_lt h heq) (Nat.two_pow_pos _)

/-- Rounded down to a whole number, in the two forms of `quant`. -/
theorem floor_eq (m : Nat) {e : Int} (h : -149 ≤ e) :
    (if 0 ≤ e then m * 2 ^ e.toNat else m / 2 ^ (-e).toNat) = m * 2 ^ (e + 149).toNat / 2 ^ 149 := by
  split
  · next h0 =>
    rw [show (e + 149).toNat = e.toNat + 149 by omega, Nat.pow_add, ← Nat.mul_assoc, Nat.mul_div_cancel _ (Nat.two_pow_pos 149)]
  · next h0 =>
    have hpow : 2 ^ 149 = 2 ^ (-e).toNat * 2 ^ (e + 149).toNat := by
      rw [← Nat.pow_add, show (-e).toNat + (e + 149).toNat = 149 by omega]
    rw [hpow, Nat.mul_div_mul_right _ _ (Nat.two_pow_pos _)]

theorem toNat_i2f_le (n : Nat) : (i2f n).toNat ≤ 0x7F800000 := by
  by_cases hn : n = 0
  · subst hn
    decide
  · have hsign : decide ((n : Int) < 0) = false := decide_eq_false (by omega)
    unfold i2f
    rw [hsign]
    exact roundPack_le (by omega) 0

theorem isFinite_of_toNat_lt {v : F32} (h : v.toNat < 0x7F800000) : fIsFinite v = true := (isFinite_iff v).2 (by omega)

/-- The pattern of a whole number below `2^24` has that number's value. -/
theorem magValue_i2f {n : Nat} (h : n < 2 ^ 24) : magValue (i2f n).toNat = n * 2 ^ 149 := by
  obtain ⟨neg, m, e, hu, he, hm⟩ := isWhole_i2f (n := n) h
  have hle := toNat_i2f_le n
  have hfin : fIsFinite (i2f n) = true := by
    unfold fIsFinite
    rw [hu]
  have hparts := hu.symm.trans (unpack_finite hfin)
  rw [Nat.mod_eq_of_lt (by omega)] at hparts
  injection hparts with hneg hmant hexp
  have hlo := magParts_exp (i2f n).toNat
  have hpos : neg = false := hneg.trans (decide_eq_false (by omega))
  have hval : m = n * 2 ^ (-e).toNat := by
    have hcast : (m : Int) = n * 2 ^ (-e).toNat := by simpa [hpos, signedMant] using hm
    exact_mod_cast hcast
  unfold magValue
  rw [← hmant, ← hexp, hval, Nat.mul_assoc, ← Nat.pow_add, show (-e).toNat + (e + 149).toNat = 149 by omega]

/-! ### `quant` -/

theorem quant_nan {v : F32} (h : unpack v = .nan) : quant v = 0 := by
  unfold quant
  rw [h]

theorem quant_of_sign {v : F32} (h : v.getLsbD 31 = true) : quant v = 0 := by
  rw [getLsbD_31_eq_decide] at h
  unfold quant
  rw [unpack_eq, h]
  split_ifs <;> rfl

/-- A finite number without sign: its value rounded down, saturated. -/
theorem quant_finite {v : F32} (h : v.toNat < 0x7F800000) :
    quant v = if magValue v.toNat / 2 ^ 149 ≥ 255 then 255 else BitVec.ofNat 8 (magValue v.toNat / 2 ^ 149) := by
  have hsign : decide (2147483648 ≤ v.toNat) = false := decide_eq_false (by omega)
  unfold quant
  rw [unpack_finite (isFinite_of_toNat_lt h), hsign, Nat.mod_eq_of_lt (by omega)]
  simp only [Bool.false_eq_true, if_false, floor_eq _ (magParts_exp _)]
  rfl

theorem quant_inf : quant 0x7F800000#32 = 255 := by decide

/-- From 255.0 on `quant` saturates. -/
theorem quant_of_i2f_255_le {v : F32} (hinf : v.toNat ≤ 0x7F800000) (h : (i2f 255).toNat ≤ v.toNat) : quant v = 255 := by
  rcases Nat.lt_or_eq_of_le hinf with hlt | heq
  · have hval : 255 * 2 ^ 149 ≤ magValue v.toNat := by
      rw [← magValue_i2f (n := 255) (by omega)]
      exact magValue_strictMono.monotone h
    rw [quant_finite hlt, if_pos ((Nat.le_div_iff_mul_le (Nat.two_pow_pos 149)).2 hval)]
  · rw [show v = 0x7F800000#32 from BitVec.eq_of_toNat_eq heq, quant_inf]

/-- Between two neighbouring whole numbers `quant` is the lower one. -/
theorem quant_of_between {v : F32} {n : Nat} (hn : n < 255) (hlo : (i2f n).toNat ≤ v.toNat) (hhi : v.toNat < (i2f (n + 1 : Nat)).toNat) :
    quant v = BitVec.ofNat 8 n := by
  have hge : n * 2 ^ 149 ≤ magValue v.toNat := by
    rw [← magValue_i2f (n := n) (by omega)]
    exact magValue_strictMono.monotone hlo
  have hlt : magValue v.toNat < (n + 1) * 2 ^ 149 := by
    rw [← magValue_i2f (n := n + 1) (by omega)]
    exact magValue_strictMono hhi
  have hfloor : magValue v.toNat / 2 ^ 149 = n := Nat.div_eq_of_lt_le hge hlt
  rw [quant_finite (Nat.lt_of_lt_of_le hhi (toNat_i2f_le _)), hfloor, if_neg (by omega)]

end Sys2Proof.Machine

namespace Sys2Proof

open Machine

/-- Settles O46: `asr` is division towards minus infinity, and `clamp` saturates. -/
theorem fixedPoint : Obligations.FixedPoint := by
  unfold Obligations.FixedPoint
  refine ⟨fun v k => ?_, by decide, toNat_clamp⟩
  obtain ⟨hlo, hhi⟩ := asr_bounds v k
  exact ⟨hlo, hhi, fun h => asr_of_nonneg h k⟩

/-- Settles O47: patterns without sign are ordered as their values, and `quant` takes the floor of the value. -/
theorem quantDropsTheFraction : Obligations.QuantDropsTheFraction := by
  unfold Obligations.QuantDropsTheFraction
  intro v
  refine ⟨quant_nan, quant_of_sign, ?_, fun hnan hsign h => ?_, fun n hn _ hlo hhi => quant_of_between hn hlo hhi⟩
  · rintro rfl
    decide
  · rw [getLsbD_31_eq_decide, decide_eq_false_iff_not] at hsign
    rw [ne_eq, isNan_iff] at hnan
    exact quant_of_i2f_255_le (by omega) h

end Sys2Proof
end

section
/-! PROOFS. The exponential: P1 to P4 of R158 hold of every table `fexp` is read from, because a table that breaks P3 is not read (log 2). -/

namespace Sys2Proof.Machine

/-- The table a configuration's `fexp` is read from. -/
def tableInUse (c : Cfg) : List (F32 × F32) := if fexpTableOk c.fexpTable then c.fexpTable else []

theorem fexp_eq_fexpFrom (c : Cfg) (t : F32) : fexp c t = fexpFrom (tableInUse c) t := rfl

theorem tableInUse_ok (c : Cfg) : fexpTableOk (tableInUse c) = true := by
  unfold tableInUse
  split
  · next h => exact h
  · rfl

/-! ### Special operands, and operands that are not positive -/

theorem fexpFrom_of_magnitude_zero (table : List (F32 × F32)) {t : F32} (h : t.toNat % 2147483648 = 0) : fexpFrom table t = f1 := by
  rw [fexpFrom_finite table ((isFinite_iff t).2 (by omega)), if_pos h]

theorem fexpFrom_of_unpack_neg_inf (table : List (F32 × F32)) {t : F32} (h : unpack t = .inf true) : fexpFrom table t = f0 := by
  unfold fexpFrom
  rw [h]
  rfl

theorem fexpFrom_nan (table : List (F32 × F32)) {t : F32} (h : unpack t = .nan) : fexpFrom table t = qNaN := by
  unfold fexpFrom
  rw [h]

theorem fexpFrom_range_of_sign (table : List (F32 × F32)) {t : F32} (ht : fIsFinite t = true) (hsign : t.getLsbD 31 = true) :
    (fexpFrom table t).toNat ≤ f1.toNat ∨ fexpFrom table t = fMinus0 := by
  rw [getLsbD_31_eq_decide, decide_eq_true_eq] at hsign
  rw [fexpFrom_finite table ht, if_pos hsign]
  split
  · exact .inl (Nat.le_refl _)
  · exact clampUnit_range _

/-! ### A table that passes its check is monotone -/

/-- At an operand the table does not list stands the reference exponential. -/
theorem fexpFrom_of_not_listed {table : List (F32 × F32)} {t : F32} (h : ∀ e ∈ table, e.1 ≠ t) :
    fexpFrom table t = fexpFrom [] t := by
  have hnone : table.lookup t = none :=
    List.lookup_eq_none_iff.2 fun e he => by simpa [bne_iff_ne] using (h e he).symm
  unfold fexpFrom
  rw [hnone]
  rfl

theorem monotoneAt_of_listed {table : List (F32 × F32)} (hok : fexpTableOk table = true) {t : F32} (h : ∃ e ∈ table, e.1 = t) :
    monotoneAt (fexpFrom table) t = true := by
  obtain ⟨e, he, rfl⟩ := h
  exact List.all_eq_true.1 hok e he

/-- The check at a place, in places: the values at the neighbours it has are in order with its own. -/
theorem monotoneAt_fOfKey {f : F32 → F32} {k : Int} (hlo : -maxFiniteKey ≤ k) (hhi : k ≤ maxFiniteKey)
    (h : monotoneAt f (fOfKey k) = true) :
    (k = -maxFiniteKey ∨ fLe (f (fOfKey (k - 1))) (f (fOfKey k)) = true) ∧
      (k = maxFiniteKey ∨ fLe (f (fOfKey k)) (f (fOfKey (k + 1))) = true) := by
  unfold monotoneAt at h
  rw [isFinite_fOfKey hlo hhi, fKey_fOfKey hlo hhi] at h
  simpa only [Bool.not_true, Bool.false_or, Bool.and_eq_true, Bool.or_eq_true, beq_iff_eq] using h

/-- From one place to the next: the check at the place that is listed, or the reference exponential at both. -/
theorem fexpFrom_step {table : List (F32 × F32)} (hok : fexpTableOk table = true) {k : Int} (hlo : -maxFiniteKey ≤ k)
    (hhi : k < maxFiniteKey) : fLe (fexpFrom table (fOfKey k)) (fexpFrom table (fOfKey (k + 1))) = true := by
  by_cases hthis : ∃ e ∈ table, e.1 = fOfKey k
  · exact (monotoneAt_fOfKey hlo (Int.le_of_lt hhi) (monotoneAt_of_listed hok hthis)).2.resolve_left (Int.ne_of_lt hhi)
  by_cases hnext : ∃ e ∈ table, e.1 = fOfKey (k + 1)
  · have hprev := (monotoneAt_fOfKey (k := k + 1) (by omega) hhi (monotoneAt_of_listed hok hnext)).1.resolve_left (by omega)
    rwa [Int.add_sub_cancel] at hprev
  push Not at hthis hnext
  rw [fexpFrom_of_not_listed hthis, fexpFrom_of_not_listed hnext]
  have hf := isFinite_fOfKey hlo (Int.le_of_lt hhi)
  have hf' := isFinite_fOfKey (k := k + 1) (by omega) hhi
  refine fexpFrom_nil_mono hf hf' (fLe_of_fKey_le hf hf' ?_)
  rw [fKey_fOfKey hlo (by omega), fKey_fOfKey (by omega) hhi]
  omega

/-- P3 of R158. -/
theorem fexpFrom_mono {table : List (F32 × F32)} (hok : fexpTableOk table = true) {t u : F32} (ht : fIsFinite t = true)
    (hu : fIsFinite u = true) (h : fLe t u = true) : fLe (fexpFrom table t) (fexpFrom table u) = true :=
  monotone_of_steps ((fexpFrom_of_magnitude_zero table rfl).trans (fexpFrom_of_magnitude_zero table rfl).symm)
    (fun _ => fexpFrom_step hok) ht hu h

end Sys2Proof.Machine

namespace Sys2Proof

open Machine

/-- Settles O48: the clauses at one operand hold of every table, and the table in use passes its check, so it is monotone. -/
theorem exponentialProperties : Obligations.ExponentialProperties := by
  unfold Obligations.ExponentialProperties
  intro c t
  refine ⟨fexpFrom_of_magnitude_zero _ rfl, fexpFrom_of_magnitude_zero _ rfl, fexpFrom_of_unpack_neg_inf _ (by decide),
    fexpFrom_range_of_sign _, fun u => fexpFrom_mono (tableInUse_ok c), fun hnan => ?_⟩
  rw [fexp_eq_fexpFrom, fexpFrom_nan _ hnan]
  decide

end Sys2Proof
end

section
/-! PROOFS. The vector results of the float-accumulated filters against the scalar ones (R163). -/

namespace Sys2Proof.Machine

theorem withinOne_refl (b : Byte) : WithinOne b b := ⟨Nat.le_succ _, Nat.le_succ _⟩

/-- A deviation moves a byte by at most 1. -/
theorem withinOne_deviate (d : Deviation) (b : Byte) : WithinOne (deviate d b) b := by
  cases d with
  | exact => exact withinOne_refl b
  | oneLess =>
    unfold deviate WithinOne
    dsimp only
    split <;> bv_omega
  | oneMore =>
    unfold deviate WithinOne
    dsimp only
    split <;> bv_omega

/-! ### `BLUR` of radius 0 -/

theorem isWhole_f1 : IsWhole f1 1 := ⟨false, 2 ^ 23, -23, by decide, by decide, by decide⟩

theorem isWhole_b2f (b : Byte) : IsWhole (b2f b) b.toNat := isWhole_i2f (by have := b.isLt; omega)

theorem clamp_toNat (b : Byte) : clamp b.toNat = b := by
  have hb := b.isLt
  apply BitVec.eq_of_toNat_eq
  rw [toNat_clamp, if_neg (by omega), if_neg (by omega), Int.toNat_natCast]

/-- The weight 1.0 alone gives the tap back. -/
theorem scalBlur_unit (v : Byte) : scalBlur ⟨0, [f1]⟩ [v] = v := by
  have hv := v.isLt
  have hprod : IsWhole (fmul f1 (b2f v)) (1 * v.toNat) := isWhole_fmul isWhole_f1 (isWhole_b2f v) (by omega)
  have hsum : IsWhole (weightedSum [f1] [b2f v]) (0 + 1 * v.toNat) := isWhole_fadd (isWhole_zero false) hprod (by omega)
  calc scalBlur ⟨0, [f1]⟩ [v] = clamp (0 + 1 * v.toNat) := quant_whole hsum
    _ = v := by rw [Int.zero_add, Int.one_mul, clamp_toNat]

theorem vecBlur_radius_zero (c : Cfg) {k : Kernel} (h : k.r = 0) (v : Byte) : vecBlur c k [v] = v := by
  unfold vecBlur
  rw [if_pos h]
  rfl

theorem vecBlur_of_radius_ne_zero (c : Cfg) {k : Kernel} (h : k.r ≠ 0) (win : List Byte) :
    vecBlur c k win = deviate ((c.vecBlur.lookup (k, win)).getD .exact) (scalBlur k win) := if_neg h

/-! ### `EDGE` on an even window -/

theorem vecEdge_replicate (c : Cfg) (v : Byte) : vecEdge c (List.replicate 9 v) = 0 := by
  unfold vecEdge
  rw [if_pos (by simp [List.replicate])]

theorem scalEdge_replicate (v : Byte) : scalEdge (List.replicate 9 v) = 0 := by
  have hx : sobelX (List.replicate 9 v) = 0 := by simp [sobelX, tap3, List.replicate]
  have hy : sobelY (List.replicate 9 v) = 0 := by simp [sobelY, tap3, List.replicate]
  unfold scalEdge
  rw [hx, hy]
  decide

/-- An even window is the one case in which `VecEdge` is not a deviation, and there both results are 0. -/
theorem withinOne_vecEdge (c : Cfg) {win : List Byte} (hlen : win.length = 9) : WithinOne (vecEdge c win) (scalEdge win) := by
  cases heven : win.all (· == win.headD 0) with
  | true =>
    have hrep : win = List.replicate 9 (win.headD 0) :=
      List.eq_replicate_iff.2 ⟨hlen, fun b hb => beq_iff_eq.1 (List.all_eq_true.1 heven b hb)⟩
    rw [hrep, vecEdge_replicate, scalEdge_replicate]
    exact withinOne_refl 0
  | false =>
    unfold vecEdge
    rw [heven]
    exact withinOne_deviate _ _

end Sys2Proof.Machine

namespace Sys2Proof

open Machine

/-- Settles O50: a vector result is a deviation of the scalar one, but for `BLUR` of radius 0 and `EDGE` on an even window. -/
theorem vectorResultsWithinOne : Obligations.VectorResultsWithinOne := by
  unfold Obligations.VectorResultsWithinOne
  intro c k win win3
  refine ⟨fun hr => ?_, fun v => ?_, withinOne_deviate _ _, withinOne_deviate _ _, withinOne_vecEdge c,
    fun v hr => vecBlur_radius_zero c hr v, vecEdge_replicate c⟩
  · rw [vecBlur_of_radius_ne_zero c hr]
    exact withinOne_deviate _ _
  · have hscal : scalBlur ⟨0, [0x3F800000#32]⟩ [v] = v := scalBlur_unit v
    rw [vecBlur_radius_zero c rfl, hscal]
    exact withinOne_refl v

end Sys2Proof
end

section
/-! PROOFS. The pointwise filters `GRAY` and `NEG` (42_pointwise.md): each replaces every pixel of the image by a function of that pixel
and no other byte, so what R186 says of memory are facts about the two functions. -/

namespace Sys2Proof.Machine

/-! ### The two functions of a pixel -/

theorem clamp_natCast {n : Nat} (h : n ≤ 255) : clamp n = BitVec.ofNat 8 n := by
  unfold clamp
  rw [if_neg (by omega), if_neg (by omega), Int.toNat_natCast]

/-- The luma of R182 on naturals: the three weights sum to 256, so it never saturates. -/
theorem grayLuma_eq (r g b : Byte) :
    grayLuma r g b = BitVec.ofNat 8 ((77 * r.toNat + 150 * g.toNat + 29 * b.toNat + 128) / 256) := by
  have hshift : asr (77 * r.toNat + 150 * g.toNat + 29 * b.toNat + 128) 8
      = ((77 * r.toNat + 150 * g.toNat + 29 * b.toNat + 128) / 256 : Nat) := by
    unfold asr
    omega
  unfold grayLuma
  rw [hshift]
  exact clamp_natCast (by omega)

theorem grayLuma_self (y : Byte) : grayLuma y y y = y := by
  rw [grayLuma_eq, show (77 * y.toNat + 150 * y.toNat + 29 * y.toNat + 128) / 256 = y.toNat by omega, BitVec.ofNat_toNat,
    BitVec.setWidth_eq]

theorem grayPixel_grayPixel (p : Pixel) : grayPixel (grayPixel p) = grayPixel p := by
  simp only [grayPixel, grayLuma_self]

theorem ofNat_255_sub_toNat (b : Byte) : BitVec.ofNat 8 (255 - b.toNat) = 255 - b := by
  bv_omega

theorem negPixel_negPixel (p : Pixel) : negPixel (negPixel p) = p := by
  simp only [negPixel, sub_sub_cancel]

/-- The function `f` of R181 by which a pointwise command replaces each pixel. -/
inductive PixelFunction : Instr → (Pixel → Pixel) → Prop where
  | gray : PixelFunction .gray grayPixel
  | neg : PixelFunction .neg negPixel

section PixelFunction

variable {i : Instr} {f : Pixel → Pixel}

theorem PixelFunction.commandOf_eq (hf : PixelFunction i f) : commandOf i = pointwiseCommand f := by
  cases hf with
  | gray => rfl
  | neg => rfl

theorem PixelFunction.keeps_alpha (hf : PixelFunction i f) (p : Pixel) : (f p).a = p.a := by
  cases hf with
  | gray => rfl
  | neg => rfl

theorem exists_pixelFunction (hi : i = .gray ∨ i = .neg) : ∃ f, PixelFunction i f := by
  rcases hi with rfl | rfl
  · exact ⟨_, .gray⟩
  · exact ⟨_, .neg⟩

end PixelFunction

/-! ### Memory in which every pixel has been replaced -/

/-- Memory `m` holds `f` of each pixel of `m0` in its place, and each byte of no pixel as `m0` does (R181). -/
structure ImageMapped (f : Pixel → Pixel) (g : HostRegs) (m0 m : Memory) : Prop where
  wf : m.wf = true
  pixels : ∀ x < g.width, ∀ y < g.height, imagePixel g m x y = f (imagePixel g m0 x y)
  others : ∀ a, OffImage g a → m.read a = m0.read a

theorem read_eq_of_pixelAt_eq {m m' : Memory} {a k : Nat} (h : m.pixelAt a = m'.pixelAt a) (hk : k < 4) :
    m.read (a + k) = m'.read (a + k) := by
  obtain ⟨h0, h1, h2, h3⟩ := Pixel.mk.inj h
  interval_cases k
  · exact h0
  · exact h1
  · exact h2
  · exact h3

/-- Two memories with the same pixels and the same other bytes are equal. -/
theorem ext_of_image {g : HostRegs} {m m' : Memory} (hwf : m.wf = true) (hwf' : m'.wf = true)
    (hpixels : ∀ x < g.width, ∀ y < g.height, imagePixel g m x y = imagePixel g m' x y)
    (hothers : ∀ a, OffImage g a → m.read a = m'.read a) : m = m' := by
  refine Memory.ext_of_read hwf hwf' fun a => ?_
  by_cases hoff : OffImage g a
  · exact hothers a hoff
  · unfold OffImage at hoff
    push Not at hoff
    obtain ⟨x, hx, y, hy, k, hk, rfl⟩ := hoff
    exact read_eq_of_pixelAt_eq (hpixels x hx y hy) hk

section ImageMapped

variable {f f' : Pixel → Pixel} {g : HostRegs} {m0 m m' : Memory}

theorem ImageMapped.unique (h : ImageMapped f g m0 m) (h' : ImageMapped f g m0 m') : m' = m :=
  ext_of_image h'.wf h.wf (fun x hx y hy => (h'.pixels x hx y hy).trans (h.pixels x hx y hy).symm)
    fun a ha => (h'.others a ha).trans (h.others a ha).symm

theorem ImageMapped.refl (hwf : m.wf = true) : ImageMapped id g m m := ⟨hwf, fun _ _ _ _ => rfl, fun _ _ => rfl⟩

theorem ImageMapped.comp (h : ImageMapped f g m0 m) (h' : ImageMapped f' g m m') : ImageMapped (f' ∘ f) g m0 m' :=
  ⟨h'.wf, fun x hx y hy => by rw [h'.pixels x hx y hy, h.pixels x hx y hy, Function.comp_apply],
    fun a ha => (h'.others a ha).trans (h.others a ha)⟩

/-- `NEG` twice restores memory (R186 (a)). -/
theorem ImageMapped.neg_neg (hwf : m0.wf = true) (h : ImageMapped negPixel g m0 m) (h' : ImageMapped negPixel g m m') : m' = m0 := by
  have htwice : ImageMapped (negPixel ∘ negPixel) g m0 m' := h.comp h'
  rw [show negPixel ∘ negPixel = id from funext negPixel_negPixel] at htwice
  exact (ImageMapped.refl hwf).unique htwice

/-- `GRAY` twice is `GRAY` (R186 (c)). -/
theorem ImageMapped.gray_gray (h : ImageMapped grayPixel g m0 m) (h' : ImageMapped grayPixel g m m') : m' = m := by
  have htwice : ImageMapped (grayPixel ∘ grayPixel) g m0 m' := h.comp h'
  rw [show grayPixel ∘ grayPixel = grayPixel from funext grayPixel_grayPixel] at htwice
  exact h.unique htwice

end ImageMapped

/-! ### A pointwise command from acceptance to its end -/

section Run

variable {i : Instr} {f : Pixel → Pixel} {s s' t t' : State}

theorem PixelFunction.checksPass (hf : PixelFunction i f) (hlaunch : Launchable i s) : ChecksPass i s :=
  ⟨hlaunch, by rintro rfl; cases hf⟩

theorem PixelFunction.footprintIn_iff (hf : PixelFunction i f) :
    FootprintIn i s ↔ ∀ a, inPixels s.latch.regs a = true → admissible s.cfg a = true := by
  unfold FootprintIn
  rw [hf.commandOf_eq]
  rfl

/-- A pointwise launch with its footprint in memory ends in success, the kernel and scratch stores as before, and `f` of each pixel in its place. -/
theorem exec_pointwise (hf : PixelFunction i f) (h : Accepted s) (hlaunch : Launchable i s) (hfoot : FootprintIn i s) :
    ∃ t, exec i s = .next t ∧ Succeeded (wide s.cfg) false s t ∧ StoresKept s t ∧ ImageMapped f s.latch.regs s.mem t.mem := by
  have hpass := hf.checksPass hlaunch
  have hS := hpass.rowsFit
  have hlanes := (forall_fourAdmissible_iff hS).2 (hf.footprintIn_iff.1 hfoot)
  have hoverlap : (commandOf i).overlaps s.latch.regs = false := by rw [hf.commandOf_eq]; rfl
  have hexec := exec_of_accepted h (.inl hoverlap)
  have hok := hpass.firstFailure_eq_none
  rw [hf.commandOf_eq] at hexec hok
  rcases direct_run (pointwiseDirect f s.cfg s.latch.regs s.kernel s.mem hS) h hok rfl with
    ⟨-, last, heq, frame, status, noPool, kernel, out, final⟩ | ⟨hnot, -⟩
  · rw [heq] at hexec
    refine ⟨_, hexec, succeeded_of frame status noPool final.wf, ⟨kernel, out⟩, final.wf, fun x hx y hy => ?_, fun a ha => ?_⟩
    · exact final.written trivial (x, y) (mem_pixelCoords.2 ⟨hx, hy⟩)
    · exact final.others a ((offImage_iff hS a).1 ha)
  · exact absurd hlanes hnot

theorem imageMapped_of_exec (hf : PixelFunction i f) (h : Accepted s) (hlaunch : Launchable i s) (hfoot : FootprintIn i s)
    (hexec : exec i s = .next t) : ImageMapped f s.latch.regs s.mem t.mem := by
  obtain ⟨u, hu, -, -, hmapped⟩ := exec_pointwise hf h hlaunch hfoot
  rw [hexec] at hu
  cases hu
  exact hmapped

/-- The launch premises of a pointwise command do not depend on the configuration but for the memory map. -/
theorem PixelFunction.launchable_congr (hf : PixelFunction i f) (hregs : s'.latch.regs = s.latch.regs) (hlaunch : Launchable i s) :
    Launchable i s' := by
  obtain ⟨hformat, hrows, hend, -⟩ := hlaunch
  refine ⟨hregs ▸ hformat, hregs ▸ hrows, hregs ▸ hend, fun hn => ?_⟩
  cases hf with
  | gray => cases hn
  | neg => cases hn

theorem PixelFunction.footprintIn_congr (hf : PixelFunction i f) (hregs : s'.latch.regs = s.latch.regs)
    (hmap : s'.cfg.memMap = s.cfg.memMap) (hfoot : FootprintIn i s) : FootprintIn i s' := by
  have hadm : ∀ a, admissible s'.cfg a = admissible s.cfg a := fun a => by simp only [admissible, memValid, hmap]
  rw [hf.footprintIn_iff] at hfoot ⊢
  simpa only [hregs, hadm] using hfoot

/-- The same launch on another engine, whatever its path, vector width and worker count, maps the image of the memory it finds. -/
theorem imageMapped_of_exec_again (hf : PixelFunction i f) (hlaunch : Launchable i s) (hfoot : FootprintIn i s) (h' : Accepted s')
    (hregs : s'.latch.regs = s.latch.regs) (hmap : s'.cfg.memMap = s.cfg.memMap) (hexec : exec i s' = .next t') :
    ImageMapped f s.latch.regs s'.mem t'.mem :=
  hregs ▸ imageMapped_of_exec hf h' (hf.launchable_congr hregs hlaunch) (hf.footprintIn_congr hregs hmap hfoot) hexec

end Run

end Sys2Proof.Machine

namespace Sys2Proof

open Machine

/-- Settles O26: the run puts `grayPixel` of each pixel in its place, and the luma on naturals is that formula. -/
theorem grayResult : Obligations.GrayResult := by
  unfold Obligations.GrayResult
  intro s h hlaunch hfoot
  obtain ⟨t, hexec, hsucceeded, hstores, hmapped⟩ := exec_pointwise .gray h hlaunch hfoot
  refine ⟨t, hexec, hsucceeded, hstores, fun x hx y hy => ?_, hmapped.others⟩
  simp only [hmapped.pixels x hx y hy, grayPixel, grayLuma_eq]

/-- Settles O27: the run puts `negPixel` of each pixel in its place, and `255 - b` on bytes is that on naturals. -/
theorem negResult : Obligations.NegResult := by
  unfold Obligations.NegResult
  intro s h hlaunch hfoot
  obtain ⟨t, hexec, hsucceeded, hstores, hmapped⟩ := exec_pointwise .neg h hlaunch hfoot
  refine ⟨t, hexec, hsucceeded, hstores, fun x hx y hy => ?_, hmapped.others⟩
  simp only [hmapped.pixels x hx y hy, negPixel, ofNat_255_sub_toNat]

/-- Settles O42: memory at the end is the mapped image of memory at acceptance, on every engine, and `NEG` is an involution on pixels,
`GRAY` a projection onto grey ones. -/
theorem pointwiseConsequences : Obligations.PointwiseConsequences := by
  unfold Obligations.PointwiseConsequences
  intro i s t hi h hlaunch hfoot hexec
  obtain ⟨f, hf⟩ := exists_pixelFunction hi
  have hmapped := imageMapped_of_exec hf h hlaunch hfoot hexec
  refine ⟨fun s' t' h' hmem hregs hcfg hexec' => ?_, ?_, fun s' t' h' hmem hregs hmap hexec' => ?_, hmapped.others, fun x hx y hy => ?_⟩
  · have hagain := imageMapped_of_exec_again hf hlaunch hfoot h' hregs (congrArg Cfg.memMap hcfg) hexec'
    rw [hmem] at hagain
    cases hf with
    | gray => exact ⟨nofun, fun _ => hmapped.gray_gray hagain⟩
    | neg => exact ⟨fun _ => hmapped.neg_neg h.memory hagain, nofun⟩
  · rintro rfl x hx y hy
    cases hf with
    | gray =>
      rw [hmapped.pixels x hx y hy]
      exact ⟨rfl, rfl⟩
  · have hother := imageMapped_of_exec_again hf hlaunch hfoot h' hregs hmap hexec'
    rw [hmem] at hother
    exact hmapped.unique hother
  · rw [hmapped.pixels x hx y hy, hf.keeps_alpha]

end Sys2Proof
end

section
/-! PROOFS. The places of a window in row-major order (R197), and the kernel `BLUR` generates (R192): its shape, its symmetry, and for
radius 0 the single weight 1.0. -/

namespace Sys2Proof.Machine

/-! ### A square table in row-major order -/

/-- A table of `n` rows of `n` entries is the list of its entries by their number. -/
theorem flatMap_map_range_eq {α : Type} (f : Nat → Nat → α) (n : Nat) :
    (List.range n).flatMap (fun j => (List.range n).map (f j)) = (List.range (n * n)).map fun k => f (k / n) (k % n) := by
  rw [← flatMap_chunks (fun k => f (k / n) (k % n)) n n]
  refine congrArg (fun row => (List.range n).flatMap row) (funext fun j => List.map_congr_left fun i hi => ?_)
  have hi : i < n := List.mem_range.1 hi
  rw [Nat.add_comm, Nat.add_mul_div_right _ _ (by omega), Nat.add_mul_mod_self_right, Nat.div_eq_of_lt hi, Nat.mod_eq_of_lt hi,
    Nat.zero_add]

theorem length_flatMap_map_range {α : Type} (f : Nat → Nat → α) (n : Nat) :
    ((List.range n).flatMap fun j => (List.range n).map (f j)).length = n * n := by
  rw [flatMap_map_range_eq, List.length_map, List.length_range]

/-- Entry `i` of row `j`. -/
theorem getElem?_flatMap_map_range {α : Type} (f : Nat → Nat → α) {n j i : Nat} (hj : j < n) (hi : i < n) :
    ((List.range n).flatMap fun j => (List.range n).map (f j))[n * j + i]? = some (f j i) := by
  have hlt : n * j + i < n * n :=
    calc n * j + i < n * (j + 1) := by rw [Nat.mul_add, Nat.mul_one]; omega
      _ ≤ n * n := Nat.mul_le_mul_left n hj
  rw [flatMap_map_range_eq, List.getElem?_map, List.getElem?_range hlt, Option.map_some, Nat.mul_add_div (by omega),
    Nat.mul_add_mod, Nat.div_eq_of_lt hi, Nat.mod_eq_of_lt hi, Nat.add_zero]

/-! ### The generated kernel -/

/-- The offsets as a table: row `j` and column `i` of the window, seen from its centre. -/
theorem windowOffsets_eq (r : Nat) : windowOffsets r =
    (List.range (2 * r + 1)).flatMap fun j : Nat => (List.range (2 * r + 1)).map fun i : Nat => ((j : Int) - r, (i : Int) - r) := by
  unfold windowOffsets
  simp [List.flatMap_map, ← List.map_eq_flatMap, Function.comp_def]

theorem length_windowOffsets (r : Nat) : (windowOffsets r).length = (2 * r + 1) * (2 * r + 1) := by
  rw [windowOffsets_eq, length_flatMap_map_range]

theorem windowOffsets_getElem? {r j i : Nat} (hj : j < 2 * r + 1) (hi : i < 2 * r + 1) :
    (windowOffsets r)[(2 * r + 1) * j + i]? = some ((j : Int) - r, (i : Int) - r) := by
  rw [windowOffsets_eq, getElem?_flatMap_map_range _ hj hi]

/-- The unnormalised weight of a tap whose place has `dx^2 + dy^2 = d` (R192). -/
def gaussWeight (c : Cfg) (sigma : F32) (d : Int) : F32 :=
  fdiv (fexp c (fneg (fdiv (i2f d) (fmul f2 (fmul sigma sigma))))) (fmul PI32 (fmul f2 (fmul sigma sigma)))

theorem gaussWeights_eq (c : Cfg) (r : Nat) (sigma : F32) :
    gaussWeights c r sigma = (windowOffsets r).map fun d => gaussWeight c sigma (d.2 * d.2 + d.1 * d.1) := rfl

/-- What an accepted kernel is: the weights divided by their sum, which is finite and positive. -/
theorem gaussKernel_eq_some {c : Cfg} {r : Nat} {sigma : F32} {k : Kernel} (h : gaussKernel c r sigma = some k) :
    ∃ sum, sum = (gaussWeights c r sigma).foldl fadd f0 ∧ (fIsFinite sum = true ∧ fIsPositive sum = true) ∧
      k = ⟨r, (gaussWeights c r sigma).map fun w => fdiv w sum⟩ := by
  unfold gaussKernel at h
  dsimp only at h
  split at h
  · next hsum => exact ⟨_, rfl, Bool.and_eq_true_iff.1 hsum, (Option.some.inj h).symm⟩
  · cases h

theorem gaussKernel_radius {c : Cfg} {r : Nat} {sigma : F32} {k : Kernel} (h : gaussKernel c r sigma = some k) : k.r = r := by
  obtain ⟨sum, -, -, rfl⟩ := gaussKernel_eq_some h
  rfl

theorem gaussKernel_length {c : Cfg} {r : Nat} {sigma : F32} {k : Kernel} (h : gaussKernel c r sigma = some k) :
    k.w.length = (2 * r + 1) * (2 * r + 1) := by
  obtain ⟨sum, -, -, rfl⟩ := gaussKernel_eq_some h
  rw [gaussWeights_eq, List.length_map, List.length_map, length_windowOffsets]

/-- A weight is a function of `dx^2 + dy^2`. -/
theorem gaussKernel_weight {c : Cfg} {r : Nat} {sigma : F32} {k : Kernel} (h : gaussKernel c r sigma = some k) :
    ∃ weight : Int → F32, ∀ j < 2 * r + 1, ∀ i < 2 * r + 1,
      k.w[(2 * r + 1) * j + i]? = some (weight (((j : Int) - r) ^ 2 + ((i : Int) - r) ^ 2)) := by
  obtain ⟨sum, -, -, rfl⟩ := gaussKernel_eq_some h
  refine ⟨fun d => fdiv (gaussWeight c sigma d) sum, fun j hj i hi => ?_⟩
  rw [gaussWeights_eq, List.getElem?_map, List.getElem?_map, windowOffsets_getElem? hj hi, Option.map_some, Option.map_some,
    pow_two, pow_two, Int.add_comm]

/-! ### Radius 0 -/

theorem placedMant_of_lastPlace_eq {m : Nat} {e : Int} (h : lastPlace m e = e) : placedMant m e = m := by
  rw [placedMant, h, if_pos (Int.le_refl e), Int.sub_self, Int.toNat_zero, Nat.pow_zero, Nat.mul_one]

/-- A pattern that is not 0 is taken apart so that its last place is the exponent: a subnormal one has the least exponent, a normal one
a mantissa of 24 bits. -/
theorem lastPlace_magParts {a : Nat} (h0 : 0 < a) : lastPlace (magParts a).1 (magParts a).2 = (magParts a).2 := by
  unfold magParts
  split
  · next hsub =>
    have hlog : (a % 8388608).log2 < 23 := (Nat.log2_lt (by omega)).2 (by omega)
    unfold lastPlace
    dsimp only
    omega
  · next hnormal =>
    have hlog : (8388608 + a % 8388608).log2 = 23 := (Nat.log2_eq_iff (by omega)).2 ⟨by omega, by omega⟩
    unfold lastPlace
    dsimp only
    rw [hlog]
    omega

/-- A pattern of a finite number that is not a zero and has no sign is the one nearest its own value. -/
theorem roundPack_magParts {x : F32} (h0 : 0 < x.toNat) (h : x.toNat < 0x7F800000) :
    roundPack false (magParts x.toNat).1 (magParts x.toNat).2 = x := by
  have hm : (magParts x.toNat).1 ≠ 0 := fun hz => h0.ne' (magParts_zero hz)
  have hlast := lastPlace_magParts h0
  apply BitVec.eq_of_toNat_eq
  rw [toNat_roundPack hm, placedMant_of_lastPlace_eq hlast, hlast]
  unfold magParts
  split <;> dsimp only <;> omega

/-- Rounding keeps the sign bit. -/
theorem toNat_roundPack_neg (m : Nat) (e : Int) : 2147483648 ≤ (roundPack true m e).toNat := by
  have hsigned : ∀ mag < 2 ^ 31, 2147483648 ≤ (signed true mag).toNat := fun mag hmag => by
    rw [toNat_signed hmag]
    exact Nat.le_add_right _ _
  unfold roundPack
  split
  · exact hsigned 0 (by omega)
  · dsimp only
    generalize (max (e + m.log2 - 23) (-149) + 149).toNat * 2 ^ 23 + _ = mag
    split
    · exact hsigned 0x7F800000 (by omega)
    · exact hsigned mag (by omega)

theorem unpack_f0 : unpack f0 = .fin false 0 (-149) := by decide

/-- Only a finite addend gives a finite sum with `+0.0`. -/
theorem isFinite_of_fadd_f0 {w : F32} (h : fIsFinite (fadd f0 w) = true) : fIsFinite w = true := by
  unfold fadd at h
  rw [unpack_f0] at h
  unfold fIsFinite
  cases hw : unpack w with
  | fin neg m e => rfl
  | nan =>
    rw [hw] at h
    exact absurd h (by decide)
  | inf neg =>
    rw [hw] at h
    cases neg <;> exact absurd h (by decide)

/-- The sum of `+0.0` and a number `(-1)^neg * m * 2^e` is the pattern nearest that number. -/
theorem fadd_f0_of_unpack {w : F32} {neg : Bool} {m : Nat} {e : Int} (h : unpack w = .fin neg m e) (hm : m ≠ 0) (he : -149 ≤ e) :
    fadd f0 w = roundPack neg m e := by
  obtain ⟨k, rfl⟩ : ∃ k : Nat, e = k - 149 := ⟨(e + 149).toNat, by omega⟩
  have hlo : min (-149) ((k : Int) - 149) = -149 := by omega
  have hexp : ((k : Int) - 149 - -149).toNat = k := by omega
  have hpos : 0 < m * 2 ^ k := Nat.mul_pos (Nat.pos_of_ne_zero hm) (Nat.two_pow_pos k)
  have hsum : signedMant false 0 * 2 ^ (-149 - -149 : Int).toNat + signedMant neg m * 2 ^ k = signedMant neg (m * 2 ^ k) := by
    cases neg <;> simp [signedMant]
  have hne : signedMant neg (m * 2 ^ k) ≠ 0 := by
    cases neg <;> simp only [signedMant, if_true, if_false, Bool.false_eq_true] <;> omega
  have hsign : decide (signedMant neg (m * 2 ^ k) < 0) = neg := by
    cases neg <;> simp only [signedMant, if_true, if_false, Bool.false_eq_true, decide_eq_true_eq, decide_eq_false_iff_not] <;> omega
  have habs : (signedMant neg (m * 2 ^ k)).natAbs = m * 2 ^ k := by
    cases neg <;> simp only [signedMant, if_true, if_false, Bool.false_eq_true] <;> omega
  unfold fadd
  simp only [unpack_f0, h, hlo, hexp, hsum]
  rw [if_neg hne, hsign, habs, ← roundPack_scale neg m _ k, show (k : Int) - 149 - k = -149 by omega]

/-- A sum with `+0.0` that is finite and positive is the other addend. -/
theorem fadd_f0_of_positive {w : F32} (hfin : fIsFinite (fadd f0 w) = true) (hpos : fIsPositive (fadd f0 w) = true) :
    fadd f0 w = w := by
  obtain ⟨hlo, hhi⟩ := (finite_positive_iff _).1 ⟨hfin, hpos⟩
  have hw := w.isLt
  have hwfin := isFinite_of_fadd_f0 hfin
  have hu := unpack_finite hwfin
  rw [isFinite_iff] at hwfin
  by_cases hzero : w.toNat % 2147483648 = 0
  · have hcases : w = f0 ∨ w = fMinus0 := by
      rcases (show w.toNat = 0 ∨ w.toNat = 2147483648 by omega) with h | h
      · exact .inl (BitVec.eq_of_toNat_eq h)
      · exact .inr (BitVec.eq_of_toNat_eq h)
    rcases hcases with rfl | rfl <;> exact absurd hlo (by decide)
  · have hsum := fadd_f0_of_unpack hu (fun hm => hzero (magParts_zero hm)) (magParts_exp _)
    by_cases hsign : 2147483648 ≤ w.toNat
    · rw [decide_eq_true hsign] at hsum
      have := toNat_roundPack_neg (magParts (w.toNat % 2147483648)).1 (magParts (w.toNat % 2147483648)).2
      rw [← hsum] at this
      omega
    · rw [decide_eq_false hsign, Nat.mod_eq_of_lt (by omega)] at hsum
      rw [hsum]
      exact roundPack_magParts (by omega) (by omega)

theorem stickyQuotient_self {m : Nat} (hm : m ≠ 0) : stickyQuotient m m = 2 ^ 51 := by
  unfold stickyQuotient
  rw [Nat.mul_div_cancel_left _ (Nat.pos_of_ne_zero hm), Nat.mul_mod_right, if_pos rfl]
  rfl

/-- A finite positive number over itself is 1.0. -/
theorem fdiv_self_of_positive {x : F32} (hfin : fIsFinite x = true) (hpos : fIsPositive x = true) : fdiv x x = f1 := by
  unfold fIsPositive at hpos
  have hu := unpack_finite hfin
  generalize (magParts (x.toNat % 2147483648)).1 = m at hu
  generalize (magParts (x.toNat % 2147483648)).2 = e at hu
  rw [hu] at hpos
  have hm : m ≠ 0 := (by simpa using hpos : _ ∧ _).2
  unfold fdiv
  simp only [hu]
  rw [if_neg hm, stickyQuotient_self hm, bne_self_eq_false, Int.sub_self]
  decide

/-- The kernel `BLUR` accepts for radius 0: its one weight is its own sum. -/
theorem gaussKernel_radius_zero {c : Cfg} {sigma : F32} {k : Kernel} (h : gaussKernel c 0 sigma = some k) : k = ⟨0, [f1]⟩ := by
  obtain ⟨sum, hsum, ⟨hfin, hpos⟩, rfl⟩ := gaussKernel_eq_some h
  have hone : gaussWeights c 0 sigma = [gaussWeight c sigma 0] := rfl
  rw [hone, List.foldl_cons, List.foldl_nil] at hsum
  subst hsum
  rw [hone, List.map_singleton]
  have hself := fadd_f0_of_positive hfin hpos
  rw [hself] at hfin hpos ⊢
  rw [fdiv_self_of_positive hfin hpos]

end Sys2Proof.Machine

namespace Sys2Proof

open Machine

/-- Settles O51: the kernel lists, in row-major order, a function of `dx^2 + dy^2`. -/
theorem gaussianKernelShape : Obligations.GaussianKernelShape := by
  unfold Obligations.GaussianKernelShape
  intro c r sigma k hk
  obtain ⟨weight, hweight⟩ := gaussKernel_weight hk
  refine ⟨gaussKernel_radius hk, gaussKernel_length hk, fun j hj i hi j' hj' i' hi' hdist => ?_⟩
  rw [hweight j hj i hi, hweight j' hj' i' hi', hdist]

end Sys2Proof
end

section
/-! PROOFS. The scalar results of `SHARP`, `EDGE` and `EMBOSS` in whole numbers (R196, R199, R203). -/

namespace Sys2Proof.Machine

/-! ### Weighted sums of whole numbers -/

/-- A list of weights that stand for whole numbers of magnitude at most 9. -/
abbrev WholeWeights (w : List F32) (zs : List Int) : Prop := List.Forall₂ (fun x z => IsWhole x z ∧ z.natAbs ≤ 9) w zs

/-- The weighted sum of bytes in whole numbers. -/
def wholeSum (zs : List Int) (bs : List Byte) : Int := (List.zipWith (fun z b => z * (b.toNat : Int)) zs bs).sum

/-- A product is below `9 * 256`, so a sum of few of them is exact at every step. -/
theorem isWhole_foldl {w : List F32} {zs : List Int} (h : WholeWeights w zs) :
    ∀ {bs : List Byte} {acc : F32} {z : Int}, IsWhole acc z → z.natAbs + 2304 * w.length < 2 ^ 24 →
      IsWhole ((w.zip (bs.map b2f)).foldl (fun acc p => fadd acc (fmul p.1 p.2)) acc) (z + wholeSum zs bs) := by
  induction h with
  | nil =>
    intro bs acc z hacc _
    simpa [wholeSum] using hacc
  | @cons x y w zs hx _ ih =>
    intro bs acc z hacc hbound
    obtain ⟨hwhole, hsmall⟩ := hx
    cases bs with
    | nil => simpa [wholeSum] using hacc
    | cons b bs =>
      have hprod : (y * (b.toNat : Int)).natAbs ≤ 2304 := by
        rw [Int.natAbs_mul, Int.natAbs_natCast]
        exact Nat.mul_le_mul hsmall (Nat.le_of_lt b.isLt)
      rw [List.length_cons] at hbound
      have hmul := isWhole_fmul hwhole (isWhole_b2f b) (by omega)
      rw [show z + wholeSum (y :: zs) (b :: bs) = z + y * b.toNat + wholeSum zs bs from (Int.add_assoc _ _ _).symm]
      exact ih (isWhole_fadd hacc hmul (by omega)) (by omega)

theorem isWhole_weightedSum {w : List F32} {zs : List Int} (h : WholeWeights w zs) (hlen : w.length ≤ 9) (bs : List Byte) :
    IsWhole (weightedSum w (bs.map b2f)) (wholeSum zs bs) := by
  rw [← Int.zero_add (wholeSum zs bs)]
  exact isWhole_foldl h (isWhole_zero false) (by omega)

theorem isWhole_fMinus1 : IsWhole fMinus1 (-1) := ⟨true, 2 ^ 23, -23, by decide, by decide, by decide⟩

theorem isWhole_fMinus2 : IsWhole fMinus2 (-2) := ⟨true, 2 ^ 23, -22, by decide, by decide, by decide⟩

theorem isWhole_f2 : IsWhole f2 2 := ⟨false, 2 ^ 23, -22, by decide, by decide, by decide⟩

theorem isWhole_f9 : IsWhole f9 9 := ⟨false, 9 * 2 ^ 20, -20, by decide, by decide, by decide⟩

theorem isWhole_f128 : IsWhole f128 128 := ⟨false, 2 ^ 23, -16, by decide, by decide, by decide⟩

theorem isWhole_f0 : IsWhole f0 0 := isWhole_zero false

/-! ### `SHARP` -/

/-- The weights of R195. -/
theorem wholeWeights_sharpKernel : WholeWeights sharpKernel.w [-1, -1, -1, -1, 9, -1, -1, -1, -1] := by
  simp only [sharpKernel, WholeWeights, List.forall₂_cons, List.Forall₂.nil, isWhole_fMinus1, isWhole_f9, and_true]
  decide

theorem scalSharp_eq_clamp (bs : List Byte) : scalSharp sharpKernel bs = clamp (wholeSum [-1, -1, -1, -1, 9, -1, -1, -1, -1] bs) :=
  quant_whole (isWhole_weightedSum wholeWeights_sharpKernel (Nat.le_refl 9) bs)

/-! ### `EMBOSS` -/

/-- The weights of R198. -/
theorem wholeWeights_embossKernel : WholeWeights embossKernel.w [-2, -1, 0, -1, 1, 1, 0, 1, 2] := by
  simp only [embossKernel, WholeWeights, List.forall₂_cons, List.Forall₂.nil, isWhole_fMinus1, isWhole_fMinus2, isWhole_f0,
    isWhole_f1, isWhole_f2, and_true]
  decide

theorem clamp_natCast_min (n : Nat) : clamp n = BitVec.ofNat 8 (min 255 n) := by
  apply BitVec.eq_of_toNat_eq
  rw [toNat_clamp, BitVec.toNat_ofNat]
  split_ifs <;> omega

/-- Where the luma of a grey tap is exact, so is the whole sum: the weights add up to 1. -/
theorem scalEmboss_of_luma_exact {v : Byte} (hluma : luma ⟨v, v, v⟩ = b2f v) :
    scalEmboss embossKernel (List.replicate 9 ⟨v, v, v⟩) = BitVec.ofNat 8 (min 255 (v.toNat + 128)) := by
  have hv := v.isLt
  have hflat : wholeSum [-2, -1, 0, -1, 1, 1, 0, 1, 2] (List.replicate 9 v) = v.toNat := by
    simp only [wholeSum, List.replicate, List.zipWith, List.sum_cons, List.sum_nil]
    omega
  have hsum := isWhole_weightedSum wholeWeights_embossKernel (Nat.le_refl 9) (List.replicate 9 v)
  rw [hflat, List.map_replicate] at hsum
  unfold scalEmboss
  rw [List.map_replicate, hluma, quant_whole (isWhole_fadd hsum isWhole_f128 (by omega))]
  exact clamp_natCast_min (v.toNat + 128)

set_option maxRecDepth 2000 in
/-- Grey taps one by one: the three roundings of the luma cancel, or the result of `EMBOSS` is evaluated (R199). -/
theorem luma_exact_or_scalEmboss : ∀ n < 256, luma ⟨BitVec.ofNat 8 n, BitVec.ofNat 8 n, BitVec.ofNat 8 n⟩ = b2f (BitVec.ofNat 8 n) ∨
    scalEmboss embossKernel (List.replicate 9 ⟨BitVec.ofNat 8 n, BitVec.ofNat 8 n, BitVec.ofNat 8 n⟩) =
      BitVec.ofNat 8 (min 255 ((BitVec.ofNat 8 n).toNat + 128)) := by
  decide

/-! ### `EDGE` -/

/-- The bits of a root found one after another, from above. -/
theorem isqrtFrom_spec (n : Nat) : ∀ (k r : Nat), r * r ≤ n → n < (r + 2 ^ k) * (r + 2 ^ k) →
    isqrtFrom n k r * isqrtFrom n k r ≤ n ∧ n < (isqrtFrom n k r + 1) * (isqrtFrom n k r + 1)
  | 0, r, hlo, hhi => ⟨hlo, hhi⟩
  | k + 1, r, hlo, hhi => by
    unfold isqrtFrom
    split
    · next hbit =>
      refine isqrtFrom_spec n k (r + 2 ^ k) hbit ?_
      rwa [Nat.add_assoc, ← Nat.two_mul, ← Nat.pow_succ']
    · next hbit => exact isqrtFrom_spec n k r hlo (Nat.not_le.1 hbit)

theorem isqrt_spec {n : Nat} (h : n < 2 ^ 80) : isqrt n * isqrt n ≤ n ∧ n < (isqrt n + 1) * (isqrt n + 1) :=
  isqrtFrom_spec n 40 0 (by omega) (by rw [Nat.zero_add, ← Nat.pow_add]; exact h)

theorem i2f_natCast (n : Nat) : i2f n = roundPack false n 0 := by
  unfold i2f
  rw [decide_eq_false (by omega), Int.natAbs_natCast]

/-- A number of `log2 + 1` bits, shifted. -/
theorem mul_two_pow_lt {m a b : Nat} (h : m.log2 + 1 + a ≤ b) : m * 2 ^ a < 2 ^ b :=
  calc m * 2 ^ a < 2 ^ (m.log2 + 1) * 2 ^ a := Nat.mul_lt_mul_of_pos_right Nat.lt_log2_self (Nat.two_pow_pos _)
    _ = 2 ^ (m.log2 + 1 + a) := (Nat.pow_add _ _ _).symm
    _ ≤ 2 ^ b := Nat.pow_le_pow_right (by omega) h

/-- Twice the root of `n` with a sticky bit that tells whether anything was cut off: what `fsqrt` rounds. -/
def stickyRoot (n : Nat) : Nat := 2 * isqrt n + (if isqrt n * isqrt n = n then 0 else 1)

theorem le_stickyRoot {n r : Nat} (hn : n < 2 ^ 80) (h : r * r ≤ n) : 2 * r ≤ stickyRoot n := by
  obtain ⟨-, hroot⟩ := isqrt_spec hn
  have hr : r < isqrt n + 1 := Nat.mul_self_lt_mul_self_iff.1 (Nat.lt_of_le_of_lt h hroot)
  unfold stickyRoot
  omega

theorem stickyRoot_ne_zero {n : Nat} (hn : n < 2 ^ 80) (h0 : n ≠ 0) : stickyRoot n ≠ 0 := by
  have := le_stickyRoot (r := 1) hn (Nat.pos_of_ne_zero h0)
  omega

theorem stickyRoot_lt {n r : Nat} (hn : n < 2 ^ 80) (h : n < r * r) : stickyRoot n < 2 * r := by
  obtain ⟨hroot, -⟩ := isqrt_spec hn
  have hr : isqrt n < r := Nat.mul_self_lt_mul_self_iff.1 (Nat.lt_of_le_of_lt hroot h)
  unfold stickyRoot
  split <;> omega

/-- The root of a positive number: the mantissa gets the 52 or 53 more bits that make the exponent even. -/
theorem fsqrt_of_unpack {a : F32} {m : Nat} {e : Int} (h : unpack a = .fin false m e) (hm : m ≠ 0) :
    ∃ d : Nat, (d = 52 ∨ d = 53) ∧ (e - d) % 2 = 0 ∧ fsqrt a = roundPack false (stickyRoot (m * 2 ^ d)) ((e - d) / 2 - 1) := by
  unfold fsqrt
  simp only [h, if_neg hm, Bool.false_eq_true, if_false]
  by_cases hpar : e % 2 = 0
  · rw [if_pos hpar]
    exact ⟨52, .inl rfl, by omega, rfl⟩
  · rw [if_neg hpar]
    exact ⟨53, .inr rfl, by omega, rfl⟩

/-- The root of a whole number `n` below `2^24` is the rounded root of `n * 4^h`, in units of `2^-(h+1)`. -/
theorem fsqrt_i2f {n : Nat} (h0 : n ≠ 0) (hlt : n < 2 ^ 24) :
    ∃ h : Nat, 26 ≤ h ∧ n * (2 ^ h * 2 ^ h) < 2 ^ 80 ∧
      fsqrt (i2f n) = roundPack false (stickyRoot (n * (2 ^ h * 2 ^ h))) (-(h + 1 : Nat)) := by
  have hl : n.log2 < 24 := (Nat.log2_lt h0).2 hlt
  have hu : unpack (i2f n) = .fin false (n * 2 ^ (23 - n.log2)) ((n.log2 : Int) - 23) := by
    rw [i2f_natCast]
    exact unpack_roundPack h0 hlt
  have hm : n * 2 ^ (23 - n.log2) ≠ 0 := Nat.mul_ne_zero h0 (Nat.two_pow_pos _).ne'
  obtain ⟨d, hd, hpar, hroot⟩ := fsqrt_of_unpack hu hm
  obtain ⟨h, hh⟩ : ∃ h, 23 - n.log2 + d = 2 * h := ⟨(23 - n.log2 + d) / 2, by omega⟩
  have hpow : n * 2 ^ (23 - n.log2) * 2 ^ d = n * (2 ^ h * 2 ^ h) := by
    rw [Nat.mul_assoc, ← Nat.pow_add, hh, ← Nat.pow_add, Nat.two_mul]
  refine ⟨h, by omega, ?_, ?_⟩
  · rw [← Nat.pow_add]
    exact mul_two_pow_lt (by omega)
  · rw [hroot, hpow]
    congr 1
    omega

/-- A mantissa of at most 24 bits is kept as it is, with the exponent of its last place. -/
theorem roundPack_exact {m : Nat} (hm : m ≠ 0) (hlt : m < 2 ^ 24) {e : Int} (hlo : -149 ≤ e) (hhi : e ≤ 0) :
    placedMant m e = m * 2 ^ (e - lastPlace m e).toNat ∧ placedMant m e < 16777216 ∧
      (roundPack false m e).toNat = (lastPlace m e + 149).toNat * 8388608 + placedMant m e := by
  have hlog : m.log2 < 24 := (Nat.log2_lt hm).2 hlt
  have hq : lastPlace m e ≤ e := by unfold lastPlace; omega
  have hbits : m.log2 + 1 + (e - lastPlace m e).toNat ≤ 24 := by unfold lastPlace; omega
  have hplaced : placedMant m e = m * 2 ^ (e - lastPlace m e).toNat := if_pos hq
  have hsmall : placedMant m e < 2 ^ 24 := by
    rw [hplaced]
    exact mul_two_pow_lt hbits
  refine ⟨hplaced, hsmall, ?_⟩
  rw [toNat_roundPack hm]
  exact min_eq_left (by omega)

/-- Rounding keeps two different mantissas of at most 24 bits apart. -/
theorem roundPack_lt {m m' : Nat} (hm : m ≠ 0) (h : m < m') (hlt : m' < 2 ^ 24) {e : Int} (hlo : -149 ≤ e) (hhi : e ≤ 0) :
    (roundPack false m e).toNat < (roundPack false m' e).toNat := by
  have hm' : m' ≠ 0 := by omega
  obtain ⟨hp, hp24, hval⟩ := roundPack_exact hm (by omega) hlo hhi
  obtain ⟨hp', -, hval'⟩ := roundPack_exact hm' hlt hlo hhi
  have hq : lastPlace m e ≤ lastPlace m' e := by
    have hlog : m.log2 ≤ m'.log2 := (Nat.le_log2 hm').2 (Nat.le_trans (Nat.log2_self_le hm) (Nat.le_of_lt h))
    unfold lastPlace
    omega
  have hmin : -149 ≤ lastPlace m e := le_max_right _ _
  rw [hval, hval']
  rcases lt_or_eq_of_le hq with hlt' | heq
  · have hnormal : 8388608 ≤ placedMant m' e := le_placedMant hm' (by omega)
    omega
  · have hmant : placedMant m e < placedMant m' e := by
      rw [hp, hp', ← heq]
      exact Nat.mul_lt_mul_of_pos_right h (Nat.two_pow_pos _)
    rw [heq]
    exact Nat.add_lt_add_left hmant _

/-- Not below a whole number whose square is not above `n`. -/
theorem i2f_le_fsqrt {n m : Nat} (h0 : n ≠ 0) (hlt : n < 2 ^ 24) (h : m * m ≤ n) : (i2f m).toNat ≤ (fsqrt (i2f n)).toNat := by
  by_cases hm : m = 0
  · subst hm
    exact Nat.zero_le _
  obtain ⟨k, -, hk, hroot⟩ := fsqrt_i2f h0 hlt
  have hsq : (m * 2 ^ k) * (m * 2 ^ k) ≤ n * (2 ^ k * 2 ^ k) := by
    rw [Nat.mul_mul_mul_comm]
    exact Nat.mul_le_mul_right _ h
  have hscale : roundPack false (2 * (m * 2 ^ k)) (-(k + 1 : Nat)) = i2f m := by
    rw [i2f_natCast, ← roundPack_scale false m 0 (k + 1), Nat.pow_succ, Int.zero_sub]
    congr 1
    ring
  rw [hroot, ← hscale]
  exact roundPack_mono (by positivity) (le_stickyRoot hk hsq) _

/-- Below a whole number up to 255 whose square is above `n`: the exact root is far enough from it. -/
theorem fsqrt_lt_i2f {n m : Nat} (h0 : n ≠ 0) (hlt : n < 2 ^ 24) (hm : m ≤ 255) (h : n < m * m) :
    (fsqrt (i2f n)).toNat < (i2f m).toNat := by
  have hpos : m ≠ 0 := by rintro rfl; omega
  obtain ⟨k, hk26, hk, hroot⟩ := fsqrt_i2f h0 hlt
  obtain ⟨j, rfl⟩ : ∃ j, k = j + 16 := ⟨k - 16, by omega⟩
  obtain ⟨u, hu⟩ : ∃ u, m * 2 ^ 16 = u + 1 := ⟨m * 2 ^ 16 - 1, by omega⟩
  have hsq : n * (2 ^ (j + 16) * 2 ^ (j + 16)) < (u * 2 ^ j) * (u * 2 ^ j) := by
    have hexpand : u * u + 2 * u + 1 = m * m * 4294967296 := by
      calc u * u + 2 * u + 1 = (u + 1) * (u + 1) := by ring
        _ = m * m * 4294967296 := by rw [← hu]; ring
    have hroot : n * 4294967296 < u * u := by omega
    calc n * (2 ^ (j + 16) * 2 ^ (j + 16)) = n * 4294967296 * (2 ^ j * 2 ^ j) := by ring
      _ < u * u * (2 ^ j * 2 ^ j) := Nat.mul_lt_mul_of_pos_right hroot (by positivity)
      _ = (u * 2 ^ j) * (u * 2 ^ j) := Nat.mul_mul_mul_comm _ _ _ _
  have hscale : roundPack false (2 * (u * 2 ^ j)) (-(j + 16 + 1 : Nat)) = roundPack false u (-16) := by
    rw [← roundPack_scale false u (-16) (j + 1), Nat.pow_succ]
    congr 1
    · ring
    · push_cast
      ring
  have hone : roundPack false (u + 1) (-16) = i2f m := by
    rw [i2f_natCast, ← roundPack_scale false m 0 16, hu]
    rfl
  calc (fsqrt (i2f n)).toNat ≤ (roundPack false u (-16)).toNat := by
        rw [hroot, ← hscale]
        exact roundPack_mono (stickyRoot_ne_zero hk (by positivity)) (stickyRoot_lt hk hsq).le _
    _ < (i2f m).toNat := by
        rw [← hone]
        exact roundPack_lt (by omega) (Nat.lt_succ_self u) (by omega) (by omega) (by omega)

/-- `quant` of the root of a whole number is its integer root, saturated. -/
theorem quant_fsqrt {n m : Nat} (hlt : n < 2 ^ 24) (hlo : m * m ≤ n) (hhi : n < (m + 1) * (m + 1)) :
    quant (fsqrt (i2f n)) = BitVec.ofNat 8 (min 255 m) := by
  by_cases h0 : n = 0
  · subst h0
    obtain rfl : m = 0 := by simpa using hlo
    decide
  by_cases hm : m < 255
  · rw [min_eq_right (by omega)]
    exact quant_of_between hm (i2f_le_fsqrt h0 hlt hlo) (fsqrt_lt_i2f h0 hlt (by omega) hhi)
  · have h255 : 255 * 255 ≤ m * m := Nat.mul_self_le_mul_self (by omega)
    obtain ⟨k, -, hk, hroot⟩ := fsqrt_i2f h0 hlt
    rw [min_eq_left (by omega)]
    refine quant_of_i2f_255_le ?_ (i2f_le_fsqrt (m := 255) h0 hlt (by omega))
    rw [hroot]
    exact roundPack_le (stickyRoot_ne_zero hk (by positivity)) _

theorem sq_add_sq_lt {x y : Int} (hx : x.natAbs ≤ 1020) (hy : y.natAbs ≤ 1020) : (x * x + y * y).toNat < 2 ^ 24 := by
  have hxx := Nat.mul_self_le_mul_self hx
  have hyy := Nat.mul_self_le_mul_self hy
  rw [← Int.natAbs_mul_self' x, ← Int.natAbs_mul_self' y]
  omega

/-- `ScalEdge` on gradients of at most four bytes each. -/
theorem scalEdge_eq_root {t : List Byte} {m : Nat} (hx : (sobelX t).natAbs ≤ 1020) (hy : (sobelY t).natAbs ≤ 1020)
    (hlo : (m : Int) * m ≤ sobelX t * sobelX t + sobelY t * sobelY t)
    (hhi : sobelX t * sobelX t + sobelY t * sobelY t < (m + 1) * (m + 1)) : scalEdge t = BitVec.ofNat 8 (min 255 m) := by
  have hlt := sq_add_sq_lt hx hy
  unfold scalEdge
  obtain ⟨n, hn⟩ := Int.eq_ofNat_of_zero_le (add_nonneg (mul_self_nonneg (sobelX t)) (mul_self_nonneg (sobelY t)))
  rw [hn] at hlo hhi hlt ⊢
  exact quant_fsqrt hlt (by exact_mod_cast hlo) (by exact_mod_cast hhi)

section NineTaps

variable (a b c d e f g h i : Byte)

theorem sobelX_nine : sobelX [a, b, c, d, e, f, g, h, i] =
    ((c.toNat + 2 * f.toNat + i.toNat) - (a.toNat + 2 * d.toNat + g.toNat) : Int) := rfl

theorem sobelY_nine : sobelY [a, b, c, d, e, f, g, h, i] =
    ((g.toNat + 2 * h.toNat + i.toNat) - (a.toNat + 2 * b.toNat + c.toNat) : Int) := rfl

theorem natAbs_sobelX_le : (sobelX [a, b, c, d, e, f, g, h, i]).natAbs ≤ 1020 := by
  rw [sobelX_nine]
  omega

theorem natAbs_sobelY_le : (sobelY [a, b, c, d, e, f, g, h, i]).natAbs ≤ 1020 := by
  rw [sobelY_nine]
  omega

end NineTaps

end Sys2Proof.Machine

namespace Sys2Proof

open Machine

/-- Settles O52: every product and every intermediate sum is a whole number below `2^24`, so no addition rounds. -/
theorem sharpIsExact : Obligations.SharpIsExact := by
  unfold Obligations.SharpIsExact
  intro a b c d e f g h i
  rw [scalSharp_eq_clamp]
  congr 1
  simp only [wholeSum, List.zipWith, List.sum_cons, List.sum_nil]
  omega

/-- Settles O53: the sum of the squares is a whole number below `2^24`, and the rounded root stays between the whole numbers around it. -/
theorem edgeIsTheIntegerRoot : Obligations.EdgeIsTheIntegerRoot := by
  unfold Obligations.EdgeIsTheIntegerRoot
  intro a b c d e f g h i m
  dsimp only
  rw [← sobelX_nine a b c d e f g h i, ← sobelY_nine a b c d e f g h i]
  rintro ⟨hlo, hhi⟩
  exact scalEdge_eq_root (natAbs_sobelX_le a b c d e f g h i) (natAbs_sobelY_le a b c d e f g h i) hlo hhi

/-- Settles O54: where the luma of a grey tap is exact the sum is one of whole numbers, and the other grey taps are evaluated. -/
theorem embossOfFlatGrey : Obligations.EmbossOfFlatGrey := by
  unfold Obligations.EmbossOfFlatGrey
  intro v
  have h := luma_exact_or_scalEmboss v.toNat v.isLt
  rw [BitVec.ofNat_toNat, BitVec.setWidth_eq] at h
  exact h.elim scalEmboss_of_luma_exact id

end Sys2Proof
end

section
/-! PROOFS. The neighbourhood filters `BLUR`, `SHARP`, `EMBOSS` and `EDGE` (43_convolution.md): each puts a function of its window in
the place of every interior pixel, and the results and what R209 says of them are facts about the four functions. -/

namespace Sys2Proof.Machine

/-! ### The window of a pixel -/

theorem imageWindow_eq_windowOf (g : HostRegs) (m : Memory) (r x y : Nat) : imageWindow g m r x y = windowOf g m r (x, y) := by
  simp only [imageWindow, windowOf, windowCoords, List.map_flatMap, List.map_map]
  rfl

theorem length_imageWindow (g : HostRegs) (m : Memory) (r x y : Nat) :
    (imageWindow g m r x y).length = (2 * r + 1) * (2 * r + 1) :=
  length_flatMap_map_range (fun j i => imagePixel g m (x + i - r) (y + j - r)) _

/-- The centre tap is the pixel itself (R205). -/
theorem centreOf_imageWindow (g : HostRegs) (m : Memory) (r x y : Nat) (z : Pixel) :
    centreOf r (imageWindow g m r x y) z = imagePixel g m x y := by
  have hcentre : (imageWindow g m r x y)[(2 * r + 1) * r + r]? = some (imagePixel g m (x + r - r) (y + r - r)) :=
    getElem?_flatMap_map_range (fun j i => imagePixel g m (x + i - r) (y + j - r)) (by omega) (by omega)
  unfold centreOf
  rw [List.getD_eq_getElem?_getD, show 2 * r * (r + 1) = (2 * r + 1) * r + r by ring, hcentre, Option.getD_some,
    Nat.add_sub_cancel, Nat.add_sub_cancel]

theorem imageWindow_radius_zero (g : HostRegs) (m : Memory) (x y : Nat) : imageWindow g m 0 x y = [imagePixel g m x y] := rfl

/-- A column lies in a full group of the path as R165 says. -/
theorem inGroup_iff (c : Cfg) (g : HostRegs) (r x : Nat) : inGroup c g r (filterPath c) x = true ↔ InFullGroup c g r x := by
  unfold inGroup InFullGroup rowGroups
  rw [decide_eq_true_eq]
  cases hwide : wide c <;> simp [filterPath, selectPath, hwide, interiorWidth]

theorem channels_of_rgb_eq {p : Pixel} {v : Rgb} (h : Pixel.rgb p = v) : p.r = v.r ∧ p.g = v.g ∧ p.b = v.b := by
  subst h
  exact ⟨rfl, rfl, rfl⟩

/-! ### A filter from acceptance to its end -/

/-- The filter a neighbourhood command is (R192 to R203). -/
inductive FilterOf : Instr → Filter → Prop where
  | blur : FilterOf .blur blurFilter
  | sharp : FilterOf .sharp sharpFilter
  | emboss : FilterOf .emboss embossFilter
  | edge : FilterOf .edge edgeFilter

/-- Memory at the end of filter `f` with kernel `kern`: border and padding as R207 and R209 say, and in the place of each interior pixel
the filter's result on its window at acceptance (R205). -/
structure ImageFiltered (f : Filter) (kern : Kernel) (s t : State) : Prop where
  border : BorderAndPadding (f.radius s.latch.regs) s t
  interior : ∀ x y, IsInterior s.latch.regs (f.radius s.latch.regs) x y →
    imagePixel s.latch.regs t.mem x y =
      interiorPixel (f.radius s.latch.regs)
        (f.rgb s.cfg kern (inGroup s.cfg s.latch.regs (f.radius s.latch.regs) (filterPath s.cfg) x))
        (imageWindow s.latch.regs s.mem (f.radius s.latch.regs) x y)

section Run

variable {i : Instr} {f : Filter} {kern : Kernel} {s t : State}

theorem FilterOf.commandOf_eq (hf : FilterOf i f) : commandOf i = filterCommand f := by
  cases hf <;> rfl

theorem FilterOf.radius_eq (hf : FilterOf i f) (g : HostRegs) : f.radius g = radiusOf i g := by
  cases hf <;> rfl

theorem exists_filterOf (hi : isNeighbourhood i = true) : ∃ f, FilterOf i f := by
  cases i with
  | blur => exact ⟨_, .blur⟩
  | sharp => exact ⟨_, .sharp⟩
  | emboss => exact ⟨_, .emboss⟩
  | edge => exact ⟨_, .edge⟩
  | gray => cases hi
  | neg => cases hi
  | yuv2rgba hint => cases hi

/-- Each interior pixel at the end, by whether its column lies in a full group. -/
theorem Filtered.interiorPixel_eq {c : Cfg} {g : HostRegs} {m0 m : Memory} (h : Filtered f c g kern m0 m) {x y : Nat}
    (hin : IsInterior g (f.radius g) x y) :
    imagePixel g m x y = interiorPixel (f.radius g) (f.rgb c kern (inGroup c g (f.radius g) (filterPath c) x))
      (imageWindow g m0 (f.radius g) x y) := by
  have hint : interior g (f.radius g) x y = true := interior_iff.2 hin
  have hcopied := (h.copied (x, y) (interior_mem hint) (.inr hint)).2
  rw [outPixel, if_pos hint, filteredPixel, ← imageWindow_eq_windowOf] at hcopied
  exact hcopied

/-- Border and padding at the end (R207). -/
theorem Filtered.borderAndPadding (hS : RowsFit s.latch.regs) (h : Filtered f s.cfg s.latch.regs kern s.mem t.mem) :
    BorderAndPadding (f.radius s.latch.regs) s t := by
  refine ⟨fun x hx y hy hborder => ?_, fun a ha => h.others a ((offImage_iff hS a).1 ha)⟩
  have hp : (x, y) ∈ pixelCoords s.latch.regs := mem_pixelCoords.2 ⟨hx, hy⟩
  rw [← interior_iff] at hborder
  cases hpolicy : s.cfg.borderPolicy with
  | zero =>
    have hcopied := (h.copied (x, y) hp (.inl hpolicy)).2
    rw [outPixel, if_neg hborder] at hcopied
    exact hcopied
  | source =>
    refine Memory.pixelAt_congr (h.kept (x, y) hp ?_)
    rintro (hzero | hint)
    · rw [hpolicy] at hzero
      cases hzero
    · exact hborder hint

theorem Filtered.imageFiltered (hS : RowsFit s.latch.regs) (h : Filtered f s.cfg s.latch.regs kern s.mem t.mem) :
    ImageFiltered f kern s t := ⟨h.borderAndPadding hS, fun _ _ => h.interiorPixel_eq⟩

/-- A filter whose checks pass and whose footprint is in memory ends in success, with its results in memory. -/
theorem exec_filter (hf : FilterOf i f) (h : Accepted s) (hpass : ChecksPass i s) (hfoot : FootprintIn i s)
    (hk : f.kernel s.cfg s.latch.regs s.freeCount = some kern) :
    ∃ t, exec i s = .next t ∧ Succeeded (wide s.cfg) false s t ∧ ImageFiltered f kern s t := by
  have hi := hf.commandOf_eq
  have hS := hpass.rowsFit
  have hoverlap : (commandOf i).overlaps s.latch.regs = false := by rw [hi]; rfl
  have hexec := exec_of_accepted h (.inl hoverlap)
  have hok := hpass.firstFailure_eq_none
  unfold FootprintIn at hfoot
  rw [hi] at hexec hok hfoot
  rcases filter_run h hS hok hk with ⟨-, last, heq, frame, status, noPool, filtered⟩ | ⟨hnot, -⟩
  · rw [heq] at hexec
    exact ⟨_, hexec, succeeded_of frame status noPool filtered.wf, Filtered.imageFiltered hS filtered⟩
  · exact absurd hfoot hnot

/-- The interior keeps its alpha (R205, R209). -/
theorem ImageFiltered.alpha (h : ImageFiltered f kern s t) {x y : Nat} (hin : IsInterior s.latch.regs (f.radius s.latch.regs) x y) :
    (imagePixel s.latch.regs t.mem x y).a = (imagePixel s.latch.regs s.mem x y).a := by
  rw [h.interior x y hin, interiorPixel, centreOf_imageWindow]

/-- Inside a full group the colour channels are by the vector rule. -/
theorem ImageFiltered.channels_inFullGroup (h : ImageFiltered f kern s t) {x y : Nat}
    (hin : IsInterior s.latch.regs (f.radius s.latch.regs) x y) (hgroup : InFullGroup s.cfg s.latch.regs (f.radius s.latch.regs) x) :
    Pixel.rgb (imagePixel s.latch.regs t.mem x y) =
      f.rgb s.cfg kern true (imageWindow s.latch.regs s.mem (f.radius s.latch.regs) x y) := by
  rw [h.interior x y hin, (inGroup_iff _ _ _ _).2 hgroup]
  rfl

/-- Outside full groups they are by the scalar rule. -/
theorem ImageFiltered.channels_elsewhere (h : ImageFiltered f kern s t) {x y : Nat}
    (hin : IsInterior s.latch.regs (f.radius s.latch.regs) x y)
    (hgroup : ¬ InFullGroup s.cfg s.latch.regs (f.radius s.latch.regs) x) :
    Pixel.rgb (imagePixel s.latch.regs t.mem x y) =
      f.rgb s.cfg kern false (imageWindow s.latch.regs s.mem (f.radius s.latch.regs) x y) := by
  rw [h.interior x y hin, Bool.eq_false_iff.2 fun hc => hgroup ((inGroup_iff _ _ _ _).1 hc)]
  rfl

/-- On either rule they are the filter's. -/
theorem ImageFiltered.channels (h : ImageFiltered f kern s t) {x y : Nat} (hin : IsInterior s.latch.regs (f.radius s.latch.regs) x y) :
    ∃ v, Pixel.rgb (imagePixel s.latch.regs t.mem x y) =
      f.rgb s.cfg kern v (imageWindow s.latch.regs s.mem (f.radius s.latch.regs) x y) :=
  ⟨_, congrArg Pixel.rgb (h.interior x y hin)⟩

theorem checksPass_of_not_blur (hi : i ≠ .blur) (hlaunch : Launchable i s) : ChecksPass i s := ⟨hlaunch, fun h => absurd h hi⟩

theorem checksPass_blur (hlaunch : Launchable .blur s) (hparams : BlurParams s.cfg s.latch.regs)
    (hk : gaussKernel s.cfg s.latch.regs.blurRadius s.latch.regs.sigma = some kern) : ChecksPass .blur s :=
  ⟨hlaunch, fun _ => ⟨hparams, Option.ne_none_iff_exists'.2 ⟨kern, hk⟩⟩⟩

end Run

/-! ### The vector rule against the scalar rule (R163, R209) -/

/-- Three channels, each at most 1 apart. -/
def RgbWithinOne (p q : Rgb) : Prop := WithinOne p.r q.r ∧ WithinOne p.g q.g ∧ WithinOne p.b q.b

theorem rgbWithinOne_refl (p : Rgb) : RgbWithinOne p p := ⟨withinOne_refl _, withinOne_refl _, withinOne_refl _⟩

theorem rgbWithinOne_perChannel {v w : List Byte → Byte} {win : List Pixel}
    (h : ∀ taps : List Byte, taps.length = win.length → WithinOne (v taps) (w taps)) :
    RgbWithinOne (perChannel v win) (perChannel w win) :=
  ⟨h _ (by rw [List.length_map]), h _ (by rw [List.length_map]), h _ (by rw [List.length_map])⟩

/-- With a kernel `BLUR` accepts, for radius 0 too: its one weight is 1.0 then, and both results are the tap. -/
theorem withinOne_vecBlur {c : Cfg} {r : Nat} {sigma : F32} {k : Kernel} (hk : gaussKernel c r sigma = some k) {taps : List Byte}
    (hlen : taps.length = (2 * r + 1) * (2 * r + 1)) : WithinOne (vecBlur c k taps) (scalBlur k taps) := by
  by_cases hr : r = 0
  · subst hr
    obtain ⟨v, rfl⟩ := List.length_eq_one_iff.1 hlen
    rw [gaussKernel_radius_zero hk, scalBlur_unit, vecBlur_radius_zero c rfl]
    exact withinOne_refl v
  · rw [vecBlur_of_radius_ne_zero c (by rw [gaussKernel_radius hk]; exact hr)]
    exact withinOne_deviate _ _

section Rules

variable {i : Instr} {f : Filter} {c : Cfg} {g : HostRegs} {n : Nat} {k kern : Kernel}

/-- Every filter has its kernel, `BLUR` when the generated one is accepted. -/
theorem FilterOf.exists_kernel (hf : FilterOf i f) (hkern : i = .blur → gaussKernel c g.blurRadius g.sigma = some kern) (n : Nat) :
    ∃ k, f.kernel c g n = some k := by
  cases hf with
  | blur => exact ⟨kern, hkern rfl⟩
  | sharp => exact ⟨_, rfl⟩
  | emboss => exact ⟨_, rfl⟩
  | edge => exact ⟨_, rfl⟩

theorem FilterOf.rgb_scalar (hf : FilterOf i f) (hkern : i = .blur → gaussKernel c g.blurRadius g.sigma = some kern)
    (hk : f.kernel c g n = some k) (win : List Pixel) : f.rgb c k false win = scalarResult i kern win := by
  cases hf with
  | blur =>
    cases hk.symm.trans (hkern rfl)
    rfl
  | sharp =>
    cases hk
    rfl
  | emboss =>
    cases hk
    rfl
  | edge => rfl

theorem FilterOf.rgb_withinOne (hf : FilterOf i f) (hk : f.kernel c g n = some k) {win : List Pixel}
    (hlen : win.length = (2 * f.radius g + 1) * (2 * f.radius g + 1)) (v : Bool) :
    RgbWithinOne (f.rgb c k v win) (f.rgb c k false win) := by
  cases v with
  | false => exact rgbWithinOne_refl _
  | true =>
    cases hf with
    | blur => exact rgbWithinOne_perChannel fun taps htaps => withinOne_vecBlur hk (htaps.trans hlen)
    | sharp => exact rgbWithinOne_perChannel fun taps _ => withinOne_deviate _ _
    | emboss => exact ⟨withinOne_deviate _ _, withinOne_deviate _ _, withinOne_deviate _ _⟩
    | edge => exact rgbWithinOne_perChannel fun taps htaps => withinOne_vecEdge c (htaps.trans hlen)

/-- `EMBOSS` gives one value for the three channels (R199). -/
theorem emboss_rgb_grey (k : Kernel) (v : Bool) (win : List Pixel) :
    (embossFilter.rgb c k v win).g = (embossFilter.rgb c k v win).r ∧ (embossFilter.rgb c k v win).b = (embossFilter.rgb c k v win).r :=
  ⟨rfl, rfl⟩

/-- `BLUR` of radius 0 gives the pixel itself on both paths. -/
theorem blur_rgb_radius_zero (v : Bool) (p : Pixel) : interiorPixel 0 (blurFilter.rgb c ⟨0, [f1]⟩ v) [p] = p := by
  cases v with
  | false =>
    simp only [interiorPixel, blurFilter, perChannel, List.map_cons, List.map_nil, Bool.false_eq_true, if_false, scalBlur_unit]
    rfl
  | true => rfl

end Rules

theorem ImageFiltered.grey_of_emboss {k : Kernel} {s t : State} (h : ImageFiltered embossFilter k s t) {x y : Nat}
    (hin : IsInterior s.latch.regs 1 x y) :
    (imagePixel s.latch.regs t.mem x y).g = (imagePixel s.latch.regs t.mem x y).r ∧
      (imagePixel s.latch.regs t.mem x y).b = (imagePixel s.latch.regs t.mem x y).r := by
  rw [h.interior x y hin]
  exact emboss_rgb_grey k _ _

/-- With radius 0 every pixel of the image is interior and stays as it is (R194). -/
theorem ImageFiltered.blur_radius_zero {s t : State} (h : ImageFiltered blurFilter ⟨0, [f1]⟩ s t)
    (hzero : s.latch.regs.blurRadius = 0) {x y : Nat} (hx : x < s.latch.regs.width) (hy : y < s.latch.regs.height) :
    imagePixel s.latch.regs t.mem x y = imagePixel s.latch.regs s.mem x y := by
  have hradius : blurFilter.radius s.latch.regs = 0 := hzero
  have hpixel := h.interior x y
  rw [hradius] at hpixel
  exact (hpixel ⟨Nat.zero_le x, hx, Nat.zero_le y, hy⟩).trans (blur_rgb_radius_zero _ _)


end Sys2Proof.Machine

namespace Sys2Proof

open Machine

/-- Settles O28: the run puts the filter's result on its window in the place of each interior pixel, with the kernel `PREPARE` accepted. -/
theorem blurResult : Obligations.BlurResult := by
  unfold Obligations.BlurResult
  intro s kern h hlaunch hparams hfoot hk
  obtain ⟨t, hexec, hsucceeded, hfiltered⟩ := exec_filter .blur h (checksPass_blur hlaunch hparams hk) hfoot hk
  exact ⟨t, hexec, hsucceeded, hfiltered.border, fun x y hin => ⟨hfiltered.alpha hin,
    fun hgroup => channels_of_rgb_eq (hfiltered.channels_inFullGroup hin hgroup),
    fun hgroup => channels_of_rgb_eq (hfiltered.channels_elsewhere hin hgroup)⟩⟩

/-- Settles O29: the run puts the filter's result on its window in the place of each interior pixel, with the kernel of R195. -/
theorem sharpResult : Obligations.SharpResult := by
  unfold Obligations.SharpResult
  intro s h hlaunch hfoot
  obtain ⟨t, hexec, hsucceeded, hfiltered⟩ := exec_filter .sharp h (checksPass_of_not_blur nofun hlaunch) hfoot rfl
  exact ⟨t, hexec, hsucceeded, hfiltered.border, fun x y hin => ⟨hfiltered.alpha hin,
    fun hgroup => channels_of_rgb_eq (hfiltered.channels_inFullGroup hin hgroup),
    fun hgroup => channels_of_rgb_eq (hfiltered.channels_elsewhere hin hgroup)⟩⟩

/-- Settles O30: the same with the kernel of R198, and by either rule the three channels are one value. -/
theorem embossResult : Obligations.EmbossResult := by
  unfold Obligations.EmbossResult
  intro s h hlaunch hfoot
  obtain ⟨t, hexec, hsucceeded, hfiltered⟩ := exec_filter .emboss h (checksPass_of_not_blur nofun hlaunch) hfoot rfl
  refine ⟨t, hexec, hsucceeded, hfiltered.border, fun x y hin => ?_⟩
  obtain ⟨hgr, hbr⟩ := hfiltered.grey_of_emboss hin
  exact ⟨hfiltered.alpha hin, hgr, hbr,
    fun hgroup => congrArg Rgb.r (hfiltered.channels_inFullGroup hin hgroup),
    fun hgroup => congrArg Rgb.r (hfiltered.channels_elsewhere hin hgroup)⟩

/-- Settles O31: `EDGE` reads no kernel, so its results are those of any weights the store holds. -/
theorem edgeResult : Obligations.EdgeResult := by
  unfold Obligations.EdgeResult
  intro s h hlaunch hfoot
  obtain ⟨t, hexec, hsucceeded, hfiltered⟩ := exec_filter .edge h (checksPass_of_not_blur nofun hlaunch) hfoot rfl
  exact ⟨t, hexec, hsucceeded, hfiltered.border, fun x y hin => ⟨hfiltered.alpha hin,
    fun hgroup => channels_of_rgb_eq (hfiltered.channels_inFullGroup hin hgroup),
    fun hgroup => channels_of_rgb_eq (hfiltered.channels_elsewhere hin hgroup)⟩⟩

/-- Settles O44: the vector rule is within 1 of the scalar one, and outside full groups the scalar rule itself stands. -/
theorem filterConsequences : Obligations.FilterConsequences := by
  unfold Obligations.FilterConsequences
  intro i s t kern hn h hlaunch hfoot hblur hexec
  obtain ⟨f, hf⟩ := exists_filterOf hn
  have hkern := fun hi => (hblur hi).2
  obtain ⟨k, hk⟩ := hf.exists_kernel hkern s.freeCount
  have hpass : ChecksPass i s := ⟨hlaunch, fun hi => ⟨(hblur hi).1, Option.ne_none_iff_exists'.2 ⟨kern, hkern hi⟩⟩⟩
  obtain ⟨u, hu, -, hfiltered⟩ := exec_filter hf h hpass hfoot hk
  rw [hexec] at hu
  cases hu
  rw [← hf.radius_eq]
  refine ⟨hfiltered.border, fun x y hin => ?_⟩
  dsimp only
  rw [← hf.rgb_scalar hkern hk]
  obtain ⟨v, hv⟩ := hfiltered.channels hin
  obtain ⟨hr, hg, hb⟩ := hf.rgb_withinOne (c := s.cfg) hk (length_imageWindow s.latch.regs s.mem (f.radius s.latch.regs) x y) v
  rw [← hv] at hr hg hb
  refine ⟨hfiltered.alpha hin, hr, hg, hb, fun hgroup => channels_of_rgb_eq (hfiltered.channels_elsewhere hin hgroup), ?_⟩
  rintro rfl
  cases hf
  exact hfiltered.grey_of_emboss hin

/-- Settles O45: with radius 0 every pixel is interior, its window is itself, and the one weight is 1.0. -/
theorem blurOfRadiusZeroIsTheIdentity : Obligations.BlurOfRadiusZeroIsTheIdentity := by
  unfold Obligations.BlurOfRadiusZeroIsTheIdentity
  intro s kern h hlaunch hparams hfoot hradius hk
  have hzero : s.latch.regs.blurRadius = 0 := by
    unfold HostRegs.blurRadius HostRegs.radiusInt
    rw [hradius]
    rfl
  obtain rfl := gaussKernel_radius_zero hk
  have hkern : gaussKernel s.cfg s.latch.regs.blurRadius s.latch.regs.sigma = some ⟨0, [f1]⟩ := by rw [hzero, hk]
  obtain ⟨t, hexec, hsucceeded, hfiltered⟩ := exec_filter .blur h (checksPass_blur hlaunch hparams hkern) hfoot hkern
  have hok : t.status.ok = true := by rw [hsucceeded.status]
  have hpixels : ∀ x < s.latch.regs.width, ∀ y < s.latch.regs.height,
      imagePixel s.latch.regs t.mem x y = imagePixel s.latch.regs s.mem x y := fun x hx y hy =>
    hfiltered.blur_radius_zero hzero hx hy
  exact ⟨rfl, t, hexec, hok, ext_of_image hsucceeded.memory h.memory hpixels hfiltered.border.2⟩

end Sys2Proof
end

section
/-! PROOFS. The converter `YUV2RGBA` (44_yuv.md): each destination pixel holds the conversion of its three samples at acceptance and no
other byte has changed, so what R229 says of the destination are facts about that conversion. -/

namespace Sys2Proof.Machine

/-! ### The conversion of one pixel -/

/-- R225 with the floor of R151 written as the quotient. -/
theorem scalYuv_eq (yv uv vv : Byte) :
    scalYuv yv uv vv =
      (let c : Int := yv.toNat - 16
       let d : Int := uv.toNat - 128
       let e : Int := vv.toNat - 128
       ⟨clamp ((298 * c + 409 * e + 128) / 256), clamp ((298 * c - 100 * d - 208 * e + 128) / 256),
        clamp ((298 * c + 516 * d + 128) / 256), 255⟩) := rfl

/-- Grey chroma leaves the luma term alone in all three channels (R229 (d)). -/
theorem scalYuv_grey (yv : Byte) :
    scalYuv yv 128 128 = (let l := clamp ((298 * (yv.toNat - 16 : Int) + 128) / 256); ⟨l, l, l, 255⟩) := by
  have hgrey : ((128 : Byte).toNat : Int) - 128 = 0 := by decide
  simp only [scalYuv_eq, hgrey, mul_zero, add_zero, sub_zero]

section ConvertedPixel

variable {g g' : HostRegs} {m m' : Memory}

theorem convertedPixel_alpha (p : Nat × Nat) : (convertedPixel g m p).a = 255 := rfl

/-- A converted pixel depends on the bytes at its sample addresses alone (R229 (a)). -/
theorem convertedPixel_congr {p : Nat × Nat} (haddrs : sampleAddrs g' p.1 p.2 = sampleAddrs g p.1 p.2)
    (hread : ∀ a ∈ sampleAddrs g p.1 p.2, m'.read a = m.read a) : convertedPixel g' m' p = convertedPixel g m p := by
  simp only [sampleAddrs, List.cons.injEq, and_true] at haddrs
  simp only [sampleAddrs, List.forall_mem_cons, List.not_mem_nil, false_imp_iff, implies_true, and_true] at hread
  obtain ⟨haddrY, haddrU, haddrV⟩ := haddrs
  obtain ⟨hy, hu, hv⟩ := hread
  simp only [convertedPixel, haddrY, haddrU, haddrV, hy, hu, hv]

/-- The two pixels over one chroma sample differ only through their luma (R229 (c)). -/
theorem convertedPixel_pair {n y : Nat} (hluma : m.read (addrY g (2 * n) y) = m.read (addrY g (2 * n + 1) y)) :
    convertedPixel g m (2 * n, y) = convertedPixel g m (2 * n + 1, y) := by
  have hchroma : 2 * n / 2 = (2 * n + 1) / 2 := by omega
  simp only [convertedPixel, hluma, hchroma]

end ConvertedPixel

/-! ### The converter from acceptance to its end -/

/-- Memory `m` holds in the place of each pixel the conversion of its samples in `m0`, and each byte of no pixel as `m0` does (R223). -/
structure ImageConverted (g : HostRegs) (m0 m : Memory) : Prop where
  pixels : ∀ x < g.width, ∀ y < g.height, imagePixel g m x y = convertedPixel g m0 (x, y)
  others : ∀ a, OffImage g a → m.read a = m0.read a

section Run

variable {hint : Bool} {s t : State}

/-- A converter launch under the premises of R281 ends in success, with its results in memory and the private stores as before. -/
theorem exec_converter (h : Accepted s) (hlaunch : Launchable (.yuv2rgba hint) s) (hfoot : FootprintIn (.yuv2rgba hint) s)
    (hdisjoint : PlanesDisjoint s.latch.regs) :
    ∃ t, exec (.yuv2rgba hint) s = .next t ∧ Succeeded (hint && wide s.cfg) (hint && !wide s.cfg) s t ∧ StoresKept s t ∧
      ImageConverted s.latch.regs s.mem t.mem := by
  have hpass : ChecksPass (.yuv2rgba hint) s := checksPass_of_not_blur nofun hlaunch
  have hS := hpass.rowsFit
  have hoverlap : planesOverlap s.latch.regs = false := (planesDisjoint_iff _).1 hdisjoint
  rcases direct_run (yuvDirect hint s.cfg s.latch.regs s.kernel s.mem hS) h hpass.firstFailure_eq_none rfl with
    ⟨-, last, heq, frame, status, noPool, kernel, out, final⟩ | ⟨hnot, -⟩
  · have hexec : exec (.yuv2rgba hint) s = .next (endSuccess (yuvCommand hint) last) :=
      (exec_of_accepted (i := .yuv2rgba hint) h (.inl hoverlap)).trans (congrArg _ heq)
    refine ⟨_, hexec, succeeded_of frame status noPool final.wf, ⟨kernel, out⟩, fun x hx y hy => ?_, fun a ha => ?_⟩
    · exact final.written hoverlap (x, y) (mem_pixelCoords.2 ⟨hx, hy⟩)
    · exact final.others a ((offImage_iff hS a).1 ha)
  · exact absurd ((yuv_laneAdm_iff hS).2 hfoot) hnot

theorem imageConverted_of_exec (h : Accepted s) (hlaunch : Launchable (.yuv2rgba hint) s) (hfoot : FootprintIn (.yuv2rgba hint) s)
    (hdisjoint : PlanesDisjoint s.latch.regs) (hexec : exec (.yuv2rgba hint) s = .next t) :
    ImageConverted s.latch.regs s.mem t.mem := by
  obtain ⟨u, hu, -, -, hconverted⟩ := exec_converter h hlaunch hfoot hdisjoint
  rw [hexec] at hu
  cases hu
  exact hconverted

end Run

end Sys2Proof.Machine

namespace Sys2Proof

open Machine

/-- Settles O32: the run puts the conversion of its samples in the place of each pixel, and with the addresses of R72 written out that is
the formula of R225. -/
theorem converterResult : Obligations.ConverterResult := by
  unfold Obligations.ConverterResult
  intro hint s h hlaunch hfoot hdisjoint
  obtain ⟨t, hexec, hsucceeded, hstores, hconverted⟩ := exec_converter h hlaunch hfoot hdisjoint
  refine ⟨t, hexec, hsucceeded, hstores, fun x hx y hy => ?_, hconverted.others⟩
  simp only [hconverted.pixels x hx y hy, convertedPixel, scalYuv_eq, addrY, addrU, addrV]

/-- Settles O43: every engine's destination holds the conversion of the same samples, and (b) to (d) are facts about that conversion. -/
theorem converterConsequences : Obligations.ConverterConsequences := by
  unfold Obligations.ConverterConsequences
  intro hint s t h hlaunch hfoot hdisjoint hexec
  have hconverted := imageConverted_of_exec h hlaunch hfoot hdisjoint hexec
  refine ⟨fun hint' s' t' h' hlaunch' hfoot' hdisjoint' hwidth hheight haddrs hread hexec' x hx y hy => ?_, fun x hx y hy => ?_,
    fun n hn y hy hluma => ?_, fun x hx y hy hu hv => ?_⟩
  · have hconverted' := imageConverted_of_exec h' hlaunch' hfoot' hdisjoint' hexec'
    have hx' : x < s'.latch.regs.width := hx.trans_eq (congrArg BitVec.toNat hwidth.symm)
    have hy' : y < s'.latch.regs.height := hy.trans_eq (congrArg BitVec.toNat hheight.symm)
    rw [hconverted.pixels x hx y hy, hconverted'.pixels x hx' y hy']
    exact convertedPixel_congr (haddrs x y) (hread x hx y hy)
  · rw [hconverted.pixels x hx y hy, convertedPixel_alpha]
  · rw [hconverted.pixels _ (by omega) y hy, hconverted.pixels _ hn y hy, convertedPixel_pair hluma]
  · rw [hconverted.pixels x hx y hy, convertedPixel, hu, hv, scalYuv_grey]

end Sys2Proof
end

section
/-! PROOFS. The exceptions (60_exceptions.md): which command can end with `BadParameter` and how (R192, R193, R244), and the step of an
access fault with the engine it leaves (R245, R246). -/

namespace Sys2Proof.Machine

/-! ### `BadParameter` (R244) -/

/-- The parameter check is the last one of `VALIDATE` (R115). -/
theorem paramsOk_eq_false_of_badParameter {k : Command} {c : Cfg} {g : HostRegs} (h : firstFailure k c g = some .badParameter) :
    k.paramsOk c g = false := by
  unfold firstFailure at h
  split at h
  · cases h
  · split at h
    · cases h
    · split at h
      · next hparams => simpa using hparams
      · cases h

/-- Only `BLUR` has parameters to check (R193). -/
theorem firstFailure_ne_badParameter {i : Instr} (hi : i ≠ .blur) (c : Cfg) (g : HostRegs) :
    firstFailure (commandOf i) c g ≠ some .badParameter := fun h => by
  have hok : (commandOf i).paramsOk c g = true := (paramsOk_iff i c g).2 fun hblur => absurd hblur hi
  rw [paramsOk_eq_false_of_badParameter h] at hok
  cases hok

/-- A bad radius or sigma fails the parameter check (R193). -/
theorem firstFailure_blur {s : State} (hlaunch : Launchable .blur s) (hparams : ¬ BlurParams s.cfg s.latch.regs) :
    firstFailure blurCommand s.cfg s.latch.regs = some .badParameter := by
  obtain ⟨hformat, hfits⟩ := hlaunch
  have hbad : blurCommand.paramsOk s.cfg s.latch.regs = false := by
    rw [← Bool.not_eq_true]
    exact fun hok => hparams ((paramsOk_iff .blur _ _).1 hok rfl)
  exact firstFailure_parameter hformat ((descriptorOk_iff .blur _ _).2 hfits) hbad

/-- The kernel is refused exactly for the sum of its weights (R192). -/
theorem gaussKernel_eq_none_iff {c : Cfg} {r : Nat} {sigma : F32} :
    gaussKernel c r sigma = none ↔
      ¬ (fIsFinite ((gaussWeights c r sigma).foldl fadd f0) = true ∧ fIsPositive ((gaussWeights c r sigma).foldl fadd f0) = true) := by
  simp only [gaussKernel, ite_eq_right_iff, Bool.and_eq_true, reduceCtorEq, imp_false]

/-- How a command that passes its checks ends shows no error but the fatal fault (R135, R246). -/
theorem Ending.err {i : Instr} {s t : State} (h : Ending i s t) : t.status.err = .none ∨ t.status.err = .fatalConcurrencyFault := by
  cases h with
  | success _ _ _ _ _ _ _ eq => exact .inl (eq ▸ rfl)
  | fatal _ _ _ _ _ eq => exact .inr (eq ▸ rfl)

/-- No run of another command than `BLUR` ends with `BadParameter`. -/
theorem runCommand_err_ne_badParameter {i : Instr} {s : State} (h : Accepted s) (hi : i ≠ .blur) :
    (runCommand (commandOf i) s).status.err ≠ .badParameter := by
  cases hf : firstFailure (commandOf i) s.cfg s.latch.regs with
  | some e =>
    rw [runCommand_fails h hf]
    rintro rfl
    exact firstFailure_ne_badParameter hi _ _ hf
  | none =>
    have hpass : ChecksPass i s := checksPass_of_not_blur hi ((firstFailure_eq_none_iff i s).1 hf).1
    rcases (runCommand_ending h hpass).err with herr | herr <;> simp [herr]

/-! ### The engine in `HALTED` (R246) -/

/-- In `HALTED` no agent of CFE has a step. -/
theorem Inv.enabledAgents_of_halted {s : State} (h : Inv s) (hp : s.phase = .halted) : enabledAgents s = [] := by
  have hpool := h.noPool_of (by rw [hp]; nofun) (by rw [hp]; nofun)
  simp [enabledAgents, seqEnabled, hp, hpool.workers]

/-- Of the host's moves only the reset leaves `HALTED`. -/
theorem HostEffect.halted {s t : State} (h : HostEffect s t) (hp : s.phase = .halted) :
    t.phase = .halted ∨ ∃ q, s.hostQ = .reset :: q := by
  cases h with
  | rings _ _ _ _ idle => simp [hp] at idle
  | resets q move => exact .inr ⟨q, move⟩
  | _ => subst_vars; exact .inl hp

theorem step_of_halted {s t : State} (hp : s.phase = .halted) (h : step s = .next t) :
    t.phase = .halted ∨ ∃ q, s.hostQ = .reset :: q := by
  rw [step_of_hostMovesNext (.inl (by rw [hp]; rfl))] at h
  exact (hostMove_effect h).halted hp

/-! ### The step of an access fault (R245, R246) -/

theorem runOn_of_error {k : Command} {it : Item} {fin : State → State} {s : State} {f : AccessFault}
    (h : k.runItem s.cfg s.latch.regs s.kernel it s.mem s.out = .error f) : runOn k it fin s = takeFatalFault (cutBytes k s) s := by
  simp only [runOn, h]

/-- The copy-back of a pixel the policy writes, at an inadmissible byte (R206, R207). -/
theorem copyBackStep_of_error {k : Command} {s : State} {o : OutPixel} {f : AccessFault} (hx : s.cursor.item < s.latch.regs.width)
    (hy : s.cursor.unit < s.latch.regs.height)
    (ho : s.out.getD (s.cursor.unit * s.latch.regs.width + s.cursor.item) ⟨Pixel.zero, false⟩ = o)
    (hset : s.cfg.borderPolicy = .zero ∨ o.set = true)
    (hw : pixWrite s.cfg s.latch.regs s.mem s.cursor.item s.cursor.unit o.px = .error f) :
    copyBackStep k s = takeFatalFault (cutBytes k s) s := by
  have hmore : ¬ (s.latch.regs.width = 0 ∨ s.latch.regs.height ≤ s.cursor.unit) := by omega
  simp only [copyBackStep, ho, hw, if_neg hmore, if_pos hset]

/-- A `BLUR` whose kernel is refused would write nothing, so a command past its checks that would write some byte passes them all (R80,
R192). -/
theorem WouldWrite.checksPass {i : Instr} {s : State} {a : Nat} {b : Byte} (h : WouldWrite i s a b)
    (hf : firstFailure (commandOf i) s.cfg s.latch.regs = none) : ChecksPass i s := by
  cases hk : (commandOf i).kernel s.cfg s.latch.regs s.freeCount s.kernel with
  | some kern => exact checksPass_of_some hf hk
  | none =>
    obtain ⟨rfl, hnone⟩ := (kernel_eq_none_iff i s).1 hk
    obtain ⟨x, -, y, -, px, hpx, -⟩ := h
    simp [commandOf, blurCommand, filterCommand, blurFilter, hnone] at hpx

end Sys2Proof.Machine

namespace Sys2Proof

open Machine

/-- Settles O19: the two ways `BLUR` fails closed on its parameters; another command has none to fail on, and once past its checks ends
without error or in the fatal fault; each failure of `VALIDATE` writes `STATUS` before any path is selected. -/
theorem badParameterIsBlurs : Obligations.BadParameterIsBlurs := by
  unfold Obligations.BadParameterIsBlurs
  refine ⟨fun s h hlaunch hparams => ?_, fun s h hlaunch hparams hsum => ?_, fun i s t h hi hexec => ?_, fun s h hchecks => ?_⟩
  · rw [exec_of_accepted h (.inl rfl)]
    exact congrArg _ (runCommand_fails h (firstFailure_blur hlaunch hparams))
  · have hf : firstFailure (commandOf .blur) s.cfg s.latch.regs = none :=
      (firstFailure_eq_none_iff .blur s).2 ⟨hlaunch, fun _ => hparams⟩
    rw [exec_of_accepted h (.inl rfl)]
    exact congrArg _ (runCommand_kernel_refused h hf ((kernel_eq_none_iff .blur s).2 ⟨rfl, gaussKernel_eq_none_iff.2 hsum⟩))
  · rw [exec_next hexec]
    exact runCommand_err_ne_badParameter h hi
  · cases hdec : decode s.latch.cmd with
    | none => exact ⟨_, step_of_illegalWord h (decode_eq_none_iff.1 hdec), rfl, nofun, rfl, rfl⟩
    | some i =>
      have hne : firstFailure (commandOf i) s.cfg s.latch.regs ≠ none := fun hf => hchecks i hdec ((firstFailure_eq_none_iff i s).1 hf)
      obtain ⟨e, he⟩ := Option.ne_none_iff_exists'.1 hne
      exact ⟨_, step_of_firstFailure h hdec he, rfl, (firstFailure_code he).1, rfl, rfl⟩

/-- Settles O35: the fault of an item and that of the copy-back are one step, which keeps the invariant and cuts the write footprint. -/
theorem accessFaultHalts : Obligations.AccessFaultHalts := by
  unfold Obligations.AccessFaultHalts
  intro i s t hinv hactive hpast hfault
  obtain rfl : t = takeFatalFault (cutBytes (commandOf i) s) s := by
    rcases hfault with ⟨it, fin, f, hrun, rfl⟩ | ⟨-, hx, hy, ⟨px, set, f, ho, hset, hw⟩, rfl⟩
    · exact runOn_of_error hrun
    · exact copyBackStep_of_error hx hy ho hset hw
  have hhalted : Inv (takeFatalFault (cutBytes (commandOf i) s) s) := inv_takeFatalFault hinv hactive _
  obtain ⟨hbusy, hdone, -⟩ := hhalted.fatal rfl
  refine ⟨rfl, hbusy, hdone, hhalted.enabledAgents_of_halted rfl, fun u => step_of_halted rfl, fun a ha => ?_, ?_⟩
  · exact cutFootprint_other hinv.memory ha
  · intro hdisjoint a b hadm hww
    exact cutFootprint_written hinv.memory (hww.checksPass hpast.checked) (overlaps_of_planesDisjoint hdisjoint) hww hadm

end Sys2Proof
end

section
/-! PROOFS. The reset and the hazards (70_reset_and_hazards.md): the reset event and the footprint it cuts (R270), the engine on its reset
registers (R271), and the launch premises whose breach is refused (R281). -/

namespace Sys2Proof.Machine

/-! ### The reset event (R270) -/

/-- The step in which the host resets the engine. -/
theorem step_of_reset_event {s : State} {q : List HostMove} (hnext : HostMovesNext s) (hq : s.hostQ = .reset :: q) :
    step s = .next (resetEvent (runningCut s) { s with hostQ := q, sched := schedAfterHost s }) := by
  rw [step_of_hostMovesNext hnext]
  simp only [hostMove, hq]
  rfl

theorem runningCut_of_decoded {s : State} {i : Instr} (ha : s.phase.active = true) (hdec : decode s.latch.cmd = some i) :
    runningCut s = cutBytes (commandOf i) s := by
  simp [runningCut, ha, hdec]

/-- A running word that is no command has no footprint. -/
theorem runningCut_of_illegal {s : State} (hdec : decode s.latch.cmd = none) : runningCut s = [] := by
  simp [runningCut, hdec]

/-- A byte outside the write footprint of the running command is as it was. -/
theorem cutFootprint_runningCut_other {s : State} (hwf : s.mem.wf = true) {a : Nat}
    (h : s.phase.active = true → ∀ i, decode s.latch.cmd = some i → ¬ InWriteFootprint i s a) :
    (cutFootprint s (runningCut s)).read a = s.mem.read a := by
  cases ha : s.phase.active with
  | false =>
    rw [runningCut_of_not_active ha]
    rfl
  | true =>
    cases hdec : decode s.latch.cmd with
    | none =>
      rw [runningCut_of_illegal hdec]
      rfl
    | some i =>
      rw [runningCut_of_decoded ha hdec]
      exact cutFootprint_other hwf (h ha i hdec)

/-! ### Failing closed (R136, R271) -/

/-- What an accepted command answers when a check of `VALIDATE` fails. -/
theorem exec_of_firstFailure {i : Instr} {s : State} {e : ErrCode} (h : Accepted s)
    (hf : firstFailure (commandOf i) s.cfg s.latch.regs = some e) : exec i s = .next (failedClosed e false 1 s) := by
  have hfails : failsClosed (commandOf i) s = true := by simp [failsClosed, hf]
  rw [exec_of_accepted h (.inr hfails), runCommand_fails h hf]

/-- A read of a register right after reset (R271). -/
theorem step_of_read_at_reset (off : Nat) (q : List HostMove) :
    step { State.reset with hostQ := .rd off :: q } =
      .next { State.reset with hostQ := q, lastRead := readOffset State.reset off } :=
  step_of_read (.inl rfl) rfl

/-! ### Exclusive access (R281 premise 1) -/

/-- A command that fails closed has no footprint (R80). -/
theorem inRunningFootprint_of_not_checksPass {s : State} {i : Instr} (hdec : decode s.latch.cmd = some i) (h : ¬ ChecksPass i s) (a : Nat) :
    inRunningFootprint s a = false := by
  have hfails : failsClosed (commandOf i) s = true := by
    rw [← Bool.not_eq_false, failsClosed_eq_false_iff]
    exact h
  simp [inRunningFootprint, hdec, hfails]

theorem hostAccess_of_inRunningFootprint {s : State} {a : Nat} {f : State → State} (h : inRunningFootprint s a = true) :
    hostAccess a f s = .refused (.exclusiveAccessBroken a) := if_pos h

theorem hostAccess_of_not_admissible {s : State} {a : Nat} {f : State → State} (hfoot : inRunningFootprint s a = false)
    (hadm : admissible s.cfg a = false) : hostAccess a f s = .fault (.hostNoMemory a) := by
  simp [hostAccess, hfoot, hadm]

/-- A load and a store are one access, and differ in what they do to the state. -/
theorem step_of_access {s : State} {a : Nat} {move : HostMove} {q : List HostMove} (hnext : HostMovesNext s) (hq : s.hostQ = move :: q)
    (hmove : move = .load a ∨ ∃ b, move = .store a b) :
    ∃ f, step s = hostAccess a f { s with hostQ := q, sched := schedAfterHost s } := by
  rcases hmove with rfl | ⟨b, rfl⟩
  · exact ⟨_, step_of_load hnext hq⟩
  · exact ⟨_, step_of_store hnext hq⟩

/-! ### Memory that disappears (R281 premise 2) -/

/-- The two parts of a region around a gap are what the gap leaves of it. -/
theorem any_regionWithout_iff (gone m : MemRegion) (a : Nat) :
    (regionWithout gone m).any (fun r => r.base ≤ a && a < r.base + r.size) = true ↔
      (m.base ≤ a ∧ a < m.base + m.size) ∧ ¬ (gone.base ≤ a ∧ a < gone.base + gone.size) := by
  simp only [regionWithout, List.any_cons, List.any_nil, Bool.or_false, Bool.or_eq_true, Bool.and_eq_true, decide_eq_true_eq]
  omega

theorem memValid_unmapMemory_iff (gone : MemRegion) (c : Cfg) (a : Nat) :
    memValid (unmapMemory gone c) a = true ↔ memValid c a = true ∧ ¬ (gone.base ≤ a ∧ a < gone.base + gone.size) := by
  simp only [memValid, unmapMemory, List.any_flatMap, List.any_eq_true (l := c.memMap), any_regionWithout_iff, Bool.and_eq_true,
    decide_eq_true_eq, ← and_assoc, exists_and_right]

theorem admissible_unmapMemory_iff (gone : MemRegion) (c : Cfg) (a : Nat) :
    admissible (unmapMemory gone c) a = true ↔ admissible c a = true ∧ ¬ (gone.base ≤ a ∧ a < gone.base + gone.size) := by
  simp only [admissible, Bool.and_eq_true, memValid_unmapMemory_iff, and_assoc]

/-- The step in which the host unmaps memory. -/
theorem step_of_unmap {s : State} {gone : MemRegion} {q : List HostMove} (hnext : HostMovesNext s) (hq : s.hostQ = .unmap gone :: q) :
    step s = .next { s with hostQ := q, sched := schedAfterHost s, cfg := unmapMemory gone s.cfg } := by
  rw [step_of_hostMovesNext hnext]
  simp only [hostMove, hq]

/-! ### The two refusals of a launch (R281 premises 2 and 4) -/

theorem exec_of_overlap {i : Instr} {s : State} (ho : (commandOf i).overlaps s.latch.regs = true) (hpass : ChecksPass i s) :
    exec i s = .refused .destinationOverlapsPlanes := by
  rw [exec_eq, commandOutcome, ho, (failsClosed_eq_false_iff i s).2 hpass]
  rfl

theorem exec_of_disappeared {i : Instr} {s : State} (ho : (commandOf i).overlaps s.latch.regs = false)
    (hends : endsUnmapped (commandOf i) s (runCommand (commandOf i) s) = true) : exec i s = .refused .footprintDisappeared := by
  rw [exec_eq, commandOutcome, ho, hends]
  rfl

/-- A run that ends in success although its footprint is not in memory (log 16). -/
theorem endsUnmapped_of_not_footprintIn {i : Instr} {s t : State} (ha : s.phase.active = true) (hidle : t.phase = .idle)
    (hok : t.status.ok = true) (hfoot : ¬ FootprintIn i s) : endsUnmapped (commandOf i) s t = true := by
  rw [← footprintMapped_iff, Bool.not_eq_true] at hfoot
  simp [endsUnmapped, ha, hidle, hok, hfoot]

end Sys2Proof.Machine

namespace Sys2Proof

open Machine

/-- Settles O16: the step is the reset event, which cuts the write footprint of the running command, and no other move of the host leaves
`HALTED`. -/
theorem resetEvent : Obligations.ResetEvent := by
  unfold Obligations.ResetEvent
  refine ⟨fun s q hinv hnext hq => ?_, fun s t _ => step_of_halted⟩
  refine ⟨_, step_of_reset_event hnext hq, toWord_cleared, fun off => readOffset_of_regs_zero rfl, rfl, rfl, rfl, rfl,
    fun a => cutFootprint_runningCut_other hinv.memory, fun i a b ha hdec hpass hdisjoint hadm hww => ?_⟩
  rw [runningCut_of_decoded ha hdec]
  exact cutFootprint_written hinv.memory hpass (overlaps_of_planesDisjoint hdisjoint) hww hadm

/-- Settles O33: the overlap of the model is the negation of premise 4, and it refuses only a launch that passes its checks. -/
theorem overlappingConverterIsRefused : Obligations.OverlappingConverterIsRefused := by
  unfold Obligations.OverlappingConverterIsRefused
  refine fun hint s => ⟨fun hpass hoverlap => ?_, fun h hfine => ⟨_, exec_of_accepted h ?_⟩⟩
  · rw [planesDisjoint_iff, Bool.not_eq_false] at hoverlap
    exact exec_of_overlap hoverlap hpass
  · exact not_overlap_refused fun _ _ hpass => hfine.resolve_left (not_not_intro hpass)

/-- Settles O60: the unmapped region is cut out of each region of the memory map, and a run is refused for its footprint exactly when it
ends in success with a byte of it outside the map. -/
theorem unmappedMemoryIsInadmissible : Obligations.UnmappedMemoryIsInadmissible := by
  unfold Obligations.UnmappedMemoryIsInadmissible
  refine ⟨fun s gone q hnext hq => ⟨_, step_of_unmap hnext hq, rfl, admissible_unmapMemory_iff gone s.cfg⟩, fun i s hdisjoint => ?_⟩
  have hoverlap := overlaps_of_planesDisjoint hdisjoint
  refine ⟨fun ha hidle hok hfoot => ?_, fun hfoot => ⟨_, exec_run (.inl hoverlap) (endsUnmapped_of_footprintIn hfoot)⟩⟩
  exact exec_of_disappeared hoverlap (endsUnmapped_of_not_footprintIn ha hidle hok hfoot)

/-- Settles O17: the reset registers fail the format check, the reset `SIGMA` is not positive, and a read of the idle engine has no side
effect. -/
theorem resetDescriptorFailsClosed : Obligations.ResetDescriptorFailsClosed := by
  unfold Obligations.ResetDescriptorFailsClosed
  refine ⟨fun i s h hregs => ?_, fun s h hlaunch hsigma => ?_, fun q => ⟨?_, step_of_read_at_reset 0x08 q⟩⟩
  · have hformat : s.latch.regs.pbFormat ≠ 1 := by
      rw [hregs]
      decide
    exact exec_of_firstFailure h (firstFailure_format hformat)
  · have hparams : ¬ BlurParams s.cfg s.latch.regs := by
      rintro ⟨-, hpositive, -⟩
      rw [hsigma] at hpositive
      exact absurd hpositive (by decide)
    exact exec_of_firstFailure h (firstFailure_blur hlaunch hparams)
  · have hread : readOffset State.reset 0x04 = 0 := toWord_cleared
    rw [step_of_read_at_reset, hread]

/-- Settles O57: a load or store is one access, of which the footprint, and where no footprint is the memory map, decides. -/
theorem hostAccessStops : Obligations.HostAccessStops := by
  unfold Obligations.HostAccessStops
  intro s a q hnext
  refine ⟨fun move hq hmove => ?_, fun hfoot hadm => ⟨fun b hq => ?_, fun hq => ?_⟩, fun i hdec hpass => ?_⟩
  · obtain ⟨f, hstep⟩ := step_of_access hnext hq hmove
    rw [hstep]
    exact ⟨fun hfoot => hostAccess_of_inRunningFootprint hfoot, fun hfoot hadm => hostAccess_of_not_admissible hfoot hadm⟩
  · rw [step_of_store hnext hq]
    exact hostAccess_of_admissible (s := { s with hostQ := q, sched := schedAfterHost s }) hfoot hadm _
  · rw [step_of_load hnext hq]
    exact hostAccess_of_admissible (s := { s with hostQ := q, sched := schedAfterHost s }) hfoot hadm _
  · exact inRunningFootprint_of_not_checksPass hdec hpass a

end Sys2Proof
end
